-- ==== Sys2Proof/Word.lean ====
section
/-! DEFINITION. The words of the machine: bytes of buffer memory and of the wire (R7, R61), 32-bit host registers (R20). -/

namespace Sys2Proof

/-- A byte, 0..255 (R7). -/
abbrev Byte := BitVec 8

/-- A 32-bit host register's value (R20), also a 32-bit wire field. -/
abbrev Word := BitVec 32

/-- A 64-bit quantity: an address or the content size (R25, R106). -/
abbrev DWord := BitVec 64

end Sys2Proof
end

