-- ==== Sys2Proof/Config.lean ====
section
/-! DEFINITION. The fixed quantities of R6, its parameters without a register (AW, BM_SIZE), the finder policy (R141, U4), the
opaque checksum function (R231) and the free values (`draw`, R9). -/

namespace Sys2Proof

/-- MINMATCH (R6): the shortest match. -/
abbrev Config.minMatch : Nat := 4
/-- WINDOW (R6): the greatest match offset. -/
abbrev Config.window : Nat := 65535
/-- LASTLITERALS (R6): the bytes at a block's end that stay literal. -/
abbrev Config.lastLiterals : Nat := 5
/-- MINLENGTH (R6): the shortest input on which matches are attempted. -/
abbrev Config.minLength : Nat := 13
/-- MFLIMIT (R6): a match starts at least this many bytes before the block end (reference algorithm). -/
abbrev Config.mfLimit : Nat := 12
/-- LEN_MAX (R6): the greatest buffer or scalar length. -/
abbrev Config.lenMax : Nat := 2147483647
/-- MAGIC (R6, R102). -/
abbrev Config.magic : Nat := 0x184D2204
/-- The length at which the encoder's failure counter saturates (R34). -/
abbrev Config.failsMax : Nat := 4294967295
/-- A stream of this many content bytes or more is not modelled (R34, U19). -/
abbrev Config.streamMax : Nat := 18446744073709551616

/-- `hash32` (R3, R8, R231): an opaque total function from byte strings to 32-bit values. -/
opaque Config.hash32 : List Byte → Word

/-- `draw` for a byte (R9, R45): the n-th free byte. -/
opaque Config.freeByte : Nat → Byte

/-- `draw` for a register load while BUSY (R280): the n-th free word. -/
opaque Config.freeWord : Nat → Word

/-- AW (R6): the buffer memory's address width, 32 or 64. -/
inductive AddrWidth where
  | aw32
  | aw64
  deriving DecidableEq, Repr

/-- 2^AW. -/
def AddrWidth.space : AddrWidth → Nat
  | .aw32 => 4294967296
  | .aw64 => 18446744073709551616

/-! ### The finder policy (R141, U4; log entry 8) -/

/-- What a finder policy sees when it visits a position: the history, the block's limits and tunables, the variant LEVEL chose,
the encoder's state and the tables. -/
structure FinderView where
  /-- `H` -/
  hist : List Byte
  /-- `P0` -/
  p0 : Nat
  /-- `matchlimit` -/
  matchlimit : Nat
  /-- `L` -/
  bits : Nat
  /-- HASH_MULT -/
  mult : Word
  /-- HC_OPT_LEN -/
  optLen : Nat
  /-- HC_MAX_ATTEMPTS -/
  maxAttempts : Nat
  /-- SKIP_STRENGTH -/
  skipStrength : Nat
  /-- SKIP_CEIL -/
  skipCeil : Nat
  /-- `A` in a fast variant -/
  accel : Option Nat
  /-- the clamped level in the high-ratio variant -/
  level : Option Int
  /-- `cur` -/
  cur : Nat
  /-- `anchor` -/
  anchor : Nat
  /-- `fails` -/
  fails : Nat
  /-- `out` -/
  out : List Byte
  /-- HT -/
  ht : List (Nat × Nat)
  /-- CH -/
  ch : List (Nat × List Nat)
  deriving DecidableEq, Repr

/-- What a finder policy answers: none or a match, "plus a next cursor" (R141), and the positions it inserts into the tables. -/
structure FinderAnswer where
  /-- offset and length -/
  found : Option (Nat × Nat)
  /-- the next cursor -/
  next : Nat
  /-- positions to insert, in order -/
  inserted : List Nat
  deriving DecidableEq, Repr, Inhabited

/-- The finder policies other than the reference: the n-th, a function of which nothing is known (U4). -/
opaque Config.finderPolicy : Nat → FinderView → FinderAnswer

/-- The device's finder policy: "the reference algorithm is the default value of the parameter" (U4). -/
inductive FinderChoice where
  | reference
  | policy (n : Nat)
  deriving DecidableEq, Repr

/-- The parameters that have no register (R6, R43; the finder policy, U4); NW and NR are the lengths of State's context
lists. -/
structure Params where
  /-- AW -/
  addrWidth : AddrWidth
  /-- BM_SIZE -/
  bmSize : Nat
  /-- the finder policy -/
  finder : FinderChoice
  deriving DecidableEq, Repr

/-- R6's legal range: BM_SIZE ≤ 2^AW. -/
abbrev Params.legal (p : Params) : Prop := p.bmSize ≤ p.addrWidth.space

/-- The parameters State.reset takes: AW at its default 64 (R6), the finder policy at its default, the reference (U4); BM_SIZE,
which R6 gives no default, the whole address space.  DESIGN CHOICE (log entry 2), unsafe. -/
def Params.default : Params := { addrWidth := .aw64, bmSize := 18446744073709551616, finder := .reference }

end Sys2Proof
end

