-- ==== Sys2Proof/Syntax.lean ====
section
/-! DEFINITION. The instructions: one constructor per row of spec/opcode_table.json, in its order. -/

namespace Sys2Proof

/-- What LZ4C interprets: the wire elements of a compressed block (R90 to R100), the wire elements of a frame (R101 to R114)
and the command words (R117, R118). -/
inductive Instr where
  /-- TOKEN (R92): the first byte of a sequence, nibbles LLn and MLn. -/
  | token (t : Byte)
  /-- LLEXT (R93): one byte of a literal-length extension. -/
  | llext (v : Byte)
  /-- LITERALS (R95): the literal run. -/
  | literals (lit : List Byte)
  /-- OFFSET (R96): the match offset. -/
  | offset (off : BitVec 16)
  /-- MLEXT (R97): one byte of a match-length extension. -/
  | mlext (v : Byte)
  /-- SEQ (R91): a whole sequence with a match: literals, offset, match length. -/
  | seq (lit : List Byte) (off : BitVec 16) (ml : Nat)
  /-- LAST (R98): the last sequence of a block; `mln` is its token's low nibble, ignored on read and 0 on write (R116). -/
  | last (lit : List Byte) (mln : BitVec 4)
  /-- MAGIC (R102). -/
  | magic
  /-- FLG (R104), as read. -/
  | flg (b : Byte)
  /-- BD (R105), as read. -/
  | bd (b : Byte)
  /-- CSIZE (R106): the declared content size. -/
  | csize (v : DWord)
  /-- DICTID (R107): the dictionary id. -/
  | dictid (v : Word)
  /-- HC (R108): the header checksum. -/
  | hc (c : Byte)
  /-- BLKHDR (R110): RAW and SIZE. -/
  | blkhdr (raw : Bool) (size : BitVec 31)
  /-- PAYLOAD (R111): the block payload as stored. -/
  | payload (bytes : List Byte)
  /-- BLKSUM (R112): the block checksum. -/
  | blksum (sum : Word)
  /-- ENDMARK (R113). -/
  | endmark
  /-- CSUM (R114): the content checksum. -/
  | csum (sum : Word)
  /-- MAXLEN (R160). -/
  | maxlen
  /-- COMPRESS_BLOCK (R177). -/
  | compressBlock
  /-- DECOMPRESS_BLOCK (R204). -/
  | decompressBlock
  /-- OPEN_WRITER (R236). -/
  | openWriter
  /-- WRITE_FRAME (R238). -/
  | writeFrame
  /-- CLOSE_WRITER (R244). -/
  | closeWriter
  /-- OPEN_READER (R248). -/
  | openReader
  /-- READ_FRAME (R250). -/
  | readFrame
  /-- CLOSE_READER (R260). -/
  | closeReader
  /-- ILLEGAL_CMD (R273): every CMD value that is no command word. -/
  | illegalCmd (w : Word)
  deriving DecidableEq, Repr

/-- The nine command words of R118. -/
def Instr.commandWords : List Word := [0x01, 0x02, 0x03, 0x10, 0x11, 0x12, 0x20, 0x21, 0x22]

end Sys2Proof
end

