-- ==== Sys2Proof/WellFormed.lean ====
section
/-! DEFINITION. Which instruction terms stand for an encoding the spec calls legal. -/

namespace Sys2Proof

/-- FLG's legal pattern `01BKSC0D` (R104). -/
def flgLegal (b : Byte) : Bool := b &&& 0xC2#8 == 0x40#8

/-- BD's legal pattern `0MMM0000` with BSCLASS 4..7 (R105): the bytes 40, 50, 60, 70. -/
def bdLegal (b : Byte) : Bool := b &&& 0x8F#8 == 0#8 && b &&& 0x40#8 == 0x40#8

/-- A term is well formed when its encoding is legal: the offset is not 0 (R96, R115 row 1), a match is at least 4 long
(R97), FLG and BD have their legal patterns (R115 rows 7 to 9), a BLKHDR is not the ENDMARK word (R110), an illegal command
word is none of the nine (R118). -/
def Instr.wellFormed : Instr → Bool
  | .token _ => true
  | .llext _ => true
  | .literals _ => true
  | .offset off => off != 0#16
  | .mlext _ => true
  | .seq _ off ml => off != 0#16 && decide (Config.minMatch ≤ ml)
  | .last _ _ => true
  | .magic => true
  | .flg b => flgLegal b
  | .bd b => bdLegal b
  | .csize _ => true
  | .dictid _ => true
  | .hc _ => true
  | .blkhdr raw size => raw || size != 0#31
  | .payload _ => true
  | .blksum _ => true
  | .endmark => true
  | .csum _ => true
  | .maxlen => true
  | .compressBlock => true
  | .decompressBlock => true
  | .openWriter => true
  | .writeFrame => true
  | .closeWriter => true
  | .openReader => true
  | .readFrame => true
  | .closeReader => true
  | .illegalCmd w => !Instr.commandWords.contains w

end Sys2Proof
end

