-- ==== Sys2Proof/Decode.lean ====
section
/-! DEFINITION. The decoder (bytes at a position to an instruction, total, rejecting by name), the encoder, and the byte-order
and length-extension helpers both use. Decoding is positional (R121): the same byte is a TOKEN, an LLEXT or an HC by where it
stands, so the decoder is told the position. -/

namespace Sys2Proof

/-! ### Byte order (R8, R68) -/

/-- The number a byte string stands for, least significant byte first (`LE16`, `LE32`, `LE64` of R8). -/
def leNat : List Byte → Nat
  | [] => 0
  | b :: t => b.toNat + 256 * leNat t

/-- The `n` low bytes of `v`, least significant first (`le16`, `le32`, `le64` of R8). -/
def leBytes : Nat → Nat → List Byte
  | 0, _ => []
  | n + 1, v => BitVec.ofNat 8 v :: leBytes n (v / 256)

/-- `n` bytes read as one little-endian number, and the rest; nothing when fewer are left. -/
def takeLE (n : Nat) (bs : List Byte) : Option (Nat × List Byte) :=
  if bs.length < n then none else some (leNat (bs.take n), bs.drop n)

/-! ### Length extensions (R93, R94) -/

/-- The extension bytes at the front of `bs`: their sum and how many they are; nothing when the input ends before a byte
below 255 (R93). -/
def readExt : List Byte → Option (Nat × Nat)
  | [] => none
  | e :: t =>
    if e = 255#8 then
      match readExt t with
      | none => none
      | some (v, k) => some (255 + v, k + 1)
    else some (e.toNat, 1)

/-- `ReadLen` (R93): a nibble below 15 is the whole field; 15 is followed by extension bytes.  The value and the number of
extension bytes. -/
def readLen (nibble : Nat) (bs : List Byte) : Option (Nat × Nat) :=
  if nibble = 15 then
    match readExt bs with
    | none => none
    | some (v, k) => some (15 + v, k)
  else some (nibble, 0)

/-- `LenExt` (R94), for `v ≥ 15`. -/
def lenExt (v : Nat) : List Byte :=
  List.replicate ((v - 15) / 255) 255#8 ++ [BitVec.ofNat 8 ((v - 15) % 255)]

/-- The extension bytes of a length field: none below 15 (R94). -/
def lenField (v : Nat) : List Byte := if v < 15 then [] else lenExt v

/-! ### The token (R92) -/

/-- LLn, bits 7:4. -/
def tokenLL (t : Byte) : Nat := t.toNat / 16

/-- MLn, bits 3:0. -/
def tokenML (t : Byte) : Nat := t.toNat % 16

/-- The token of a sequence with `ll` literals and match-length field `m` (R163). -/
def makeToken (ll m : Nat) : Byte := BitVec.ofNat 8 (min ll 15 * 16 + min m 15)

/-- `EmitSeq` (R163). -/
def emitSeq (lit : List Byte) (off ml : Nat) : List Byte :=
  makeToken lit.length (ml - 4) ::
    (lenField lit.length ++ lit ++ leBytes 2 off ++ lenField (ml - 4))

/-- `EmitLast` (R164) with the low nibble of its token; the encoder emits 0 there (R116). -/
def emitLastWith (lit : List Byte) (mln : Nat) : List Byte :=
  makeToken lit.length mln :: (lenField lit.length ++ lit)

/-- `EmitLast` (R164). -/
def emitLast (lit : List Byte) : List Byte := emitLastWith lit 0

/-! ### The decoder -/

/-- Where in the wire data, or in the register interface, the next element stands (R121). -/
inductive DecodeAt where
  /-- a sequence boundary, read one element at a time -/
  | token
  | llext
  /-- the literal run of the given length -/
  | literals (n : Nat)
  | offset
  | mlext
  /-- a sequence boundary, read one whole sequence at a time -/
  | sequence
  | magic
  | flg
  | bd
  | csize
  | dictid
  | hc
  /-- a block boundary: a BLKHDR or the ENDMARK (R110, R113) -/
  | block
  /-- the payload of the given length -/
  | payload (n : Nat)
  | blksum
  | csum
  /-- the value stored to CMD (R117) -/
  | command
  deriving DecidableEq, Repr

/-- Why no element can be read. -/
inductive Reject where
  /-- the bytes end inside the element (R115 rows 3, 4, 13) -/
  | truncated
  /-- the four bytes are not MAGIC (R115 row 6) -/
  | badMagic
  deriving DecidableEq, Repr

/-- The command a value stored to CMD stands for (R118, R273). -/
def decodeCommand (w : Word) : Instr :=
  if w = 0x01#32 then .maxlen
  else if w = 0x02#32 then .compressBlock
  else if w = 0x03#32 then .decompressBlock
  else if w = 0x10#32 then .openWriter
  else if w = 0x11#32 then .writeFrame
  else if w = 0x12#32 then .closeWriter
  else if w = 0x20#32 then .openReader
  else if w = 0x21#32 then .readFrame
  else if w = 0x22#32 then .closeReader
  else .illegalCmd w

/-- The element that a 32-bit word at a block boundary is: all zero is ENDMARK, else BLKHDR with RAW in bit 31 (R110, R113). -/
def decodeSizeWord (w : Nat) : Instr :=
  if w = 0 then .endmark else .blkhdr (decide (2147483648 ≤ w)) (BitVec.ofNat 31 w)

/-- One whole sequence (R91, R98, R99): it is a LAST exactly when the input ends right after its literals. -/
def decodeSequence (bs : List Byte) : Except Reject (Instr × List Byte) :=
  match bs with
  | [] => .error .truncated
  | t :: r1 =>
    match readLen (tokenLL t) r1 with
    | none => .error .truncated
    | some (ll, k1) =>
      if (r1.drop k1).length < ll then .error .truncated
      else
        match (r1.drop k1).drop ll with
        | [] => .ok (.last ((r1.drop k1).take ll) (BitVec.ofNat 4 (tokenML t)), [])
        | b :: r3 =>
          match takeLE 2 (b :: r3) with
          | none => .error .truncated
          | some (off, r4) =>
            match readLen (tokenML t) r4 with
            | none => .error .truncated
            | some (m, k2) =>
              .ok (.seq ((r1.drop k1).take ll) (BitVec.ofNat 16 off) (4 + m), r4.drop k2)

/-- One byte as an element. -/
def decodeByte (f : Byte → Instr) : List Byte → Except Reject (Instr × List Byte)
  | [] => .error .truncated
  | b :: t => .ok (f b, t)

/-- A run of `n` bytes as an element. -/
def decodeRun (f : List Byte → Instr) (n : Nat) (bs : List Byte) : Except Reject (Instr × List Byte) :=
  if bs.length < n then .error .truncated else .ok (f (bs.take n), bs.drop n)

/-- `n` bytes read as one little-endian number as an element. -/
def decodeLE (f : Nat → Instr) (n : Nat) (bs : List Byte) : Except Reject (Instr × List Byte) :=
  match takeLE n bs with
  | none => .error .truncated
  | some (v, r) => .ok (f v, r)

/-- MAGIC, or its rejection (R102). -/
def decodeMagic (bs : List Byte) : Except Reject (Instr × List Byte) :=
  match takeLE 4 bs with
  | none => .error .truncated
  | some (v, r) => if v = Config.magic then .ok (.magic, r) else .error .badMagic

/-- The decoder: the element at a position, and the bytes after it. -/
def decode (p : DecodeAt) (bs : List Byte) : Except Reject (Instr × List Byte) :=
  match p with
  | .token => decodeByte .token bs
  | .llext => decodeByte .llext bs
  | .literals n => decodeRun .literals n bs
  | .offset => decodeLE (fun v => .offset (BitVec.ofNat 16 v)) 2 bs
  | .mlext => decodeByte .mlext bs
  | .sequence => decodeSequence bs
  | .magic => decodeMagic bs
  | .flg => decodeByte .flg bs
  | .bd => decodeByte .bd bs
  | .csize => decodeLE (fun v => .csize (BitVec.ofNat 64 v)) 8 bs
  | .dictid => decodeLE (fun v => .dictid (BitVec.ofNat 32 v)) 4 bs
  | .hc => decodeByte .hc bs
  | .block => decodeLE decodeSizeWord 4 bs
  | .payload n => decodeRun .payload n bs
  | .blksum => decodeLE (fun v => .blksum (BitVec.ofNat 32 v)) 4 bs
  | .csum => decodeLE (fun v => .csum (BitVec.ofNat 32 v)) 4 bs
  | .command => decodeLE (fun v => decodeCommand (BitVec.ofNat 32 v)) 4 bs

/-! ### The encoder -/

/-- The command word of a command (R118). -/
def commandWord : Instr → Nat
  | .maxlen => 0x01
  | .compressBlock => 0x02
  | .decompressBlock => 0x03
  | .openWriter => 0x10
  | .writeFrame => 0x11
  | .closeWriter => 0x12
  | .openReader => 0x20
  | .readFrame => 0x21
  | .closeReader => 0x22
  | .illegalCmd w => w.toNat
  | _ => 0

/-- The size word of a BLKHDR (R110). -/
def sizeWord (raw : Bool) (size : Nat) : Nat := (if raw then 2147483648 else 0) + size

/-- The wire bytes of an element, or the four bytes of a command word as CMD's 32-bit value lies in memory. -/
def encode (i : Instr) : List Byte :=
  match i with
  | .token t => [t]
  | .llext v => [v]
  | .literals lit => lit
  | .offset off => leBytes 2 off.toNat
  | .mlext v => [v]
  | .seq lit off ml => emitSeq lit off.toNat ml
  | .last lit mln => emitLastWith lit mln.toNat
  | .magic => leBytes 4 Config.magic
  | .flg b => [b]
  | .bd b => [b]
  | .csize v => leBytes 8 v.toNat
  | .dictid v => leBytes 4 v.toNat
  | .hc c => [c]
  | .blkhdr raw size => leBytes 4 (sizeWord raw size.toNat)
  | .payload bytes => bytes
  | .blksum sum => leBytes 4 sum.toNat
  | .endmark => leBytes 4 0
  | .csum sum => leBytes 4 sum.toNat
  | .maxlen => leBytes 4 (commandWord .maxlen)
  | .compressBlock => leBytes 4 (commandWord .compressBlock)
  | .decompressBlock => leBytes 4 (commandWord .decompressBlock)
  | .openWriter => leBytes 4 (commandWord .openWriter)
  | .writeFrame => leBytes 4 (commandWord .writeFrame)
  | .closeWriter => leBytes 4 (commandWord .closeWriter)
  | .openReader => leBytes 4 (commandWord .openReader)
  | .readFrame => leBytes 4 (commandWord .readFrame)
  | .closeReader => leBytes 4 (commandWord .closeReader)
  | .illegalCmd w => leBytes 4 (commandWord (.illegalCmd w))

/-- The position at which an instruction stands. -/
def Instr.position (i : Instr) : DecodeAt :=
  match i with
  | .token _ => .token
  | .llext _ => .llext
  | .literals lit => .literals lit.length
  | .offset _ => .offset
  | .mlext _ => .mlext
  | .seq _ _ _ => .sequence
  | .last _ _ => .sequence
  | .magic => .magic
  | .flg _ => .flg
  | .bd _ => .bd
  | .csize _ => .csize
  | .dictid _ => .dictid
  | .hc _ => .hc
  | .blkhdr _ _ => .block
  | .payload bytes => .payload bytes.length
  | .blksum _ => .blksum
  | .endmark => .block
  | .csum _ => .csum
  | .maxlen => .command
  | .compressBlock => .command
  | .decompressBlock => .command
  | .openWriter => .command
  | .writeFrame => .command
  | .closeWriter => .command
  | .openReader => .command
  | .readFrame => .command
  | .closeReader => .command
  | .illegalCmd _ => .command

/-! ### Words numbered as the opcode table numbers them -/

/-- The position a table word of `nbits` bits is read at.  The table gives no position, and several rows have the same width
and no fixed bits; the rows with fixed bits go first (log entry 14). -/
def tablePosition (nbits w : Nat) : DecodeAt :=
  if nbits = 0 then .sequence
  else if nbits ≤ 8 then
    if w % 256 / 64 = 1 && w / 2 % 2 = 0 then .flg
    else if w % 256 / 128 = 0 && w % 16 = 0 then .bd
    else .token
  else if nbits ≤ 16 then .offset
  else if nbits ≤ 32 then
    if w = Config.magic then .magic
    else if Instr.commandWords.contains (BitVec.ofNat 32 w) then .command
    else .block
  else .csize

/-- The bytes of a table word as they lie in memory (least significant first, R68), followed by zeros. -/
def tableBytes (nbits w : Nat) : List Byte :=
  leBytes ((nbits + 7) / 8) (w % 2 ^ nbits) ++ List.replicate 16 0#8

/-- The instruction this decoder reads from a table word. -/
def decodeTableWord (nbits w : Nat) : Option Instr :=
  match decode (tablePosition nbits w) (tableBytes nbits w) with
  | .ok (i, _) => some i
  | .error _ => none

end Sys2Proof
end

