-- ==== Sys2Proof/Machine/State.lean ====
section
/-! DEFINITION. The state of LZ4C as plain data: host registers, buffer memory, tables, contexts, working registers, the
wire-data run, the host's coming actions. -/

namespace Sys2Proof.Machine

/-! ### Host registers (R20 to R29) -/

/-- STATUS.ERR (R22, R300); the codes 5..15 never occur. -/
inductive ErrCode where
  | none
  | invalidArgument
  | corruptedInput
  | outputTooSmall
  | checksumMismatch
  deriving DecidableEq, Repr

/-- STATUS (R22, R44). -/
structure Status where
  busy : Bool
  done : Bool
  nofit : Bool
  eos : Bool
  err : ErrCode
  deriving DecidableEq, Repr

/-- The PREF registers (R27), also a writer context's copy of them (R38). -/
structure PrefRegs where
  flags : Word
  bsclass : Word
  csizeLo : Word
  csizeHi : Word
  dictid : Word
  level : Word
  deriving DecidableEq, Repr

/-- The FINFO registers (R28), also a reader context's FINFO (R39). -/
structure FinfoRegs where
  flags : Word
  bsclass : Word
  csizeLo : Word
  csizeHi : Word
  dictid : Word
  hdrlen : Word
  deriving DecidableEq, Repr

/-- The CFG registers (R29), also a writer context's copy of them (R38). -/
structure CfgRegs where
  hashLog : Word
  flavor : Word
  skipStrength : Word
  skipCeil : Word
  hcMinLevel : Word
  hcMaxLevel : Word
  hcMaxAttempts : Word
  hcOptLen : Word
  hashMult : Word
  deriving DecidableEq, Repr

/-- The bank of host registers (R20).  CMD is write-only and always reads 0 (R21): it holds nothing. -/
structure Regs where
  status : Status
  result : Word
  handle : Word
  srcAddrLo : Word
  srcAddrHi : Word
  srcLen : Word
  dstAddrLo : Word
  dstAddrHi : Word
  dstCap : Word
  arg : Word
  pref : PrefRegs
  finfo : FinfoRegs
  cfg : CfgRegs
  deriving DecidableEq, Repr

/-- The names of the host registers (R20). -/
inductive RegName where
  | cmd
  | status
  | result
  | handle
  | srcAddrLo
  | srcAddrHi
  | srcLen
  | dstAddrLo
  | dstAddrHi
  | dstCap
  | arg
  | prefFlags
  | prefBsclass
  | prefCsizeLo
  | prefCsizeHi
  | prefDictid
  | prefLevel
  | finfoFlags
  | finfoBsclass
  | finfoCsizeLo
  | finfoCsizeHi
  | finfoDictid
  | finfoHdrlen
  | cfgHashLog
  | cfgFlavor
  | cfgSkipStrength
  | cfgSkipCeil
  | cfgHcMinLevel
  | cfgHcMaxLevel
  | cfgHcMaxAttempts
  | cfgHcOptLen
  | cfgHashMult
  deriving DecidableEq, Repr

/-! ### Memory and tables (R35, R36, R61) -/

/-- Buffer memory BM (R61): address and byte, addresses strictly rising, no entry equal to what an unlisted address reads
as. -/
abbrev Mem := List Host.Cell

/-- What an address of BM that is not listed reads as.  R46 leaves BM after reset unspecified.  DESIGN CHOICE (log entry 3),
unsafe. -/
def Mem.unlisted : Byte := 0#8

/-- A table set (R37).  HT (R35): bucket and absolute position; a bucket that is not listed is EMPTY.  CH (R36): bucket and
its list of positions, most recent first; a bucket that is not listed holds the empty list. -/
structure TableSet where
  ht : List (Nat × Nat)
  ch : List (Nat × List Nat)
  deriving DecidableEq, Repr

/-- Every HT entry EMPTY, every CH list empty (R46, R154). -/
def TableSet.empty : TableSet := { ht := [], ch := [] }

/-! ### Contexts (R31, R38, R39) -/

/-- The frame layer's state variable (R31). -/
inductive FrameState where
  | closed
  | header
  | blocks
  | contentChecksum
  | ended
  | failed
  deriving DecidableEq, Repr

/-- A writer context `W[k]` (R38). -/
structure WriterCtx where
  state : FrameState
  prefs : PrefRegs
  cfg : CfgRegs
  total : Nat
  win : List Byte
  acc : List Byte
  tbl : TableSet
  deriving DecidableEq, Repr

/-- A reader context `R[j]` (R39). -/
structure ReaderCtx where
  state : FrameState
  finfo : FinfoRegs
  srcAddr : DWord
  srcLen : Word
  rip : Nat
  hist : List Byte
  stage : List Byte
  total : Nat
  acc : List Byte
  deriving DecidableEq, Repr

/-! ### Working registers (R32, R33) -/

/-- The block encoder's working registers (R32). -/
structure EncRegs where
  cur : Nat
  anchor : Nat
  fails : Nat
  out : List Byte
  base : Nat
  endPos : Nat
  mflimit : Nat
  matchlimit : Nat
  p0 : Nat
  accel : Nat
  deriving DecidableEq, Repr

/-- The block decoder's working registers (R33). -/
structure DecRegs where
  ip : Nat
  out : List Byte
  token : Byte
  ll : Nat
  ml : Nat
  off : BitVec 16
  deriving DecidableEq, Repr

/-- What ParseHeader (R222) has read of a header. -/
structure HdrRegs where
  flg : Byte
  bd : Byte
  csize : DWord
  dictid : Word
  deriving DecidableEq, Repr

/-- What NextBlock (R251) has read of a block. -/
structure BlkRegs where
  raw : Bool
  size : Nat
  payload : List Byte
  deriving DecidableEq, Repr

/-! ### The wire-data run (R350, program P1; log entry 12) -/

/-- Where the run stands in its bytes (R121); `idle`: no run. -/
inductive Pos where
  | idle
  | boundary
  | llext
  | literals
  | offset
  | mlext
  | magic
  | flg
  | bd
  | csize
  | dictid
  | hc
  | block
  | payload
  | blksum
  | csum
  deriving DecidableEq, Repr

/-- Whether a block run reads one wire element or one whole sequence at a step. -/
inductive Grain where
  | element
  | sequence
  deriving DecidableEq, Repr

/-- How a run ended: "ends when the decoder returns or raises" (R350). -/
inductive Verdict where
  | running
  | returned
  | raised (e : ErrCode)
  deriving DecidableEq, Repr

/-- A run on wire data alone.  A block run uses `dict`, `limit` and the decoder's working registers; a frame run uses
`reader`, whose RIP is its cursor, and gathers the content it delivers in `content`. -/
structure Stream where
  pos : Pos
  grain : Grain
  input : List Byte
  dict : List Byte
  limit : Nat
  reader : ReaderCtx
  content : List Byte
  verdict : Verdict
  deriving DecidableEq, Repr

/-! ### The host's actions (R4, R20, R60, R340; log entry 1) -/

/-- The width of a host access to REG; only `word` is modelled (R70). -/
inductive AccessWidth where
  | byte
  | half
  | word
  | dword
  deriving DecidableEq, Repr

/-- One action of the HOST. -/
inductive HostOp where
  /-- store to a host register (R20); to offset 0, CMD, it issues a command (R21) -/
  | storeReg (offset : Nat) (width : AccessWidth) (v : Word)
  /-- load of a host register -/
  | loadReg (offset : Nat) (width : AccessWidth)
  /-- store of one byte of BM (R60) -/
  | storeByte (addr : Nat) (b : Byte)
  /-- load of one byte of BM -/
  | loadByte (addr : Nat)
  /-- the reset event (R340) -/
  | reset
  /-- run the block decoder on wire data alone (R350, P1) -/
  | runBlock (grain : Grain) (input dict : List Byte) (limit : Nat)
  /-- run the frame reader on wire data alone (R350) -/
  | runFrame (input : List Byte)
  deriving DecidableEq, Repr

/-! ### The state -/

/-- The whole state. -/
structure State where
  params : Params
  regs : Regs
  mem : Mem
  bt : TableSet
  writers : List WriterCtx
  readers : List ReaderCtx
  enc : EncRegs
  dec : DecRegs
  hdr : HdrRegs
  blk : BlkRegs
  stream : Stream
  host : List HostOp
  busData : Word
  drawn : Nat
  deriving DecidableEq, Repr

/-- Why the machine stops with a fault. -/
inductive Fault where
  /-- A host load or store of a byte of BM at an address BM does not have (R60: BM is the addresses 0..BM_SIZE-1).  Raised
  by the host's byte accesses only; safe. -/
  | addressOutsideBM
  deriving DecidableEq, Repr

/-- What the model does not run. -/
inductive Refusal where
  /-- An instruction without a meaning yet.  Safe. -/
  | notModelled (mnemonic : String)
  /-- A register access that is not a 4-byte aligned 32-bit one: "not modelled (the model refuses it)" (R70, U18).  Raised by
  the host's register accesses; safe. -/
  | registerAccessNotAWord
  /-- A content stream of 2^64 bytes or more: "not modelled" (R34, U19).  Raised by WRITE_FRAME, READ_FRAME and a frame run's
  PAYLOAD and BLKSUM; safe. -/
  | streamTooLong
  /-- A wire element where it does not stand: its position is decided by what precedes it (R121), so it does not exist there.
  Raised by the meanings of the wire elements; the decoder never produces it; safe. -/
  | elementOutOfPosition
  deriving DecidableEq, Repr

/-! ### Reset (R46, R340) -/

/-- The PREF registers after reset. -/
def PrefRegs.reset : PrefRegs :=
  { flags := 0x20#32, bsclass := 4#32, csizeLo := 0#32, csizeHi := 0#32, dictid := 0#32, level := 0#32 }

/-- The FINFO registers after reset. -/
def FinfoRegs.reset : FinfoRegs :=
  { flags := 0#32, bsclass := 0#32, csizeLo := 0#32, csizeHi := 0#32, dictid := 0#32, hdrlen := 0#32 }

/-- The CFG registers after reset. -/
def CfgRegs.reset : CfgRegs :=
  { hashLog := 12#32, flavor := 0#32, skipStrength := 6#32, skipCeil := 256#32, hcMinLevel := 2#32, hcMaxLevel := 12#32,
    hcMaxAttempts := 256#32, hcOptLen := 0xFFFFFFFF#32, hashMult := 0x9E3779B1#32 }

/-- STATUS after reset: 0. -/
def Status.reset : Status := { busy := false, done := false, nofit := false, eos := false, err := .none }

/-- The register bank after reset. -/
def Regs.reset : Regs :=
  { status := Status.reset, result := 0#32, handle := 0#32, srcAddrLo := 0#32, srcAddrHi := 0#32, srcLen := 0#32,
    dstAddrLo := 0#32, dstAddrHi := 0#32, dstCap := 0#32, arg := 0#32, pref := PrefRegs.reset, finfo := FinfoRegs.reset,
    cfg := CfgRegs.reset }

/-- A writer context after reset: Closed, tables empty; the other fields are unspecified (R46), here zero and empty.  DESIGN
CHOICE (log entry 4), unsafe. -/
def WriterCtx.reset : WriterCtx :=
  { state := .closed, prefs := PrefRegs.reset, cfg := CfgRegs.reset, total := 0, win := [], acc := [],
    tbl := TableSet.empty }

/-- A reader context after reset: Closed; the other fields are unspecified (R46), here zero and empty.  DESIGN CHOICE (log
entry 4), unsafe. -/
def ReaderCtx.reset : ReaderCtx :=
  { state := .closed, finfo := FinfoRegs.reset, srcAddr := 0#64, srcLen := 0#32, rip := 0, hist := [], stage := [],
    total := 0, acc := [] }

/-- The encoder's working registers after reset: unspecified (R46), here zero.  DESIGN CHOICE (log entry 5), unsafe. -/
def EncRegs.reset : EncRegs :=
  { cur := 0, anchor := 0, fails := 0, out := [], base := 0, endPos := 0, mflimit := 0, matchlimit := 0, p0 := 0, accel := 0 }

/-- The decoder's working registers after reset: unspecified (R46), here zero.  DESIGN CHOICE (log entry 5), unsafe. -/
def DecRegs.reset : DecRegs := { ip := 0, out := [], token := 0#8, ll := 0, ml := 0, off := 0#16 }

/-- The header parser's names, here zero.  DESIGN CHOICE (log entry 5), unsafe. -/
def HdrRegs.reset : HdrRegs := { flg := 0#8, bd := 0#8, csize := 0#64, dictid := 0#32 }

/-- The block parser's names, here zero.  DESIGN CHOICE (log entry 5), unsafe. -/
def BlkRegs.reset : BlkRegs := { raw := false, size := 0, payload := [] }

/-- No wire-data run. -/
def Stream.reset : Stream :=
  { pos := .idle, grain := .element, input := [], dict := [], limit := 0, reader := ReaderCtx.reset, content := [],
    verdict := .running }

/-- The machine with parameters `p`, `nw` writer and `nr` reader contexts, right after reset (R46). -/
def State.resetWith (p : Params) (nw nr : Nat) : State :=
  { params := p, regs := Regs.reset, mem := [], bt := TableSet.empty, writers := List.replicate nw WriterCtx.reset,
    readers := List.replicate nr ReaderCtx.reset, enc := EncRegs.reset, dec := DecRegs.reset, hdr := HdrRegs.reset,
    blk := BlkRegs.reset, stream := Stream.reset, host := [], busData := 0#32, drawn := 0 }

/-- The machine right after reset (R46, R340), with the parameters' defaults of R6: NW = NR = 1. -/
def State.reset : State := State.resetWith Params.default 1 1

end Sys2Proof.Machine
end

