-- ==== Sys2Proof/Machine/Flags.lean ====
section
/-! DEFINITION. Every computation of the STATUS fields (R22, R44, R270, R300, R306). -/

namespace Sys2Proof.Machine

/-- The code of an error (R300). -/
def ErrCode.code : ErrCode → Nat
  | .none => 0
  | .invalidArgument => 1
  | .corruptedInput => 2
  | .outputTooSmall => 3
  | .checksumMismatch => 4

/-- STATUS as the host reads it (R22): BUSY bit 0, DONE 1, NOFIT 2, EOS 3, ERR 7:4, the rest 0. -/
def Status.word (t : Status) : Word :=
  BitVec.ofNat 32
    (t.busy.toNat + 2 * t.done.toNat + 4 * t.nofit.toNat + 8 * t.eos.toNat + 16 * t.err.code)

/-- A command starts (R270): BUSY set, everything else cleared. -/
def Status.started (_ : Status) : Status :=
  { busy := true, done := false, nofit := false, eos := false, err := .none }

/-- A command ends without error (R270, R279). -/
def Status.finished (t : Status) : Status := { t with busy := false, done := true }

/-- A command ends with error `e` (R306). -/
def Status.raised (e : ErrCode) (_ : Status) : Status :=
  { busy := false, done := true, nofit := false, eos := false, err := e }

/-- COMPRESS_BLOCK writes NOFIT (R22, R177). -/
def Status.setNofit (b : Bool) (t : Status) : Status := { t with nofit := b }

/-- READ_FRAME writes EOS (R22, R250). -/
def Status.setEos (b : Bool) (t : Status) : Status := { t with eos := b }

end Sys2Proof.Machine
end

