-- ==== Sys2Proof/Machine/Operands.lean ====
section
/-! DEFINITION. Operand forms: regions, LEVEL, the fields of the CFG, PREF and FINFO registers and their legality, the header's
bytes, the size of a block, the pieces of the data. -/

namespace Sys2Proof.Machine

/-! ### Regions (R25, R62, R64, R65) -/

/-- A region of BM (R62). -/
structure Region where
  addr : Nat
  len : Nat
  deriving DecidableEq, Repr

/-- A 64-bit quantity from its _HI and _LO registers (R70). -/
def pair64 (hi lo : Word) : DWord := BitVec.ofNat 64 (hi.toNat * 4294967296 + lo.toNat)

/-- An address register pair as an address: only bits AW-1:0 count (R25). -/
def regAddr (p : Params) (hi lo : Word) : Nat :=
  match p.addrWidth with
  | .aw32 => lo.toNat
  | .aw64 => (pair64 hi lo).toNat

/-- The source region (SRC_ADDR, SRC_LEN) (R25). -/
def srcRegion (p : Params) (r : Regs) : Region :=
  { addr := regAddr p r.srcAddrHi r.srcAddrLo, len := r.srcLen.toNat }

/-- The destination region (DST_ADDR, DST_CAP) (R25). -/
def dstRegion (p : Params) (r : Regs) : Region :=
  { addr := regAddr p r.dstAddrHi r.dstAddrLo, len := r.dstCap.toNat }

/-- Admission (R64): not null, not longer than LEN_MAX, inside BM, and no _HI half with 32-bit addresses (log entry 10). -/
abbrev admitted (p : Params) (hi : Word) (g : Region) : Prop :=
  g.addr ≠ 0 ∧ g.len ≤ Config.lenMax ∧ g.addr + g.len ≤ p.bmSize ∧ (p.addrWidth = .aw32 → hi = 0#32)

/-- The source region is admitted (R274). -/
abbrev srcAdmitted (p : Params) (r : Regs) : Prop := admitted p r.srcAddrHi (srcRegion p r)

/-- The destination region is admitted (R274). -/
abbrev dstAdmitted (p : Params) (r : Regs) : Prop := admitted p r.dstAddrHi (dstRegion p r)

/-- Two regions overlap (R65): both non-empty and sharing a byte. -/
abbrev overlap (a b : Region) : Prop :=
  a.len ≠ 0 ∧ b.len ≠ 0 ∧ a.addr < b.addr + b.len ∧ b.addr < a.addr + a.len

/-- Both regions admitted and not overlapping (R274). -/
abbrev regionsValid (p : Params) (r : Regs) : Prop :=
  srcAdmitted p r ∧ dstAdmitted p r ∧ ¬ overlap (srcRegion p r) (dstRegion p r)

/-- The region a reader captured at OPEN_READER (R39, R67). -/
def ReaderCtx.region (r : ReaderCtx) : Region := { addr := r.srcAddr.toNat, len := r.srcLen.toNat }

/-! ### CFG (R29, R276) -/

/-- Every CFG register holds a legal value (R29, R276). -/
abbrev CfgRegs.legal (c : CfgRegs) : Prop :=
  (1 ≤ c.hashLog.toNat ∧ c.hashLog.toNat ≤ 28) ∧
  c.flavor.toNat ≤ 1 ∧
  c.skipStrength.toNat ≤ 16 ∧
  (1 ≤ c.skipCeil.toNat ∧ c.skipCeil.toNat ≤ 65535) ∧
  c.hcMinLevel.toNat ≤ 2147483646 ∧
  (c.hcMinLevel.toNat < c.hcMaxLevel.toNat ∧ c.hcMaxLevel.toNat ≤ 2147483647) ∧
  (1 ≤ c.hcMaxAttempts.toNat ∧ c.hcMaxAttempts.toNat ≤ 65535) ∧
  4 ≤ c.hcOptLen.toNat ∧
  c.hashMult.toNat % 2 = 1

/-- CFG_FLAVOR.NARROW (R29). -/
def CfgRegs.narrow (c : CfgRegs) : Bool := c.flavor.getLsbD 0

/-! ### LEVEL (R26, R139) -/

/-- The match-finder variants LEVEL chooses between (R139, R140). -/
inductive Variant where
  /-- fast greedy mode with acceleration factor A -/
  | fast (accel : Nat)
  /-- high-ratio chain search at the clamped level -/
  | highRatio (level : Int)
  deriving DecidableEq, Repr

/-- `Variant(LEVEL)` (R139). -/
def variantOf (c : CfgRegs) (level : Int) : Variant :=
  if level ≤ 0 then .fast (min c.skipCeil.toNat (1 - level).toNat)
  else if level ≤ (c.hcMinLevel.toNat : Int) then .fast 1
  else .highRatio (min level (c.hcMaxLevel.toNat : Int))

/-- `sext_32` (R7): LEVEL of ARG (R26) and of PREF_LEVEL (R27). -/
def levelOf (w : Word) : Int := w.toInt

/-! ### PREF (R27) -/

/-- BINDEP -/
def PrefRegs.bindep (p : PrefRegs) : Bool := p.flags.getLsbD 5
/-- BCSUM -/
def PrefRegs.bcsum (p : PrefRegs) : Bool := p.flags.getLsbD 4
/-- CSIZE -/
def PrefRegs.csize (p : PrefRegs) : Bool := p.flags.getLsbD 3
/-- CCSUM -/
def PrefRegs.ccsum (p : PrefRegs) : Bool := p.flags.getLsbD 2
/-- DICTID -/
def PrefRegs.hasDictid (p : PrefRegs) : Bool := p.flags.getLsbD 0
/-- CONTENT_SIZE -/
def PrefRegs.contentSize (p : PrefRegs) : DWord := pair64 p.csizeHi p.csizeLo

/-- The PREF fields are legal (R27): reserved flag bits 31:6 and 1 zero, class 4..7. -/
abbrev PrefRegs.legal (p : PrefRegs) : Prop :=
  p.flags.toNat < 64 ∧ p.flags.getLsbD 1 = false ∧ 4 ≤ p.bsclass.toNat ∧ p.bsclass.toNat ≤ 7

/-! ### FINFO (R28) -/

/-- BINDEP -/
def FinfoRegs.bindep (f : FinfoRegs) : Bool := f.flags.getLsbD 5
/-- BCSUM -/
def FinfoRegs.bcsum (f : FinfoRegs) : Bool := f.flags.getLsbD 4
/-- CSIZE -/
def FinfoRegs.csize (f : FinfoRegs) : Bool := f.flags.getLsbD 3
/-- CCSUM -/
def FinfoRegs.ccsum (f : FinfoRegs) : Bool := f.flags.getLsbD 2
/-- The declared content size. -/
def FinfoRegs.contentSize (f : FinfoRegs) : DWord := pair64 f.csizeHi f.csizeLo

/-! ### The frame header (R101 to R109, R221, R223) -/

/-- `BLOCK_MAX` (R223): 2^(8 + 2 * class). -/
def blockMax (cls : Nat) : Nat := 2 ^ (8 + 2 * cls)

/-- HDRLEN (R109). -/
def hdrLen (csize dictid : Bool) : Nat := 7 + 8 * csize.toNat + 4 * dictid.toNat

/-- `hdrsum` (R8): the second least significant byte. -/
def hdrsum (v : Word) : Byte := BitVec.ofNat 8 (v.toNat / 256)

/-- The descriptor (R103): FLG, BD and the fields FLG announces. -/
def descriptor (flg bd : Byte) (csize : DWord) (dictid : Word) : List Byte :=
  [flg, bd] ++ (if flg.getLsbD 3 then leBytes 8 csize.toNat else []) ++
    (if flg.getLsbD 0 then leBytes 4 dictid.toNat else [])

/-- FLG of the preferences (R221). -/
def PrefRegs.flg (p : PrefRegs) : Byte :=
  BitVec.ofNat 8
    (64 + 32 * p.bindep.toNat + 16 * p.bcsum.toNat + 8 * p.csize.toNat + 4 * p.ccsum.toNat + p.hasDictid.toNat)

/-- BD of the preferences (R221). -/
def PrefRegs.bd (p : PrefRegs) : Byte := BitVec.ofNat 8 (p.bsclass.toNat * 16)

/-- The descriptor of the preferences. -/
def PrefRegs.descriptor (p : PrefRegs) : List Byte :=
  Sys2Proof.Machine.descriptor p.flg p.bd p.contentSize p.dictid

/-- `Header(P)` (R221). -/
def headerBytes (p : PrefRegs) : List Byte :=
  leBytes 4 Config.magic ++ p.descriptor ++ [hdrsum (Config.hash32 p.descriptor)]

/-- HDRLEN of the preferences. -/
def PrefRegs.hdrLen (p : PrefRegs) : Nat := Sys2Proof.Machine.hdrLen p.csize p.hasDictid

/-- The version and reserved bits of FLG, the reserved bits and class of BD (R222, R115 rows 7 to 9). -/
abbrev headerLegal (flg bd : Byte) : Prop :=
  flg.toNat / 64 = 1 ∧ flg.getLsbD 1 = false ∧ bd.getLsbD 7 = false ∧ bd.toNat % 16 = 0 ∧ 4 ≤ bd.toNat / 16 % 8

/-- The FINFO registers of a parsed header (R28, R222). -/
def finfoOf (flg bd : Byte) (csize : DWord) (dictid : Word) : FinfoRegs :=
  { flags := BitVec.ofNat 32 flg.toNat
    bsclass := BitVec.ofNat 32 (bd.toNat / 16 % 8)
    csizeLo := if flg.getLsbD 3 then BitVec.ofNat 32 csize.toNat else 0#32
    csizeHi := if flg.getLsbD 3 then BitVec.ofNat 32 (csize.toNat / 4294967296) else 0#32
    dictid := if flg.getLsbD 0 then dictid else 0#32
    hdrlen := BitVec.ofNat 32 (hdrLen (flg.getLsbD 3) (flg.getLsbD 0)) }

/-! ### Pieces of the data (R8, R237) -/

/-- `last_k` (R8). -/
def lastBytes (k : Nat) (bs : List Byte) : List Byte := bs.drop (bs.length - k)

/-- `Chunks` (R237) on `fuel` pieces at most; every piece but the last has `b` bytes. -/
def chunks (b : Nat) : Nat → List Byte → List (List Byte)
  | 0, _ => []
  | _ + 1, [] => []
  | fuel + 1, x :: t => (x :: t).take b :: chunks b fuel ((x :: t).drop b)

/-- `ceil(n / b)` (R237, R238). -/
def ceilDiv (n b : Nat) : Nat := (n + b - 1) / b

/-- A slice `H[i .. j)` (R8). -/
def slice (h : List Byte) (i j : Nat) : List Byte := (h.drop i).take (j - i)

end Sys2Proof.Machine
end

