-- ==== Sys2Proof/Machine/Ops.lean ====
section
/-! DEFINITION. The named operations over tables, memory, registers, contexts; the command cycle (R270) and `raise` (R306);
the operations of a wire-data run. -/

namespace Sys2Proof.Machine

/-! ### Sorted association lists: memory and tables -/

/-- The value listed for key `k`. -/
def Assoc.find {α : Type} (k : Nat) : List (Nat × α) → Option α
  | [] => none
  | (k', v) :: t => if k = k' then some v else Assoc.find k t

/-- List `v` for `k`, keys kept strictly rising. -/
def Assoc.insert {α : Type} (k : Nat) (v : α) : List (Nat × α) → List (Nat × α)
  | [] => [(k, v)]
  | (k', v') :: t =>
    if k < k' then (k, v) :: (k', v') :: t
    else if k = k' then (k, v) :: t
    else (k', v') :: Assoc.insert k v t

/-- List nothing for `k`. -/
def Assoc.erase {α : Type} (k : Nat) : List (Nat × α) → List (Nat × α)
  | [] => []
  | (k', v') :: t => if k = k' then t else (k', v') :: Assoc.erase k t

/-- The keys are strictly rising. -/
abbrev Assoc.Sorted {α : Type} (m : List (Nat × α)) : Prop := (m.map Prod.fst).Pairwise (· < ·)

/-! ### Buffer memory (R61, R62) -/

/-- The byte of BM at an address. -/
def Mem.read (m : Mem) (a : Nat) : Byte := (Assoc.find a m).getD Mem.unlisted

/-- Store one byte; the form stays canonical. -/
def Mem.write (m : Mem) (a : Nat) (b : Byte) : Mem :=
  if b = Mem.unlisted then Assoc.erase a m else Assoc.insert a b m

/-- `MemRead` (R9). -/
def Mem.readBytes (m : Mem) (a n : Nat) : List Byte := (List.range n).map fun i => Mem.read m (a + i)

/-- `MemWrite` (R9). -/
def Mem.writeBytes (m : Mem) (a : Nat) : List Byte → Mem
  | [] => m
  | b :: t => Mem.writeBytes (Mem.write m a b) (a + 1) t

/-- The canonical form: addresses strictly rising, no entry equal to what an unlisted address reads as. -/
abbrev Mem.wf (m : Mem) : Prop := Assoc.Sorted m ∧ ∀ c ∈ m, c.2 ≠ Mem.unlisted

/-- The bytes of a region. -/
def regionBytes (s : State) (g : Region) : List Byte := Mem.readBytes s.mem g.addr g.len

/-- `SRC` (R62): the source region's bytes at the start of the command. -/
def srcBytes (s : State) : List Byte := regionBytes s (srcRegion s.params s.regs)

/-! ### Free values and the destination region (R9, R45) -/

/-- The `n` free bytes from the `k`-th on. -/
def freeBytes (k n : Nat) : List Byte := (List.range n).map fun i => Config.freeByte (k + i)

/-- "write `o` to DST" (R62), and every byte of the region not reported becomes `draw` (R45, R66).  With no bytes the whole
region becomes `draw`. -/
def deliver (dst : Region) (o : List Byte) (s : State) : State :=
  { s with
    mem := Mem.writeBytes s.mem dst.addr (o ++ freeBytes s.drawn (dst.len - o.length))
    drawn := s.drawn + (dst.len - o.length) }

/-! ### Host registers (R20) -/

/-- The register at a byte offset of the bank; reserved offsets hold none (R20). -/
def regAt (offset : Nat) : Option RegName :=
  match offset with
  | 0x00 => some .cmd
  | 0x04 => some .status
  | 0x08 => some .result
  | 0x0C => some .handle
  | 0x10 => some .srcAddrLo
  | 0x14 => some .srcAddrHi
  | 0x18 => some .srcLen
  | 0x1C => some .dstAddrLo
  | 0x20 => some .dstAddrHi
  | 0x24 => some .dstCap
  | 0x28 => some .arg
  | 0x30 => some .prefFlags
  | 0x34 => some .prefBsclass
  | 0x38 => some .prefCsizeLo
  | 0x3C => some .prefCsizeHi
  | 0x40 => some .prefDictid
  | 0x44 => some .prefLevel
  | 0x50 => some .finfoFlags
  | 0x54 => some .finfoBsclass
  | 0x58 => some .finfoCsizeLo
  | 0x5C => some .finfoCsizeHi
  | 0x60 => some .finfoDictid
  | 0x64 => some .finfoHdrlen
  | 0x70 => some .cfgHashLog
  | 0x74 => some .cfgFlavor
  | 0x78 => some .cfgSkipStrength
  | 0x7C => some .cfgSkipCeil
  | 0x80 => some .cfgHcMinLevel
  | 0x84 => some .cfgHcMaxLevel
  | 0x88 => some .cfgHcMaxAttempts
  | 0x8C => some .cfgHcOptLen
  | 0x90 => some .cfgHashMult
  | _ => none

/-- `x[NAME]` as the host loads it; CMD reads 0 (R20, R21). -/
def Regs.read (r : Regs) (n : RegName) : Word :=
  match n with
  | .cmd => 0#32
  | .status => r.status.word
  | .result => r.result
  | .handle => r.handle
  | .srcAddrLo => r.srcAddrLo
  | .srcAddrHi => r.srcAddrHi
  | .srcLen => r.srcLen
  | .dstAddrLo => r.dstAddrLo
  | .dstAddrHi => r.dstAddrHi
  | .dstCap => r.dstCap
  | .arg => r.arg
  | .prefFlags => r.pref.flags
  | .prefBsclass => r.pref.bsclass
  | .prefCsizeLo => r.pref.csizeLo
  | .prefCsizeHi => r.pref.csizeHi
  | .prefDictid => r.pref.dictid
  | .prefLevel => r.pref.level
  | .finfoFlags => r.finfo.flags
  | .finfoBsclass => r.finfo.bsclass
  | .finfoCsizeLo => r.finfo.csizeLo
  | .finfoCsizeHi => r.finfo.csizeHi
  | .finfoDictid => r.finfo.dictid
  | .finfoHdrlen => r.finfo.hdrlen
  | .cfgHashLog => r.cfg.hashLog
  | .cfgFlavor => r.cfg.flavor
  | .cfgSkipStrength => r.cfg.skipStrength
  | .cfgSkipCeil => r.cfg.skipCeil
  | .cfgHcMinLevel => r.cfg.hcMinLevel
  | .cfgHcMaxLevel => r.cfg.hcMaxLevel
  | .cfgHcMaxAttempts => r.cfg.hcMaxAttempts
  | .cfgHcOptLen => r.cfg.hcOptLen
  | .cfgHashMult => r.cfg.hashMult

/-- A host store to a register; a store to a register marked R is ignored (R20, R314).  A store to CMD issues a command
(R21), which is the step's affair: the bank does not change. -/
def Regs.write (r : Regs) (n : RegName) (v : Word) : Regs :=
  match n with
  | .cmd => r
  | .status => r
  | .result => r
  | .handle => { r with handle := v }
  | .srcAddrLo => { r with srcAddrLo := v }
  | .srcAddrHi => { r with srcAddrHi := v }
  | .srcLen => { r with srcLen := v }
  | .dstAddrLo => { r with dstAddrLo := v }
  | .dstAddrHi => { r with dstAddrHi := v }
  | .dstCap => { r with dstCap := v }
  | .arg => { r with arg := v }
  | .prefFlags => { r with pref := { r.pref with flags := v } }
  | .prefBsclass => { r with pref := { r.pref with bsclass := v } }
  | .prefCsizeLo => { r with pref := { r.pref with csizeLo := v } }
  | .prefCsizeHi => { r with pref := { r.pref with csizeHi := v } }
  | .prefDictid => { r with pref := { r.pref with dictid := v } }
  | .prefLevel => { r with pref := { r.pref with level := v } }
  | .finfoFlags => r
  | .finfoBsclass => r
  | .finfoCsizeLo => r
  | .finfoCsizeHi => r
  | .finfoDictid => r
  | .finfoHdrlen => r
  | .cfgHashLog => { r with cfg := { r.cfg with hashLog := v } }
  | .cfgFlavor => { r with cfg := { r.cfg with flavor := v } }
  | .cfgSkipStrength => { r with cfg := { r.cfg with skipStrength := v } }
  | .cfgSkipCeil => { r with cfg := { r.cfg with skipCeil := v } }
  | .cfgHcMinLevel => { r with cfg := { r.cfg with hcMinLevel := v } }
  | .cfgHcMaxLevel => { r with cfg := { r.cfg with hcMaxLevel := v } }
  | .cfgHcMaxAttempts => { r with cfg := { r.cfg with hcMaxAttempts := v } }
  | .cfgHcOptLen => { r with cfg := { r.cfg with hcOptLen := v } }
  | .cfgHashMult => { r with cfg := { r.cfg with hashMult := v } }

/-- `x[RESULT] <- v`. -/
def setResult (v : Nat) (s : State) : State := { s with regs := { s.regs with result := BitVec.ofNat 32 v } }

/-- `x[HANDLE] <- k`. -/
def setHandle (k : Nat) (s : State) : State := { s with regs := { s.regs with handle := BitVec.ofNat 32 k } }

/-- `FINFO registers <- f`. -/
def setFinfo (f : FinfoRegs) (s : State) : State := { s with regs := { s.regs with finfo := f } }

/-- A write of STATUS by the device. -/
def setStatus (f : Status → Status) (s : State) : State :=
  { s with regs := { s.regs with status := f s.regs.status } }

/-! ### Contexts (R232, R233) -/

/-- The lowest writer index whose context is Closed (R232). -/
def freeWriter (s : State) : Option Nat := s.writers.findIdx? fun w => w.state == .closed

/-- The lowest reader index whose context is Closed (R232). -/
def freeReader (s : State) : Option Nat := s.readers.findIdx? fun r => r.state == .closed

/-- The writer context HANDLE names (R24). -/
def handleWriter (s : State) : Option WriterCtx := s.writers[s.regs.handle.toNat]?

/-- The reader context HANDLE names (R24). -/
def handleReader (s : State) : Option ReaderCtx := s.readers[s.regs.handle.toNat]?

/-- `W[k] <- w`. -/
def setWriter (k : Nat) (w : WriterCtx) (s : State) : State := { s with writers := s.writers.set k w }

/-- `R[j] <- r`. -/
def setReader (j : Nat) (r : ReaderCtx) (s : State) : State := { s with readers := s.readers.set j r }

/-! ### The command cycle and `raise` (R270, R306) -/

/-- How a command's rule ends. -/
inductive CmdEnd where
  /-- it ran to its end -/
  | done (s : State)
  /-- `raise e` in state `s` -/
  | raised (e : ErrCode) (s : State)
  /-- the model does not run it -/
  | refused (r : Refusal)

/-- The start of a command (R270). -/
def startCommand (s : State) : State := setStatus Status.started s

/-- The end of a command without error (R270). -/
def finishCommand (s : State) : State := setStatus Status.finished s

/-- `raise e` (R306): the error is reported and RESULT is 0.  What the raising command does to its context and its
destination region stands in its own rule. -/
def raiseError (e : ErrCode) (s : State) : State := setResult 0 (setStatus (Status.raised e) s)

/-- `Command(v)` (R270) around a command's rule: one atomic transition. -/
def runCommand (rule : State → CmdEnd) (s : State) : Host.Outcome State Fault Refusal :=
  match rule (startCommand s) with
  | .done t => .next (finishCommand t)
  | .raised e t => .next (raiseError e t)
  | .refused r => .refused r

/-! ### The wire-data run (R350; log entry 12) -/

/-- The run's current position, or another element's. -/
def atPos (p : Pos) (s : State) (k : Host.Outcome State Fault Refusal) : Host.Outcome State Fault Refusal :=
  if s.stream.pos = p then k else .refused .elementOutOfPosition

/-- Go on at position `p`. -/
def goOn (p : Pos) (s : State) : State := { s with stream := { s.stream with pos := p } }

/-- The run ends: the decoder or reader returns. -/
def streamReturn (s : State) : State :=
  { s with stream := { s.stream with pos := .idle, verdict := .returned } }

/-- The run ends: the decoder raises (R190: no flag is written by the decoder itself). -/
def raiseBlock (e : ErrCode) (s : State) : State :=
  { s with stream := { s.stream with pos := .idle, verdict := .raised e } }

/-- The run ends: the frame reader raises.  In the header no context is taken (R248), after it the context is Failed
(R259). -/
def raiseFrame (e : ErrCode) (s : State) : State :=
  { s with stream := { s.stream with
      pos := .idle
      verdict := .raised e
      reader := { s.stream.reader with
        state := if s.stream.reader.state = .header then .closed else .failed } } }

end Sys2Proof.Machine
end

