-- ==== Sys2Proof/Machine/Command.lean ====
section
/-! DEFINITION. The illegal command (R273). -/

namespace Sys2Proof.Machine

/-- The rule of a value stored to CMD that is no command word. -/
def ruleIllegalCmd (_ : Word) (s : State) : CmdEnd := .raised .invalidArgument s

/-- ILLEGAL_CMD (R273): InvalidArgument, and nothing else changes. -/
def execIllegalCmd (w : Word) (s : State) : Host.Outcome State Fault Refusal := runCommand (ruleIllegalCmd w) s

end Sys2Proof.Machine
end

