-- ==== Sys2Proof/Machine/Decoder.lean ====
section
/-! DEFINITION. The block decoder (R190 to R208): each step on the working registers, the decoder as a whole, the meanings of
the wire elements TOKEN to LAST, and DECOMPRESS_BLOCK (R204). A step that raises answers `error` with the working registers
as they are then; the error is always CorruptedInput. -/

namespace Sys2Proof.Machine

/-! ### The steps on the working registers -/

/-- Token (R191): `T` is read; `LL` starts as its high nibble (R192). -/
def DecRegs.takeToken (t : Byte) (r : DecRegs) : DecRegs :=
  { r with ip := r.ip + 1, token := t, ll := tokenLL t }

/-- One literal-length extension byte (R192). -/
def DecRegs.takeLLExt (v : Byte) (r : DecRegs) : DecRegs := { r with ip := r.ip + 1, ll := r.ll + v.toNat }

/-- Literal copy (R193): both tests, then the run `lit` (the `LL` bytes at `ip`) is appended. -/
def DecRegs.takeLiterals (inLen limit : Nat) (lit : List Byte) (r : DecRegs) : Except DecRegs DecRegs :=
  if inLen < r.ip + r.ll then .error r
  else if limit < r.out.length + r.ll then .error r
  else .ok { r with out := r.out ++ lit, ip := r.ip + r.ll }

/-- Offset (R195): 0 and anything beyond the bytes already produced are rejected; `ML` starts as 4 and the low nibble
(R196).  That ML holds that partial result, which R190 assigns only when ReadLen returns, is a DESIGN CHOICE (log entry 5). -/
def DecRegs.takeOffset (inLen dictLen : Nat) (off : BitVec 16) (r : DecRegs) : Except DecRegs DecRegs :=
  if inLen < r.ip + 2 then .error r
  else if off = 0#16 ∨ dictLen + r.out.length < off.toNat then .error { r with ip := r.ip + 2, off := off }
  else .ok { r with ip := r.ip + 2, off := off, ml := Config.minMatch + tokenML r.token }

/-- One match-length extension byte (R196). -/
def DecRegs.takeMLExt (v : Byte) (r : DecRegs) : DecRegs := { r with ip := r.ip + 1, ml := r.ml + v.toNat }

/-- The byte-by-byte copy (R197): `n` times the byte `off` positions before the end of `dict ++ out`. -/
def appendMatch (dict : List Byte) (off : Nat) : Nat → List Byte → List Byte
  | 0, out => out
  | n + 1, out => appendMatch dict off n (out ++ [(dict ++ out).getD ((dict ++ out).length - off) 0#8])

/-- Match copy (R197) under the output limit (R198). -/
def DecRegs.copyMatch (dict : List Byte) (limit : Nat) (r : DecRegs) : Except DecRegs DecRegs :=
  if limit < r.out.length + r.ml then .error r
  else .ok { r with out := appendMatch dict r.off.toNat r.ml r.out }

/-! ### The decoder as a whole (R190) -/

/-- The extension bytes of the literal length, up to and including the first below 255 (R192).  That LL and `ip`, dead after the
raise, keep the partial results when the input ends inside the extension, where R190 assigns them only when ReadLen (R93)
returns, is a DESIGN CHOICE (log entry 5). -/
def readLLExt : List Byte → DecRegs → Except DecRegs DecRegs
  | [], r => .error r
  | e :: t, r => if e = 255#8 then readLLExt t (r.takeLLExt e) else .ok (r.takeLLExt e)

/-- The extension bytes of the match length (R196).  That ML and `ip` keep the partial results when the input ends inside the
extension is a DESIGN CHOICE (log entry 5). -/
def readMLExt : List Byte → DecRegs → Except DecRegs DecRegs
  | [], r => .error r
  | e :: t, r => if e = 255#8 then readMLExt t (r.takeMLExt e) else .ok (r.takeMLExt e)

/-- Token and literal length (R191, R192); `rest` is what follows the token. -/
def DecRegs.readHead (t : Byte) (rest : List Byte) (r : DecRegs) : Except DecRegs DecRegs :=
  if tokenLL t = 15 then readLLExt rest (r.takeToken t) else .ok (r.takeToken t)

/-- The match length's extension bytes, when the token has them (R196). -/
def DecRegs.readTail (rest : List Byte) (r : DecRegs) : Except DecRegs DecRegs :=
  if tokenML r.token = 15 then readMLExt rest r else .ok r

/-- What follows the literals of a SEQ: offset, match length and copy (R195 to R197). -/
def decodeMatch (inp dict : List Byte) (limit : Nat) (r : DecRegs) : Except DecRegs DecRegs :=
  match r.takeOffset inp.length dict.length (BitVec.ofNat 16 (leNat ((inp.drop r.ip).take 2))) with
  | .error d => .error d
  | .ok r1 =>
    match r1.readTail (inp.drop r1.ip) with
    | .error d => .error d
    | .ok r2 => r2.copyMatch dict limit

/-- One sequence: token, literal length, literals; then the end test (R194), or offset, match length and copy.  The flag says
that the block is complete. -/
def decodeSeq (inp dict : List Byte) (limit : Nat) (r : DecRegs) : Except DecRegs (DecRegs × Bool) :=
  match inp.drop r.ip with
  | [] => .error r
  | t :: rest =>
    match r.readHead t rest with
    | .error d => .error d
    | .ok r1 =>
      match r1.takeLiterals inp.length limit ((inp.drop r1.ip).take r1.ll) with
      | .error d => .error d
      | .ok r2 =>
        if r2.ip = inp.length then .ok (r2, true)
        else
          match decodeMatch inp dict limit r2 with
          | .error d => .error d
          | .ok r3 => .ok (r3, false)

/-- The loop of `DecodeBlock` (R190, R199), `fuel` sequences at most; each takes at least one input byte (R208). -/
def decodeLoop (inp dict : List Byte) (limit : Nat) : Nat → DecRegs → Except DecRegs DecRegs
  | 0, r => .error r
  | fuel + 1, r =>
    match decodeSeq inp dict limit r with
    | .error r' => .error r'
    | .ok (r', true) => .ok r'
    | .ok (r', false) => decodeLoop inp dict limit fuel r'

/-- `DecodeBlock(in, dict, limit)` (R190): the output is `out` of the working registers it leaves.  Empty input gives empty
output (R200). -/
def decodeBlock (inp dict : List Byte) (limit : Nat) (r : DecRegs) : Except DecRegs DecRegs :=
  if inp = [] then .ok { r with ip := 0, out := [] }
  else decodeLoop inp dict limit (inp.length + 1) { r with ip := 0, out := [] }

/-! ### The wire elements of a block -/

/-- The working registers a step left; a raise ends the run. -/
def afterStep (r : Except DecRegs DecRegs) (s : State) (k : State → State) : Host.Outcome State Fault Refusal :=
  match r with
  | .ok d => .next (k { s with dec := d })
  | .error d => .next (raiseBlock .corruptedInput { s with dec := d })

/-- The match length is complete: the copy, then the next sequence (R197, R199). -/
def finishMatch (s : State) : Host.Outcome State Fault Refusal :=
  afterStep (s.dec.copyMatch s.stream.dict s.stream.limit) s (goOn .boundary)

/-- TOKEN (R191), at a sequence boundary. -/
def execToken (t : Byte) (s : State) : Host.Outcome State Fault Refusal :=
  atPos .boundary s <|
    if s.stream.input.length ≤ s.dec.ip then .next (raiseBlock .corruptedInput s)
    else .next (goOn (if tokenLL t = 15 then .llext else .literals) { s with dec := s.dec.takeToken t })

/-- LLEXT (R192). -/
def execLlext (v : Byte) (s : State) : Host.Outcome State Fault Refusal :=
  atPos .llext s <|
    if s.stream.input.length ≤ s.dec.ip then .next (raiseBlock .corruptedInput s)
    else .next (goOn (if v = 255#8 then .llext else .literals) { s with dec := s.dec.takeLLExt v })

/-- LITERALS (R193), then the end test (R194): when the input is exhausted the block is complete. -/
def execLiterals (lit : List Byte) (s : State) : Host.Outcome State Fault Refusal :=
  atPos .literals s <|
    if lit.length = s.dec.ll then
      afterStep (s.dec.takeLiterals s.stream.input.length s.stream.limit lit) s fun t =>
        if t.dec.ip = t.stream.input.length then streamReturn t else goOn .offset t
    else .refused .elementOutOfPosition

/-- OFFSET (R195); without extension bytes the match length is complete (R196). -/
def execOffset (off : BitVec 16) (s : State) : Host.Outcome State Fault Refusal :=
  atPos .offset s <|
    match s.dec.takeOffset s.stream.input.length s.stream.dict.length off with
    | .error d => .next (raiseBlock .corruptedInput { s with dec := d })
    | .ok d => if tokenML d.token = 15 then .next (goOn .mlext { s with dec := d }) else finishMatch { s with dec := d }

/-- MLEXT (R196); a byte below 255 completes the match length. -/
def execMlext (v : Byte) (s : State) : Host.Outcome State Fault Refusal :=
  atPos .mlext s <|
    if s.stream.input.length ≤ s.dec.ip then .next (raiseBlock .corruptedInput s)
    else if v = 255#8 then .next (goOn .mlext { s with dec := s.dec.takeMLExt v })
    else finishMatch { s with dec := s.dec.takeMLExt v }

/-- The token and literal length of a whole sequence, read at once. -/
def DecRegs.takeHead (t : Byte) (ll : Nat) (r : DecRegs) : DecRegs :=
  { r with ip := r.ip + 1 + (lenField ll).length, token := t, ll := ll }

/-- A whole SEQ (R91, R190): its steps in order. -/
def DecRegs.takeSeq (inLen : Nat) (dict : List Byte) (limit : Nat) (lit : List Byte) (off : BitVec 16) (ml : Nat)
    (r : DecRegs) : Except DecRegs DecRegs :=
  match (r.takeHead (makeToken lit.length (ml - 4)) lit.length).takeLiterals inLen limit lit with
  | .error d => .error d
  | .ok r1 =>
    match r1.takeOffset inLen dict.length off with
    | .error d => .error d
    | .ok r2 => DecRegs.copyMatch dict limit { r2 with ip := r2.ip + (lenField (ml - 4)).length, ml := ml }

/-- A whole LAST (R98, R190). -/
def DecRegs.takeLast (inLen limit : Nat) (lit : List Byte) (mln : BitVec 4) (r : DecRegs) : Except DecRegs DecRegs :=
  (r.takeHead (makeToken lit.length mln.toNat) lit.length).takeLiterals inLen limit lit

/-- SEQ (R91, R190, R197), at a sequence boundary. -/
def execSeq (lit : List Byte) (off : BitVec 16) (ml : Nat) (s : State) : Host.Outcome State Fault Refusal :=
  atPos .boundary s <|
    if s.stream.input.length < s.dec.ip + (encode (.seq lit off ml)).length then .next (raiseBlock .corruptedInput s)
    else afterStep (s.dec.takeSeq s.stream.input.length s.stream.dict s.stream.limit lit off ml) s (goOn .boundary)

/-- LAST (R98, R190, R194), at a sequence boundary: it ends exactly where the input ends (R99). -/
def execLast (lit : List Byte) (mln : BitVec 4) (s : State) : Host.Outcome State Fault Refusal :=
  atPos .boundary s <|
    if s.stream.input.length < s.dec.ip + (encode (.last lit mln)).length then .next (raiseBlock .corruptedInput s)
    else if s.dec.ip + (encode (.last lit mln)).length < s.stream.input.length then .refused .elementOutOfPosition
    else afterStep (s.dec.takeLast s.stream.input.length s.stream.limit lit mln) s streamReturn

/-! ### DECOMPRESS_BLOCK (R204) -/

/-- DECOMPRESS_BLOCK's arguments are valid (R274). -/
abbrev decompressValid (s : State) : Prop := regionsValid s.params s.regs ∧ s.regs.arg.toNat ≤ Config.lenMax

/-- The rule of DECOMPRESS_BLOCK: the capacity is judged before the input is read (R303), the output must have exactly the
known length (R205). -/
def ruleDecompressBlock (s : State) : CmdEnd :=
  let dst := dstRegion s.params s.regs
  let known := s.regs.arg.toNat
  if decompressValid s then
    if s.regs.dstCap.toNat < known then .raised .outputTooSmall (deliver dst [] s)
    else
      match decodeBlock (srcBytes s) [] known s.dec with
      | .error d => .raised .corruptedInput (deliver dst [] { s with dec := d })
      | .ok d =>
        if d.out.length = known then .done (setResult known (deliver dst d.out { s with dec := d }))
        else .raised .corruptedInput (deliver dst [] { s with dec := d })
  else .raised .invalidArgument s

/-- DECOMPRESS_BLOCK (R204). -/
def execDecompressBlock (s : State) : Host.Outcome State Fault Refusal := runCommand ruleDecompressBlock s

end Sys2Proof.Machine
end

