-- ==== Sys2Proof/Machine/Reader.lean ====
section
/-! DEFINITION. The frame reader (R222, R247 to R260): OPEN_READER, READ_FRAME, CLOSE_READER, and the steps of `NextBlock` and
`Trailer` the wire elements of a frame share. -/

namespace Sys2Proof.Machine

/-- What the reader works on: the context, the block decoder's working registers, the block read so far, the content
gathered. -/
structure ReadWork where
  reader : ReaderCtx
  dec : DecRegs
  blk : BlkRegs
  out : List Byte
  deriving DecidableEq, Repr

/-- A reader's step: it goes on, or raises an error in the state it leaves ("undo nothing", R306). -/
abbrev ReadStep := Except (ErrCode × ReadWork) ReadWork

/-! ### The header (R222) -/

/-- `ParseHeader(F)` (R222), its tests in R222's order. -/
def parseHeader (f : List Byte) : Except ErrCode FinfoRegs :=
  let flg := f.getD 4 0#8
  let bd := f.getD 5 0#8
  let hl := hdrLen (flg.getLsbD 3) (flg.getLsbD 0)
  let dictAt := 6 + 8 * (flg.getLsbD 3).toNat
  if f.length < 4 ∨ leNat (f.take 4) ≠ Config.magic then .error .corruptedInput
  else if f.length < 6 then .error .corruptedInput
  else if f.length < hl then .error .corruptedInput
  else if f.getD (hl - 1) 0#8 ≠ hdrsum (Config.hash32 (slice f 4 (hl - 1))) then .error .checksumMismatch
  else if ¬ headerLegal flg bd then .error .corruptedInput
  else .ok (finfoOf flg bd (BitVec.ofNat 64 (leNat (slice f 6 14))) (BitVec.ofNat 32 (leNat (slice f dictAt (dictAt + 4)))))

/-! ### The steps of NextBlock and Trailer (R251, R256) -/

/-- RIP moves past `n` bytes. -/
def ReadWork.advance (n : Nat) (t : ReadWork) : ReadWork :=
  { t with reader := { t.reader with rip := t.reader.rip + n } }

/-- A BLKHDR: the size against BLOCK_MAX, then payload and checksum present (R251).  R251 assigns `raw` and `size` before these
tests; that a BLKHDR that is rejected leaves the old values in them, dead then, is a DESIGN CHOICE (log entry 5). -/
def ReadWork.openBlock (inLen : Nat) (raw : Bool) (size : Nat) (t : ReadWork) : ReadStep :=
  if blockMax t.reader.finfo.bsclass.toNat < size then .error (.corruptedInput, t)
  else if inLen < t.reader.rip + size + 4 * t.reader.finfo.bcsum.toNat then .error (.corruptedInput, t)
  else .ok { t with blk := { t.blk with raw := raw, size := size } }

/-- The payload (R251). -/
def ReadWork.takePayload (bytes : List Byte) (t : ReadWork) : ReadWork :=
  { t.advance t.blk.size with blk := { t.blk with payload := bytes } }

/-- The block checksum, verified over the payload as stored (R251, R253). -/
def ReadWork.takeBlksum (sum : Word) (t : ReadWork) : ReadStep :=
  if sum ≠ Config.hash32 t.blk.payload then .error (.checksumMismatch, t.advance 4) else .ok (t.advance 4)

/-- The dictionary a block is decoded with (R202, R225). -/
def ReaderCtx.dict (r : ReaderCtx) : List Byte := if r.finfo.bindep then [] else r.hist

/-- The content of the block: the payload itself when RAW, else its decoding under the limit BLOCK_MAX (R252, R254). -/
def ReadWork.decodeContent (t : ReadWork) : Except DecRegs (List Byte × DecRegs) :=
  if t.blk.raw then .ok (t.blk.payload, t.dec)
  else
    match decodeBlock t.blk.payload t.reader.dict (blockMax t.reader.finfo.bsclass.toNat) t.dec with
    | .error d => .error d
    | .ok d => .ok (d.out, d)

/-- A block of content `c` is staged (R251, R255). -/
def ReaderCtx.stageContent (c : List Byte) (r : ReaderCtx) : ReaderCtx :=
  { r with
    stage := c
    total := r.total + c.length
    acc := if r.finfo.ccsum then r.acc ++ c else r.acc
    hist := if r.finfo.bindep then r.hist else lastBytes Config.window (r.hist ++ c) }

/-- The block is decoded and staged (R251). -/
def ReadWork.finishBlock (t : ReadWork) : ReadStep :=
  match t.decodeContent with
  | .error d => .error (.corruptedInput, { t with dec := d })
  | .ok (c, d) => .ok { t with dec := d, reader := t.reader.stageContent c }

/-- The content size at the ENDMARK (R256). -/
def ReadWork.checkSize (t : ReadWork) : ReadStep :=
  if t.reader.finfo.csize = true ∧ t.reader.total ≠ t.reader.finfo.contentSize.toNat then .error (.corruptedInput, t)
  else .ok t

/-- The content checksum (R256). -/
def ReadWork.takeCsum (sum : Word) (t : ReadWork) : ReadStep :=
  if sum ≠ Config.hash32 t.reader.acc then .error (.checksumMismatch, t.advance 4) else .ok (t.advance 4)

/-- The reader's STATE. -/
def ReadWork.setState (f : FrameState) (t : ReadWork) : ReadWork := { t with reader := { t.reader with state := f } }

/-- `LE32(F, RIP)`. -/
def ReadWork.word (f : List Byte) (t : ReadWork) : Nat := leNat ((f.drop t.reader.rip).take 4)

/-- The content checksum when the frame has one: present, then right (R256). -/
def ReadWork.checkCsum (f : List Byte) (t : ReadWork) : ReadStep :=
  if t.reader.finfo.ccsum then
    if f.length < t.reader.rip + 4 then .error (.corruptedInput, t) else t.takeCsum (BitVec.ofNat 32 (t.word f))
  else .ok t

/-- `Trailer(R)` (R256). -/
def ReadWork.trailer (f : List Byte) (t : ReadWork) : ReadStep :=
  match t.checkSize with
  | .error e => .error e
  | .ok t1 =>
    match t1.checkCsum f with
    | .error e => .error e
    | .ok t2 => .ok (t2.setState .ended)

/-- The block checksum when the frame has them (R251, R253). -/
def ReadWork.checkBlksum (f : List Byte) (t : ReadWork) : ReadStep :=
  if t.reader.finfo.bcsum then t.takeBlksum (BitVec.ofNat 32 (t.word f)) else .ok t

/-- The block after its size word (R251). -/
def ReadWork.block (f : List Byte) (w : Nat) (t : ReadWork) : ReadStep :=
  match t.openBlock f.length (decide (2147483648 ≤ w)) (w % 2147483648) with
  | .error e => .error e
  | .ok t1 =>
    match (t1.takePayload ((f.drop t1.reader.rip).take t1.blk.size)).checkBlksum f with
    | .error e => .error e
    | .ok t2 => t2.finishBlock

/-- `NextBlock(R)` (R251). -/
def nextBlock (f : List Byte) (t : ReadWork) : ReadStep :=
  if f.length < t.reader.rip + 4 then .error (.corruptedInput, t)
  else if t.word f = 0 then (t.advance 4).trailer f
  else (t.advance 4).block f (t.word f)

/-- The front of STAGE is delivered, `max` bytes of content at most in all (R250, R257). -/
def ReadWork.deliverStage (max : Nat) (t : ReadWork) : ReadWork :=
  { t with
    out := t.out ++ t.reader.stage.take (max - t.out.length)
    reader := { t.reader with stage := t.reader.stage.drop (max - t.out.length) } }

/-- The loop of READ_FRAME (R250), `fuel` turns at most. -/
def readLoop (f : List Byte) (max : Nat) : Nat → ReadWork → ReadStep
  | 0, t => .ok t
  | fuel + 1, t =>
    if t.out.length < max ∧ t.reader.state = .blocks then
      if t.reader.stage = [] then
        match nextBlock f t with
        | .error e => .error e
        | .ok t' => readLoop f max fuel t'
      else readLoop f max fuel (t.deliverStage max)
    else .ok t

/-- Turns that are enough (R261 c): at most SRC_LEN / 4 + 1 block parses, one delivery after each and one before. -/
def readFuel (inLen : Nat) : Nat := 2 * (inLen / 4 + 1) + 2

/-! ### OPEN_READER (R248) -/

/-- The reader context OPEN_READER makes. -/
def openedReader (p : Params) (r : Regs) (f : FinfoRegs) : ReaderCtx :=
  { state := .blocks, finfo := f, srcAddr := BitVec.ofNat 64 (srcRegion p r).addr, srcLen := r.srcLen,
    rip := f.hdrlen.toNat, hist := [], stage := [], total := 0, acc := [] }

/-- The rule of OPEN_READER.  That the header parser's names (`hdr`), dead after the command, keep what they held, though R222
assigns FLG, BD, csize and dictid, is a DESIGN CHOICE (log entry 5). -/
def ruleOpenReader (s : State) : CmdEnd :=
  if srcAdmitted s.params s.regs then
    match freeReader s with
    | none => .raised .invalidArgument s
    | some j =>
      match parseHeader (srcBytes s) with
      | .error e => .raised e s
      | .ok f =>
        .done (setResult f.hdrlen.toNat (setHandle j (setFinfo f (setReader j (openedReader s.params s.regs f) s))))
  else .raised .invalidArgument s

/-- OPEN_READER (R248). -/
def execOpenReader (s : State) : Host.Outcome State Fault Refusal := runCommand ruleOpenReader s

/-! ### READ_FRAME (R250) -/

/-- The context is one READ_FRAME accepts (R220, R233). -/
abbrev ReaderCtx.isReadable (r : ReaderCtx) : Prop := r.state = .blocks ∨ r.state = .ended

/-- READ_FRAME's arguments are valid for the context (R250, R274). -/
abbrev readValid (s : State) (r : ReaderCtx) : Prop :=
  r.isReadable ∧ dstAdmitted s.params s.regs ∧ ¬ overlap r.region (dstRegion s.params s.regs) ∧
  s.regs.arg.toNat ≤ Config.lenMax ∧ s.regs.arg.toNat ≤ s.regs.dstCap.toNat

/-- What READ_FRAME's loop makes of the context `r`. -/
def readContent (s : State) (r : ReaderCtx) : ReadStep :=
  readLoop (regionBytes s r.region) s.regs.arg.toNat (readFuel r.region.len)
    { reader := r, dec := s.dec, blk := s.blk, out := [] }

/-- The context and working registers READ_FRAME leaves. -/
def putReadWork (t : ReadWork) (s : State) : State :=
  setReader s.regs.handle.toNat t.reader { s with dec := t.dec, blk := t.blk }

/-- The rule of READ_FRAME.  A stream of 2^64 content bytes is not modelled (R34). -/
def ruleReadFrame (s : State) : CmdEnd :=
  match handleReader s with
  | none => .raised .invalidArgument s
  | some r =>
    if readValid s r then
      match readContent s r with
      | .error (e, t) => .raised e (deliver (dstRegion s.params s.regs) [] (putReadWork (t.setState .failed) s))
      | .ok t =>
        if Config.streamMax ≤ t.reader.total then .refused .streamTooLong
        else
          .done (setStatus (Status.setEos (t.reader.state == .ended))
            (setResult t.out.length (deliver (dstRegion s.params s.regs) t.out (putReadWork t s))))
    else .raised .invalidArgument s

/-- READ_FRAME (R250). -/
def execReadFrame (s : State) : Host.Outcome State Fault Refusal := runCommand ruleReadFrame s

/-! ### CLOSE_READER (R260) -/

/-- The rule of CLOSE_READER.  That the Closed context keeps its other fields, open by R46 and U20 (STAGE's content is dropped
in that nothing reads it again), is a DESIGN CHOICE (log entry 4). -/
def ruleCloseReader (s : State) : CmdEnd :=
  match handleReader s with
  | none => .raised .invalidArgument s
  | some r =>
    if r.state = .blocks ∨ r.state = .ended ∨ r.state = .failed then
      .done (setResult 0 (setReader s.regs.handle.toNat { r with state := .closed } s))
    else .raised .invalidArgument s

/-- CLOSE_READER (R260). -/
def execCloseReader (s : State) : Host.Outcome State Fault Refusal := runCommand ruleCloseReader s

end Sys2Proof.Machine
end

