-- ==== Sys2Proof/Machine/FrameElements.lean ====
section
/-! DEFINITION. The meanings of the wire elements of a frame, MAGIC to CSUM, in a frame run (R101 to R114, R222, R251, R256).
The cursor is RIP of the run's reader context; a frame run delivers every staged block at once. -/

namespace Sys2Proof.Machine

/-- The reader's working state of the run. -/
def streamWork (s : State) : ReadWork :=
  { reader := s.stream.reader, dec := s.dec, blk := s.blk, out := s.stream.content }

/-- The reader's working state put back. -/
def putStreamWork (t : ReadWork) (s : State) : State :=
  { s with dec := t.dec, blk := t.blk, stream := { s.stream with reader := t.reader, content := t.out } }

/-- RIP of the run moves past `n` bytes. -/
def advanceRun (n : Nat) (s : State) : State := putStreamWork ((streamWork s).advance n) s

/-- The run's input ends before `n` more bytes. -/
abbrev runTruncated (n : Nat) (s : State) : Prop := s.stream.input.length < s.stream.reader.rip + n

/-- An element of `n` bytes at position `p`; a truncated frame is CorruptedInput (R222, R251, R256). -/
def frameElement (p : Pos) (n : Nat) (s : State) (k : State → Host.Outcome State Fault Refusal) :
    Host.Outcome State Fault Refusal :=
  atPos p s (if runTruncated n s then .next (raiseFrame .corruptedInput s) else k (advanceRun n s))

/-- A reader's step in a run: go on with `k`, or raise. -/
def afterRead (r : ReadStep) (s : State) (k : State → Host.Outcome State Fault Refusal) : Host.Outcome State Fault Refusal :=
  match r with
  | .ok t => k (putStreamWork t s)
  | .error (e, t) => .next (raiseFrame e (putStreamWork t s))

/-- The block is complete: it is decoded, staged and delivered, and the run stands at a block boundary (R251, R257). -/
def finishRunBlock (s : State) : Host.Outcome State Fault Refusal :=
  afterRead (streamWork s).finishBlock s fun t =>
    if Config.streamMax ≤ t.stream.reader.total then .refused .streamTooLong
    else .next (goOn .block (putStreamWork
      ((streamWork t).deliverStage (t.stream.content.length + t.stream.reader.stage.length)) t))

/-- The frame is complete (R256). -/
def finishRunFrame (s : State) : Host.Outcome State Fault Refusal :=
  .next (streamReturn (putStreamWork ((streamWork s).setState .ended) s))

/-! ### The header -/

/-- The element after CSIZE's place. -/
def afterCsize (flg : Byte) : Pos := if flg.getLsbD 0 then .dictid else .hc

/-- The element after BD. -/
def afterBd (flg : Byte) : Pos := if flg.getLsbD 3 then .csize else afterCsize flg

/-- MAGIC (R102, R222). -/
def execMagic (s : State) : Host.Outcome State Fault Refusal :=
  frameElement .magic 4 s fun t => .next (goOn .flg t)

/-- FLG (R104, R222): FLG and BD must both be there; it is judged only after the header checksum. -/
def execFlg (b : Byte) (s : State) : Host.Outcome State Fault Refusal :=
  atPos .flg s <|
    if runTruncated 2 s then .next (raiseFrame .corruptedInput s)
    else .next (goOn .bd (advanceRun 1 { s with hdr := { s.hdr with flg := b } }))

/-- BD (R105, R222, R223): the rest of the header, whose length FLG decides (R109), must be there.  R222 assigns BD before that
test, csize and dictid after its last one; that BD is recorded only when the rest is there, and that csize and dictid are 0 from
then until their elements are read, is a DESIGN CHOICE (log entry 5). -/
def execBd (b : Byte) (s : State) : Host.Outcome State Fault Refusal :=
  frameElement .bd 1 s fun t =>
    if runTruncated (hdrLen (t.hdr.flg.getLsbD 3) (t.hdr.flg.getLsbD 0) - 6) t then .next (raiseFrame .corruptedInput t)
    else .next (goOn (afterBd t.hdr.flg) { t with hdr := { t.hdr with bd := b, csize := 0#64, dictid := 0#32 } })

/-- CSIZE (R106, R226). -/
def execCsize (v : DWord) (s : State) : Host.Outcome State Fault Refusal :=
  frameElement .csize 8 s fun t => .next (goOn (afterCsize t.hdr.flg) { t with hdr := { t.hdr with csize := v } })

/-- DICTID (R107, R227). -/
def execDictid (v : Word) (s : State) : Host.Outcome State Fault Refusal :=
  frameElement .dictid 4 s fun t => .next (goOn .hc { t with hdr := { t.hdr with dictid := v } })

/-- The reader context after a good header (R222, R248). -/
def ReaderCtx.headerRead (f : FinfoRegs) (r : ReaderCtx) : ReaderCtx :=
  { r with state := .blocks, finfo := f, hist := [], stage := [], total := 0, acc := [] }

/-- HC (R108, R222, R230): the checksum first, then version, reserved bits and class. -/
def execHc (c : Byte) (s : State) : Host.Outcome State Fault Refusal :=
  frameElement .hc 1 s fun t =>
    let h := t.hdr
    if c ≠ hdrsum (Config.hash32 (descriptor h.flg h.bd h.csize h.dictid)) then .next (raiseFrame .checksumMismatch t)
    else if ¬ headerLegal h.flg h.bd then .next (raiseFrame .corruptedInput t)
    else
      .next (goOn .block { t with stream := { t.stream with
        reader := t.stream.reader.headerRead (finfoOf h.flg h.bd h.csize h.dictid) } })

/-! ### Blocks and trailer -/

/-- BLKHDR (R110, R251). -/
def execBlkhdr (raw : Bool) (size : BitVec 31) (s : State) : Host.Outcome State Fault Refusal :=
  frameElement .block 4 s fun t =>
    afterRead ((streamWork t).openBlock t.stream.input.length raw size.toNat) t fun u => .next (goOn .payload u)

/-- PAYLOAD (R111, R251, R252): then the block checksum when BCSUM = 1, else the block is complete. -/
def execPayload (bytes : List Byte) (s : State) : Host.Outcome State Fault Refusal :=
  atPos .payload s <|
    if bytes.length = s.blk.size then
      if runTruncated s.blk.size s then .next (raiseFrame .corruptedInput s)
      else if s.stream.reader.finfo.bcsum then .next (goOn .blksum (putStreamWork ((streamWork s).takePayload bytes) s))
      else finishRunBlock (putStreamWork ((streamWork s).takePayload bytes) s)
    else .refused .elementOutOfPosition

/-- BLKSUM (R112, R253): verified before the payload is decoded. -/
def execBlksum (sum : Word) (s : State) : Host.Outcome State Fault Refusal :=
  atPos .blksum s <|
    if runTruncated 4 s then .next (raiseFrame .corruptedInput s)
    else afterRead ((streamWork s).takeBlksum sum) s finishRunBlock

/-- ENDMARK (R113, R256): the content size, then CSUM when CCSUM = 1, else the frame is complete. -/
def execEndmark (s : State) : Host.Outcome State Fault Refusal :=
  frameElement .block 4 s fun t =>
    afterRead (streamWork t).checkSize t fun u =>
      if u.stream.reader.finfo.ccsum then
        .next (goOn .csum (putStreamWork ((streamWork u).setState .contentChecksum) u))
      else finishRunFrame u

/-- CSUM (R114, R256). -/
def execCsum (sum : Word) (s : State) : Host.Outcome State Fault Refusal :=
  atPos .csum s <|
    if runTruncated 4 s then .next (raiseFrame .corruptedInput s)
    else afterRead ((streamWork s).takeCsum sum) s finishRunFrame

end Sys2Proof.Machine
end

