-- ==== Sys2Proof/Machine/Finder.lean ====
section
/-! DEFINITION. Hash table and match finder: the reference algorithm of 40_match_finder.md in its fast (wide and narrow) and
high-ratio variants (R130 to R154), and what binds every other finder policy (R141). -/

namespace Sys2Proof.Machine

/-- What the finder's rules hold fixed while one block is coded: the history `H`, `P0` (R153), `matchlimit` (R135), `L`
(R130) and the tunables it reads. -/
structure FinderEnv where
  hist : List Byte
  p0 : Nat
  matchlimit : Nat
  bits : Nat
  mult : Word
  optLen : Nat
  maxAttempts : Nat
  deriving DecidableEq, Repr

/-- `Seq(p)` (R130, R69): the four bytes at `p` as one little-endian number. -/
def seqAt (h : List Byte) (p : Nat) : Nat := leNat ((h.drop p).take 4)

/-- `Hash(p)` (R130): the product is reduced to 32 bits before the shift. -/
def hashOf (mult : Word) (bits seq : Nat) : Nat := seq * mult.toNat % 4294967296 / 2 ^ (32 - bits)

/-- `Hash(p)` in the environment. -/
def FinderEnv.hash (e : FinderEnv) (p : Nat) : Nat := hashOf e.mult e.bits (seqAt e.hist p)

/-- How many of the first `n` bytes of two strings agree before the first that differs. -/
def commonLength : Nat → List Byte → List Byte → Nat
  | n + 1, a :: s, b :: t => if a = b then commonLength n s t + 1 else 0
  | _, _, _ => 0

/-- `MatchLen(ci, p)` (R134), defined bytewise: 4 and as many further equal bytes as stand before `matchlimit`. -/
def FinderEnv.matchLen (e : FinderEnv) (ci p : Nat) : Nat :=
  4 + commonLength (e.matchlimit - (p + 4)) (e.hist.drop (ci + 4)) (e.hist.drop (p + 4))

/-- Candidate `c` is in range at `p` (R133). -/
abbrev FinderEnv.inRange (e : FinderEnv) (p c : Nat) : Prop :=
  e.p0 ≤ c ∧ c < e.p0 + p ∧ e.p0 + p - c ≤ Config.window

/-- Candidate `c` is in range (R133) and confirmed (R132) at `p`. -/
abbrev FinderEnv.confirmed (e : FinderEnv) (p c : Nat) : Prop :=
  e.inRange p c ∧ seqAt e.hist (c - e.p0) = seqAt e.hist p

/-- What a candidate gives in the fast variants: its offset and length when it is confirmed. -/
def FinderEnv.judge (e : FinderEnv) (p : Nat) (c : Option Nat) : Option (Nat × Nat) :=
  match c with
  | none => none
  | some c => if e.confirmed p c then some (e.p0 + p - c, e.matchLen (c - e.p0) p) else none

/-- `HT[Hash(p)] <- abs(p)` (R131). -/
def FinderEnv.insertHT (e : FinderEnv) (p : Nat) (t : TableSet) : TableSet :=
  { t with ht := Assoc.insert (e.hash p) (e.p0 + p) t.ht }

/-- `FindMatchFast(p)` (R136): read the bucket, then write it (R131), then judge the one candidate. -/
def findMatchFast (e : FinderEnv) (p : Nat) (t : TableSet) : Option (Nat × Nat) × TableSet :=
  (e.judge p (Assoc.find (e.hash p) t.ht), e.insertHT p t)

/-- The search loop of `FindMatchHC` (R149): front to back (R144), stopping at the first candidate too far back (R147), a
strictly longer match replaces (R145), and HC_OPT_LEN short-circuits (R148). -/
def searchChain (e : FinderEnv) (p : Nat) : List Nat → Option (Nat × Nat) → Option (Nat × Nat)
  | [], best => best
  | c :: rest, best =>
    if Config.window < e.p0 + p - c ∨ c < e.p0 then best
    else if e.confirmed p c then
      let found := (e.p0 + p - c, e.matchLen (c - e.p0) p)
      let better :=
        match best with
        | none => found
        | some b => if b.2 < found.2 then found else b
      if e.optLen ≤ better.2 then some better else searchChain e p rest (some better)
    else searchChain e p rest best

/-- `CH[h]`: an unlisted bucket is the empty list. -/
def chainAt (t : TableSet) (h : Nat) : List Nat := (Assoc.find h t.ch).getD []

/-- `CH[Hash(p)] <- take(HC_MAX_ATTEMPTS, abs(p) :: CH[Hash(p)])` (R143). -/
def FinderEnv.insertCH (e : FinderEnv) (p : Nat) (t : TableSet) : TableSet :=
  { t with ch := Assoc.insert (e.hash p) (((e.p0 + p) :: chainAt t (e.hash p)).take e.maxAttempts) t.ch }

/-- `FindMatchHC(p)` (R149): the position is inserted in front after the search (R143). -/
def findMatchHC (e : FinderEnv) (p : Nat) (t : TableSet) : Option (Nat × Nat) × TableSet :=
  (searchChain e p (chainAt t (e.hash p)) none, e.insertCH p t)

/-- `Step(A, fails)` (R138), computed without overflow: from exponent 16 on it is SKIP_CEIL. -/
def skipStep (c : CfgRegs) (accel fails : Nat) : Nat :=
  if 16 ≤ fails / 2 ^ c.skipStrength.toNat then c.skipCeil.toNat
  else min c.skipCeil.toNat (accel * 2 ^ (fails / 2 ^ c.skipStrength.toNat))

/-- The narrow flavour is used (R152): requested, a fast variant, a block coded independently (COMPRESS_BLOCK, or a writer with
BINDEP = 1; log entry 9), at most 65536 bytes. -/
def usesNarrow (c : CfgRegs) (v : Variant) (independent : Bool) (n : Nat) : Bool :=
  match v with
  | .fast _ => c.narrow && independent && decide (n ≤ 65536)
  | .highRatio _ => false

/-- `L` (R130, R152). -/
def tableBits (c : CfgRegs) (narrow : Bool) : Nat := c.hashLog.toNat + narrow.toNat

/-! ### Finder policies (R141) -/

/-- A finder policy, the parameter of the encoder (U4): the reference algorithm, or any function that answers. -/
inductive Policy where
  | reference
  | other (f : FinderView → FinderAnswer)

/-- The policy of the device. -/
def policyOf (p : Params) : Policy :=
  match p.finder with
  | .reference => .reference
  | .policy n => .other (Config.finderPolicy n)

/-- A match that binds every implementation (R141): real (R132), within the window (R133), at least 4 long and clear of the last
5 bytes (R135). -/
abbrev FinderEnv.isMatch (e : FinderEnv) (p off len : Nat) : Prop :=
  1 ≤ off ∧ off ≤ Config.window ∧ off ≤ p ∧ Config.minMatch ≤ len ∧ p + len ≤ e.matchlimit ∧
  (e.hist.drop (p - off)).take len = (e.hist.drop p).take len

/-- The match a policy answers, when it is one; an answer that is none is no match. -/
def FinderEnv.bindMatch (e : FinderEnv) (p : Nat) (m : Option (Nat × Nat)) : Option (Nat × Nat) :=
  match m with
  | none => none
  | some (off, len) => if e.isMatch p off len then some (off, len) else none

/-- The least cursor a policy may go on from: right after the match, else one further (R141: strictly greater). -/
def leastNext (p : Nat) (m : Option (Nat × Nat)) : Nat :=
  match m with
  | none => p + 1
  | some (_, len) => p + len

/-- A position with a hash (R130) is inserted into the variant's table. -/
def FinderEnv.insertPosition (e : FinderEnv) (v : Variant) (t : TableSet) (p : Nat) : TableSet :=
  if p + 4 ≤ e.hist.length then
    match v with
    | .fast _ => e.insertHT p t
    | .highRatio _ => e.insertCH p t
  else t

/-- How far from a block's end the last attempt starts (R135): MFLIMIT is the reference's own (R141); MPC asks that a match of 4
can end before the last 5 bytes. -/
def Policy.attemptLimit : Policy → Nat
  | .reference => Config.mfLimit
  | .other _ => Config.lastLiterals + Config.minMatch

/-! ### The word-and-bit-scan method (R134), which must agree with the bytewise one -/

/-- Trailing zero bits of a number, `fuel` at most: what the LUT computes (R41). -/
def countTrailingZeros : Nat → Nat → Nat
  | 0, _ => 0
  | fuel + 1, v => if v % 2 = 1 then 0 else countTrailingZeros fuel (v / 2) + 1

/-- The number of equal leading bytes of two different 4-byte words, `ctz(a xor b) div 8` (R134). -/
def equalLeadingBytes (a b : Word) : Nat := countTrailingZeros 32 (a ^^^ b).toNat / 8

end Sys2Proof.Machine
end

