-- ==== Sys2Proof/Machine/Encoder.lean ====
section
/-! DEFINITION. The block encoder (R161 to R169), and the meanings of MAXLEN (R160) and COMPRESS_BLOCK (R177). -/

namespace Sys2Proof.Machine

/-- The finder's environment for one block. -/
def finderEnv (c : CfgRegs) (hist : List Byte) (p0 bits matchlimit : Nat) : FinderEnv :=
  { hist := hist, p0 := p0, matchlimit := matchlimit, bits := bits, mult := c.hashMult, optLen := c.hcOptLen.toNat,
    maxAttempts := c.hcMaxAttempts.toNat }

/-- `findMatch` of the variant (R136, R149). -/
def findMatch (e : FinderEnv) (v : Variant) (p : Nat) (t : TableSet) : Option (Nat × Nat) × TableSet :=
  match v with
  | .fast _ => findMatchFast e p t
  | .highRatio _ => findMatchHC e p t

/-- How far a failed attempt advances the cursor (R138, R150). -/
def failStep (c : CfgRegs) (v : Variant) (fails : Nat) : Nat :=
  match v with
  | .fast a => skipStep c a fails
  | .highRatio _ => 1

/-- The failure counter after one more failure; it saturates (R34). -/
def nextFails (r : EncRegs) : Nat := min (r.fails + 1) Config.failsMax

/-- What a policy makes of the position at the cursor: none or a match, the next cursor, the tables. -/
structure Visit where
  found : Option (Nat × Nat)
  next : Nat
  tables : TableSet
  deriving DecidableEq, Repr

/-- The reference algorithm at the cursor (R136, R149, R166). -/
def referenceVisit (c : CfgRegs) (v : Variant) (e : FinderEnv) (r : EncRegs) (t : TableSet) : Visit :=
  { found := (findMatch e v r.cur t).1
    next :=
      match (findMatch e v r.cur t).1 with
      | some m => r.cur + m.2
      | none => r.cur + failStep c v (nextFails r)
    tables := (findMatch e v r.cur t).2 }

/-- What a policy sees at the cursor. -/
def finderView (c : CfgRegs) (v : Variant) (e : FinderEnv) (r : EncRegs) (t : TableSet) : FinderView :=
  { hist := e.hist, p0 := e.p0, matchlimit := e.matchlimit, bits := e.bits, mult := e.mult, optLen := e.optLen,
    maxAttempts := e.maxAttempts, skipStrength := c.skipStrength.toNat, skipCeil := c.skipCeil.toNat
    accel := match v with
      | .fast a => some a
      | .highRatio _ => none
    level := match v with
      | .fast _ => none
      | .highRatio l => some l
    cur := r.cur, anchor := r.anchor, fails := r.fails, out := r.out, ht := t.ht, ch := t.ch }

/-- Another policy's answer at the cursor, held to the rules that bind every one (R141; log entry 8). -/
def boundVisit (a : FinderAnswer) (v : Variant) (e : FinderEnv) (r : EncRegs) (t : TableSet) : Visit :=
  { found := e.bindMatch r.cur a.found
    next := max a.next (leastNext r.cur (e.bindMatch r.cur a.found))
    tables := a.inserted.foldl (e.insertPosition v) t }

/-- The policy visits the position at the cursor (R141). -/
def visit (q : Policy) (c : CfgRegs) (v : Variant) (e : FinderEnv) (r : EncRegs) (t : TableSet) : Visit :=
  match q with
  | .reference => referenceVisit c v e r t
  | .other f => boundVisit (f (finderView c v e r t)) v e r t

/-- One turn of the encoder loop (R166): what the policy's answer does to the working registers. -/
def encodeTurn (hist : List Byte) (m : Option (Nat × Nat)) (next : Nat) (r : EncRegs) : EncRegs :=
  match m with
  | some (off, ml) =>
    { r with
      out := r.out ++ emitSeq (slice hist r.anchor r.cur) off ml
      cur := next
      anchor := r.cur + ml
      fails := 0 }
  | none => { r with fails := nextFails r, cur := next }

/-- The loop of `EncodeBlock` (R166), `fuel` turns at most; it needs at most as many as the block has bytes (R175). -/
def encodeLoop (q : Policy) (c : CfgRegs) (v : Variant) (e : FinderEnv) : Nat → EncRegs → TableSet → EncRegs × TableSet
  | 0, r, t => (r, t)
  | fuel + 1, r, t =>
    if r.cur ≤ r.mflimit then
      encodeLoop q c v e fuel (encodeTurn e.hist (visit q c v e r t).found (visit q c v e r t).next r) (visit q c v e r t).tables
    else (r, t)

/-- The working registers at the start of a block (R166). -/
def encodeStart (v : Variant) (base n p0 : Nat) (r : EncRegs) : EncRegs :=
  { r with
    cur := base, anchor := base, fails := 0, out := [], base := base, endPos := base + n, p0 := p0
    accel := match v with
      | .fast a => a
      | .highRatio _ => r.accel }

/-- The match attempts of `EncodeBlock`: none below MINLENGTH (R167). -/
def encodeMatches (q : Policy) (c : CfgRegs) (v : Variant) (independent : Bool) (hist : List Byte) (n : Nat) (t : TableSet)
    (r : EncRegs) : EncRegs × TableSet :=
  if Config.minLength ≤ n then
    encodeLoop q c v
      (finderEnv c hist r.p0 (tableBits c (usesNarrow c v independent n)) (r.endPos - Config.lastLiterals)) n
      { r with mflimit := r.endPos - q.attemptLimit, matchlimit := r.endPos - Config.lastLiterals } t
  else (r, t)

/-- `EncodeBlock(dict, block, TBL, P0, LEVEL)` (R166) with the finder policy `q` (R141): the encoding is `out` of the working
registers it leaves; the table set is updated.  The empty block has the empty encoding (R168): of the working registers, dead
then and left open by R46, `base`, `end` and P0 hold what R166 assigns before it returns, the others what they held, but `out`
holds the empty byte string R166 returns.  DESIGN CHOICE (log entry 5). -/
def encodeBlock (q : Policy) (c : CfgRegs) (level : Int) (independent : Bool) (dict block : List Byte) (t : TableSet)
    (p0 : Nat) (r : EncRegs) : EncRegs × TableSet :=
  if block = [] then ({ r with base := dict.length, endPos := dict.length, p0 := p0, out := [] }, t)
  else
    let v := variantOf c level
    let m := encodeMatches q c v independent (dict ++ block) block.length t (encodeStart v dict.length block.length p0 r)
    ({ m.1 with out := m.1.out ++ emitLast (slice (dict ++ block) m.1.anchor m.1.endPos) }, m.2)

/-- `Fit(E, cap)` (R169): the exact capacity test. -/
abbrev fits (e : List Byte) (cap : Nat) : Prop := e.length ≤ cap

/-- `maximumOutputLength` (R160). -/
def maximumOutputLength (n : Nat) : Nat := n + n / 255 + 16

/-! ### MAXLEN (R160) -/

/-- The rule of MAXLEN. -/
def ruleMaxlen (s : State) : CmdEnd :=
  if Config.lenMax < s.regs.arg.toNat then .raised .invalidArgument s
  else .done (setResult (maximumOutputLength s.regs.arg.toNat) s)

/-- MAXLEN (R160). -/
def execMaxlen (s : State) : Host.Outcome State Fault Refusal := runCommand ruleMaxlen s

/-! ### COMPRESS_BLOCK (R177) -/

/-- COMPRESS_BLOCK's arguments are valid (R274, R276). -/
abbrev compressValid (s : State) : Prop := regionsValid s.params s.regs ∧ s.regs.cfg.legal

/-- The encoding COMPRESS_BLOCK makes, in the working registers and the table set it leaves: independent, `BT` reset (R154). -/
def compressEncoding (s : State) : EncRegs × TableSet :=
  encodeBlock (policyOf s.params) s.regs.cfg (levelOf s.regs.arg) true [] (srcBytes s) TableSet.empty 0 s.enc

/-- The rule of COMPRESS_BLOCK. -/
def ruleCompressBlock (s : State) : CmdEnd :=
  if compressValid s then
    let e := compressEncoding s
    let t := { s with enc := e.1, bt := e.2 }
    if fits e.1.out s.regs.dstCap.toNat then
      .done (setStatus (Status.setNofit false)
        (setResult e.1.out.length (deliver (dstRegion s.params s.regs) e.1.out t)))
    else
      .done (setStatus (Status.setNofit true) (setResult 0 (deliver (dstRegion s.params s.regs) [] t)))
  else .raised .invalidArgument s

/-- COMPRESS_BLOCK (R177). -/
def execCompressBlock (s : State) : Host.Outcome State Fault Refusal := runCommand ruleCompressBlock s

end Sys2Proof.Machine
end

