-- ==== Sys2Proof/Machine/Writer.lean ====
section
/-! DEFINITION. The frame writer (R235 to R245): OPEN_WRITER, WRITE_FRAME, CLOSE_WRITER. -/

namespace Sys2Proof.Machine

/-- What WRITE_FRAME works on: the context, the encoder's working registers, the bytes produced so far. -/
structure WriteWork where
  writer : WriterCtx
  enc : EncRegs
  out : List Byte
  deriving DecidableEq, Repr

/-- The dictionary of the next block (R225, R240). -/
def WriterCtx.dict (w : WriterCtx) : List Byte := if w.prefs.bindep then [] else w.win

/-- The table set the next block starts from (R154, R240). -/
def WriterCtx.blockTable (w : WriterCtx) : TableSet := if w.prefs.bindep then TableSet.empty else w.tbl

/-- `P0` of the next block (R153, R240). -/
def WriterCtx.p0 (w : WriterCtx) : Nat := if w.prefs.bindep then 0 else w.total - w.win.length

/-- The encoding of the block `c` (R240) with the finder policy `q`, in the working registers and the table set it leaves. -/
def WriterCtx.encoding (q : Policy) (w : WriterCtx) (enc : EncRegs) (c : List Byte) : EncRegs × TableSet :=
  encodeBlock q w.cfg (levelOf w.prefs.level) w.prefs.bindep w.dict c w.blockTable w.p0 enc

/-- The size word and the payload of a block of content `c` with encoding `e`: compressed when `e` fits in `|c| - 1`, else
stored raw (R169, R240). -/
def storedBlock (e c : List Byte) : Nat × List Byte :=
  if fits e (c.length - 1) then (sizeWord false e.length, e) else (sizeWord true c.length, c)

/-- A BLK: size word, payload, and the block checksum over the payload as stored (R228, R240). -/
def blockBytes (bcsum : Bool) (word : Nat) (payload : List Byte) : List Byte :=
  leBytes 4 word ++ payload ++ (if bcsum then leBytes 4 (Config.hash32 payload).toNat else [])

/-- `EmitBlock(W, c)` (R240, R241). -/
def emitBlock (q : Policy) (t : WriteWork) (c : List Byte) : WriteWork :=
  let e := t.writer.encoding q t.enc c
  let b := storedBlock e.1.out c
  { writer := { t.writer with
      tbl := e.2
      acc := if t.writer.prefs.ccsum then t.writer.acc ++ c else t.writer.acc
      total := t.writer.total + c.length
      win := if t.writer.prefs.bindep then t.writer.win else lastBytes Config.window (t.writer.win ++ c) }
    enc := e.1
    out := t.out ++ blockBytes t.writer.prefs.bcsum b.1 b.2 }

/-- The header when it is still due (R243). -/
def WriterCtx.dueHeader (w : WriterCtx) : List Byte := if w.state = .header then headerBytes w.prefs else []

/-- The room the header needs when it is still due (R242). -/
def WriterCtx.dueHeaderLen (w : WriterCtx) : Nat := if w.state = .header then w.prefs.hdrLen else 0

/-- The context is one WRITE_FRAME and CLOSE_WRITER accept (R220, R233). -/
abbrev WriterCtx.isOpen (w : WriterCtx) : Prop := w.state = .header ∨ w.state = .blocks

/-! ### OPEN_WRITER (R236) -/

/-- The writer context OPEN_WRITER makes of the PREF and CFG registers. -/
def openedWriter (r : Regs) : WriterCtx :=
  { state := .header, prefs := r.pref, cfg := r.cfg, total := 0, win := [], acc := [], tbl := TableSet.empty }

/-- The rule of OPEN_WRITER. -/
def ruleOpenWriter (s : State) : CmdEnd :=
  if s.regs.pref.legal ∧ s.regs.cfg.legal then
    match freeWriter s with
    | none => .raised .invalidArgument s
    | some k => .done (setResult 0 (setHandle k (setWriter k (openedWriter s.regs) s)))
  else .raised .invalidArgument s

/-- OPEN_WRITER (R236). -/
def execOpenWriter (s : State) : Host.Outcome State Fault Refusal := runCommand ruleOpenWriter s

/-! ### WRITE_FRAME (R238) -/

/-- `need` of WRITE_FRAME (R238, R242): room for every block raw. -/
def writeNeed (w : WriterCtx) (n : Nat) : Nat :=
  w.dueHeaderLen + ceilDiv n (blockMax w.prefs.bsclass.toNat) * (4 + 4 * w.prefs.bcsum.toNat) + n

/-- WRITE_FRAME's arguments are valid for the context (R238, R242, R245, R274). -/
abbrev writeValid (s : State) (w : WriterCtx) : Prop :=
  w.isOpen ∧ regionsValid s.params s.regs ∧
  ¬ (w.prefs.csize = true ∧ w.prefs.contentSize.toNat < w.total + s.regs.srcLen.toNat) ∧
  writeNeed w s.regs.srcLen.toNat ≤ s.regs.dstCap.toNat

/-- All blocks of the data, after the header when it is due (R238, R239). -/
def writeBlocks (q : Policy) (w : WriterCtx) (enc : EncRegs) (data : List Byte) : WriteWork :=
  (chunks (blockMax w.prefs.bsclass.toNat) data.length data).foldl (emitBlock q)
    { writer := { w with state := .blocks }, enc := enc, out := w.dueHeader }

/-- The rule of WRITE_FRAME.  A stream of 2^64 content bytes is not modelled (R34). -/
def ruleWriteFrame (s : State) : CmdEnd :=
  match handleWriter s with
  | none => .raised .invalidArgument s
  | some w =>
    if writeValid s w then
      let t := writeBlocks (policyOf s.params) w s.enc (srcBytes s)
      if Config.streamMax ≤ t.writer.total then .refused .streamTooLong
      else
        .done (setResult t.out.length (deliver (dstRegion s.params s.regs) t.out
          (setWriter s.regs.handle.toNat t.writer { s with enc := t.enc })))
    else .raised .invalidArgument s

/-- WRITE_FRAME (R238). -/
def execWriteFrame (s : State) : Host.Outcome State Fault Refusal := runCommand ruleWriteFrame s

/-! ### CLOSE_WRITER (R244) -/

/-- `need` of CLOSE_WRITER (R244). -/
def closeNeed (w : WriterCtx) : Nat := w.dueHeaderLen + 4 + 4 * w.prefs.ccsum.toNat

/-- CLOSE_WRITER's arguments are valid for the context (R244, R245, R274). -/
abbrev closeValid (s : State) (w : WriterCtx) : Prop :=
  w.isOpen ∧ dstAdmitted s.params s.regs ∧
  ¬ (w.prefs.csize = true ∧ w.total ≠ w.prefs.contentSize.toNat) ∧
  closeNeed w ≤ s.regs.dstCap.toNat

/-- The bytes CLOSE_WRITER produces: the header when it is still due, ENDMARK, and CSUM when CCSUM = 1 (R244). -/
def closeBytes (w : WriterCtx) : List Byte :=
  w.dueHeader ++ leBytes 4 0 ++ (if w.prefs.ccsum then leBytes 4 (Config.hash32 w.acc).toNat else [])

/-- The rule of CLOSE_WRITER.  That the Closed context keeps its other fields, open by R46 and U20, is a DESIGN CHOICE (log entry
4). -/
def ruleCloseWriter (s : State) : CmdEnd :=
  match handleWriter s with
  | none => .raised .invalidArgument s
  | some w =>
    if closeValid s w then
      .done (setWriter s.regs.handle.toNat { w with state := .closed }
        (setResult (closeBytes w).length (deliver (dstRegion s.params s.regs) (closeBytes w) s)))
    else .raised .invalidArgument s

/-- CLOSE_WRITER (R244). -/
def execCloseWriter (s : State) : Host.Outcome State Fault Refusal := runCommand ruleCloseWriter s

end Sys2Proof.Machine
end

