-- ==== Sys2Proof/Machine/Dispatch.lean ====
section
/-! DEFINITION. One arm per instruction. -/

namespace Sys2Proof.Machine

def exec (i : Instr) (s : State) : Host.Outcome State Fault Refusal :=
  match i with
  | .token t => Sys2Proof.Machine.execToken t s
  | .llext v => Sys2Proof.Machine.execLlext v s
  | .literals lit => Sys2Proof.Machine.execLiterals lit s
  | .offset off => Sys2Proof.Machine.execOffset off s
  | .mlext v => Sys2Proof.Machine.execMlext v s
  | .seq lit off ml => Sys2Proof.Machine.execSeq lit off ml s
  | .last lit mln => Sys2Proof.Machine.execLast lit mln s
  | .magic => Sys2Proof.Machine.execMagic s
  | .flg b => Sys2Proof.Machine.execFlg b s
  | .bd b => Sys2Proof.Machine.execBd b s
  | .csize v => Sys2Proof.Machine.execCsize v s
  | .dictid v => Sys2Proof.Machine.execDictid v s
  | .hc c => Sys2Proof.Machine.execHc c s
  | .blkhdr raw size => Sys2Proof.Machine.execBlkhdr raw size s
  | .payload bytes => Sys2Proof.Machine.execPayload bytes s
  | .blksum sum => Sys2Proof.Machine.execBlksum sum s
  | .endmark => Sys2Proof.Machine.execEndmark s
  | .csum sum => Sys2Proof.Machine.execCsum sum s
  | .maxlen => Sys2Proof.Machine.execMaxlen s
  | .compressBlock => Sys2Proof.Machine.execCompressBlock s
  | .decompressBlock => Sys2Proof.Machine.execDecompressBlock s
  | .openWriter => Sys2Proof.Machine.execOpenWriter s
  | .writeFrame => Sys2Proof.Machine.execWriteFrame s
  | .closeWriter => Sys2Proof.Machine.execCloseWriter s
  | .openReader => Sys2Proof.Machine.execOpenReader s
  | .readFrame => Sys2Proof.Machine.execReadFrame s
  | .closeReader => Sys2Proof.Machine.execCloseReader s
  | .illegalCmd w => Sys2Proof.Machine.execIllegalCmd w s

end Sys2Proof.Machine
end

