-- ==== Sys2Proof/Machine/Host.lean ====
section
/-! DEFINITION. The host's actions (R4, R20, R21, R60, R70, R280, R314, R340) and how the next element of a wire-data run is
fetched (R121). -/

namespace Sys2Proof.Machine

/-! ### Register accesses -/

/-- A host access to REG that the model runs: 32-bit, 4-byte aligned (R70). -/
abbrev wordAccess (offset : Nat) (width : AccessWidth) : Prop := width = .word ∧ offset % 4 = 0

/-- A store to a host register other than CMD (R20, R314): a reserved offset ignores it. -/
def storeRegister (offset : Nat) (v : Word) (s : State) : State :=
  match regAt offset with
  | none => s
  | some n => { s with regs := s.regs.write n v }

/-- What a load of a host register returns (R20, R314): a reserved offset reads 0. -/
def loadRegister (offset : Nat) (s : State) : Word :=
  match regAt offset with
  | none => 0#32
  | some n => s.regs.read n

/-- A host store to REG.  To CMD it issues the command in the same step (R21, R270, R279).  While BUSY it is ignored (R21,
R280). -/
def hostStore (offset : Nat) (width : AccessWidth) (v : Word) (s : State) : Host.Outcome State Fault Refusal :=
  if wordAccess offset width then
    if s.regs.status.busy then .next s
    else if offset = 0 then exec (decodeCommand v) s
    else .next (storeRegister offset v s)
  else .refused .registerAccessNotAWord

/-- A host load from REG; while BUSY a register other than STATUS reads `draw` (R280).  R280 speaks of registers: that a
reserved offset (0 by R20) and CMD (0 by R21) read `draw` then too is a DESIGN CHOICE (log entry 16), safe, 0 being among the
values of `draw`. -/
def hostLoad (offset : Nat) (width : AccessWidth) (s : State) : Host.Outcome State Fault Refusal :=
  if wordAccess offset width then
    if s.regs.status.busy ∧ regAt offset ≠ some .status then
      .next { s with busData := Config.freeWord s.drawn, drawn := s.drawn + 1 }
    else .next { s with busData := loadRegister offset s }
  else .refused .registerAccessNotAWord

/-! ### Buffer memory -/

/-- A host store of one byte of BM (R60).  R60 gives the host BM while the device is idle; that a store while BUSY = 1, which no
step reaches and U16 lets a model refuse, is performed as when idle is a DESIGN CHOICE (log entry 16). -/
def hostStoreByte (addr : Nat) (b : Byte) (s : State) : Host.Outcome State Fault Refusal :=
  if addr < s.params.bmSize then .next { s with mem := Mem.write s.mem addr b } else .fault .addressOutsideBM

/-- A host load of one byte of BM (R60).  While BUSY = 1, where the hardware may return any value (U16), it is performed as when
idle: a DESIGN CHOICE (log entry 16). -/
def hostLoadByte (addr : Nat) (s : State) : Host.Outcome State Fault Refusal :=
  if addr < s.params.bmSize then .next { s with busData := BitVec.ofNat 32 (Mem.read s.mem addr).toNat }
  else .fault .addressOutsideBM

/-! ### Reset -/

/-- The reset event (R340): every piece of the device's state at its reset value (R46); BM, the parameters and the host's own
coming actions are not the device's (R342). -/
def resetDevice (s : State) : State :=
  { State.resetWith s.params s.writers.length s.readers.length with
    mem := s.mem, host := s.host, busData := s.busData, drawn := s.drawn }

/-! ### Starting a wire-data run (R350) -/

/-- The block decoder starts on `input` (R190); the empty input is complete at once (R200).  R190's operand has `|dict| ≤ 65535`;
that a run with a longer `dict`, to which the spec gives no meaning, is performed by the same rules is a DESIGN CHOICE (log
entry 12). -/
def startBlockRun (grain : Grain) (input dict : List Byte) (limit : Nat) (s : State) : State :=
  { s with
    dec := { s.dec with ip := 0, out := [] }
    stream := { s.stream with
      pos := if input = [] then .idle else .boundary
      grain := grain
      input := input
      dict := dict
      limit := limit
      verdict := if input = [] then .returned else .running } }

/-- The reader context a frame run starts with: STATE Header, RIP at the first byte. -/
def runReader : ReaderCtx := { ReaderCtx.reset with state := .header }

/-- The frame reader starts on `input` (R222, R247). -/
def startFrameRun (input : List Byte) (s : State) : State :=
  { s with stream := { s.stream with
      pos := .magic, input := input, reader := runReader, content := [], verdict := .running } }

/-! ### The next host action -/

/-- One action of the host. -/
def hostAction (op : HostOp) (s : State) : Host.Outcome State Fault Refusal :=
  match op with
  | .storeReg offset width v => hostStore offset width v s
  | .loadReg offset width => hostLoad offset width s
  | .storeByte addr b => hostStoreByte addr b s
  | .loadByte addr => hostLoadByte addr s
  | .reset => .next (resetDevice s)
  | .runBlock grain input dict limit => .next (startBlockRun grain input dict limit s)
  | .runFrame input => .next (startFrameRun input s)

/-- The host takes its next action; with none the device is idle and holds its state (R312, R340). -/
def hostStep (s : State) : Host.Outcome State Fault Refusal :=
  match s.host with
  | [] => .next s
  | op :: rest => hostAction op { s with host := rest }

/-! ### Fetching the next element of a run -/

/-- The position of the next element (R121); with no run it is the command register. -/
def fetchAt (s : State) : DecodeAt :=
  match s.stream.pos with
  | .idle => .command
  | .boundary =>
    match s.stream.grain with
    | .element => .token
    | .sequence => .sequence
  | .llext => .llext
  | .literals => .literals s.dec.ll
  | .offset => .offset
  | .mlext => .mlext
  | .magic => .magic
  | .flg => .flg
  | .bd => .bd
  | .csize => .csize
  | .dictid => .dictid
  | .hc => .hc
  | .block => .block
  | .payload => .payload s.blk.size
  | .blksum => .blksum
  | .csum => .csum

/-- The position is one of a block run. -/
def Pos.inBlock : Pos → Bool
  | .boundary => true
  | .llext => true
  | .literals => true
  | .offset => true
  | .mlext => true
  | _ => false

/-- The bytes from the run's cursor on: `ip` in a block, RIP in a frame (R30). -/
def fetchBytes (s : State) : List Byte :=
  s.stream.input.drop (if s.stream.pos.inBlock then s.dec.ip else s.stream.reader.rip)

/-- No element can be read there: the input ends too early, or MAGIC is wrong; CorruptedInput (R115 rows 3, 4, 6, 13).  That
the working registers and the names of header and block, open then by R46 and U20, keep what the last complete element left in
them, at the sequence grain the last complete sequence, is a DESIGN CHOICE (log entry 12). -/
def rejectElement (s : State) : State :=
  if s.stream.pos.inBlock then raiseBlock .corruptedInput s else raiseFrame .corruptedInput s

/-- The run takes its next element. -/
def streamStep (s : State) : Host.Outcome State Fault Refusal :=
  match decode (fetchAt s) (fetchBytes s) with
  | .ok (i, _) => exec i s
  | .error _ => .next (rejectElement s)

/-- The position of the run at which an element of the given position is read. -/
def posOf : DecodeAt → Pos
  | .token => .boundary
  | .sequence => .boundary
  | .llext => .llext
  | .literals _ => .literals
  | .offset => .offset
  | .mlext => .mlext
  | .magic => .magic
  | .flg => .flg
  | .bd => .bd
  | .csize => .csize
  | .dictid => .dictid
  | .hc => .hc
  | .block => .block
  | .payload _ => .payload
  | .blksum => .blksum
  | .csum => .csum
  | .command => .idle

/-- A run that stands at position `p` with `bytes` before it, both cursors at their first byte. -/
def placeElement (p : DecodeAt) (bytes : List Byte) (s : State) : State :=
  { s with
    dec := { s.dec with ip := 0 }
    stream := { s.stream with
      pos := posOf p
      grain := if p = .sequence then .sequence else .element
      input := bytes
      reader := { s.stream.reader with rip := 0 }
      verdict := .running } }

/-- The host's next action is the store of `w` to CMD, and the device is idle. -/
def placeCommand (w : Word) (s : State) : State :=
  { s with
    regs := { s.regs with status := { s.regs.status with busy := false } }
    stream := { s.stream with pos := .idle }
    host := .storeReg 0 .word w :: s.host }

end Sys2Proof.Machine
end

