-- ==== Sys2Proof/Machine/Step.lean ====
section
/-! DEFINITION. One step of the machine, and how a table word is placed to be the next one run. -/

namespace Sys2Proof.Machine

/-- One step: the next element of a wire-data run while there is one (R350), else the next action of the host, which for a
store to CMD is a whole command (R5, R270). -/
def step (s : State) : Host.Outcome State Fault Refusal :=
  match s.stream.pos with
  | .idle => hostStep s
  | _ => streamStep s

/-- The state in which the next step runs the instruction of a table word: a command word is the host's next store to CMD; a
wire element stands at the cursor of a run at its position (log entries 1 and 14). -/
def State.withFetchWord (s : State) (nbits w : Nat) : State :=
  match tablePosition nbits w with
  | .command => placeCommand (BitVec.ofNat 32 w) s
  | p => placeElement p (tableBytes nbits w) s

end Sys2Proof.Machine
end

