-- ==== Sys2Proof/Safety.lean ====
section
/-! DEFINITION. What statements are said in: the state an argument error leaves, frames, and the invariant of the machine. -/

namespace Sys2Proof.Machine

/-! ### Ends of a command -/

/-- STATUS after a command that ended without error and reports neither NOFIT nor EOS. -/
def statusDone : Status := { busy := false, done := true, nofit := false, eos := false, err := .none }

/-- STATUS after a command that ended with error `e`. -/
def statusError (e : ErrCode) : Status := { busy := false, done := true, nofit := false, eos := false, err := e }

/-- The state an InvalidArgument leaves: STATUS and RESULT, and nothing else, changed (R278, R306). -/
def rejected (s : State) : State :=
  { s with regs := { s.regs with status := statusError .invalidArgument, result := 0#32 } }

/-- The instruction is a command word (R117). -/
def isCommand (i : Instr) : Prop := i.position = .command

/-! ### Frames -/

/-- Every byte of BM outside a region reads as before. -/
def bytesSameOutside (g : Region) (s t : State) : Prop :=
  ∀ a, a < g.addr ∨ g.addr + g.len ≤ a → Mem.read t.mem a = Mem.read s.mem a

/-- Every byte of BM reads as before. -/
def bytesSame (s t : State) : Prop := ∀ a, Mem.read t.mem a = Mem.read s.mem a

/-- The registers no command writes (R271), and what lies outside the device: parameters, the host's coming actions and its
last load, the wire-data run. -/
def argumentsSame (s t : State) : Prop :=
  t.regs.srcAddrLo = s.regs.srcAddrLo ∧ t.regs.srcAddrHi = s.regs.srcAddrHi ∧ t.regs.srcLen = s.regs.srcLen ∧
  t.regs.dstAddrLo = s.regs.dstAddrLo ∧ t.regs.dstAddrHi = s.regs.dstAddrHi ∧ t.regs.dstCap = s.regs.dstCap ∧
  t.regs.arg = s.regs.arg ∧ t.regs.pref = s.regs.pref ∧ t.regs.cfg = s.regs.cfg ∧
  t.params = s.params ∧ t.host = s.host ∧ t.busData = s.busData ∧ t.stream = s.stream ∧ t.hdr = s.hdr

/-- HANDLE and the FINFO registers are as before. -/
def namesSame (s t : State) : Prop := t.regs.handle = s.regs.handle ∧ t.regs.finfo = s.regs.finfo

/-- The tables, contexts and working registers of the encoder side are as before. -/
def encoderSame (s t : State) : Prop := t.bt = s.bt ∧ t.writers = s.writers ∧ t.enc = s.enc

/-- The contexts and working registers of the decoder side are as before. -/
def decoderSame (s t : State) : Prop := t.readers = s.readers ∧ t.dec = s.dec ∧ t.blk = s.blk

/-- Two ends of a command report the same (R271): STATUS, RESULT, and, without an error, the RESULT bytes of the destination
region. -/
def reportsSame (p : Params) (r : Regs) (t t' : State) : Prop :=
  t'.regs.status = t.regs.status ∧ t'.regs.result = t.regs.result ∧
  (t.regs.status.err = .none →
    Mem.readBytes t'.mem (dstRegion p r).addr t.regs.result.toNat =
      Mem.readBytes t.mem (dstRegion p r).addr t.regs.result.toNat)

/-! ### The invariant -/

/-- A table set in canonical form (R35, R36), its chains at most `n` long (R143). -/
def TableSet.ok (n : Nat) (t : TableSet) : Prop :=
  Assoc.Sorted t.ht ∧ Assoc.Sorted t.ch ∧ ∀ c ∈ t.ch, c.2.length ≤ n

/-- What holds of a writer context (R38, R40, R42, R245). -/
def WriterCtx.ok (w : WriterCtx) : Prop :=
  (w.state = .closed ∨ w.state = .header ∨ w.state = .blocks) ∧
  (w.state ≠ .closed →
    w.prefs.legal ∧ w.cfg.legal ∧ w.tbl.ok w.cfg.hcMaxAttempts.toNat ∧
    w.win.length ≤ Config.window ∧ w.win.length ≤ w.total ∧ w.total < Config.streamMax ∧
    (w.prefs.bindep = true → w.win = []) ∧ (w.prefs.ccsum = false → w.acc = []) ∧
    (w.prefs.csize = true → w.total ≤ w.prefs.contentSize.toNat))

/-- What holds of the header fields, the window, the stage and the checksum accumulator of a reader that has read its header
(R39, R40, R42). -/
def ReaderCtx.contentOk (r : ReaderCtx) : Prop :=
  (4 ≤ r.finfo.bsclass.toNat ∧ r.finfo.bsclass.toNat ≤ 7) ∧
  r.hist.length ≤ Config.window ∧ r.stage.length ≤ blockMax r.finfo.bsclass.toNat ∧
  (r.finfo.bindep = true → r.hist = []) ∧ (r.finfo.ccsum = false → r.acc = [])

/-- What holds of a reader context (R31, R39, R67, R261 b). -/
def ReaderCtx.ok (p : Params) (r : ReaderCtx) : Prop :=
  (r.state = .closed ∨ r.state = .blocks ∨ r.state = .ended ∨ r.state = .failed) ∧
  (r.state ≠ .closed →
    r.rip ≤ r.srcLen.toNat ∧ r.contentOk ∧
    r.region.addr ≠ 0 ∧ r.region.len ≤ Config.lenMax ∧ r.region.addr + r.region.len ≤ p.bmSize)

/-- BM in canonical form, and nothing listed where BM has no address. -/
def State.memOk (s : State) : Prop := Mem.wf s.mem ∧ ∀ c ∈ s.mem, c.1 < s.params.bmSize

/-- A block run's cursor and output stay in bounds (R34, R198). -/
def State.runOk (s : State) : Prop :=
  s.stream.pos.inBlock = true → s.dec.ip ≤ s.stream.input.length ∧ s.dec.out.length ≤ s.stream.limit

/-- The invariant: BM and the tables in canonical form, BUSY never seen (R22), every context as its rule says. -/
def State.Inv (s : State) : Prop :=
  s.params.legal ∧ s.memOk ∧ s.regs.status.busy = false ∧ s.bt.ok 65535 ∧
  (∀ w ∈ s.writers, w.ok) ∧ (∀ r ∈ s.readers, r.ok s.params) ∧ s.runOk

/-! ### Content streams of 2^64 bytes (R34, log entry 17) -/

/-- WRITE_FRAME has valid arguments and would bring the TOTAL of its context to 2^64. -/
def writeTooLong (s : State) : Prop :=
  ∃ w, s.writers[s.regs.handle.toNat]? = some w ∧ writeValid s w ∧ 2 ^ 64 ≤ w.total + s.regs.srcLen.toNat

/-- READ_FRAME has valid arguments and its loop brings the TOTAL of its context to 2^64. -/
def readTooLong (s : State) : Prop :=
  ∃ r u, s.readers[s.regs.handle.toNat]? = some r ∧ readValid s r ∧
    readLoop (regionBytes s r.region) s.regs.arg.toNat (readFuel r.region.len)
      { reader := r, dec := s.dec, blk := s.blk, out := [] } = .ok u ∧
    2 ^ 64 ≤ u.reader.total

/-- The content of a frame run's block with the given payload, and the decoder's registers after it: the payload itself when
RAW, else its decoding (R251, R252, R254). -/
def runContent (s : State) (payload c : List Byte) (d : DecRegs) : Prop :=
  (s.blk.raw = true ∧ c = payload ∧ d = s.dec) ∨
  (s.blk.raw = false ∧ c = d.out ∧
    decodeBlock payload (if s.stream.reader.finfo.bindep then [] else s.stream.reader.hist)
      (blockMax s.stream.reader.finfo.bsclass.toNat) s.dec = .ok d)

/-- A frame run stands before the last element of a block whose content brings TOTAL to 2^64. -/
def runTooLong (s : State) : Prop :=
  ∃ payload c d,
    ((s.stream.pos = .payload ∧ s.stream.reader.finfo.bcsum = false ∧ payload.length = s.blk.size ∧
        payload = (s.stream.input.drop s.stream.reader.rip).take s.blk.size) ∨
      (s.stream.pos = .blksum ∧ payload = s.blk.payload)) ∧
    runContent s payload c d ∧ 2 ^ 64 ≤ s.stream.reader.total + c.length

/-! ### A frame run's block is complete, or raises -/

/-- A frame run after its block's last element, `n` bytes long: the content `c` is delivered, TOTAL, ACC and HIST follow, the
decoder's registers are `d`, and the run stands at a block boundary (R251, R255, R257). -/
def blockDelivered (n : Nat) (c : List Byte) (d : DecRegs) (s : State) : State :=
  { s with
    dec := d
    stream := { s.stream with
      pos := .block
      content := s.stream.content ++ c
      reader := { s.stream.reader with
        rip := s.stream.reader.rip + n
        stage := []
        total := s.stream.reader.total + c.length
        acc := if s.stream.reader.finfo.ccsum then s.stream.reader.acc ++ c else s.stream.reader.acc
        hist := if s.stream.reader.finfo.bindep then s.stream.reader.hist
          else lastBytes 65535 (s.stream.reader.hist ++ c) } } }

/-- A frame run that raised `e` after the header, `n` bytes further on: its context is Failed (R259). -/
def frameFailed (n : Nat) (e : ErrCode) (s : State) : State :=
  { s with stream := { s.stream with
      pos := .idle
      verdict := .raised e
      reader := { s.stream.reader with rip := s.stream.reader.rip + n, state := .failed } } }

/-! ### Frames written by several WRITE_FRAMEs (R235, R246) -/

/-- The WRITE_FRAMEs of the data `ds` one after another: the context they leave and all the bytes they produce. -/
def writeFrames (q : Policy) (w : WriterCtx) (enc : EncRegs) : List (List Byte) → WriteWork
  | [] => { writer := w, enc := enc, out := [] }
  | d :: ds =>
    let t := writeBlocks q w enc d
    let u := writeFrames q t.writer t.enc ds
    { u with out := t.out ++ u.out }

/-- The frame of OPEN_WRITER with the registers `r`, WRITE_FRAME of each of `ds`, CLOSE_WRITER (R235). -/
def frameOf (q : Policy) (r : Regs) (enc : EncRegs) (ds : List (List Byte)) : List Byte :=
  let u := writeFrames q (openedWriter r) enc ds
  u.out ++ closeBytes u.writer

/-! ### Sequences of a block (R162) -/

/-- One SEQ as the encoder emits it: literals, offset, match length. -/
abbrev SeqParts := List Byte × Nat × Nat

/-- The bytes of the SEQs `q` and a LAST of `tail`. -/
def sequenceBytes (q : List SeqParts) (tail : List Byte) : List Byte :=
  (q.map fun x => emitSeq x.1 x.2.1 x.2.2).flatten ++ emitLast tail

/-- The content bytes the SEQs cover. -/
def sequencesCover (q : List SeqParts) : Nat := (q.map fun x => x.1.length + x.2.2).sum

end Sys2Proof.Machine
end

