-- ==== Sys2Proof/Certificates/Slice0/Obligations.lean ====
section
/-! DEFINITION. The statements for the provers. -/

open Sys2Proof Sys2Proof.Machine

/-! ### Reset, step, decoding -/

/-- R46: what reset leaves, for every choice of the parameters; State.reset takes the defaults R6 gives (AW = 64, NW = NR = 1). -/
def Obligations.ResetLeavesTheStatedValues : Prop :=
  ∀ (p : Params) (nw nr : Nat),
    (State.resetWith p nw nr).regs.status.word = 0#32 ∧
    (∀ n ∈ [RegName.cmd, .result, .handle, .srcAddrLo, .srcAddrHi, .srcLen, .dstAddrLo, .dstAddrHi, .dstCap, .arg,
        .prefCsizeLo, .prefCsizeHi, .prefDictid, .prefLevel, .finfoFlags, .finfoBsclass, .finfoCsizeLo, .finfoCsizeHi,
        .finfoDictid, .finfoHdrlen, .cfgFlavor], (State.resetWith p nw nr).regs.read n = 0#32) ∧
    (State.resetWith p nw nr).regs.pref.flags = 0x20#32 ∧ (State.resetWith p nw nr).regs.pref.bsclass = 4#32 ∧
    (State.resetWith p nw nr).regs.cfg.hashLog = 12#32 ∧ (State.resetWith p nw nr).regs.cfg.skipStrength = 6#32 ∧
    (State.resetWith p nw nr).regs.cfg.skipCeil = 256#32 ∧ (State.resetWith p nw nr).regs.cfg.hcMinLevel = 2#32 ∧
    (State.resetWith p nw nr).regs.cfg.hcMaxLevel = 12#32 ∧ (State.resetWith p nw nr).regs.cfg.hcMaxAttempts = 256#32 ∧
    (State.resetWith p nw nr).regs.cfg.hcOptLen = 0xFFFFFFFF#32 ∧
    (State.resetWith p nw nr).regs.cfg.hashMult = 0x9E3779B1#32 ∧
    (State.resetWith p nw nr).bt = TableSet.empty ∧
    (State.resetWith p nw nr).writers.length = nw ∧ (State.resetWith p nw nr).readers.length = nr ∧
    (∀ w ∈ (State.resetWith p nw nr).writers, w.state = .closed ∧ w.tbl = TableSet.empty) ∧
    (∀ r ∈ (State.resetWith p nw nr).readers, r.state = .closed) ∧
    ∃ q : Params, State.reset = State.resetWith q 1 1 ∧ q.addrWidth = .aw64

/-- The invariant holds at reset. -/
def Obligations.InvariantHoldsAtReset : Prop := State.reset.Inv

/-- Every step keeps the invariant (R22, R38 to R42, R245, R261 b; canonical memory and tables). -/
def Obligations.StepKeepsTheInvariant : Prop := ∀ s t : State, s.Inv → step s = .next t → t.Inv

/-- The reset event (R340, R342): the device's registers, tables and contexts as after reset; BM and the parameters are not
touched. -/
def Obligations.ResetEventResetsTheDeviceAndKeepsMemory : Prop :=
  ∀ (s : State) (rest : List HostOp), s.stream.pos = .idle → s.host = HostOp.reset :: rest →
    ∃ t, step s = .next t ∧ t.regs = Regs.reset ∧ t.bt = TableSet.empty ∧
      t.writers.length = s.writers.length ∧ t.readers.length = s.readers.length ∧
      (∀ w ∈ t.writers, w.state = .closed ∧ w.tbl = TableSet.empty) ∧ (∀ r ∈ t.readers, r.state = .closed) ∧
      t.mem = s.mem ∧ t.params = s.params ∧ t.host = rest

/-- A store of `v` to CMD executes the command `v` decodes to, in the same step (R21, R270, R279); the four bytes of `v` are
what the decoder reads. -/
def Obligations.StepRunsTheStoredCommand : Prop :=
  ∀ (s : State) (v : Word) (rest : List HostOp), s.stream.pos = .idle → s.regs.status.busy = false →
    s.host = .storeReg 0 .word v :: rest →
    decode .command (leBytes 4 v.toNat) = .ok (decodeCommand v, []) ∧
    step s = exec (decodeCommand v) { s with host := rest }

/-- In a wire-data run, when the bytes at the cursor decode at the run's position to `i`, the step is `exec i`; when they
decode to nothing the run ends with CorruptedInput (R115, R121). -/
def Obligations.StepRunsTheDecodedElement : Prop :=
  ∀ s : State, s.stream.pos ≠ .idle →
    (∀ i rest, decode (fetchAt s) (fetchBytes s) = .ok (i, rest) → step s = exec i s) ∧
    (∀ e, decode (fetchAt s) (fetchBytes s) = .error e →
      ∃ t, step s = .next t ∧ t.stream.pos = .idle ∧ t.stream.verdict = .raised .corruptedInput ∧ t.regs = s.regs ∧
        t.mem = s.mem ∧ t.writers = s.writers ∧ t.readers = s.readers)

/-- Words of the spec's encodings (R92, R93, R96, R102, R104, R105, R110, R113, R117, R118): the sequences of vectors E6 and E12,
the header's MAGIC, FLG and BD of H1, a MAGIC with one wrong byte, a raw and a compressed BLKHDR, the ENDMARK of F1, and two
command words. -/
def Obligations.SpecWordsDecode : Prop :=
  decode .token [0x4F#8] = .ok (.token 0x4F#8, []) ∧
  decode .offset [0x04#8, 0x00#8] = .ok (.offset 4#16, []) ∧
  decode .sequence [0x4F#8, 0x61#8, 0x62#8, 0x63#8, 0x64#8, 0x04#8, 0x00#8, 0x24#8] =
    .ok (.seq [0x61#8, 0x62#8, 0x63#8, 0x64#8] 4#16 55, []) ∧
  decode .sequence [0x50#8, 0x64#8, 0x61#8, 0x62#8, 0x63#8, 0x64#8] =
    .ok (.last [0x64#8, 0x61#8, 0x62#8, 0x63#8, 0x64#8] 0#4, []) ∧
  decode .sequence [0x60#8, 0x61#8, 0x62#8, 0x63#8, 0x64#8, 0x65#8, 0x58#8, 0x06#8, 0x00#8] =
    .ok (.seq [0x61#8, 0x62#8, 0x63#8, 0x64#8, 0x65#8, 0x58#8] 6#16 4, []) ∧
  decode .sequence [0x10#8, 0x59#8, 0x05#8, 0x00#8] = .ok (.seq [0x59#8] 5#16 4, []) ∧
  decode .sequence [0xE0#8, 0x65#8, 0x5A#8, 0x30#8, 0x31#8, 0x32#8, 0x33#8, 0x34#8, 0x35#8, 0x36#8, 0x37#8, 0x38#8, 0x39#8,
      0x41#8, 0x42#8] =
    .ok (.last [0x65#8, 0x5A#8, 0x30#8, 0x31#8, 0x32#8, 0x33#8, 0x34#8, 0x35#8, 0x36#8, 0x37#8, 0x38#8, 0x39#8, 0x41#8,
      0x42#8] 0#4, []) ∧
  decode .magic [0x04#8, 0x22#8, 0x4D#8, 0x18#8] = .ok (.magic, []) ∧
  decode .magic [0x04#8, 0x22#8, 0x4D#8, 0x19#8] = .error .badMagic ∧
  decode .flg [0x60#8] = .ok (.flg 0x60#8, []) ∧
  decode .bd [0x40#8] = .ok (.bd 0x40#8, []) ∧
  decode .block [0x10#8, 0x00#8, 0x00#8, 0x80#8] = .ok (.blkhdr true 16#31, []) ∧
  decode .block [0x0A#8, 0x00#8, 0x00#8, 0x00#8] = .ok (.blkhdr false 10#31, []) ∧
  decode .block [0x00#8, 0x00#8, 0x00#8, 0x00#8] = .ok (.endmark, []) ∧
  decode .command [0x21#8, 0x00#8, 0x00#8, 0x00#8] = .ok (.readFrame, []) ∧
  decode .command [0x02#8, 0x01#8, 0x00#8, 0x00#8] = .ok (.illegalCmd 0x102#32, [])

/-- Decoding an encoded well-formed instruction at its position gives it back, whatever follows; a LAST ends its block, so
nothing follows it (R99). -/
def Obligations.DecodeOfEncodeIsTheInstruction : Prop :=
  ∀ (i : Instr) (rest : List Byte), i.wellFormed = true → ((∃ lit mln, i = .last lit mln) → rest = []) →
    decode i.position (encode i ++ rest) = .ok (i, rest)

/-- The other direction: an element read from some bytes is encoded by exactly those bytes, so no length has two encodings
(R94) and no bit is dropped; so for every wire element and every command word.  For a LAST it holds because the term keeps the
low nibble of its token, which the reader ignores and the encoder writes as 0 (R116): the model's choice (log entry 24). -/
def Obligations.EncodeOfDecodeIsTheBytes : Prop :=
  ∀ (p : DecodeAt) (bs rest : List Byte) (i : Instr), decode p bs = .ok (i, rest) → encode i ++ rest = bs

/-- R94: the length encoding, and that it is the only one for each value. -/
def Obligations.LengthEncodingIsExactAndUnique : Prop :=
  (∀ (v : Nat) (rest : List Byte), readLen (min v 15) (lenField v ++ rest) = some (v, (lenField v).length)) ∧
  (∀ (nib v k : Nat) (bs : List Byte), nib ≤ 15 → readLen nib bs = some (v, k) →
    nib = min v 15 ∧ bs.take k = lenField v) ∧
  (∀ v : Nat, v < 15 → lenField v = []) ∧
  (∀ v : Nat, 15 ≤ v →
    lenField v = List.replicate ((v - 15) / 255) 255#8 ++ [BitVec.ofNat 8 ((v - 15) % 255)])

/-- R281, R305, R34, R70, R60: the machine stops only where it says so.  Every command ends, but for a WRITE_FRAME or READ_FRAME
that would bring its context's TOTAL to 2^64 (R34), and that one is refused; a step faults only for a host byte access beyond
BM, and is refused only for a command or a frame run's block that would bring TOTAL to 2^64, or for a register access that is
no aligned word (R70). -/
def Obligations.StopsAreOnlyTheNamedOnes : Prop :=
  (∀ (i : Instr) (s : State), isCommand i → ¬ (i = .writeFrame ∧ writeTooLong s) → ¬ (i = .readFrame ∧ readTooLong s) →
    ∃ t, exec i s = .next t) ∧
  (∀ s : State, writeTooLong s → exec .writeFrame s = .refused .streamTooLong) ∧
  (∀ s : State, readTooLong s → exec .readFrame s = .refused .streamTooLong) ∧
  (∀ s : State,
    (∀ f, step s = .fault f → ∃ a, s.params.bmSize ≤ a ∧
      ((∃ b rest, s.host = .storeByte a b :: rest) ∨ (∃ rest, s.host = .loadByte a :: rest))) ∧
    (∀ r, step s = .refused r →
      (r = .streamTooLong ∧ (runTooLong s ∨ ∃ v rest, s.stream.pos = .idle ∧ s.host = .storeReg 0 .word v :: rest ∧
        ((decodeCommand v = .writeFrame ∧ writeTooLong s) ∨ (decodeCommand v = .readFrame ∧ readTooLong s)))) ∨
      (r = .registerAccessNotAWord ∧ ∃ off wd, ¬ (wd = .word ∧ off % 4 = 0) ∧
        ((∃ v rest, s.host = .storeReg off wd v :: rest) ∨ (∃ rest, s.host = .loadReg off wd :: rest)))))

/-! ### Host registers -/

/-- R20, R21, R314: a store to a register marked RW makes the next load of it return the value stored, leaves every other
register as it was and touches nothing else; a store to a register marked R or to a reserved offset is ignored; a load of a
reserved offset or of CMD returns 0, and a load of any other register its value.  R280: while BUSY a store is ignored and
STATUS can be loaded.  R60, R61, R74: a store of a byte of BM makes the next load of it return the byte stored, leaves every
other byte and all else as they were; a load returns the byte: R60 says so while the device is idle, and that a byte access
while BUSY = 1 is performed in the same way is the model's choice (log entry 16).  That the accesses stand in `State.host` and
that what a load returned stands in `State.busData`, a byte zero-extended, is the model's choice too (log entries 1 and 15). -/
def Obligations.HostAccessesFollowTheirRules : Prop :=
  (∀ (s : State) (off : Nat) (v : Word) (rest : List HostOp), s.stream.pos = .idle → s.regs.status.busy = false →
    off % 4 = 0 →
    (∀ n, regAt off = some n →
      n ∈ [RegName.handle, .srcAddrLo, .srcAddrHi, .srcLen, .dstAddrLo, .dstAddrHi, .dstCap, .arg, .prefFlags, .prefBsclass,
        .prefCsizeLo, .prefCsizeHi, .prefDictid, .prefLevel, .cfgHashLog, .cfgFlavor, .cfgSkipStrength, .cfgSkipCeil,
        .cfgHcMinLevel, .cfgHcMaxLevel, .cfgHcMaxAttempts, .cfgHcOptLen, .cfgHashMult] →
      s.host = .storeReg off .word v :: rest →
      ∃ t, step s = .next t ∧ t.regs.read n = v ∧ (∀ m, m ≠ n → t.regs.read m = s.regs.read m) ∧
        t.regs.status = s.regs.status ∧ t = { s with regs := t.regs, host := rest }) ∧
    ((regAt off = none ∨ off ∈ [0x04, 0x08, 0x50, 0x54, 0x58, 0x5C, 0x60, 0x64]) →
      s.host = .storeReg off .word v :: rest → step s = .next { s with host := rest }) ∧
    ((regAt off = none ∨ off = 0x00) →
      s.host = .loadReg off .word :: rest → step s = .next { s with host := rest, busData := 0#32 }) ∧
    (∀ n, regAt off = some n → s.host = .loadReg off .word :: rest →
      step s = .next { s with host := rest, busData := s.regs.read n })) ∧
  (∀ (s : State) (off : Nat) (v : Word) (rest : List HostOp), s.stream.pos = .idle → s.regs.status.busy = true →
    off % 4 = 0 →
    (s.host = .storeReg off .word v :: rest → step s = .next { s with host := rest }) ∧
    (s.host = .loadReg 0x04 .word :: rest → step s = .next { s with host := rest, busData := s.regs.status.word })) ∧
  (∀ (s : State) (a : Nat) (b : Byte) (rest : List HostOp), s.stream.pos = .idle → Mem.wf s.mem → a < s.params.bmSize →
    (s.host = .storeByte a b :: rest →
      ∃ t, step s = .next t ∧ Mem.read t.mem a = b ∧ (∀ c, c ≠ a → Mem.read t.mem c = Mem.read s.mem c) ∧ Mem.wf t.mem ∧
        t = { s with mem := t.mem, host := rest }) ∧
    (s.host = .loadByte a :: rest →
      step s = .next { s with host := rest, busData := BitVec.ofNat 32 (Mem.read s.mem a).toNat }))

/-! ### Commands: what each does -/

/-- R160 (MAXLEN). -/
def Obligations.MaxlenAnswersTheBound : Prop :=
  ∀ s : State,
    (s.regs.arg.toNat ≤ 2 ^ 31 - 1 →
      ∃ t, exec .maxlen s = .next t ∧ t.regs.result.toNat = s.regs.arg.toNat + s.regs.arg.toNat / 255 + 16 ∧
        t = { s with regs := { s.regs with status := statusDone, result := t.regs.result } }) ∧
    (2 ^ 31 - 1 < s.regs.arg.toNat → exec .maxlen s = .next (rejected s))

/-- R273 (ILLEGAL_CMD): every value that is no command word is an illegal command, which ends with InvalidArgument and changes
nothing else. -/
def Obligations.IllegalCommandChangesNothing : Prop :=
  ∀ (w : Word) (s : State),
    (w ∉ [0x01#32, 0x02#32, 0x03#32, 0x10#32, 0x11#32, 0x12#32, 0x20#32, 0x21#32, 0x22#32] →
      decodeCommand w = .illegalCmd w) ∧
    exec (.illegalCmd w) s = .next (rejected s)

/-- COMPRESS_BLOCK (R177): with valid arguments it ends without error; the encoding is delivered when it fits DST_CAP, else
NOFIT is reported; only BT, the encoder's working registers, STATUS, RESULT and the destination region change.
The encoding is that of the device's finder policy (R141, log entry 8), and that the working registers keep what the encoder left
in them is the model's choice (log entry 5): R46 gives them no value between commands. -/
def Obligations.CompressBlockDeliversOrReportsNofit : Prop :=
  ∀ s : State, Mem.wf s.mem → regionsValid s.params s.regs → s.regs.cfg.legal →
    ∃ t e, e = encodeBlock (policyOf s.params) s.regs.cfg s.regs.arg.toInt true [] (srcBytes s) TableSet.empty 0 s.enc ∧
      exec .compressBlock s = .next t ∧ t.enc = e.1 ∧ t.bt = e.2 ∧
      argumentsSame s t ∧ namesSame s t ∧ t.writers = s.writers ∧ decoderSame s t ∧
      bytesSameOutside (dstRegion s.params s.regs) s t ∧
      (e.1.out.length ≤ s.regs.dstCap.toNat →
        t.regs.status = statusDone ∧ t.regs.result.toNat = e.1.out.length ∧
        Mem.readBytes t.mem (dstRegion s.params s.regs).addr e.1.out.length = e.1.out) ∧
      (s.regs.dstCap.toNat < e.1.out.length →
        t.regs.status = { statusDone with nofit := true } ∧ t.regs.result = 0#32)

/-- DECOMPRESS_BLOCK (R204, R205, R303): OutputTooSmall before the input is read; else the decoded block when it has exactly
the known length, else CorruptedInput; only the decoder's working registers, STATUS, RESULT and the destination region
change.  That the working registers keep what the decoder left in them is the model's choice (log entry 5): R46 gives them no
value between commands. -/
def Obligations.DecompressBlockDeliversExactlyTheKnownLength : Prop :=
  ∀ s : State, Mem.wf s.mem → regionsValid s.params s.regs → s.regs.arg.toNat ≤ 2 ^ 31 - 1 →
    ∃ t, exec .decompressBlock s = .next t ∧
      argumentsSame s t ∧ namesSame s t ∧ encoderSame s t ∧ t.readers = s.readers ∧ t.blk = s.blk ∧
      bytesSameOutside (dstRegion s.params s.regs) s t ∧
      (s.regs.dstCap.toNat < s.regs.arg.toNat →
        t.regs.status = statusError .outputTooSmall ∧ t.regs.result = 0#32 ∧ t.dec = s.dec) ∧
      (s.regs.arg.toNat ≤ s.regs.dstCap.toNat →
        (∀ d, decodeBlock (srcBytes s) [] s.regs.arg.toNat s.dec = .ok d → d.out.length = s.regs.arg.toNat →
          t.regs.status = statusDone ∧ t.regs.result = s.regs.arg ∧ t.dec = d ∧
          Mem.readBytes t.mem (dstRegion s.params s.regs).addr s.regs.arg.toNat = d.out) ∧
        (∀ d, decodeBlock (srcBytes s) [] s.regs.arg.toNat s.dec = .ok d → d.out.length ≠ s.regs.arg.toNat →
          t.regs.status = statusError .corruptedInput ∧ t.regs.result = 0#32) ∧
        (∀ d, decodeBlock (srcBytes s) [] s.regs.arg.toNat s.dec = .error d →
          t.regs.status = statusError .corruptedInput ∧ t.regs.result = 0#32))

/-- OPEN_WRITER (R232, R236): the lowest Closed context takes the PREF and CFG registers. -/
def Obligations.OpenWriterTakesTheLowestClosedContext : Prop :=
  ∀ (s : State) (k : Nat) (w : WriterCtx), s.regs.pref.legal → s.regs.cfg.legal →
    s.writers[k]? = some w → w.state = .closed →
    (∀ j v, j < k → s.writers[j]? = some v → v.state ≠ .closed) →
    exec .openWriter s = .next { s with
      regs := { s.regs with status := statusDone, handle := BitVec.ofNat 32 k, result := 0#32 }
      writers := s.writers.set k
        { state := .header, prefs := s.regs.pref, cfg := s.regs.cfg, total := 0, win := [], acc := [],
          tbl := TableSet.empty } }

/-- WRITE_FRAME (R238, R242, R243, R245): in an open context with room for the worst case it delivers the header when it is
still due and then the blocks of the data; only the context, the encoder's working registers, STATUS, RESULT and the
destination region change.  Streams of 2^64 bytes are not modelled (R34).  That the working registers keep
what the encoder left in them is the model's choice (log entry 5): R46 gives them no value between commands. -/
def Obligations.WriteFrameDeliversTheBlocksOfItsData : Prop :=
  ∀ (s : State) (w : WriterCtx), Mem.wf s.mem → s.writers[s.regs.handle.toNat]? = some w → writeValid s w →
    w.total + s.regs.srcLen.toNat < 2 ^ 64 →
    ∃ t u, u = (chunks (blockMax w.prefs.bsclass.toNat) (srcBytes s).length (srcBytes s)).foldl (emitBlock (policyOf s.params))
        { writer := { w with state := .blocks }, enc := s.enc,
          out := if w.state = .header then headerBytes w.prefs else [] } ∧
      exec .writeFrame s = .next t ∧ t.regs.status = statusDone ∧ t.regs.result.toNat = u.out.length ∧
      u.out.length ≤ writeNeed w s.regs.srcLen.toNat ∧
      Mem.readBytes t.mem (dstRegion s.params s.regs).addr u.out.length = u.out ∧
      t.writers = s.writers.set s.regs.handle.toNat u.writer ∧ t.enc = u.enc ∧
      argumentsSame s t ∧ namesSame s t ∧ t.bt = s.bt ∧ decoderSame s t ∧
      bytesSameOutside (dstRegion s.params s.regs) s t

/-- CLOSE_WRITER (R243, R244, R245): header when it is still due, ENDMARK, CSUM; the context becomes Closed; nothing else but
STATUS, RESULT and the destination region changes.  That the Closed context keeps its other fields is the model's choice (log
entry 4): U20 leaves them at any value. -/
def Obligations.CloseWriterDeliversTheTrailer : Prop :=
  ∀ (s : State) (w : WriterCtx), Mem.wf s.mem → s.writers[s.regs.handle.toNat]? = some w → closeValid s w →
    ∃ t o, o = (if w.state = .header then headerBytes w.prefs else []) ++ [0#8, 0#8, 0#8, 0#8] ++
        (if w.prefs.ccsum then leBytes 4 (Config.hash32 w.acc).toNat else []) ∧
      exec .closeWriter s = .next t ∧ t.regs.status = statusDone ∧ t.regs.result.toNat = o.length ∧
      Mem.readBytes t.mem (dstRegion s.params s.regs).addr o.length = o ∧
      t.writers = s.writers.set s.regs.handle.toNat { w with state := .closed } ∧
      argumentsSame s t ∧ namesSame s t ∧ t.bt = s.bt ∧ t.enc = s.enc ∧ decoderSame s t ∧
      bytesSameOutside (dstRegion s.params s.regs) s t

/-- OPEN_READER (R232, R248): the lowest Closed context takes the frame's header fields and region; an error of the header
leaves everything but STATUS and RESULT as it was.  That the header parser's names, `hdr`, keep what they held is the model's
choice (log entry 5). -/
def Obligations.OpenReaderTakesTheHeaderOrReportsItsError : Prop :=
  ∀ (s : State) (j : Nat) (r : ReaderCtx), srcAdmitted s.params s.regs →
    s.readers[j]? = some r → r.state = .closed →
    (∀ i v, i < j → s.readers[i]? = some v → v.state ≠ .closed) →
    (∀ f, parseHeader (srcBytes s) = .ok f →
      exec .openReader s = .next { s with
        regs := { s.regs with status := statusDone, handle := BitVec.ofNat 32 j, finfo := f, result := f.hdrlen }
        readers := s.readers.set j
          { state := .blocks, finfo := f, srcAddr := BitVec.ofNat 64 (srcRegion s.params s.regs).addr,
            srcLen := s.regs.srcLen, rip := f.hdrlen.toNat, hist := [], stage := [], total := 0, acc := [] } }) ∧
    (∀ e, parseHeader (srcBytes s) = .error e →
      exec .openReader s = .next { s with regs := { s.regs with status := statusError e, result := 0#32 } })

/-- READ_FRAME (R250, R258, R259): the content the loop gathers is delivered and EOS says whether the frame has ended; an error
reports no bytes and makes the context Failed; only the context, the decoder's working registers, STATUS, RESULT and the
destination region change.  Streams of 2^64 bytes are not modelled (R34).  The model's choices: what a failed context keeps besides
its state (log entry 21), what the working registers hold after the command (log entry 5), the loop's number of turns (log
entry 23). -/
def Obligations.ReadFrameDeliversContentOrFails : Prop :=
  ∀ (s : State) (r : ReaderCtx), Mem.wf s.mem → s.readers[s.regs.handle.toNat]? = some r → readValid s r →
    (∀ u, readLoop (regionBytes s r.region) s.regs.arg.toNat (readFuel r.region.len)
        { reader := r, dec := s.dec, blk := s.blk, out := [] } = .ok u → u.reader.total < 2 ^ 64 →
      ∃ t, exec .readFrame s = .next t ∧
        t.regs.status = { statusDone with eos := decide (u.reader.state = .ended) } ∧
        t.regs.result.toNat = u.out.length ∧ u.out.length ≤ s.regs.arg.toNat ∧
        Mem.readBytes t.mem (dstRegion s.params s.regs).addr u.out.length = u.out ∧
        t.readers = s.readers.set s.regs.handle.toNat u.reader ∧ t.dec = u.dec ∧ t.blk = u.blk ∧
        argumentsSame s t ∧ namesSame s t ∧ encoderSame s t ∧ bytesSameOutside (dstRegion s.params s.regs) s t) ∧
    (∀ e u, readLoop (regionBytes s r.region) s.regs.arg.toNat (readFuel r.region.len)
        { reader := r, dec := s.dec, blk := s.blk, out := [] } = .error (e, u) →
      ∃ t, exec .readFrame s = .next t ∧ t.regs.status = statusError e ∧ t.regs.result = 0#32 ∧
        t.readers = s.readers.set s.regs.handle.toNat { u.reader with state := .failed } ∧
        argumentsSame s t ∧ namesSame s t ∧ encoderSame s t ∧ bytesSameOutside (dstRegion s.params s.regs) s t)

/-- CLOSE_READER (R260): an open, ended or failed context becomes Closed; any other handle is InvalidArgument; nothing else
changes.  That the Closed context keeps its other fields, STAGE with its dropped content among them, is the model's choice (log
entry 4): U20 leaves them at any value. -/
def Obligations.CloseReaderFreesTheContext : Prop :=
  ∀ s : State,
    (∀ r : ReaderCtx, s.readers[s.regs.handle.toNat]? = some r →
      (r.state = .blocks ∨ r.state = .ended ∨ r.state = .failed) →
      exec .closeReader s = .next { s with
        regs := { s.regs with status := statusDone, result := 0#32 }
        readers := s.readers.set s.regs.handle.toNat { r with state := .closed } }) ∧
    ((∀ r, s.readers[s.regs.handle.toNat]? = some r → r.state ≠ .blocks ∧ r.state ≠ .ended ∧ r.state ≠ .failed) →
      exec .closeReader s = .next (rejected s))

/-! ### Commands: errors -/

/-- R301, R232, R233, R273, R274, R276: each command with an invalid argument, and every illegal command, ends with
InvalidArgument and changes nothing else. -/
def Obligations.InvalidArgumentsAreRejected : Prop :=
  ∀ s : State,
    (2 ^ 31 - 1 < s.regs.arg.toNat → exec .maxlen s = .next (rejected s)) ∧
    (¬ (regionsValid s.params s.regs ∧ s.regs.cfg.legal) → exec .compressBlock s = .next (rejected s)) ∧
    (¬ (regionsValid s.params s.regs ∧ s.regs.arg.toNat ≤ 2 ^ 31 - 1) →
      exec .decompressBlock s = .next (rejected s)) ∧
    (¬ (s.regs.pref.legal ∧ s.regs.cfg.legal ∧ ∃ w ∈ s.writers, w.state = .closed) →
      exec .openWriter s = .next (rejected s)) ∧
    ((∀ w, s.writers[s.regs.handle.toNat]? = some w → ¬ writeValid s w) → exec .writeFrame s = .next (rejected s)) ∧
    ((∀ w, s.writers[s.regs.handle.toNat]? = some w → ¬ closeValid s w) → exec .closeWriter s = .next (rejected s)) ∧
    (¬ (srcAdmitted s.params s.regs ∧ ∃ r ∈ s.readers, r.state = .closed) →
      exec .openReader s = .next (rejected s)) ∧
    ((∀ r, s.readers[s.regs.handle.toNat]? = some r → ¬ readValid s r) → exec .readFrame s = .next (rejected s)) ∧
    ((∀ r, s.readers[s.regs.handle.toNat]? = some r → r.state ≠ .blocks ∧ r.state ≠ .ended ∧ r.state ≠ .failed) →
      exec .closeReader s = .next (rejected s)) ∧
    (∀ w, exec (.illegalCmd w) s = .next (rejected s))

/-- R278: an InvalidArgument changes nothing but STATUS and RESULT, whatever the command. -/
def Obligations.InvalidArgumentChangesNothingElse : Prop :=
  ∀ (i : Instr) (s t : State), isCommand i → exec i s = .next t → t.regs.status.err = .invalidArgument →
    t = rejected s

/-- R22, R23, R270, R272, R306: after every command BUSY = 0 and DONE = 1; NOFIT only by COMPRESS_BLOCK, EOS only by
READ_FRAME; with an error NOFIT = EOS = 0 and RESULT = 0; besides InvalidArgument each command has only its own errors. -/
def Obligations.StatusAfterEveryCommand : Prop :=
  ∀ (i : Instr) (s t : State), isCommand i → exec i s = .next t →
    t.regs.status.busy = false ∧ t.regs.status.done = true ∧
    (t.regs.status.nofit = true → i = .compressBlock) ∧ (t.regs.status.eos = true → i = .readFrame) ∧
    (t.regs.status.err ≠ .none → t.regs.status.nofit = false ∧ t.regs.status.eos = false ∧ t.regs.result = 0#32) ∧
    (t.regs.status.err ≠ .none → t.regs.status.err ≠ .invalidArgument →
      (i = .decompressBlock ∧ (t.regs.status.err = .outputTooSmall ∨ t.regs.status.err = .corruptedInput)) ∨
      ((i = .openReader ∨ i = .readFrame) ∧
        (t.regs.status.err = .corruptedInput ∨ t.regs.status.err = .checksumMismatch)))

/-- R271: no command writes SRC_*, DST_*, ARG, PREF_* or CFG_*; only the OPEN commands write HANDLE, only OPEN_READER writes
FINFO. -/
def Obligations.CommandsNeverWriteTheirArguments : Prop :=
  ∀ (i : Instr) (s t : State), isCommand i → exec i s = .next t →
    argumentsSame s t ∧ (t.regs.handle ≠ s.regs.handle → i = .openWriter ∨ i = .openReader) ∧
    (t.regs.finfo ≠ s.regs.finfo → i = .openReader)

/-- R66: the device writes no byte of BM outside the destination region, whatever the instruction and the input. -/
def Obligations.DeviceWritesOnlyTheDestinationRegion : Prop :=
  ∀ (i : Instr) (s t : State), exec i s = .next t → bytesSameOutside (dstRegion s.params s.regs) s t

/-- R234: a command touches no context but its own; COMPRESS_BLOCK, DECOMPRESS_BLOCK and MAXLEN touch none. -/
def Obligations.CommandsTouchOnlyTheirOwnContext : Prop :=
  ∀ (i : Instr) (s t : State), isCommand i → exec i s = .next t →
    (∀ k, ¬ ((i = .writeFrame ∨ i = .closeWriter) ∧ k = s.regs.handle.toNat) →
      ¬ (i = .openWriter ∧ freeWriter s = some k) → t.writers[k]? = s.writers[k]?) ∧
    (∀ j, ¬ ((i = .readFrame ∨ i = .closeReader) ∧ j = s.regs.handle.toNat) →
      ¬ (i = .openReader ∧ freeReader s = some j) → t.readers[j]? = s.readers[j]?) ∧
    t.writers.length = s.writers.length ∧ t.readers.length = s.readers.length

/-- R259: a READ_FRAME that raised CorruptedInput or ChecksumMismatch leaves its context Failed, one that raised
InvalidArgument leaves every context as it was; a Failed reader stays as it is under every instruction but CLOSE_READER on its
handle, and READ_FRAME on it raises InvalidArgument; no writer becomes Failed. -/
def Obligations.FailedReaderStaysFailed : Prop :=
  (∀ s t : State, exec .readFrame s = .next t →
    (t.regs.status.err = .corruptedInput ∨ t.regs.status.err = .checksumMismatch →
      ∃ r, t.readers[s.regs.handle.toNat]? = some r ∧ r.state = .failed) ∧
    (t.regs.status.err = .invalidArgument → t.readers = s.readers)) ∧
  (∀ (s : State) (j : Nat) (r : ReaderCtx), s.readers[j]? = some r → r.state = .failed →
    (∀ (i : Instr) (t : State), exec i s = .next t → ¬ (i = .closeReader ∧ j = s.regs.handle.toNat) →
      t.readers[j]? = some r) ∧
    (j = s.regs.handle.toNat → exec .readFrame s = .next (rejected s))) ∧
  (∀ (i : Instr) (s t : State), exec i s = .next t → (∀ w ∈ s.writers, w.state ≠ .failed) →
    ∀ w ∈ t.writers, w.state ≠ .failed)

/-- R250, R258, R306, R22: after a READ_FRAME EOS = 1 exactly when it ended without error and the context is in End; after every
other command EOS = 0. -/
def Obligations.EosExactlyAtTheEnd : Prop :=
  (∀ (s t : State), exec .readFrame s = .next t →
    (t.regs.status.eos = true ↔
      t.regs.status.err = .none ∧ ∃ r, t.readers[s.regs.handle.toNat]? = some r ∧ r.state = .ended)) ∧
  (∀ (i : Instr) (s t : State), isCommand i → i ≠ .readFrame → exec i s = .next t → t.regs.status.eos = false)

/-- R271, R234, R79: what COMPRESS_BLOCK, DECOMPRESS_BLOCK, WRITE_FRAME and READ_FRAME report, and the context the last two
leave, are functions of the parameters, the registers each reads, its own context and the bytes of its source region (of the
frame's region for READ_FRAME): no other context, no content of BT, no working register
and no other byte of BM has a part in it. -/
def Obligations.CommandResultsDependOnTheirOwnArguments : Prop :=
  ∀ s s' t : State, Mem.wf s.mem → Mem.wf s'.mem → s'.params = s.params →
    s'.regs.dstAddrLo = s.regs.dstAddrLo → s'.regs.dstAddrHi = s.regs.dstAddrHi → s'.regs.dstCap = s.regs.dstCap →
    (s'.regs.srcAddrLo = s.regs.srcAddrLo → s'.regs.srcAddrHi = s.regs.srcAddrHi → s'.regs.srcLen = s.regs.srcLen →
      srcBytes s' = srcBytes s →
      (s'.regs.arg = s.regs.arg → s'.regs.cfg = s.regs.cfg → exec .compressBlock s = .next t →
        ∃ t', exec .compressBlock s' = .next t' ∧ reportsSame s.params s.regs t t' ∧
          t'.bt = (if t.regs.status.err = .none then t.bt else s'.bt)) ∧
      (s'.regs.arg = s.regs.arg → exec .decompressBlock s = .next t →
        ∃ t', exec .decompressBlock s' = .next t' ∧ reportsSame s.params s.regs t t') ∧
      (s'.regs.handle = s.regs.handle → s'.writers[s.regs.handle.toNat]? = s.writers[s.regs.handle.toNat]? →
        exec .writeFrame s = .next t →
        ∃ t', exec .writeFrame s' = .next t' ∧ reportsSame s.params s.regs t t' ∧
          t'.writers[s.regs.handle.toNat]? = t.writers[s.regs.handle.toNat]?)) ∧
    (s'.regs.handle = s.regs.handle → s'.regs.arg = s.regs.arg →
      s'.readers[s.regs.handle.toNat]? = s.readers[s.regs.handle.toNat]? →
      (∀ r, s.readers[s.regs.handle.toNat]? = some r → regionBytes s' r.region = regionBytes s r.region) →
      exec .readFrame s = .next t →
      ∃ t', exec .readFrame s' = .next t' ∧ reportsSame s.params s.regs t t' ∧
        t'.readers[s.regs.handle.toNat]? = t.readers[s.regs.handle.toNat]?)

/-! ### The match finder -/

/-- R137, R138, R139: LEVEL chooses the variant and its acceleration; the step's formula; with legal CFG and A ≥ 1 the step is at
least 1, never above SKIP_CEIL, and never shrinks as failures go on. -/
def Obligations.LevelAndFailuresDecideTheStep : Prop :=
  ∀ (c : CfgRegs) (level : Int) (a fails : Nat), c.legal → 1 ≤ a →
    (level ≤ 0 → ∃ b : Nat, variantOf c level = .fast b ∧ (b : Int) = min (c.skipCeil.toNat : Int) (1 - level) ∧ 1 ≤ b) ∧
    (0 < level → level ≤ c.hcMinLevel.toNat → variantOf c level = .fast 1) ∧
    (0 < level → (c.hcMinLevel.toNat : Int) < level →
      variantOf c level = .highRatio (min level c.hcMaxLevel.toNat)) ∧
    skipStep c a fails = min c.skipCeil.toNat (a * 2 ^ (fails / 2 ^ c.skipStrength.toNat)) ∧
    1 ≤ skipStep c a fails ∧ skipStep c a fails ≤ c.skipCeil.toNat ∧ skipStep c a fails ≤ skipStep c a (fails + 1)

/-- R132 to R136, R141, R149, R150: whatever the tables hold and whatever the finder policy, a match reported at a position that
leaves room for one is real, at least 4 long, within the window and the history, and ends at or before `matchlimit` and at or
before the next cursor; with legal CFG the next cursor is strictly greater than the current one; and an answer of a policy that
keeps these rules is taken as it stands.  That a match starts at the cursor, and that an answer which is no match counts as
none, is how the model states a policy (log entry 8). -/
def Obligations.ReportedMatchIsReal : Prop :=
  (∀ (q : Policy) (c : CfgRegs) (v : Variant) (e : FinderEnv) (r : EncRegs) (t : TableSet) (off len : Nat),
    r.cur + 4 ≤ e.matchlimit → e.matchlimit ≤ e.hist.length → (visit q c v e r t).found = some (off, len) →
    1 ≤ off ∧ off ≤ 65535 ∧ off ≤ r.cur ∧ 4 ≤ len ∧ r.cur + len ≤ e.matchlimit ∧
    (∀ i, i < len → e.hist[r.cur - off + i]? = e.hist[r.cur + i]?) ∧ r.cur + len ≤ (visit q c v e r t).next) ∧
  (∀ (q : Policy) (c : CfgRegs) (level : Int) (e : FinderEnv) (r : EncRegs) (t : TableSet), c.legal →
    r.cur < (visit q c (variantOf c level) e r t).next) ∧
  (∀ (f : FinderView → FinderAnswer) (c : CfgRegs) (v : Variant) (e : FinderEnv) (r : EncRegs) (t : TableSet)
    (a : FinderAnswer), a = f (finderView c v e r t) →
    (∀ off len, a.found = some (off, len) → 1 ≤ off → off ≤ 65535 → off ≤ r.cur → 4 ≤ len → r.cur + len ≤ e.matchlimit →
      (∀ i, i < len → e.hist[r.cur - off + i]? = e.hist[r.cur + i]?) → r.cur + len ≤ a.next →
      (visit (.other f) c v e r t).found = a.found ∧ (visit (.other f) c v e r t).next = a.next) ∧
    (a.found = none → r.cur < a.next →
      (visit (.other f) c v e r t).found = none ∧ (visit (.other f) c v e r t).next = a.next))

/-- R131, R136: the fast finder reads its bucket before it writes it, writes the position there, and touches no other bucket. -/
def Obligations.FastFinderWritesItsBucketOnly : Prop :=
  ∀ (e : FinderEnv) (v p h : Nat) (t : TableSet),
    (findMatch e (.fast v) p t).1 = e.judge p (Assoc.find (e.hash p) t.ht) ∧
    Assoc.find (e.hash p) (findMatch e (.fast v) p t).2.ht = some (e.p0 + p) ∧
    (h ≠ e.hash p → Assoc.find h (findMatch e (.fast v) p t).2.ht = Assoc.find h t.ht) ∧
    (findMatch e (.fast v) p t).2.ch = t.ch

/-- R142 to R145, R147 to R149: on a chain whose positions fall, as insertion at the front keeps them, the high-ratio search
answers none exactly when no candidate of the chain is confirmed, and else the match of a confirmed one; while every confirmed
candidate is shorter than HC_OPT_LEN, none is longer than the one taken and none as long is closer; the first, from the front,
that reaches HC_OPT_LEN is taken.  Whatever is found, the position then stands in front of its chain, which is cut to
HC_MAX_ATTEMPTS, and no other bucket changes.  That a candidate must stand before the position is log entry 11 (DEDUCED). -/
def Obligations.HighRatioFinderTakesTheLongestThenClosest : Prop :=
  ∀ (e : FinderEnv) (l : Int) (p : Nat) (t : TableSet), (chainAt t (e.hash p)).Pairwise (· > ·) →
    ((findMatch e (.highRatio l) p t).1 = none ↔ ∀ c ∈ chainAt t (e.hash p), ¬ e.confirmed p c) ∧
    (∀ off len, (findMatch e (.highRatio l) p t).1 = some (off, len) →
      (∃ c ∈ chainAt t (e.hash p), e.confirmed p c ∧ off = e.p0 + p - c ∧ len = e.matchLen (c - e.p0) p) ∧
      ((∀ c ∈ chainAt t (e.hash p), e.confirmed p c → e.matchLen (c - e.p0) p < e.optLen) →
        ∀ c ∈ chainAt t (e.hash p), e.confirmed p c →
          e.matchLen (c - e.p0) p ≤ len ∧ (e.matchLen (c - e.p0) p = len → off ≤ e.p0 + p - c))) ∧
    (∀ newer c older, chainAt t (e.hash p) = newer ++ c :: older → e.confirmed p c →
      e.optLen ≤ e.matchLen (c - e.p0) p →
      (∀ d ∈ newer, e.confirmed p d → e.matchLen (d - e.p0) p < e.optLen) →
      (findMatch e (.highRatio l) p t).1 = some (e.p0 + p - c, e.matchLen (c - e.p0) p)) ∧
    chainAt (findMatch e (.highRatio l) p t).2 (e.hash p) =
      ((e.p0 + p) :: chainAt t (e.hash p)).take e.maxAttempts ∧
    (∀ h, h ≠ e.hash p → chainAt (findMatch e (.highRatio l) p t).2 h = chainAt t h) ∧
    (findMatch e (.highRatio l) p t).2.ht = t.ht

/-- R134: for different little-endian words the number of equal leading bytes is `ctz(a xor b) div 8`. -/
def Obligations.BitScanCountsEqualLeadingBytes : Prop :=
  ∀ a b : Word, a ≠ b → equalLeadingBytes a b = commonLength 4 (leBytes 4 a.toNat) (leBytes 4 b.toNat)

/-! ### The block encoder -/

/-- R162 (a), (c) to (g), R167, R168, R170, R172 to R174, for every finder policy (R141): the empty block's encoding is empty; a
non-empty block's is SEQs and one LAST with a zero low nibble; every match is at least 4 long, at an offset 1..65535 that reaches no further than the dictionary
and the block's bytes before it, and ends 5 bytes before the block's end or earlier; what the SEQs cover and the last literals
are the block's length; a block of 5 bytes or more keeps at least its last 5 bytes literal; below 13 bytes there is no match;
the encoding is no longer than its bound. -/
def Obligations.EncodingIsLegalSequences : Prop :=
  ∀ (q : Policy) (c : CfgRegs) (level : Int) (ind : Bool) (dict block : List Byte) (t : TableSet) (p0 : Nat) (r : EncRegs),
    (block = [] → (encodeBlock q c level ind dict block t p0 r).1.out = []) ∧
    (block ≠ [] → ∃ (l : List SeqParts) (tail : List Byte),
      (encodeBlock q c level ind dict block t p0 r).1.out = sequenceBytes l tail ∧
      (∀ (k : Nat) (x : SeqParts), l[k]? = some x → 1 ≤ x.2.1 ∧ x.2.1 ≤ 65535 ∧ 4 ≤ x.2.2 ∧
        x.2.1 ≤ dict.length + sequencesCover (l.take k) + x.1.length ∧
        sequencesCover (l.take (k + 1)) + 5 ≤ block.length) ∧
      sequencesCover l + tail.length = block.length ∧
      (5 ≤ block.length → 5 ≤ tail.length) ∧ (block.length < 13 → l = [] ∧ tail = block)) ∧
    (encodeBlock q c level ind dict block t p0 r).1.out.length ≤ block.length + block.length / 255 + 2 ∧
    (encodeBlock q c level ind dict block t p0 r).1.out.length ≤ maximumOutputLength block.length

/-- R171: decoding what the encoder makes of a block, against the same dictionary and under any limit that is large enough,
gives the block back, whatever the finder policy is, the tables hold and the tunables are; and COMPRESS_BLOCK with enough
capacity followed, in any state that names the delivered bytes as its source and the original length, by DECOMPRESS_BLOCK
restores the source. -/
def Obligations.DecodingUndoesEncoding : Prop :=
  (∀ (q : Policy) (c : CfgRegs) (level : Int) (ind : Bool) (dict block : List Byte) (t : TableSet) (p0 limit : Nat) (r : EncRegs)
    (d : DecRegs), block.length ≤ limit →
    ∃ d', decodeBlock (encodeBlock q c level ind dict block t p0 r).1.out dict limit d = .ok d' ∧ d'.out = block) ∧
  (∀ s t u : State, Mem.wf s.mem → Mem.wf u.mem → exec .compressBlock s = .next t → t.regs.status.err = .none →
    t.regs.status.nofit = false →
    srcBytes u = Mem.readBytes t.mem (dstRegion s.params s.regs).addr t.regs.result.toNat →
    regionsValid u.params u.regs → u.regs.arg = s.regs.srcLen → s.regs.srcLen.toNat ≤ u.regs.dstCap.toNat →
    ∃ v, exec .decompressBlock u = .next v ∧ v.regs.status = statusDone ∧ v.regs.result = s.regs.srcLen ∧
      Mem.readBytes v.mem (dstRegion u.params u.regs).addr s.regs.srcLen.toNat = srcBytes s)

/-- R175, R208, R261 (c), R281: the loops end within the turns they are given: with legal CFG the encoder makes at most as many
attempts as the block has bytes, the decoder as many turns as the input has bytes and one, READ_FRAME at most 2 * (SRC_LEN /
4 + 1) + 2 turns, parses and deliveries together; more turns change nothing.  That loops run on a number of turns is the
model's (log entry 23). -/
def Obligations.EveryLoopEnds : Prop :=
  (∀ (q : Policy) (c : CfgRegs) (level : Int) (e : FinderEnv) (r : EncRegs) (t : TableSet) (n k : Nat), c.legal →
    r.mflimit < r.cur + n →
    encodeLoop q c (variantOf c level) e (n + k) r t = encodeLoop q c (variantOf c level) e n r t) ∧
  (∀ (inp dict : List Byte) (limit k : Nat) (r : DecRegs),
    decodeLoop inp dict limit (inp.length + 1 + k) { r with ip := 0, out := [] } =
      decodeLoop inp dict limit (inp.length + 1) { r with ip := 0, out := [] }) ∧
  (∀ (f : List Byte) (max k : Nat) (t : ReadWork),
    readLoop f max (readFuel f.length + k) t = readLoop f max (readFuel f.length) t)

/-! ### The block decoder -/

/-- R197: the match copy, byte by byte, and as the `off`-byte pattern repeated. -/
def Obligations.MatchCopyRepeatsThePattern : Prop :=
  ∀ (dict out : List Byte) (off n : Nat), 1 ≤ off → off ≤ dict.length + out.length →
    (appendMatch dict off n out).length = out.length + n ∧
    (appendMatch dict off n out).take out.length = out ∧
    ∀ i, i < n →
      (dict ++ appendMatch dict off n out)[dict.length + out.length + i]? =
        (dict ++ appendMatch dict off n out)[dict.length + out.length - off + i]? ∧
      (dict ++ appendMatch dict off n out)[dict.length + out.length + i]? =
        (dict ++ out)[dict.length + out.length - off + i % off]?

/-- R198, R200: a decoded block is never longer than the limit and its input is used up; the same input decodes to the same
bytes under every limit its output fits, its own length included, and is rejected under every smaller one; the empty input
decodes to the empty output. -/
def Obligations.DecoderRespectsItsLimit : Prop :=
  ∀ (inp dict : List Byte) (limit limit' : Nat) (r d : DecRegs),
    decodeBlock [] dict limit r = .ok { r with ip := 0, out := [] } ∧
    (decodeBlock inp dict limit r = .ok d →
      d.out.length ≤ limit ∧ d.ip = inp.length ∧
      (d.out.length ≤ limit' → decodeBlock inp dict limit' r = .ok d) ∧
      (limit' < d.out.length → ∃ d', decodeBlock inp dict limit' r = .error d'))

/-- R190 to R199: a block run one wire element at a step ends, and exactly as `DecodeBlock` does: with its working registers,
returned or with CorruptedInput, and nothing else of the machine changed.  What the working registers hold after the block is
the model's choice (log entry 5). -/
def Obligations.ElementRunIsDecodeBlock : Prop :=
  ∀ (s : State) (inp dict : List Byte) (limit : Nat), s.stream.pos = .idle → s.host = [] →
    ∃ k, Host.Core.run Sys2Proof.core k (startBlockRun .element inp dict limit s) = .next
      (match decodeBlock inp dict limit s.dec with
        | .ok d => { s with dec := d, stream := { s.stream with
            pos := .idle, grain := .element, input := inp, dict := dict, limit := limit, verdict := .returned } }
        | .error d => { s with dec := d, stream := { s.stream with
            pos := .idle, grain := .element, input := inp, dict := dict, limit := limit,
            verdict := .raised .corruptedInput } })

/-- R91, R98, R99: one step on a whole SEQ or LAST does to the working registers what its elements do.  The run and its sequence
grain are the model's (log entry 12), and so is what the working registers hold when the block has ended (log entry 5). -/
def Obligations.SequenceStepIsItsElements : Prop :=
  ∀ (s : State) (i : Instr) (rest : List Byte), s.stream.pos = .boundary → s.stream.grain = .sequence →
    decode .sequence (s.stream.input.drop s.dec.ip) = .ok (i, rest) →
    step s = exec i s ∧
    exec i s = .next (match decodeSeq s.stream.input s.stream.dict s.stream.limit s.dec with
      | .ok (d, true) => { s with dec := d, stream := { s.stream with pos := .idle, verdict := .returned } }
      | .ok (d, false) => { s with dec := d }
      | .error d =>
        { s with dec := d, stream := { s.stream with pos := .idle, verdict := .raised .corruptedInput } })

/-! ### The wire elements of a block -/

/-- TOKEN (R191, R192), LLEXT (R192) and MLEXT (R196) with 255: the cursor moves by one, the length field takes the value, and
an extension follows where one is due.  Position, verdict and one element at a step are the wire-data run's, the model's
choice (log entry 12), and so are the partial results in LL and ML (log entry 5). -/
def Obligations.LengthElementsAccumulate : Prop :=
  ∀ (v : Byte) (s : State), s.dec.ip < s.stream.input.length →
    (s.stream.pos = .boundary →
      exec (.token v) s = .next { s with
        dec := { s.dec with ip := s.dec.ip + 1, token := v, ll := v.toNat / 16 }
        stream := { s.stream with pos := if v.toNat / 16 = 15 then .llext else .literals } }) ∧
    (s.stream.pos = .llext →
      exec (.llext v) s = .next { s with
        dec := { s.dec with ip := s.dec.ip + 1, ll := s.dec.ll + v.toNat }
        stream := { s.stream with pos := if v = 255#8 then .llext else .literals } }) ∧
    (s.stream.pos = .mlext → v = 255#8 →
      exec (.mlext v) s = .next { s with dec := { s.dec with ip := s.dec.ip + 1, ml := s.dec.ml + 255 } }) ∧
    (s.stream.pos = .mlext → v ≠ 255#8 → s.dec.out.length + s.dec.ml + v.toNat ≤ s.stream.limit →
      exec (.mlext v) s = .next { s with
        dec := { s.dec with
          ip := s.dec.ip + 1
          ml := s.dec.ml + v.toNat
          out := appendMatch s.stream.dict s.dec.off.toNat (s.dec.ml + v.toNat) s.dec.out }
        stream := { s.stream with pos := .boundary } }) ∧
    (s.stream.pos = .mlext → v ≠ 255#8 → s.stream.limit < s.dec.out.length + s.dec.ml + v.toNat →
      exec (.mlext v) s = .next { s with
        dec := { s.dec with ip := s.dec.ip + 1, ml := s.dec.ml + v.toNat }
        stream := { s.stream with pos := .idle, verdict := .raised .corruptedInput } })

/-- LITERALS (R193, R194, R198): both tests before any byte is copied; when the input is exhausted the block is complete.
Position and verdict are the wire-data run's, the model's choice (log entry 12). -/
def Obligations.LiteralsAreCopiedThenTheEndIsTested : Prop :=
  ∀ (lit : List Byte) (s : State), s.stream.pos = .literals → lit.length = s.dec.ll →
    (s.dec.ip + s.dec.ll ≤ s.stream.input.length → s.dec.out.length + s.dec.ll ≤ s.stream.limit →
      exec (.literals lit) s = .next { s with
        dec := { s.dec with ip := s.dec.ip + s.dec.ll, out := s.dec.out ++ lit }
        stream := if s.dec.ip + s.dec.ll = s.stream.input.length
          then { s.stream with pos := .idle, verdict := .returned } else { s.stream with pos := .offset } }) ∧
    ((s.stream.input.length < s.dec.ip + s.dec.ll ∨ s.stream.limit < s.dec.out.length + s.dec.ll) →
      exec (.literals lit) s = .next { s with
        stream := { s.stream with pos := .idle, verdict := .raised .corruptedInput } })

/-- OFFSET (R195 to R198): an offset in 1..|dict|+|out| is taken; ML is 4 and the token's low nibble; with nibble 15 an
extension follows, else the match is copied under the limit; a bad offset is CorruptedInput.  Position and verdict are
the wire-data run's (log entry 12) and the partial result in ML before an extension is log entry 5: the model's choice; one
remaining byte, which is no offset, is left to StepRunsTheDecodedElement. -/
def Obligations.OffsetIsValidatedThenTheMatchIsCopied : Prop :=
  ∀ (off : BitVec 16) (s : State), s.stream.pos = .offset → s.dec.ip + 2 ≤ s.stream.input.length →
    ((off = 0#16 ∨ s.stream.dict.length + s.dec.out.length < off.toNat) →
      exec (.offset off) s = .next { s with
        dec := { s.dec with ip := s.dec.ip + 2, off := off }
        stream := { s.stream with pos := .idle, verdict := .raised .corruptedInput } }) ∧
    (off ≠ 0#16 → off.toNat ≤ s.stream.dict.length + s.dec.out.length →
      (s.dec.token.toNat % 16 = 15 →
        exec (.offset off) s = .next { s with
          dec := { s.dec with ip := s.dec.ip + 2, off := off, ml := 19 }
          stream := { s.stream with pos := .mlext } }) ∧
      (s.dec.token.toNat % 16 ≠ 15 → s.dec.out.length + (4 + s.dec.token.toNat % 16) ≤ s.stream.limit →
        exec (.offset off) s = .next { s with
          dec := { s.dec with
            ip := s.dec.ip + 2
            off := off
            ml := 4 + s.dec.token.toNat % 16
            out := appendMatch s.stream.dict off.toNat (4 + s.dec.token.toNat % 16) s.dec.out }
          stream := { s.stream with pos := .boundary } }) ∧
      (s.dec.token.toNat % 16 ≠ 15 → s.stream.limit < s.dec.out.length + (4 + s.dec.token.toNat % 16) →
        exec (.offset off) s = .next { s with
          dec := { s.dec with ip := s.dec.ip + 2, off := off, ml := 4 + s.dec.token.toNat % 16 }
          stream := { s.stream with pos := .idle, verdict := .raised .corruptedInput } }))

/-- SEQ and LAST (R91, R98, R190, R194, R197) as whole sequences: literals, then the match copy; a LAST ends the
block.  A whole sequence at a step and the verdict are the wire-data run's (log entry 12), and that a LAST carries the ignored
low nibble is log entry 24: both the model's choice.  Sequences that fail are left to SequenceStepIsItsElements. -/
def Obligations.WholeSequencesComplete : Prop :=
  (∀ (lit : List Byte) (off : BitVec 16) (ml : Nat) (s : State), s.stream.pos = .boundary → 4 ≤ ml →
    s.dec.ip + (emitSeq lit off.toNat ml).length ≤ s.stream.input.length →
    s.dec.out.length + lit.length + ml ≤ s.stream.limit →
    off ≠ 0#16 → off.toNat ≤ s.stream.dict.length + s.dec.out.length + lit.length →
    exec (.seq lit off ml) s = .next { s with dec := { s.dec with
      ip := s.dec.ip + (emitSeq lit off.toNat ml).length
      token := makeToken lit.length (ml - 4)
      ll := lit.length
      ml := ml
      off := off
      out := appendMatch s.stream.dict off.toNat ml (s.dec.out ++ lit) } }) ∧
  (∀ (lit : List Byte) (mln : BitVec 4) (s : State), s.stream.pos = .boundary →
    s.dec.ip + (emitLastWith lit mln.toNat).length = s.stream.input.length →
    s.dec.out.length + lit.length ≤ s.stream.limit →
    exec (.last lit mln) s = .next { s with
      dec := { s.dec with
        ip := s.stream.input.length
        token := makeToken lit.length mln.toNat
        ll := lit.length
        out := s.dec.out ++ lit }
      stream := { s.stream with pos := .idle, verdict := .returned } })

/-! ### The frame -/

/-- R109, R221, R222: a written header has 7 bytes and 8 and 4 more for the fields its flags announce, and reads back: the flags
with the version bits, the class, the declared size and id where their flag is set, and the header's length. -/
def Obligations.HeaderReadsBack : Prop :=
  ∀ (p : PrefRegs) (rest : List Byte),
    (headerBytes p).length = 7 + 8 * p.csize.toNat + 4 * p.hasDictid.toNat ∧
    (p.legal →
      ∃ f, parseHeader (headerBytes p ++ rest) = .ok f ∧ f.flags.toNat = 0x40 + p.flags.toNat ∧ f.bsclass = p.bsclass ∧
        (p.csize = true → f.csizeLo = p.csizeLo ∧ f.csizeHi = p.csizeHi) ∧
        (p.csize = false → f.csizeLo = 0#32 ∧ f.csizeHi = 0#32) ∧
        f.dictid = (if p.hasDictid then p.dictid else 0#32) ∧
        f.hdrlen.toNat = (headerBytes p).length)

/-- R222, R310: the header's errors in their order: magic and length, then the checksum, then version, reserved bits and
class. -/
def Obligations.HeaderErrorsInTheirOrder : Prop :=
  ∀ f : List Byte,
    (f.length < 4 ∨ leNat (f.take 4) ≠ 0x184D2204 ∨ f.length < 6 → parseHeader f = .error .corruptedInput) ∧
    (∀ (flg bd : Byte) (hl : Nat), f[4]? = some flg → f[5]? = some bd →
      hl = 7 + 8 * (flg.getLsbD 3).toNat + 4 * (flg.getLsbD 0).toNat → leNat (f.take 4) = 0x184D2204 →
      (f.length < hl → parseHeader f = .error .corruptedInput) ∧
      (∀ c, hl ≤ f.length → f[hl - 1]? = some c →
        (c ≠ hdrsum (Config.hash32 ((f.take (hl - 1)).drop 4)) → parseHeader f = .error .checksumMismatch) ∧
        (c = hdrsum (Config.hash32 ((f.take (hl - 1)).drop 4)) →
          (parseHeader f = .error .corruptedInput ↔
            ¬ (flg.toNat / 64 = 1 ∧ flg.getLsbD 1 = false ∧ bd.getLsbD 7 = false ∧ bd.toNat % 16 = 0 ∧
              4 ≤ bd.toNat / 16 % 8)))))

/-- R223, R237: the four block maxima; the pieces of the data are the data, none is empty or longer than B, all but the last have
B bytes, and there are `ceil(n / B)` of them. -/
def Obligations.ChunksCutTheData : Prop :=
  (blockMax 4 = 65536 ∧ blockMax 5 = 262144 ∧ blockMax 6 = 1048576 ∧ blockMax 7 = 4194304) ∧
  (∀ (b : Nat) (data : List Byte), 1 ≤ b →
    (chunks b data.length data).flatten = data ∧
    (∀ c ∈ chunks b data.length data, c ≠ [] ∧ c.length ≤ b) ∧
    (∀ c ∈ (chunks b data.length data).dropLast, c.length = b) ∧
    (chunks b data.length data).length = (data.length + b - 1) / b)

/-- R240, R241 (`EmitBlock`): compressed exactly when the encoding is shorter than the content, else raw; the checksum over the
payload as stored; TOTAL, ACC and WIN updated; for every finder policy (R141).  That the encoder's working
registers, dead after the block (R32), keep what the encoder left in them is the model's choice (log entry 5). -/
def Obligations.EmitBlockStoresCompressedOrRaw : Prop :=
  ∀ (q : Policy) (t : WriteWork) (c : List Byte), c ≠ [] →
    ∃ e payload word, e = (encodeBlock q t.writer.cfg t.writer.prefs.level.toInt t.writer.prefs.bindep
        (if t.writer.prefs.bindep then [] else t.writer.win) c
        (if t.writer.prefs.bindep then TableSet.empty else t.writer.tbl)
        (if t.writer.prefs.bindep then 0 else t.writer.total - t.writer.win.length) t.enc) ∧
      (e.1.out.length < c.length → payload = e.1.out ∧ word = e.1.out.length) ∧
      (c.length ≤ e.1.out.length → payload = c ∧ word = 2 ^ 31 + c.length) ∧
      (emitBlock q t c).out = t.out ++ leBytes 4 word ++ payload ++
        (if t.writer.prefs.bcsum then leBytes 4 (Config.hash32 payload).toNat else []) ∧
      (emitBlock q t c).enc = e.1 ∧
      (emitBlock q t c).writer = { t.writer with
        tbl := e.2
        total := t.writer.total + c.length
        acc := if t.writer.prefs.ccsum then t.writer.acc ++ c else t.writer.acc
        win := if t.writer.prefs.bindep then t.writer.win
          else (t.writer.win ++ c).drop ((t.writer.win ++ c).length - 65535) }

/-- R253: with block checksums a stored payload that does not match its checksum is ChecksumMismatch, whatever the payload
is; it is not decoded. -/
def Obligations.BlockChecksumComesBeforeDecoding : Prop :=
  ∀ (f : List Byte) (t : ReadWork) (w : Nat), t.reader.rip + 4 ≤ f.length → w = t.word f → w ≠ 0 →
    t.reader.finfo.bcsum = true → w % 2 ^ 31 ≤ blockMax t.reader.finfo.bsclass.toNat →
    t.reader.rip + 4 + w % 2 ^ 31 + 4 ≤ f.length →
    BitVec.ofNat 32 (leNat ((f.drop (t.reader.rip + 4 + w % 2 ^ 31)).take 4)) ≠
      Config.hash32 ((f.drop (t.reader.rip + 4)).take (w % 2 ^ 31)) →
    ∃ u, nextBlock f t = .error (.checksumMismatch, u) ∧ u.dec = t.dec

/-- R246: the frame OPEN_WRITER, any WRITE_FRAMEs and CLOSE_WRITER produce opens, and reading it to its end delivers the data
in order, without error, whatever the finder policy. -/
def Obligations.FrameRoundTrip : Prop :=
  ∀ (q : Policy) (r : Regs) (enc : EncRegs) (ds : List (List Byte)) (max : Nat) (d : DecRegs) (b : BlkRegs), r.pref.legal →
    (r.pref.csize = true → r.pref.contentSize.toNat = ds.flatten.length) → ds.flatten.length < max →
    ∃ f u, parseHeader (frameOf q r enc ds) = .ok f ∧
      readLoop (frameOf q r enc ds) max (readFuel (frameOf q r enc ds).length)
        { reader := openedReader Params.default Regs.reset f, dec := d, blk := b, out := [] } = .ok u ∧
      u.out = ds.flatten ∧ u.reader.state = .ended ∧ u.reader.rip = (frameOf q r enc ds).length

/-- R261 (a): reading `m` bytes and then `n` bytes delivers what reading `m + n` bytes at once delivers, and leaves the reader
the same. -/
def Obligations.DeliveryDoesNotDependOnTheCuts : Prop :=
  ∀ (f : List Byte) (m n : Nat) (t u v : ReadWork), t.out = [] →
    readLoop f m (readFuel f.length) t = .ok u →
    readLoop f n (readFuel f.length) { u with out := [] } = .ok v →
    readLoop f (m + n) (readFuel f.length) t = .ok { v with out := u.out ++ v.out }

/-- R222: a frame run's header elements, one at a step, accept exactly the headers `ParseHeader` accepts, with the same fields
and the same errors. -/
def Obligations.HeaderRunIsParseHeader : Prop :=
  ∀ (s : State) (f : List Byte), s.stream.pos = .idle → s.host = [] →
    (∀ h, parseHeader f = .ok h → ∃ k t, Host.Core.run Sys2Proof.core k (startFrameRun f s) = .next t ∧
      t.stream.pos = .block ∧ t.stream.input = f ∧ t.stream.content = [] ∧
      t.stream.reader = { runReader with state := .blocks, finfo := h, rip := h.hdrlen.toNat }) ∧
    (∀ e, parseHeader f = .error e → ∃ k t, Host.Core.run Sys2Proof.core k (startFrameRun f s) = .next t ∧
      t.stream.pos = .idle ∧ t.stream.verdict = .raised e ∧ t.stream.reader.state = .closed)

/-- R251, R256: a frame run's block elements, one at a step, do what `NextBlock` does, the staged content being delivered at
once.  What a failed run's reader context keeps besides its state is the model's choice (log entry 21), and what the working
registers hold (log entry 5). -/
def Obligations.BlockRunIsNextBlock : Prop :=
  ∀ (s : State), s.stream.pos = .block → s.stream.reader.state = .blocks → s.host = [] →
    s.stream.reader.total + blockMax s.stream.reader.finfo.bsclass.toNat < 2 ^ 64 →
    (∀ u, nextBlock s.stream.input { reader := s.stream.reader, dec := s.dec, blk := s.blk, out := s.stream.content } = .ok u →
      ∃ k t, Host.Core.run Sys2Proof.core k s = .next t ∧ t.dec = u.dec ∧ t.blk = u.blk ∧
        ((u.reader.state = .blocks ∧ t.stream = { s.stream with
            reader := { u.reader with stage := [] }, content := s.stream.content ++ u.reader.stage }) ∨
         (u.reader.state = .ended ∧ t.stream = { s.stream with
            reader := u.reader, pos := .idle, verdict := .returned }))) ∧
    (∀ e u, nextBlock s.stream.input { reader := s.stream.reader, dec := s.dec, blk := s.blk, out := s.stream.content } =
        .error (e, u) →
      ∃ k t, Host.Core.run Sys2Proof.core k s = .next t ∧ t.stream = { s.stream with
        reader := { u.reader with state := .failed }, pos := .idle, verdict := .raised e })

/-! ### The wire elements of a frame -/

/-- MAGIC, FLG, BD, CSIZE, DICTID (R101 to R107, R222): each, where it stands and where the header's bytes are there, moves RIP
past itself, records its field, and the run goes on to the element FLG announces.  The run is the model's (log entry 12), and so is when each
name is recorded (log entry 5). -/
def Obligations.HeaderElementsAreRecorded : Prop :=
  ∀ (s : State) (b : Byte) (v : DWord) (w : Word),
    (s.stream.pos = .magic → s.stream.reader.rip + 4 ≤ s.stream.input.length →
      exec .magic s = .next { s with stream := { s.stream with
        pos := .flg, reader := { s.stream.reader with rip := s.stream.reader.rip + 4 } } }) ∧
    (s.stream.pos = .flg → s.stream.reader.rip + 2 ≤ s.stream.input.length →
      exec (.flg b) s = .next { s with
        hdr := { s.hdr with flg := b }
        stream := { s.stream with
          pos := .bd, reader := { s.stream.reader with rip := s.stream.reader.rip + 1 } } }) ∧
    (s.stream.pos = .bd →
      s.stream.reader.rip + 2 + 8 * (s.hdr.flg.getLsbD 3).toNat + 4 * (s.hdr.flg.getLsbD 0).toNat ≤
        s.stream.input.length →
      exec (.bd b) s = .next { s with
        hdr := { s.hdr with bd := b, csize := 0#64, dictid := 0#32 }
        stream := { s.stream with
          pos := if s.hdr.flg.getLsbD 3 then .csize else if s.hdr.flg.getLsbD 0 then .dictid else .hc
          reader := { s.stream.reader with rip := s.stream.reader.rip + 1 } } }) ∧
    (s.stream.pos = .csize → s.stream.reader.rip + 8 ≤ s.stream.input.length →
      exec (.csize v) s = .next { s with
        hdr := { s.hdr with csize := v }
        stream := { s.stream with
          pos := if s.hdr.flg.getLsbD 0 then .dictid else .hc
          reader := { s.stream.reader with rip := s.stream.reader.rip + 8 } } }) ∧
    (s.stream.pos = .dictid → s.stream.reader.rip + 4 ≤ s.stream.input.length →
      exec (.dictid w) s = .next { s with
        hdr := { s.hdr with dictid := w }
        stream := { s.stream with
          pos := .hc, reader := { s.stream.reader with rip := s.stream.reader.rip + 4 } } })

/-- HC (R108, R222, R230): a header whose checksum matches and whose FLG and BD are legal is taken and the blocks begin; a
wrong checksum is ChecksumMismatch, an illegal FLG or BD with a good one CorruptedInput. -/
def Obligations.HeaderChecksumIsVerifiedFirst : Prop :=
  ∀ (s : State) (c : Byte) (good : Byte), s.stream.pos = .hc → s.stream.reader.state = .header →
    s.stream.reader.rip + 1 ≤ s.stream.input.length →
    good = hdrsum (Config.hash32 (descriptor s.hdr.flg s.hdr.bd s.hdr.csize s.hdr.dictid)) →
    (c = good → headerLegal s.hdr.flg s.hdr.bd →
      exec (.hc c) s = .next { s with stream := { s.stream with
        pos := .block
        reader := { s.stream.reader with
          state := .blocks, finfo := finfoOf s.hdr.flg s.hdr.bd s.hdr.csize s.hdr.dictid,
          rip := s.stream.reader.rip + 1, hist := [], stage := [], total := 0, acc := [] } } }) ∧
    (c ≠ good →
      exec (.hc c) s = .next { s with stream := { s.stream with
        pos := .idle, verdict := .raised .checksumMismatch
        reader := { s.stream.reader with state := .closed, rip := s.stream.reader.rip + 1 } } }) ∧
    (c = good → ¬ headerLegal s.hdr.flg s.hdr.bd →
      exec (.hc c) s = .next { s with stream := { s.stream with
        pos := .idle, verdict := .raised .corruptedInput
        reader := { s.stream.reader with state := .closed, rip := s.stream.reader.rip + 1 } } })

/-- BLKHDR, PAYLOAD, BLKSUM (R110 to R112, R251 to R255): a size above BLOCK_MAX and a missing payload or checksum are
CorruptedInput; else the payload is kept, its checksum, where the frame has them, is verified as stored, and then its content
is delivered: the payload itself when RAW, else its decoding; a payload that does not decode is CorruptedInput.  The run is
the model's (log entry 12), it delivers a block at once (log entry 22), and what the working registers and the block parser's
names hold after an error is log entry 5, what the failed context holds log entry 21: the model's choices. -/
def Obligations.BlockElementsDeliverTheContent : Prop :=
  (∀ (s : State) (raw : Bool) (size : BitVec 31), s.stream.pos = .block →
    s.stream.reader.rip + 4 ≤ s.stream.input.length →
    (size.toNat ≤ blockMax s.stream.reader.finfo.bsclass.toNat →
      s.stream.reader.rip + 4 + size.toNat + 4 * s.stream.reader.finfo.bcsum.toNat ≤ s.stream.input.length →
      exec (.blkhdr raw size) s = .next { s with
        blk := { s.blk with raw := raw, size := size.toNat }
        stream := { s.stream with
          pos := .payload, reader := { s.stream.reader with rip := s.stream.reader.rip + 4 } } }) ∧
    ((blockMax s.stream.reader.finfo.bsclass.toNat < size.toNat ∨
        s.stream.input.length < s.stream.reader.rip + 4 + size.toNat + 4 * s.stream.reader.finfo.bcsum.toNat) →
      s.stream.reader.state ≠ .header →
      exec (.blkhdr raw size) s = .next (frameFailed 4 .corruptedInput s))) ∧
  (∀ (s : State) (bytes : List Byte), s.stream.pos = .payload → bytes.length = s.blk.size →
    s.stream.reader.rip + s.blk.size ≤ s.stream.input.length →
    (s.stream.reader.finfo.bcsum = true →
      exec (.payload bytes) s = .next { s with
        blk := { s.blk with payload := bytes }
        stream := { s.stream with
          pos := .blksum, reader := { s.stream.reader with rip := s.stream.reader.rip + s.blk.size } } }) ∧
    (∀ c d, s.stream.reader.finfo.bcsum = false → runContent s bytes c d → s.stream.reader.total + c.length < 2 ^ 64 →
      exec (.payload bytes) s =
        .next (blockDelivered s.blk.size c d { s with blk := { s.blk with payload := bytes } })) ∧
    (∀ d, s.stream.reader.finfo.bcsum = false → s.blk.raw = false → s.stream.reader.state ≠ .header →
      decodeBlock bytes (if s.stream.reader.finfo.bindep then [] else s.stream.reader.hist)
        (blockMax s.stream.reader.finfo.bsclass.toNat) s.dec = .error d →
      exec (.payload bytes) s = .next (frameFailed s.blk.size .corruptedInput
        { s with dec := d, blk := { s.blk with payload := bytes } }))) ∧
  (∀ s : State, s.stream.pos = .blksum → s.stream.reader.rip + 4 ≤ s.stream.input.length →
    (∀ c d, runContent s s.blk.payload c d → s.stream.reader.total + c.length < 2 ^ 64 →
      exec (.blksum (Config.hash32 s.blk.payload)) s = .next (blockDelivered 4 c d s)) ∧
    (∀ d, s.blk.raw = false → s.stream.reader.state ≠ .header →
      decodeBlock s.blk.payload (if s.stream.reader.finfo.bindep then [] else s.stream.reader.hist)
        (blockMax s.stream.reader.finfo.bsclass.toNat) s.dec = .error d →
      exec (.blksum (Config.hash32 s.blk.payload)) s = .next (frameFailed 4 .corruptedInput { s with dec := d })) ∧
    (∀ sum, sum ≠ Config.hash32 s.blk.payload → s.stream.reader.state ≠ .header →
      exec (.blksum sum) s = .next (frameFailed 4 .checksumMismatch s)))

/-- ENDMARK and CSUM (R113, R114, R256): the declared content size is judged first; then, with CCSUM, the content checksum; the
frame has then ended. -/
def Obligations.TrailerElementsEndTheFrame : Prop :=
  ∀ s : State, s.stream.reader.rip + 4 ≤ s.stream.input.length →
    (s.stream.pos = .block →
      (s.stream.reader.finfo.csize = true → s.stream.reader.total = s.stream.reader.finfo.contentSize.toNat) →
      exec .endmark s = .next { s with stream := if s.stream.reader.finfo.ccsum
        then { s.stream with
          pos := .csum
          reader := { s.stream.reader with rip := s.stream.reader.rip + 4, state := .contentChecksum } }
        else { s.stream with
          pos := .idle
          verdict := .returned
          reader := { s.stream.reader with rip := s.stream.reader.rip + 4, state := .ended } } }) ∧
    (s.stream.pos = .block → s.stream.reader.state = .blocks → s.stream.reader.finfo.csize = true →
      s.stream.reader.total ≠ s.stream.reader.finfo.contentSize.toNat →
      exec .endmark s = .next { s with stream := { s.stream with
        pos := .idle
        verdict := .raised .corruptedInput
        reader := { s.stream.reader with rip := s.stream.reader.rip + 4, state := .failed } } }) ∧
    (s.stream.pos = .csum →
      exec (.csum (Config.hash32 s.stream.reader.acc)) s = .next { s with stream := { s.stream with
        pos := .idle
        verdict := .returned
        reader := { s.stream.reader with rip := s.stream.reader.rip + 4, state := .ended } } }) ∧
    (∀ sum, s.stream.pos = .csum → s.stream.reader.state ≠ .header → sum ≠ Config.hash32 s.stream.reader.acc →
      exec (.csum sum) s = .next { s with stream := { s.stream with
        pos := .idle
        verdict := .raised .checksumMismatch
        reader := { s.stream.reader with rip := s.stream.reader.rip + 4, state := .failed } } })
end

