-- ==== Sys2Proof/Laws/Encoding.lean ====
section
/-! SUPPORT. The laws of byte order, of the length extensions and of the token, and what the decoder answers on encoded
bytes. -/

namespace Sys2Proof

/-! ### Byte order -/

@[simp] theorem length_leBytes (n v : Nat) : (leBytes n v).length = n := by
  induction n generalizing v with
  | zero => rfl
  | succ n ih => simp [leBytes, ih]

theorem leNat_lt (bs : List Byte) : leNat bs < 256 ^ bs.length := by
  induction bs with
  | nil => simp [leNat]
  | cons b t ih =>
    have := b.isLt
    simp only [leNat, List.length_cons, pow_succ]
    omega

@[simp] theorem leNat_leBytes (n v : Nat) : leNat (leBytes n v) = v % 256 ^ n := by
  induction n generalizing v with
  | zero => simp [leNat, leBytes, Nat.mod_one]
  | succ n ih =>
    simp only [leNat, leBytes, ih, BitVec.toNat_ofNat]
    rw [pow_succ 256 n, Nat.mul_comm (256 ^ n) 256, Nat.mod_mul]

theorem leBytes_leNat (bs : List Byte) : leBytes bs.length (leNat bs) = bs := by
  induction bs with
  | nil => rfl
  | cons b t ih =>
    have hb := b.isLt
    simp only [List.length_cons, leBytes, leNat]
    rw [show (b.toNat + 256 * leNat t) / 256 = leNat t by omega, ih]
    congr 1
    apply BitVec.eq_of_toNat_eq
    simp only [BitVec.toNat_ofNat]
    omega

/-- A little-endian field is read back from its bytes. -/
theorem takeLE_leBytes {n v : Nat} (h : v < 256 ^ n) (rest : List Byte) :
    takeLE n (leBytes n v ++ rest) = some (v, rest) := by
  have h1 : (leBytes n v ++ rest).take n = leBytes n v := by
    rw [List.take_append_of_le_length (by simp), List.take_of_length_le (by simp)]
  have h2 : (leBytes n v ++ rest).drop n = rest := by
    have := List.drop_left (l₁ := leBytes n v) (l₂ := rest)
    simpa only [length_leBytes] using this
  simp [takeLE, h1, h2, Nat.mod_eq_of_lt h]

/-- What `takeLE` answers. -/
theorem takeLE_eq_some {n v : Nat} {bs rest : List Byte} (h : takeLE n bs = some (v, rest)) :
    n ≤ bs.length ∧ leBytes n v ++ rest = bs ∧ v < 256 ^ n := by
  unfold takeLE at h
  split_ifs at h with hl
  simp only [Option.some.injEq, Prod.mk.injEq] at h
  obtain ⟨rfl, rfl⟩ := h
  have hn : (bs.take n).length = n := by simp; omega
  refine ⟨by omega, ?_, ?_⟩
  · have := leBytes_leNat (bs.take n)
    rw [hn] at this
    rw [this, List.take_append_drop]
  · have := leNat_lt (bs.take n)
    rwa [hn] at this

/-! ### Length extensions (R93, R94) -/

/-- The extension bytes of the rest `r` of a length, `r div 255` bytes of 255 and one below. -/
theorem readExt_replicate (q m : Nat) (hm : m < 255) (rest : List Byte) :
    readExt (List.replicate q 255#8 ++ BitVec.ofNat 8 m :: rest) = some (255 * q + m, q + 1) := by
  induction q with
  | zero =>
    have hne : BitVec.ofNat 8 m ≠ 255#8 := by
      intro h
      have := congrArg BitVec.toNat h
      simp only [BitVec.toNat_ofNat] at this
      omega
    simp only [List.replicate_zero, List.nil_append, readExt, if_neg hne, BitVec.toNat_ofNat, Option.some.injEq,
      Prod.mk.injEq, and_true]
    omega
  | succ q ih =>
    simp only [List.replicate_succ, List.cons_append, readExt, if_true, ih, Option.some.injEq, Prod.mk.injEq, and_true]
    omega

@[simp] theorem length_lenExt (v : Nat) : (lenExt v).length = (v - 15) / 255 + 1 := by simp [lenExt]

/-- R94: a length field is read back from its nibble and extension bytes. -/
theorem readLen_lenField (v : Nat) (rest : List Byte) :
    readLen (min v 15) (lenField v ++ rest) = some (v, (lenField v).length) := by
  unfold readLen lenField
  by_cases h : v < 15
  · rw [if_neg (by omega), if_pos h]
    simp; omega
  · rw [if_pos (by omega), if_neg h]
    have := readExt_replicate ((v - 15) / 255) ((v - 15) % 255) (Nat.mod_lt _ (by omega)) rest
    simp only [lenExt, List.append_assoc, List.singleton_append, this]
    simp only [Option.some.injEq, Prod.mk.injEq, List.length_append, List.length_replicate, List.length_singleton, and_true]
    omega

/-- What the extension bytes that were read are. -/
theorem readExt_eq_some {bs : List Byte} {v k : Nat} (h : readExt bs = some (v, k)) :
    bs.take k = List.replicate (v / 255) 255#8 ++ [BitVec.ofNat 8 (v % 255)] ∧ k = v / 255 + 1 ∧ k ≤ bs.length := by
  induction bs generalizing v k with
  | nil => simp [readExt] at h
  | cons e t ih =>
    simp only [readExt] at h
    split_ifs at h with he
    · split at h
      · simp at h
      · rename_i v' k' heq
        simp only [Option.some.injEq, Prod.mk.injEq] at h
        obtain ⟨rfl, rfl⟩ := h
        obtain ⟨h1, h2, h3⟩ := ih heq
        have hd : (255 + v') / 255 = v' / 255 + 1 := by omega
        have hm : (255 + v') % 255 = v' % 255 := by omega
        refine ⟨?_, by omega, by simp only [List.length_cons]; omega⟩
        rw [hd, hm, List.replicate_succ, List.take_succ_cons, h1, he]; rfl
    · simp only [Option.some.injEq, Prod.mk.injEq] at h
      obtain ⟨rfl, rfl⟩ := h
      have hlt : e.toNat < 255 := by
        have := e.isLt
        rcases Nat.lt_or_ge e.toNat 255 with h | h
        · exact h
        · exact absurd (BitVec.eq_of_toNat_eq (by simp; omega)) he
      rw [Nat.div_eq_of_lt hlt, Nat.mod_eq_of_lt hlt]
      simp

/-- R94: no length has two encodings. -/
theorem readLen_eq_some {nib v k : Nat} {bs : List Byte} (hn : nib ≤ 15) (h : readLen nib bs = some (v, k)) :
    nib = min v 15 ∧ bs.take k = lenField v ∧ k = (lenField v).length ∧ k ≤ bs.length := by
  unfold readLen at h
  split_ifs at h with h15
  · split at h
    · simp at h
    · rename_i w k' heq
      simp only [Option.some.injEq, Prod.mk.injEq] at h
      obtain ⟨rfl, rfl⟩ := h
      obtain ⟨h1, h2, h3⟩ := readExt_eq_some heq
      have hv : ¬ 15 + w < 15 := by omega
      refine ⟨by omega, ?_, ?_, h3⟩
      · rw [lenField, if_neg hv, lenExt, h1]; simp
      · rw [lenField, if_neg hv, length_lenExt, h2]; simp
  · simp only [Option.some.injEq, Prod.mk.injEq] at h
    obtain ⟨rfl, rfl⟩ := h
    have : nib < 15 := by omega
    simp only [lenField, if_pos this]
    refine ⟨by omega, by simp, by simp, by simp⟩

/-- What was read is a prefix of the bytes. -/
theorem lenField_append_drop {nib v k : Nat} {bs : List Byte} (hn : nib ≤ 15) (h : readLen nib bs = some (v, k)) :
    lenField v ++ bs.drop k = bs := by
  rw [← (readLen_eq_some hn h).2.1, List.take_append_drop]

/-! ### The token (R92) -/

theorem tokenLL_le (t : Byte) : tokenLL t ≤ 15 := by have := t.isLt; unfold tokenLL; omega
theorem tokenML_le (t : Byte) : tokenML t ≤ 15 := by have := t.isLt; unfold tokenML; omega

@[simp] theorem tokenLL_makeToken (ll m : Nat) : tokenLL (makeToken ll m) = min ll 15 := by
  simp only [tokenLL, makeToken, BitVec.toNat_ofNat]; omega

@[simp] theorem tokenML_makeToken (ll m : Nat) : tokenML (makeToken ll m) = min m 15 := by
  simp only [tokenML, makeToken, BitVec.toNat_ofNat]; omega

/-- A token is its two nibbles. -/
theorem makeToken_eq {t : Byte} {ll m : Nat} (h1 : tokenLL t = min ll 15) (h2 : tokenML t = min m 15) :
    makeToken ll m = t := by
  apply BitVec.eq_of_toNat_eq
  have := t.isLt
  simp only [tokenLL, tokenML] at h1 h2
  simp only [makeToken, BitVec.toNat_ofNat]
  omega

@[simp] theorem length_emitSeq (lit : List Byte) (off ml : Nat) :
    (emitSeq lit off ml).length = 3 + (lenField lit.length).length + lit.length + (lenField (ml - 4)).length := by
  simp [emitSeq]; omega

@[simp] theorem length_emitLastWith (lit : List Byte) (mln : Nat) :
    (emitLastWith lit mln).length = 1 + (lenField lit.length).length + lit.length := by
  simp [emitLastWith]; omega

/-! ### Whole sequences (R91, R98, R99) -/

theorem drop_lenField (v : Nat) (rest : List Byte) : (lenField v ++ rest).drop (lenField v).length = rest :=
  List.drop_left

/-- A SEQ is read back from its bytes, whatever follows. -/
theorem decodeSequence_emitSeq (lit : List Byte) (off : BitVec 16) {ml : Nat} (h : 4 ≤ ml) (rest : List Byte) :
    decodeSequence (emitSeq lit off.toNat ml ++ rest) = .ok (.seq lit off ml, rest) := by
  have hoff : off.toNat < 256 ^ 2 := off.isLt
  simp only [emitSeq, List.cons_append, decodeSequence, tokenLL_makeToken, tokenML_makeToken, List.append_assoc,
    readLen_lenField, drop_lenField]
  rw [if_neg (by simp)]
  have hd : (lit ++ (leBytes 2 off.toNat ++ (lenField (ml - 4) ++ rest))).drop lit.length =
      leBytes 2 off.toNat ++ (lenField (ml - 4) ++ rest) := List.drop_left
  have ht : (lit ++ (leBytes 2 off.toNat ++ (lenField (ml - 4) ++ rest))).take lit.length = lit := List.take_left
  rw [hd, ht]
  have hc : leBytes 2 off.toNat ++ (lenField (ml - 4) ++ rest) =
      BitVec.ofNat 8 off.toNat :: (leBytes 1 (off.toNat / 256) ++ (lenField (ml - 4) ++ rest)) := rfl
  rw [hc]
  simp only
  rw [← hc, takeLE_leBytes hoff]
  simp only [readLen_lenField, drop_lenField]
  rw [show 4 + (ml - 4) = ml by omega]
  simp

/-- A LAST is read back from its bytes, when they end the input. -/
theorem decodeSequence_emitLast (lit : List Byte) (mln : BitVec 4) :
    decodeSequence (emitLastWith lit mln.toNat) = .ok (.last lit mln, []) := by
  have h16 := mln.isLt
  have h := readLen_lenField lit.length lit
  have hd := drop_lenField lit.length lit
  simp only [emitLastWith, decodeSequence, tokenLL_makeToken, tokenML_makeToken, h, hd]
  rw [if_neg (by simp)]
  simp only [List.drop_length, List.take_length]
  rw [show min mln.toNat 15 = mln.toNat by omega]
  simp

/-- What a decoded sequence is: a SEQ with a match of at least 4 or a LAST at the end, encoded by exactly the bytes read. -/
theorem decodeSequence_eq_ok {bs rest : List Byte} {i : Instr} (h : decodeSequence bs = .ok (i, rest)) :
    (∃ lit off ml, i = .seq lit off ml ∧ 4 ≤ ml ∧ bs = emitSeq lit off.toNat ml ++ rest) ∨
    (∃ lit mln, i = .last lit mln ∧ rest = [] ∧ bs = emitLastWith lit mln.toNat) := by
  unfold decodeSequence at h
  split at h
  · simp at h
  · rename_i t r1
    split at h
    · simp at h
    · rename_i ll k1 hll
      have hL := readLen_eq_some (tokenLL_le t) hll
      have happ := lenField_append_drop (tokenLL_le t) hll
      split_ifs at h with hlen
      have hlen' : ((r1.drop k1).take ll).length = ll := by simp only [List.length_take]; omega
      split at h
      · rename_i hnil
        right
        simp only [Except.ok.injEq, Prod.mk.injEq] at h
        obtain ⟨rfl, rfl⟩ := h
        refine ⟨_, _, rfl, rfl, ?_⟩
        have hfull : (r1.drop k1).take ll = r1.drop k1 := by
          have := List.take_append_drop ll (r1.drop k1)
          rw [hnil, List.append_nil] at this
          exact this
        have h16 : tokenML t < 16 := by have := tokenML_le t; omega
        have hto : (BitVec.ofNat 4 (tokenML t)).toNat = tokenML t := by
          simp only [BitVec.toNat_ofNat]; omega
        rw [emitLastWith, hlen', hto, makeToken_eq (t := t) hL.1 (by have := tokenML_le t; omega), hfull, happ]
      · rename_i b r3 hcons
        split at h
        · simp at h
        · rename_i off r4 hoff
          split at h
          · simp at h
          · rename_i m k2 hm
            left
            simp only [Except.ok.injEq, Prod.mk.injEq] at h
            obtain ⟨rfl, rfl⟩ := h
            obtain ⟨-, hbytes, hlt⟩ := takeLE_eq_some hoff
            have hM := readLen_eq_some (tokenML_le t) hm
            have happ2 := lenField_append_drop (tokenML_le t) hm
            refine ⟨_, _, _, rfl, by omega, ?_⟩
            have hto : (BitVec.ofNat 16 off).toNat = off := by
              simp only [BitVec.toNat_ofNat]; exact Nat.mod_eq_of_lt (by simpa using hlt)
            rw [emitSeq, hlen', hto, show 4 + m - 4 = m by omega, makeToken_eq (t := t) hL.1 hM.1]
            simp only [List.cons_append, List.append_assoc]
            rw [happ2, hbytes, ← hcons, List.take_append_drop, happ]

/-! ### The element readers -/

theorem decodeLE_leBytes {n v : Nat} (f : Nat → Instr) (h : v < 256 ^ n) (rest : List Byte) :
    decodeLE f n (leBytes n v ++ rest) = .ok (f v, rest) := by simp [decodeLE, takeLE_leBytes h]

theorem decodeRun_append (f : List Byte → Instr) (l rest : List Byte) :
    decodeRun f l.length (l ++ rest) = .ok (f l, rest) := by simp [decodeRun]

theorem decodeLE_eq_ok {n : Nat} {f : Nat → Instr} {bs rest : List Byte} {i : Instr}
    (h : decodeLE f n bs = .ok (i, rest)) : ∃ v, i = f v ∧ v < 256 ^ n ∧ leBytes n v ++ rest = bs := by
  unfold decodeLE at h
  split at h
  · simp at h
  · rename_i v r heq
    simp only [Except.ok.injEq, Prod.mk.injEq] at h
    obtain ⟨rfl, rfl⟩ := h
    obtain ⟨-, h2, h3⟩ := takeLE_eq_some heq
    exact ⟨v, rfl, h3, h2⟩

theorem decodeByte_eq_ok {f : Byte → Instr} {bs rest : List Byte} {i : Instr} (h : decodeByte f bs = .ok (i, rest)) :
    ∃ b, i = f b ∧ b :: rest = bs := by
  cases bs <;> simp [decodeByte] at h
  exact ⟨_, h.1.symm, by rw [h.2]⟩

theorem decodeRun_eq_ok {f : List Byte → Instr} {n : Nat} {bs rest : List Byte} {i : Instr}
    (h : decodeRun f n bs = .ok (i, rest)) : ∃ b, i = f b ∧ b.length = n ∧ b ++ rest = bs := by
  unfold decodeRun at h
  split_ifs at h with hn
  simp only [Except.ok.injEq, Prod.mk.injEq] at h
  exact ⟨_, h.1.symm, by simp only [List.length_take]; omega, by rw [← h.2]; simp⟩

/-- A BLKHDR's size word is read back, unless it is the ENDMARK word (R110, R113). -/
theorem decodeSizeWord_sizeWord (raw : Bool) (size : BitVec 31) (h : raw = true ∨ size ≠ 0#31) :
    decodeSizeWord (sizeWord raw size.toNat) = .blkhdr raw size := by
  have := size.isLt
  have h0 : size ≠ 0#31 → size.toNat ≠ 0 := fun h e => h (BitVec.eq_of_toNat_eq (by simpa using e))
  unfold decodeSizeWord sizeWord
  cases raw
  · have := h0 (by simpa using h)
    simp only [Bool.false_eq_true, if_false, Nat.zero_add]
    rw [if_neg this]
    have hd : ¬ 2147483648 ≤ size.toNat := by omega
    simp [hd]
  · simp only [if_true]
    rw [if_neg (by omega)]
    congr 1
    · simp
    · apply BitVec.eq_of_toNat_eq; simp only [BitVec.toNat_ofNat]; omega

end Sys2Proof
end

