-- ==== Sys2Proof/Laws/Frame.lean ====
section
/-! SUPPORT. The laws of the frame layer: the header's length and bits, the pieces of the data, the room a block needs, and what
the reader's steps can answer. -/

namespace Sys2Proof.Machine

/-! ### The header (R109, R221) -/

@[simp] theorem length_descriptor (flg bd : Byte) (csize : DWord) (dictid : Word) :
    (descriptor flg bd csize dictid).length = 2 + 8 * (flg.getLsbD 3).toNat + 4 * (flg.getLsbD 0).toNat := by
  unfold descriptor
  cases flg.getLsbD 3 <;> cases flg.getLsbD 0 <;> simp

/-- The FLG byte of the preferences (R221), as a number. -/
theorem PrefRegs.flg_toNat (p : PrefRegs) :
    p.flg.toNat = 64 + 32 * p.bindep.toNat + 16 * p.bcsum.toNat + 8 * p.csize.toNat + 4 * p.ccsum.toNat +
      p.hasDictid.toNat := by
  unfold PrefRegs.flg
  generalize p.bindep = a
  generalize p.bcsum = b
  generalize p.csize = c
  generalize p.ccsum = d
  generalize p.hasDictid = e
  revert a b c d e
  decide

/-- The bits of the FLG byte of the preferences (R104, R221). -/
theorem PrefRegs.flg_bits (p : PrefRegs) :
    p.flg.getLsbD 5 = p.bindep ∧ p.flg.getLsbD 4 = p.bcsum ∧ p.flg.getLsbD 3 = p.csize ∧ p.flg.getLsbD 2 = p.ccsum ∧
    p.flg.getLsbD 1 = false ∧ p.flg.getLsbD 0 = p.hasDictid ∧ p.flg.toNat / 64 = 1 := by
  unfold PrefRegs.flg
  generalize p.bindep = a
  generalize p.bcsum = b
  generalize p.csize = c
  generalize p.ccsum = d
  generalize p.hasDictid = e
  revert a b c d e
  decide

theorem length_headerBytes (p : PrefRegs) : (headerBytes p).length = p.hdrLen := by
  obtain ⟨-, -, h3, -, -, h0, -⟩ := p.flg_bits
  simp only [headerBytes, PrefRegs.descriptor, List.length_append, length_leBytes, length_descriptor, h3, h0,
    List.length_singleton, PrefRegs.hdrLen, hdrLen]
  omega

@[simp] theorem length_dueHeader (w : WriterCtx) : w.dueHeader.length = w.dueHeaderLen := by
  unfold WriterCtx.dueHeader WriterCtx.dueHeaderLen
  split
  · exact length_headerBytes _
  · rfl

/-- What the header's tests can answer (R222). -/
theorem parseHeader_error {f : List Byte} {e : ErrCode} (h : parseHeader f = .error e) :
    e = .corruptedInput ∨ e = .checksumMismatch := by
  simp only [parseHeader] at h
  split_ifs at h <;> simp at h <;> simp [h]

/-- A header that is accepted is legal and stands whole at the front (R222). -/
theorem parseHeader_ok {f : List Byte} {h : FinfoRegs} (hf : parseHeader f = .ok h) :
    headerLegal (f.getD 4 0#8) (f.getD 5 0#8) ∧
    hdrLen ((f.getD 4 0#8).getLsbD 3) ((f.getD 4 0#8).getLsbD 0) ≤ f.length ∧
    h.flags = BitVec.ofNat 32 (f.getD 4 0#8).toNat ∧ h.bsclass = BitVec.ofNat 32 ((f.getD 5 0#8).toNat / 16 % 8) ∧
    h.hdrlen = BitVec.ofNat 32 (hdrLen ((f.getD 4 0#8).getLsbD 3) ((f.getD 4 0#8).getLsbD 0)) := by
  simp only [parseHeader] at hf
  split_ifs at hf with h1 h2 h3 h4 h5
  simp only [Except.ok.injEq] at hf
  subst hf
  exact ⟨by simpa using h5, by omega, rfl, rfl, rfl⟩

theorem hdrLen_le (a b : Bool) : 7 ≤ hdrLen a b ∧ hdrLen a b ≤ 19 := by cases a <;> cases b <;> decide

/-! ### The pieces of the data (R237) -/

theorem blockMax_pos (c : Nat) : 1 ≤ blockMax c := Nat.one_le_two_pow

/-- The pieces of the data, in order, are the data; each is non-empty and at most `b` long. -/
theorem chunks_spec {b : Nat} (hb : 1 ≤ b) {fuel : Nat} {data : List Byte} (h : data.length ≤ fuel) :
    (chunks b fuel data).flatten = data ∧ (∀ c ∈ chunks b fuel data, c ≠ [] ∧ c.length ≤ b) ∧
    (chunks b fuel data).length = ceilDiv data.length b := by
  induction fuel generalizing data with
  | zero =>
    have : data = [] := by cases data <;> simp_all
    subst this
    simp [chunks, ceilDiv, Nat.div_eq_of_lt (show b - 1 < b by omega)]
  | succ fuel ih =>
    cases data with
    | nil => simp [chunks, ceilDiv, Nat.div_eq_of_lt (show b - 1 < b by omega)]
    | cons x t =>
      have hd : ((x :: t).drop b).length ≤ fuel := by simp only [List.length_drop, List.length_cons] at h ⊢; omega
      obtain ⟨h1, h2, h3⟩ := ih hd
      refine ⟨by simp only [chunks, List.flatten_cons, h1, List.take_append_drop], ?_, ?_⟩
      · intro c hc
        simp only [chunks, List.mem_cons] at hc
        rcases hc with rfl | hc
        · obtain ⟨b, rfl⟩ : ∃ k, b = k + 1 := ⟨b - 1, by omega⟩
          simp only [List.take_succ_cons]
          exact ⟨by simp, by simp⟩
        · exact h2 c hc
      · simp only [chunks, List.length_cons, h3, ceilDiv, List.length_drop]
        rcases Nat.lt_or_ge b (t.length + 1) with hlt | hge
        · rw [show t.length + 1 + b - 1 = (t.length + 1 - b + b - 1) + b by omega, Nat.add_div_right _ (by omega)]
        · rw [show t.length + 1 - b = 0 by omega, Nat.div_eq_of_lt (show 0 + b - 1 < b by omega)]
          exact (Nat.div_eq_of_lt_le (by omega) (by omega)).symm

/-! ### The room a block needs (R238, R242) -/

theorem length_storedBlock (e c : List Byte) : (storedBlock e c).2.length ≤ c.length := by
  unfold storedBlock
  split_ifs with h
  · simp only [fits] at h; show e.length ≤ c.length; omega
  · exact Nat.le_refl _

@[simp] theorem length_blockBytes (b : Bool) (w : Nat) (p : List Byte) :
    (blockBytes b w p).length = 4 + p.length + 4 * b.toNat := by
  cases b <;> simp [blockBytes]; omega

/-- One block goes on in the same context, and its bytes are the content's and the fields'. -/
theorem emitBlock_spec (q : Policy) (t : WriteWork) (c : List Byte) :
    (emitBlock q t c).writer.prefs = t.writer.prefs ∧ (emitBlock q t c).writer.cfg = t.writer.cfg ∧
    (emitBlock q t c).writer.state = t.writer.state ∧ (emitBlock q t c).writer.total = t.writer.total + c.length ∧
    (emitBlock q t c).out.length ≤ t.out.length + (4 + 4 * t.writer.prefs.bcsum.toNat) + c.length := by
  refine ⟨rfl, rfl, rfl, rfl, ?_⟩
  have := length_storedBlock (t.writer.encoding q t.enc c).1.out c
  simp only [emitBlock, List.length_append, length_blockBytes]
  omega

/-- All blocks of some pieces: their bytes and the content that is counted. -/
theorem foldl_emitBlock_spec (q : Policy) (cs : List (List Byte)) (t : WriteWork) :
    (cs.foldl (emitBlock q) t).writer.prefs = t.writer.prefs ∧ (cs.foldl (emitBlock q) t).writer.cfg = t.writer.cfg ∧
    (cs.foldl (emitBlock q) t).writer.state = t.writer.state ∧
    (cs.foldl (emitBlock q) t).writer.total = t.writer.total + cs.flatten.length ∧
    (cs.foldl (emitBlock q) t).out.length ≤
      t.out.length + cs.length * (4 + 4 * t.writer.prefs.bcsum.toNat) + cs.flatten.length := by
  induction cs generalizing t with
  | nil => simp
  | cons c cs ih =>
    obtain ⟨h1, h2, h3, h4, h5⟩ := ih (emitBlock q t c)
    obtain ⟨g1, g2, g3, g4, g5⟩ := emitBlock_spec q t c
    simp only [List.foldl_cons, List.flatten_cons, List.length_append, List.length_cons]
    refine ⟨h1.trans g1, h2.trans g2, h3.trans g3, by omega, ?_⟩
    rw [g1] at h5
    rw [Nat.succ_mul]
    omega

/-- WRITE_FRAME's bytes fit the room it asks for, and the context counts its data (R238, R242). -/
theorem writeBlocks_spec (q : Policy) (w : WriterCtx) (enc : EncRegs) (data : List Byte) :
    (writeBlocks q w enc data).writer.prefs = w.prefs ∧ (writeBlocks q w enc data).writer.cfg = w.cfg ∧
    (writeBlocks q w enc data).writer.state = .blocks ∧
    (writeBlocks q w enc data).writer.total = w.total + data.length ∧
    (writeBlocks q w enc data).out.length ≤ writeNeed w data.length := by
  obtain ⟨c1, -, c3⟩ := chunks_spec (blockMax_pos w.prefs.bsclass.toNat) (Nat.le_refl data.length)
  obtain ⟨h1, h2, h3, h4, h5⟩ := foldl_emitBlock_spec q (chunks (blockMax w.prefs.bsclass.toNat) data.length data)
    { writer := { w with state := .blocks }, enc := enc, out := w.dueHeader }
  rw [c1] at h4 h5
  rw [c3] at h5
  exact ⟨h1, h2, h3, h4, by simpa [writeNeed, writeBlocks] using h5⟩

/-- CLOSE_WRITER's bytes are exactly the room it asks for (R244). -/
theorem length_closeBytes (w : WriterCtx) : (closeBytes w).length = closeNeed w := by
  unfold closeBytes closeNeed
  cases w.prefs.ccsum <;> simp

/-! ### The reader's steps (R251, R256) -/

/-- The errors of a reader's step, and that it never touches what has been gathered. -/
def ReadStep.Plain (t : ReadWork) (r : ReadStep) : Prop :=
  match r with
  | .ok u => u.out = t.out
  | .error (e, u) => (e = .corruptedInput ∨ e = .checksumMismatch) ∧ u.out = t.out

theorem openBlock_plain (n : Nat) (raw : Bool) (size : Nat) (t : ReadWork) :
    ReadStep.Plain t (t.openBlock n raw size) := by
  unfold ReadWork.openBlock; split_ifs <;> simp [ReadStep.Plain]

theorem takeBlksum_plain (v : Word) (t : ReadWork) : ReadStep.Plain t (t.takeBlksum v) := by
  unfold ReadWork.takeBlksum; split_ifs <;> simp [ReadStep.Plain, ReadWork.advance]

theorem takeCsum_plain (v : Word) (t : ReadWork) : ReadStep.Plain t (t.takeCsum v) := by
  unfold ReadWork.takeCsum; split_ifs <;> simp [ReadStep.Plain, ReadWork.advance]

theorem finishBlock_plain (t : ReadWork) : ReadStep.Plain t t.finishBlock := by
  unfold ReadWork.finishBlock; split <;> simp [ReadStep.Plain]

theorem checkSize_plain (t : ReadWork) : ReadStep.Plain t t.checkSize := by
  unfold ReadWork.checkSize; split_ifs <;> simp [ReadStep.Plain]

theorem checkCsum_plain (f : List Byte) (t : ReadWork) : ReadStep.Plain t (t.checkCsum f) := by
  unfold ReadWork.checkCsum
  split_ifs
  · simp [ReadStep.Plain]
  · exact takeCsum_plain _ _
  · simp [ReadStep.Plain]

theorem checkBlksum_plain (f : List Byte) (t : ReadWork) : ReadStep.Plain t (t.checkBlksum f) := by
  unfold ReadWork.checkBlksum
  split_ifs
  · exact takeBlksum_plain _ _
  · simp [ReadStep.Plain]

/-- One parse step after another. -/
theorem ReadStep.Plain.trans {t u : ReadWork} {r : ReadStep} (h : ReadStep.Plain u r) (hu : u.out = t.out) :
    ReadStep.Plain t r := by
  unfold ReadStep.Plain at h ⊢
  split <;> simp_all

theorem nextBlock_plain (f : List Byte) (t : ReadWork) : ReadStep.Plain t (nextBlock f t) := by
  have ht : (t.advance 4).out = t.out := rfl
  unfold nextBlock
  split_ifs
  · simp [ReadStep.Plain]
  · refine ReadStep.Plain.trans ?_ ht
    unfold ReadWork.trailer
    have h1 := checkSize_plain (t.advance 4)
    cases hc : (t.advance 4).checkSize with
    | error e => rw [hc] at h1; exact h1
    | ok t1 =>
      rw [hc] at h1
      simp only
      have h2 := checkCsum_plain f t1
      cases hk : t1.checkCsum f with
      | error e => rw [hk] at h2; exact h2.trans h1
      | ok t2 => rw [hk] at h2; exact Eq.trans (a := (t2.setState .ended).out) h2 h1
  · refine ReadStep.Plain.trans ?_ ht
    unfold ReadWork.block
    have h1 := openBlock_plain f.length (decide (2147483648 ≤ t.word f)) (t.word f % 2147483648) (t.advance 4)
    cases hc : (t.advance 4).openBlock f.length (decide (2147483648 ≤ t.word f)) (t.word f % 2147483648) with
    | error e => rw [hc] at h1; exact h1
    | ok t1 =>
      rw [hc] at h1
      simp only
      have h2 := checkBlksum_plain f (t1.takePayload ((f.drop t1.reader.rip).take t1.blk.size))
      cases hk : (t1.takePayload ((f.drop t1.reader.rip).take t1.blk.size)).checkBlksum f with
      | error e => rw [hk] at h2; exact h2.trans h1
      | ok t2 =>
        rw [hk] at h2
        exact (finishBlock_plain t2).trans (Eq.trans h2 h1)

/-- READ_FRAME gathers at most what it is asked for, and its errors are those of the frame (R250, R272). -/
theorem readLoop_spec (f : List Byte) (max fuel : Nat) (t : ReadWork) (ht : t.out.length ≤ max) :
    match readLoop f max fuel t with
    | .ok u => u.out.length ≤ max
    | .error (e, _) => e = .corruptedInput ∨ e = .checksumMismatch := by
  induction fuel generalizing t with
  | zero => simpa [readLoop] using ht
  | succ fuel ih =>
    simp only [readLoop]
    split_ifs with h1 h2
    · have h3 := nextBlock_plain f t
      cases hn : nextBlock f t with
      | error e => rw [hn] at h3; exact h3.1
      | ok u =>
        rw [hn] at h3
        exact ih u (by rw [show u.out = t.out from h3]; exact ht)
    · refine ih _ ?_
      simp only [ReadWork.deliverStage, List.length_append, List.length_take]
      omega
    · exact ht

end Sys2Proof.Machine
end

