-- ==== Sys2Proof/Laws/State.lean ====
section
/-! SUPPORT. What each named update of the state leaves in each field, so that no later proof unfolds an update. -/

namespace Sys2Proof.Machine

/-! ### setResult -/

@[simp] theorem setResult_params (v : Nat) (s : State) : (setResult v s).params = s.params := rfl
@[simp] theorem setResult_regs (v : Nat) (s : State) : (setResult v s).regs = { s.regs with result := BitVec.ofNat 32 v } := rfl
@[simp] theorem setResult_mem (v : Nat) (s : State) : (setResult v s).mem = s.mem := rfl
@[simp] theorem setResult_bt (v : Nat) (s : State) : (setResult v s).bt = s.bt := rfl
@[simp] theorem setResult_writers (v : Nat) (s : State) : (setResult v s).writers = s.writers := rfl
@[simp] theorem setResult_readers (v : Nat) (s : State) : (setResult v s).readers = s.readers := rfl
@[simp] theorem setResult_enc (v : Nat) (s : State) : (setResult v s).enc = s.enc := rfl
@[simp] theorem setResult_dec (v : Nat) (s : State) : (setResult v s).dec = s.dec := rfl
@[simp] theorem setResult_hdr (v : Nat) (s : State) : (setResult v s).hdr = s.hdr := rfl
@[simp] theorem setResult_blk (v : Nat) (s : State) : (setResult v s).blk = s.blk := rfl
@[simp] theorem setResult_stream (v : Nat) (s : State) : (setResult v s).stream = s.stream := rfl
@[simp] theorem setResult_host (v : Nat) (s : State) : (setResult v s).host = s.host := rfl
@[simp] theorem setResult_busData (v : Nat) (s : State) : (setResult v s).busData = s.busData := rfl
@[simp] theorem setResult_drawn (v : Nat) (s : State) : (setResult v s).drawn = s.drawn := rfl

/-! ### setHandle -/

@[simp] theorem setHandle_params (k : Nat) (s : State) : (setHandle k s).params = s.params := rfl
@[simp] theorem setHandle_regs (k : Nat) (s : State) : (setHandle k s).regs = { s.regs with handle := BitVec.ofNat 32 k } := rfl
@[simp] theorem setHandle_mem (k : Nat) (s : State) : (setHandle k s).mem = s.mem := rfl
@[simp] theorem setHandle_bt (k : Nat) (s : State) : (setHandle k s).bt = s.bt := rfl
@[simp] theorem setHandle_writers (k : Nat) (s : State) : (setHandle k s).writers = s.writers := rfl
@[simp] theorem setHandle_readers (k : Nat) (s : State) : (setHandle k s).readers = s.readers := rfl
@[simp] theorem setHandle_enc (k : Nat) (s : State) : (setHandle k s).enc = s.enc := rfl
@[simp] theorem setHandle_dec (k : Nat) (s : State) : (setHandle k s).dec = s.dec := rfl
@[simp] theorem setHandle_hdr (k : Nat) (s : State) : (setHandle k s).hdr = s.hdr := rfl
@[simp] theorem setHandle_blk (k : Nat) (s : State) : (setHandle k s).blk = s.blk := rfl
@[simp] theorem setHandle_stream (k : Nat) (s : State) : (setHandle k s).stream = s.stream := rfl
@[simp] theorem setHandle_host (k : Nat) (s : State) : (setHandle k s).host = s.host := rfl
@[simp] theorem setHandle_busData (k : Nat) (s : State) : (setHandle k s).busData = s.busData := rfl
@[simp] theorem setHandle_drawn (k : Nat) (s : State) : (setHandle k s).drawn = s.drawn := rfl

/-! ### setFinfo -/

@[simp] theorem setFinfo_params (f : FinfoRegs) (s : State) : (setFinfo f s).params = s.params := rfl
@[simp] theorem setFinfo_regs (f : FinfoRegs) (s : State) : (setFinfo f s).regs = { s.regs with finfo := f } := rfl
@[simp] theorem setFinfo_mem (f : FinfoRegs) (s : State) : (setFinfo f s).mem = s.mem := rfl
@[simp] theorem setFinfo_bt (f : FinfoRegs) (s : State) : (setFinfo f s).bt = s.bt := rfl
@[simp] theorem setFinfo_writers (f : FinfoRegs) (s : State) : (setFinfo f s).writers = s.writers := rfl
@[simp] theorem setFinfo_readers (f : FinfoRegs) (s : State) : (setFinfo f s).readers = s.readers := rfl
@[simp] theorem setFinfo_enc (f : FinfoRegs) (s : State) : (setFinfo f s).enc = s.enc := rfl
@[simp] theorem setFinfo_dec (f : FinfoRegs) (s : State) : (setFinfo f s).dec = s.dec := rfl
@[simp] theorem setFinfo_hdr (f : FinfoRegs) (s : State) : (setFinfo f s).hdr = s.hdr := rfl
@[simp] theorem setFinfo_blk (f : FinfoRegs) (s : State) : (setFinfo f s).blk = s.blk := rfl
@[simp] theorem setFinfo_stream (f : FinfoRegs) (s : State) : (setFinfo f s).stream = s.stream := rfl
@[simp] theorem setFinfo_host (f : FinfoRegs) (s : State) : (setFinfo f s).host = s.host := rfl
@[simp] theorem setFinfo_busData (f : FinfoRegs) (s : State) : (setFinfo f s).busData = s.busData := rfl
@[simp] theorem setFinfo_drawn (f : FinfoRegs) (s : State) : (setFinfo f s).drawn = s.drawn := rfl

/-! ### setStatus -/

@[simp] theorem setStatus_params (f : Status → Status) (s : State) : (setStatus f s).params = s.params := rfl
@[simp] theorem setStatus_regs (f : Status → Status) (s : State) : (setStatus f s).regs =
    { s.regs with status := f s.regs.status } := rfl
@[simp] theorem setStatus_mem (f : Status → Status) (s : State) : (setStatus f s).mem = s.mem := rfl
@[simp] theorem setStatus_bt (f : Status → Status) (s : State) : (setStatus f s).bt = s.bt := rfl
@[simp] theorem setStatus_writers (f : Status → Status) (s : State) : (setStatus f s).writers = s.writers := rfl
@[simp] theorem setStatus_readers (f : Status → Status) (s : State) : (setStatus f s).readers = s.readers := rfl
@[simp] theorem setStatus_enc (f : Status → Status) (s : State) : (setStatus f s).enc = s.enc := rfl
@[simp] theorem setStatus_dec (f : Status → Status) (s : State) : (setStatus f s).dec = s.dec := rfl
@[simp] theorem setStatus_hdr (f : Status → Status) (s : State) : (setStatus f s).hdr = s.hdr := rfl
@[simp] theorem setStatus_blk (f : Status → Status) (s : State) : (setStatus f s).blk = s.blk := rfl
@[simp] theorem setStatus_stream (f : Status → Status) (s : State) : (setStatus f s).stream = s.stream := rfl
@[simp] theorem setStatus_host (f : Status → Status) (s : State) : (setStatus f s).host = s.host := rfl
@[simp] theorem setStatus_busData (f : Status → Status) (s : State) : (setStatus f s).busData = s.busData := rfl
@[simp] theorem setStatus_drawn (f : Status → Status) (s : State) : (setStatus f s).drawn = s.drawn := rfl

/-! ### setWriter -/

@[simp] theorem setWriter_params (k : Nat) (w : WriterCtx) (s : State) : (setWriter k w s).params = s.params := rfl
@[simp] theorem setWriter_regs (k : Nat) (w : WriterCtx) (s : State) : (setWriter k w s).regs = s.regs := rfl
@[simp] theorem setWriter_mem (k : Nat) (w : WriterCtx) (s : State) : (setWriter k w s).mem = s.mem := rfl
@[simp] theorem setWriter_bt (k : Nat) (w : WriterCtx) (s : State) : (setWriter k w s).bt = s.bt := rfl
@[simp] theorem setWriter_writers (k : Nat) (w : WriterCtx) (s : State) : (setWriter k w s).writers = s.writers.set k w := rfl
@[simp] theorem setWriter_readers (k : Nat) (w : WriterCtx) (s : State) : (setWriter k w s).readers = s.readers := rfl
@[simp] theorem setWriter_enc (k : Nat) (w : WriterCtx) (s : State) : (setWriter k w s).enc = s.enc := rfl
@[simp] theorem setWriter_dec (k : Nat) (w : WriterCtx) (s : State) : (setWriter k w s).dec = s.dec := rfl
@[simp] theorem setWriter_hdr (k : Nat) (w : WriterCtx) (s : State) : (setWriter k w s).hdr = s.hdr := rfl
@[simp] theorem setWriter_blk (k : Nat) (w : WriterCtx) (s : State) : (setWriter k w s).blk = s.blk := rfl
@[simp] theorem setWriter_stream (k : Nat) (w : WriterCtx) (s : State) : (setWriter k w s).stream = s.stream := rfl
@[simp] theorem setWriter_host (k : Nat) (w : WriterCtx) (s : State) : (setWriter k w s).host = s.host := rfl
@[simp] theorem setWriter_busData (k : Nat) (w : WriterCtx) (s : State) : (setWriter k w s).busData = s.busData := rfl
@[simp] theorem setWriter_drawn (k : Nat) (w : WriterCtx) (s : State) : (setWriter k w s).drawn = s.drawn := rfl

/-! ### setReader -/

@[simp] theorem setReader_params (j : Nat) (r : ReaderCtx) (s : State) : (setReader j r s).params = s.params := rfl
@[simp] theorem setReader_regs (j : Nat) (r : ReaderCtx) (s : State) : (setReader j r s).regs = s.regs := rfl
@[simp] theorem setReader_mem (j : Nat) (r : ReaderCtx) (s : State) : (setReader j r s).mem = s.mem := rfl
@[simp] theorem setReader_bt (j : Nat) (r : ReaderCtx) (s : State) : (setReader j r s).bt = s.bt := rfl
@[simp] theorem setReader_writers (j : Nat) (r : ReaderCtx) (s : State) : (setReader j r s).writers = s.writers := rfl
@[simp] theorem setReader_readers (j : Nat) (r : ReaderCtx) (s : State) : (setReader j r s).readers = s.readers.set j r := rfl
@[simp] theorem setReader_enc (j : Nat) (r : ReaderCtx) (s : State) : (setReader j r s).enc = s.enc := rfl
@[simp] theorem setReader_dec (j : Nat) (r : ReaderCtx) (s : State) : (setReader j r s).dec = s.dec := rfl
@[simp] theorem setReader_hdr (j : Nat) (r : ReaderCtx) (s : State) : (setReader j r s).hdr = s.hdr := rfl
@[simp] theorem setReader_blk (j : Nat) (r : ReaderCtx) (s : State) : (setReader j r s).blk = s.blk := rfl
@[simp] theorem setReader_stream (j : Nat) (r : ReaderCtx) (s : State) : (setReader j r s).stream = s.stream := rfl
@[simp] theorem setReader_host (j : Nat) (r : ReaderCtx) (s : State) : (setReader j r s).host = s.host := rfl
@[simp] theorem setReader_busData (j : Nat) (r : ReaderCtx) (s : State) : (setReader j r s).busData = s.busData := rfl
@[simp] theorem setReader_drawn (j : Nat) (r : ReaderCtx) (s : State) : (setReader j r s).drawn = s.drawn := rfl

/-! ### deliver -/

@[simp] theorem deliver_params (g : Region) (o : List Byte) (s : State) : (deliver g o s).params = s.params := rfl
@[simp] theorem deliver_regs (g : Region) (o : List Byte) (s : State) : (deliver g o s).regs = s.regs := rfl
@[simp] theorem deliver_mem (g : Region) (o : List Byte) (s : State) : (deliver g o s).mem =
    Mem.writeBytes s.mem g.addr (o ++ freeBytes s.drawn (g.len - o.length)) := rfl
@[simp] theorem deliver_bt (g : Region) (o : List Byte) (s : State) : (deliver g o s).bt = s.bt := rfl
@[simp] theorem deliver_writers (g : Region) (o : List Byte) (s : State) : (deliver g o s).writers = s.writers := rfl
@[simp] theorem deliver_readers (g : Region) (o : List Byte) (s : State) : (deliver g o s).readers = s.readers := rfl
@[simp] theorem deliver_enc (g : Region) (o : List Byte) (s : State) : (deliver g o s).enc = s.enc := rfl
@[simp] theorem deliver_dec (g : Region) (o : List Byte) (s : State) : (deliver g o s).dec = s.dec := rfl
@[simp] theorem deliver_hdr (g : Region) (o : List Byte) (s : State) : (deliver g o s).hdr = s.hdr := rfl
@[simp] theorem deliver_blk (g : Region) (o : List Byte) (s : State) : (deliver g o s).blk = s.blk := rfl
@[simp] theorem deliver_stream (g : Region) (o : List Byte) (s : State) : (deliver g o s).stream = s.stream := rfl
@[simp] theorem deliver_host (g : Region) (o : List Byte) (s : State) : (deliver g o s).host = s.host := rfl
@[simp] theorem deliver_busData (g : Region) (o : List Byte) (s : State) : (deliver g o s).busData = s.busData := rfl
@[simp] theorem deliver_drawn (g : Region) (o : List Byte) (s : State) : (deliver g o s).drawn =
    s.drawn + (g.len - o.length) := rfl

/-! ### startCommand -/

@[simp] theorem startCommand_params (s : State) : (startCommand s).params = s.params := rfl
@[simp] theorem startCommand_regs (s : State) : (startCommand s).regs = { s.regs with status := s.regs.status.started } := rfl
@[simp] theorem startCommand_mem (s : State) : (startCommand s).mem = s.mem := rfl
@[simp] theorem startCommand_bt (s : State) : (startCommand s).bt = s.bt := rfl
@[simp] theorem startCommand_writers (s : State) : (startCommand s).writers = s.writers := rfl
@[simp] theorem startCommand_readers (s : State) : (startCommand s).readers = s.readers := rfl
@[simp] theorem startCommand_enc (s : State) : (startCommand s).enc = s.enc := rfl
@[simp] theorem startCommand_dec (s : State) : (startCommand s).dec = s.dec := rfl
@[simp] theorem startCommand_hdr (s : State) : (startCommand s).hdr = s.hdr := rfl
@[simp] theorem startCommand_blk (s : State) : (startCommand s).blk = s.blk := rfl
@[simp] theorem startCommand_stream (s : State) : (startCommand s).stream = s.stream := rfl
@[simp] theorem startCommand_host (s : State) : (startCommand s).host = s.host := rfl
@[simp] theorem startCommand_busData (s : State) : (startCommand s).busData = s.busData := rfl
@[simp] theorem startCommand_drawn (s : State) : (startCommand s).drawn = s.drawn := rfl

/-! ### finishCommand -/

@[simp] theorem finishCommand_params (s : State) : (finishCommand s).params = s.params := rfl
@[simp] theorem finishCommand_regs (s : State) : (finishCommand s).regs =
    { s.regs with status := s.regs.status.finished } := rfl
@[simp] theorem finishCommand_mem (s : State) : (finishCommand s).mem = s.mem := rfl
@[simp] theorem finishCommand_bt (s : State) : (finishCommand s).bt = s.bt := rfl
@[simp] theorem finishCommand_writers (s : State) : (finishCommand s).writers = s.writers := rfl
@[simp] theorem finishCommand_readers (s : State) : (finishCommand s).readers = s.readers := rfl
@[simp] theorem finishCommand_enc (s : State) : (finishCommand s).enc = s.enc := rfl
@[simp] theorem finishCommand_dec (s : State) : (finishCommand s).dec = s.dec := rfl
@[simp] theorem finishCommand_hdr (s : State) : (finishCommand s).hdr = s.hdr := rfl
@[simp] theorem finishCommand_blk (s : State) : (finishCommand s).blk = s.blk := rfl
@[simp] theorem finishCommand_stream (s : State) : (finishCommand s).stream = s.stream := rfl
@[simp] theorem finishCommand_host (s : State) : (finishCommand s).host = s.host := rfl
@[simp] theorem finishCommand_busData (s : State) : (finishCommand s).busData = s.busData := rfl
@[simp] theorem finishCommand_drawn (s : State) : (finishCommand s).drawn = s.drawn := rfl

/-! ### raiseError -/

@[simp] theorem raiseError_params (e : ErrCode) (s : State) : (raiseError e s).params = s.params := rfl
@[simp] theorem raiseError_regs (e : ErrCode) (s : State) : (raiseError e s).regs =
    { s.regs with status := Status.raised e s.regs.status, result := 0#32 } := rfl
@[simp] theorem raiseError_mem (e : ErrCode) (s : State) : (raiseError e s).mem = s.mem := rfl
@[simp] theorem raiseError_bt (e : ErrCode) (s : State) : (raiseError e s).bt = s.bt := rfl
@[simp] theorem raiseError_writers (e : ErrCode) (s : State) : (raiseError e s).writers = s.writers := rfl
@[simp] theorem raiseError_readers (e : ErrCode) (s : State) : (raiseError e s).readers = s.readers := rfl
@[simp] theorem raiseError_enc (e : ErrCode) (s : State) : (raiseError e s).enc = s.enc := rfl
@[simp] theorem raiseError_dec (e : ErrCode) (s : State) : (raiseError e s).dec = s.dec := rfl
@[simp] theorem raiseError_hdr (e : ErrCode) (s : State) : (raiseError e s).hdr = s.hdr := rfl
@[simp] theorem raiseError_blk (e : ErrCode) (s : State) : (raiseError e s).blk = s.blk := rfl
@[simp] theorem raiseError_stream (e : ErrCode) (s : State) : (raiseError e s).stream = s.stream := rfl
@[simp] theorem raiseError_host (e : ErrCode) (s : State) : (raiseError e s).host = s.host := rfl
@[simp] theorem raiseError_busData (e : ErrCode) (s : State) : (raiseError e s).busData = s.busData := rfl
@[simp] theorem raiseError_drawn (e : ErrCode) (s : State) : (raiseError e s).drawn = s.drawn := rfl

/-! ### goOn -/

@[simp] theorem goOn_params (p : Pos) (s : State) : (goOn p s).params = s.params := rfl
@[simp] theorem goOn_regs (p : Pos) (s : State) : (goOn p s).regs = s.regs := rfl
@[simp] theorem goOn_mem (p : Pos) (s : State) : (goOn p s).mem = s.mem := rfl
@[simp] theorem goOn_bt (p : Pos) (s : State) : (goOn p s).bt = s.bt := rfl
@[simp] theorem goOn_writers (p : Pos) (s : State) : (goOn p s).writers = s.writers := rfl
@[simp] theorem goOn_readers (p : Pos) (s : State) : (goOn p s).readers = s.readers := rfl
@[simp] theorem goOn_enc (p : Pos) (s : State) : (goOn p s).enc = s.enc := rfl
@[simp] theorem goOn_dec (p : Pos) (s : State) : (goOn p s).dec = s.dec := rfl
@[simp] theorem goOn_hdr (p : Pos) (s : State) : (goOn p s).hdr = s.hdr := rfl
@[simp] theorem goOn_blk (p : Pos) (s : State) : (goOn p s).blk = s.blk := rfl
@[simp] theorem goOn_stream (p : Pos) (s : State) : (goOn p s).stream = { s.stream with pos := p } := rfl
@[simp] theorem goOn_host (p : Pos) (s : State) : (goOn p s).host = s.host := rfl
@[simp] theorem goOn_busData (p : Pos) (s : State) : (goOn p s).busData = s.busData := rfl
@[simp] theorem goOn_drawn (p : Pos) (s : State) : (goOn p s).drawn = s.drawn := rfl

/-! ### streamReturn -/

@[simp] theorem streamReturn_params (s : State) : (streamReturn s).params = s.params := rfl
@[simp] theorem streamReturn_regs (s : State) : (streamReturn s).regs = s.regs := rfl
@[simp] theorem streamReturn_mem (s : State) : (streamReturn s).mem = s.mem := rfl
@[simp] theorem streamReturn_bt (s : State) : (streamReturn s).bt = s.bt := rfl
@[simp] theorem streamReturn_writers (s : State) : (streamReturn s).writers = s.writers := rfl
@[simp] theorem streamReturn_readers (s : State) : (streamReturn s).readers = s.readers := rfl
@[simp] theorem streamReturn_enc (s : State) : (streamReturn s).enc = s.enc := rfl
@[simp] theorem streamReturn_dec (s : State) : (streamReturn s).dec = s.dec := rfl
@[simp] theorem streamReturn_hdr (s : State) : (streamReturn s).hdr = s.hdr := rfl
@[simp] theorem streamReturn_blk (s : State) : (streamReturn s).blk = s.blk := rfl
@[simp] theorem streamReturn_stream (s : State) : (streamReturn s).stream =
    { s.stream with pos := .idle, verdict := .returned } := rfl
@[simp] theorem streamReturn_host (s : State) : (streamReturn s).host = s.host := rfl
@[simp] theorem streamReturn_busData (s : State) : (streamReturn s).busData = s.busData := rfl
@[simp] theorem streamReturn_drawn (s : State) : (streamReturn s).drawn = s.drawn := rfl

/-! ### raiseBlock -/

@[simp] theorem raiseBlock_params (e : ErrCode) (s : State) : (raiseBlock e s).params = s.params := rfl
@[simp] theorem raiseBlock_regs (e : ErrCode) (s : State) : (raiseBlock e s).regs = s.regs := rfl
@[simp] theorem raiseBlock_mem (e : ErrCode) (s : State) : (raiseBlock e s).mem = s.mem := rfl
@[simp] theorem raiseBlock_bt (e : ErrCode) (s : State) : (raiseBlock e s).bt = s.bt := rfl
@[simp] theorem raiseBlock_writers (e : ErrCode) (s : State) : (raiseBlock e s).writers = s.writers := rfl
@[simp] theorem raiseBlock_readers (e : ErrCode) (s : State) : (raiseBlock e s).readers = s.readers := rfl
@[simp] theorem raiseBlock_enc (e : ErrCode) (s : State) : (raiseBlock e s).enc = s.enc := rfl
@[simp] theorem raiseBlock_dec (e : ErrCode) (s : State) : (raiseBlock e s).dec = s.dec := rfl
@[simp] theorem raiseBlock_hdr (e : ErrCode) (s : State) : (raiseBlock e s).hdr = s.hdr := rfl
@[simp] theorem raiseBlock_blk (e : ErrCode) (s : State) : (raiseBlock e s).blk = s.blk := rfl
@[simp] theorem raiseBlock_stream (e : ErrCode) (s : State) : (raiseBlock e s).stream =
    { s.stream with pos := .idle, verdict := .raised e } := rfl
@[simp] theorem raiseBlock_host (e : ErrCode) (s : State) : (raiseBlock e s).host = s.host := rfl
@[simp] theorem raiseBlock_busData (e : ErrCode) (s : State) : (raiseBlock e s).busData = s.busData := rfl
@[simp] theorem raiseBlock_drawn (e : ErrCode) (s : State) : (raiseBlock e s).drawn = s.drawn := rfl

/-! ### raiseFrame -/

@[simp] theorem raiseFrame_params (e : ErrCode) (s : State) : (raiseFrame e s).params = s.params := rfl
@[simp] theorem raiseFrame_regs (e : ErrCode) (s : State) : (raiseFrame e s).regs = s.regs := rfl
@[simp] theorem raiseFrame_mem (e : ErrCode) (s : State) : (raiseFrame e s).mem = s.mem := rfl
@[simp] theorem raiseFrame_bt (e : ErrCode) (s : State) : (raiseFrame e s).bt = s.bt := rfl
@[simp] theorem raiseFrame_writers (e : ErrCode) (s : State) : (raiseFrame e s).writers = s.writers := rfl
@[simp] theorem raiseFrame_readers (e : ErrCode) (s : State) : (raiseFrame e s).readers = s.readers := rfl
@[simp] theorem raiseFrame_enc (e : ErrCode) (s : State) : (raiseFrame e s).enc = s.enc := rfl
@[simp] theorem raiseFrame_dec (e : ErrCode) (s : State) : (raiseFrame e s).dec = s.dec := rfl
@[simp] theorem raiseFrame_hdr (e : ErrCode) (s : State) : (raiseFrame e s).hdr = s.hdr := rfl
@[simp] theorem raiseFrame_blk (e : ErrCode) (s : State) : (raiseFrame e s).blk = s.blk := rfl
@[simp] theorem raiseFrame_stream (e : ErrCode) (s : State) : (raiseFrame e s).stream =
    { s.stream with
      pos := .idle
      verdict := .raised e
      reader := { s.stream.reader with
        state := if s.stream.reader.state = .header then .closed else .failed } } := rfl
@[simp] theorem raiseFrame_host (e : ErrCode) (s : State) : (raiseFrame e s).host = s.host := rfl
@[simp] theorem raiseFrame_busData (e : ErrCode) (s : State) : (raiseFrame e s).busData = s.busData := rfl
@[simp] theorem raiseFrame_drawn (e : ErrCode) (s : State) : (raiseFrame e s).drawn = s.drawn := rfl

/-! ### putReadWork -/

@[simp] theorem putReadWork_params (t : ReadWork) (s : State) : (putReadWork t s).params = s.params := rfl
@[simp] theorem putReadWork_regs (t : ReadWork) (s : State) : (putReadWork t s).regs = s.regs := rfl
@[simp] theorem putReadWork_mem (t : ReadWork) (s : State) : (putReadWork t s).mem = s.mem := rfl
@[simp] theorem putReadWork_bt (t : ReadWork) (s : State) : (putReadWork t s).bt = s.bt := rfl
@[simp] theorem putReadWork_writers (t : ReadWork) (s : State) : (putReadWork t s).writers = s.writers := rfl
@[simp] theorem putReadWork_readers (t : ReadWork) (s : State) : (putReadWork t s).readers =
    s.readers.set s.regs.handle.toNat t.reader := rfl
@[simp] theorem putReadWork_enc (t : ReadWork) (s : State) : (putReadWork t s).enc = s.enc := rfl
@[simp] theorem putReadWork_dec (t : ReadWork) (s : State) : (putReadWork t s).dec = t.dec := rfl
@[simp] theorem putReadWork_hdr (t : ReadWork) (s : State) : (putReadWork t s).hdr = s.hdr := rfl
@[simp] theorem putReadWork_blk (t : ReadWork) (s : State) : (putReadWork t s).blk = t.blk := rfl
@[simp] theorem putReadWork_stream (t : ReadWork) (s : State) : (putReadWork t s).stream = s.stream := rfl
@[simp] theorem putReadWork_host (t : ReadWork) (s : State) : (putReadWork t s).host = s.host := rfl
@[simp] theorem putReadWork_busData (t : ReadWork) (s : State) : (putReadWork t s).busData = s.busData := rfl
@[simp] theorem putReadWork_drawn (t : ReadWork) (s : State) : (putReadWork t s).drawn = s.drawn := rfl

/-! ### putStreamWork -/

@[simp] theorem putStreamWork_params (t : ReadWork) (s : State) : (putStreamWork t s).params = s.params := rfl
@[simp] theorem putStreamWork_regs (t : ReadWork) (s : State) : (putStreamWork t s).regs = s.regs := rfl
@[simp] theorem putStreamWork_mem (t : ReadWork) (s : State) : (putStreamWork t s).mem = s.mem := rfl
@[simp] theorem putStreamWork_bt (t : ReadWork) (s : State) : (putStreamWork t s).bt = s.bt := rfl
@[simp] theorem putStreamWork_writers (t : ReadWork) (s : State) : (putStreamWork t s).writers = s.writers := rfl
@[simp] theorem putStreamWork_readers (t : ReadWork) (s : State) : (putStreamWork t s).readers = s.readers := rfl
@[simp] theorem putStreamWork_enc (t : ReadWork) (s : State) : (putStreamWork t s).enc = s.enc := rfl
@[simp] theorem putStreamWork_dec (t : ReadWork) (s : State) : (putStreamWork t s).dec = t.dec := rfl
@[simp] theorem putStreamWork_hdr (t : ReadWork) (s : State) : (putStreamWork t s).hdr = s.hdr := rfl
@[simp] theorem putStreamWork_blk (t : ReadWork) (s : State) : (putStreamWork t s).blk = t.blk := rfl
@[simp] theorem putStreamWork_stream (t : ReadWork) (s : State) : (putStreamWork t s).stream =
    { s.stream with reader := t.reader, content := t.out } := rfl
@[simp] theorem putStreamWork_host (t : ReadWork) (s : State) : (putStreamWork t s).host = s.host := rfl
@[simp] theorem putStreamWork_busData (t : ReadWork) (s : State) : (putStreamWork t s).busData = s.busData := rfl
@[simp] theorem putStreamWork_drawn (t : ReadWork) (s : State) : (putStreamWork t s).drawn = s.drawn := rfl

/-! ### advanceRun -/

@[simp] theorem advanceRun_params (n : Nat) (s : State) : (advanceRun n s).params = s.params := rfl
@[simp] theorem advanceRun_regs (n : Nat) (s : State) : (advanceRun n s).regs = s.regs := rfl
@[simp] theorem advanceRun_mem (n : Nat) (s : State) : (advanceRun n s).mem = s.mem := rfl
@[simp] theorem advanceRun_bt (n : Nat) (s : State) : (advanceRun n s).bt = s.bt := rfl
@[simp] theorem advanceRun_writers (n : Nat) (s : State) : (advanceRun n s).writers = s.writers := rfl
@[simp] theorem advanceRun_readers (n : Nat) (s : State) : (advanceRun n s).readers = s.readers := rfl
@[simp] theorem advanceRun_enc (n : Nat) (s : State) : (advanceRun n s).enc = s.enc := rfl
@[simp] theorem advanceRun_dec (n : Nat) (s : State) : (advanceRun n s).dec = s.dec := rfl
@[simp] theorem advanceRun_hdr (n : Nat) (s : State) : (advanceRun n s).hdr = s.hdr := rfl
@[simp] theorem advanceRun_blk (n : Nat) (s : State) : (advanceRun n s).blk = s.blk := rfl
@[simp] theorem advanceRun_stream (n : Nat) (s : State) : (advanceRun n s).stream =
    { s.stream with reader := { s.stream.reader with rip := s.stream.reader.rip + n } } := rfl
@[simp] theorem advanceRun_host (n : Nat) (s : State) : (advanceRun n s).host = s.host := rfl
@[simp] theorem advanceRun_busData (n : Nat) (s : State) : (advanceRun n s).busData = s.busData := rfl
@[simp] theorem advanceRun_drawn (n : Nat) (s : State) : (advanceRun n s).drawn = s.drawn := rfl

end Sys2Proof.Machine
end

