-- ==== Sys2Proof/Laws/Command.lean ====
section
/-! SUPPORT. The laws of the command cycle (R270, R306): how a command can end, and what each command's rule makes of invalid
arguments. -/

namespace Sys2Proof.Machine

/-- A command that goes on ended without error or raised one. -/
theorem runCommand_eq_next {rule : State → CmdEnd} {s t : State} (h : runCommand rule s = .next t) :
    (∃ u, rule (startCommand s) = .done u ∧ t = finishCommand u) ∨
    (∃ e u, rule (startCommand s) = .raised e u ∧ t = raiseError e u) := by
  unfold runCommand at h
  split at h
  · exact .inl ⟨_, ‹_›, by simpa using h.symm⟩
  · exact .inr ⟨_, _, ‹_›, by simpa using h.symm⟩
  · simp at h

theorem runCommand_of_done {rule : State → CmdEnd} {s u : State} (h : rule (startCommand s) = .done u) :
    runCommand rule s = .next (finishCommand u) := by simp [runCommand, h]

theorem runCommand_of_raised {rule : State → CmdEnd} {s u : State} {e : ErrCode}
    (h : rule (startCommand s) = .raised e u) : runCommand rule s = .next (raiseError e u) := by simp [runCommand, h]

theorem runCommand_of_refused {rule : State → CmdEnd} {s : State} {r : Refusal}
    (h : rule (startCommand s) = .refused r) : runCommand rule s = .refused r := by simp [runCommand, h]

/-- No command faults (R305). -/
theorem runCommand_ne_fault (rule : State → CmdEnd) (s : State) (f : Fault) : runCommand rule s ≠ .fault f := by
  unfold runCommand; split <;> simp

/-! ### The operands a command judges do not see that it has started -/

@[simp] theorem srcRegion_status (p : Params) (r : Regs) (st : Status) :
    srcRegion p { r with status := st } = srcRegion p r := rfl
@[simp] theorem dstRegion_status (p : Params) (r : Regs) (st : Status) :
    dstRegion p { r with status := st } = dstRegion p r := rfl
@[simp] theorem srcBytes_startCommand (s : State) : srcBytes (startCommand s) = srcBytes s := rfl
@[simp] theorem freeWriter_startCommand (s : State) : freeWriter (startCommand s) = freeWriter s := rfl
@[simp] theorem freeReader_startCommand (s : State) : freeReader (startCommand s) = freeReader s := rfl
@[simp] theorem handleWriter_startCommand (s : State) : handleWriter (startCommand s) = handleWriter s := rfl
@[simp] theorem handleReader_startCommand (s : State) : handleReader (startCommand s) = handleReader s := rfl
@[simp] theorem regionBytes_startCommand (s : State) (g : Region) : regionBytes (startCommand s) g = regionBytes s g := rfl
@[simp] theorem compressEncoding_startCommand (s : State) : compressEncoding (startCommand s) = compressEncoding s := rfl
@[simp] theorem readContent_startCommand (s : State) (r : ReaderCtx) :
    readContent (startCommand s) r = readContent s r := rfl

/-- Starting a command and raising InvalidArgument leaves STATUS and RESULT written and nothing else (R278). -/
theorem raiseError_startCommand (e : ErrCode) (s : State) :
    raiseError e (startCommand s) = { s with regs := { s.regs with
      status := { busy := false, done := true, nofit := false, eos := false, err := e }, result := 0#32 } } := rfl

/-! ### The free context (R232) -/

/-- The free writer is the lowest Closed one. -/
theorem freeWriter_eq_some {s : State} {k : Nat} (h : freeWriter s = some k) :
    ∃ w, s.writers[k]? = some w ∧ w.state = .closed ∧
      ∀ j v, j < k → s.writers[j]? = some v → v.state ≠ .closed := by
  obtain ⟨hk, h1, h2⟩ := List.findIdx?_eq_some_iff_getElem.mp h
  refine ⟨s.writers[k], List.getElem?_eq_getElem hk, by simpa using h1, fun j v hj hv => ?_⟩
  obtain ⟨hj', rfl⟩ := List.getElem?_eq_some_iff.mp hv
  simpa using h2 j hj

/-- The free reader is the lowest Closed one. -/
theorem freeReader_eq_some {s : State} {k : Nat} (h : freeReader s = some k) :
    ∃ r, s.readers[k]? = some r ∧ r.state = .closed ∧
      ∀ j v, j < k → s.readers[j]? = some v → v.state ≠ .closed := by
  obtain ⟨hk, h1, h2⟩ := List.findIdx?_eq_some_iff_getElem.mp h
  refine ⟨s.readers[k], List.getElem?_eq_getElem hk, by simpa using h1, fun j v hj hv => ?_⟩
  obtain ⟨hj', rfl⟩ := List.getElem?_eq_some_iff.mp hv
  simpa using h2 j hj

/-- A Closed writer below which none is Closed is the free one. -/
theorem freeWriter_of_lowest {s : State} {k : Nat} {w : WriterCtx} (h : s.writers[k]? = some w) (hw : w.state = .closed)
    (hmin : ∀ j v, j < k → s.writers[j]? = some v → v.state ≠ .closed) : freeWriter s = some k := by
  obtain ⟨hk, rfl⟩ := List.getElem?_eq_some_iff.mp h
  refine List.findIdx?_eq_some_iff_getElem.mpr ⟨hk, by simpa using hw, fun j hj => ?_⟩
  have := hmin j _ hj (List.getElem?_eq_getElem (by omega))
  simpa using this

/-- A Closed reader below which none is Closed is the free one. -/
theorem freeReader_of_lowest {s : State} {k : Nat} {r : ReaderCtx} (h : s.readers[k]? = some r) (hr : r.state = .closed)
    (hmin : ∀ j v, j < k → s.readers[j]? = some v → v.state ≠ .closed) : freeReader s = some k := by
  obtain ⟨hk, rfl⟩ := List.getElem?_eq_some_iff.mp h
  refine List.findIdx?_eq_some_iff_getElem.mpr ⟨hk, by simpa using hr, fun j hj => ?_⟩
  have := hmin j _ hj (List.getElem?_eq_getElem (by omega))
  simpa using this

theorem freeWriter_eq_none {s : State} : freeWriter s = none ↔ ∀ w ∈ s.writers, w.state ≠ .closed := by
  simp [freeWriter, List.findIdx?_eq_none_iff]

theorem freeReader_eq_none {s : State} : freeReader s = none ↔ ∀ r ∈ s.readers, r.state ≠ .closed := by
  simp [freeReader, List.findIdx?_eq_none_iff]

/-! ### What each command does, said once per end of its rule -/

theorem execMaxlen_done {s : State} (h : s.regs.arg.toNat ≤ Config.lenMax) :
    execMaxlen s = .next (finishCommand (setResult (maximumOutputLength s.regs.arg.toNat) (startCommand s))) := by
  refine runCommand_of_done ?_
  unfold ruleMaxlen
  exact if_neg (Nat.not_lt.mpr h)

theorem execMaxlen_invalid {s : State} (h : Config.lenMax < s.regs.arg.toNat) :
    execMaxlen s = .next (raiseError .invalidArgument (startCommand s)) := by
  refine runCommand_of_raised ?_
  unfold ruleMaxlen
  exact if_pos h

/-- COMPRESS_BLOCK once its arguments are valid: the state in which the encoding has been made. -/
def compressed (s : State) : State := { startCommand s with enc := (compressEncoding s).1, bt := (compressEncoding s).2 }

theorem execCompressBlock_fits {s : State} (hv : compressValid s)
    (hf : fits (compressEncoding s).1.out s.regs.dstCap.toNat) :
    execCompressBlock s = .next (finishCommand (setStatus (Status.setNofit false) (setResult (compressEncoding s).1.out.length
      (deliver (dstRegion s.params s.regs) (compressEncoding s).1.out (compressed s))))) := by
  refine runCommand_of_done ?_
  unfold ruleCompressBlock
  rw [if_pos (show compressValid (startCommand s) from hv)]
  exact if_pos hf

theorem execCompressBlock_nofit {s : State} (hv : compressValid s)
    (hf : ¬ fits (compressEncoding s).1.out s.regs.dstCap.toNat) :
    execCompressBlock s = .next (finishCommand (setStatus (Status.setNofit true) (setResult 0
      (deliver (dstRegion s.params s.regs) [] (compressed s))))) := by
  refine runCommand_of_done ?_
  unfold ruleCompressBlock
  rw [if_pos (show compressValid (startCommand s) from hv)]
  exact if_neg hf

theorem execCompressBlock_invalid {s : State} (hv : ¬ compressValid s) :
    execCompressBlock s = .next (raiseError .invalidArgument (startCommand s)) := by
  refine runCommand_of_raised ?_
  unfold ruleCompressBlock
  exact if_neg hv

/-- DECOMPRESS_BLOCK's decoding of its source. -/
def decompressed (s : State) : Except DecRegs DecRegs := decodeBlock (srcBytes s) [] s.regs.arg.toNat s.dec

theorem execDecompressBlock_tooSmall {s : State} (hv : decompressValid s) (hc : s.regs.dstCap.toNat < s.regs.arg.toNat) :
    execDecompressBlock s =
      .next (raiseError .outputTooSmall (deliver (dstRegion s.params s.regs) [] (startCommand s))) := by
  refine runCommand_of_raised ?_
  unfold ruleDecompressBlock
  simp only
  rw [if_pos (show decompressValid (startCommand s) from hv)]
  exact if_pos hc

theorem execDecompressBlock_done {s : State} {d : DecRegs} (hv : decompressValid s)
    (hc : s.regs.arg.toNat ≤ s.regs.dstCap.toNat) (hd : decompressed s = .ok d) (hl : d.out.length = s.regs.arg.toNat) :
    execDecompressBlock s = .next (finishCommand (setResult s.regs.arg.toNat
      (deliver (dstRegion s.params s.regs) d.out { startCommand s with dec := d }))) := by
  refine runCommand_of_done ?_
  unfold ruleDecompressBlock
  simp only
  rw [if_pos (show decompressValid (startCommand s) from hv),
    if_neg (show ¬ (startCommand s).regs.dstCap.toNat < (startCommand s).regs.arg.toNat from Nat.not_lt.mpr hc),
    show decodeBlock (srcBytes (startCommand s)) [] (startCommand s).regs.arg.toNat (startCommand s).dec = .ok d from hd]
  exact if_pos hl

theorem execDecompressBlock_short {s : State} {d : DecRegs} (hv : decompressValid s)
    (hc : s.regs.arg.toNat ≤ s.regs.dstCap.toNat) (hd : decompressed s = .ok d) (hl : d.out.length ≠ s.regs.arg.toNat) :
    execDecompressBlock s = .next (raiseError .corruptedInput
      (deliver (dstRegion s.params s.regs) [] { startCommand s with dec := d })) := by
  refine runCommand_of_raised ?_
  unfold ruleDecompressBlock
  simp only
  rw [if_pos (show decompressValid (startCommand s) from hv),
    if_neg (show ¬ (startCommand s).regs.dstCap.toNat < (startCommand s).regs.arg.toNat from Nat.not_lt.mpr hc),
    show decodeBlock (srcBytes (startCommand s)) [] (startCommand s).regs.arg.toNat (startCommand s).dec = .ok d from hd]
  exact if_neg hl

theorem execDecompressBlock_corrupted {s : State} {d : DecRegs} (hv : decompressValid s)
    (hc : s.regs.arg.toNat ≤ s.regs.dstCap.toNat) (hd : decompressed s = .error d) :
    execDecompressBlock s = .next (raiseError .corruptedInput
      (deliver (dstRegion s.params s.regs) [] { startCommand s with dec := d })) := by
  refine runCommand_of_raised ?_
  unfold ruleDecompressBlock
  simp only
  rw [if_pos (show decompressValid (startCommand s) from hv),
    if_neg (show ¬ (startCommand s).regs.dstCap.toNat < (startCommand s).regs.arg.toNat from Nat.not_lt.mpr hc),
    show decodeBlock (srcBytes (startCommand s)) [] (startCommand s).regs.arg.toNat (startCommand s).dec = .error d from hd]
  rfl

theorem execDecompressBlock_invalid {s : State} (hv : ¬ decompressValid s) :
    execDecompressBlock s = .next (raiseError .invalidArgument (startCommand s)) := by
  refine runCommand_of_raised ?_
  unfold ruleDecompressBlock
  exact if_neg hv

theorem execOpenWriter_done {s : State} {k : Nat} (hp : s.regs.pref.legal ∧ s.regs.cfg.legal)
    (hk : freeWriter s = some k) :
    execOpenWriter s =
      .next (finishCommand (setResult 0 (setHandle k (setWriter k (openedWriter s.regs) (startCommand s))))) := by
  refine runCommand_of_done ?_
  unfold ruleOpenWriter
  rw [if_pos (show (startCommand s).regs.pref.legal ∧ (startCommand s).regs.cfg.legal from hp), freeWriter_startCommand, hk]
  rfl

theorem execOpenWriter_invalid {s : State} (h : ¬ ((s.regs.pref.legal ∧ s.regs.cfg.legal) ∧ freeWriter s ≠ none)) :
    execOpenWriter s = .next (raiseError .invalidArgument (startCommand s)) := by
  refine runCommand_of_raised ?_
  unfold ruleOpenWriter
  by_cases hp : (startCommand s).regs.pref.legal ∧ (startCommand s).regs.cfg.legal
  · have hn : freeWriter s = none := by by_contra h'; exact h ⟨hp, h'⟩
    rw [if_pos hp, freeWriter_startCommand, hn]
  · exact if_neg hp

/-- What WRITE_FRAME makes of the context `w`. -/
def written (s : State) (w : WriterCtx) : WriteWork := writeBlocks (policyOf s.params) w s.enc (srcBytes s)

theorem execWriteFrame_done {s : State} {w : WriterCtx} (hw : handleWriter s = some w) (hv : writeValid s w)
    (ht : (written s w).writer.total < Config.streamMax) :
    execWriteFrame s = .next (finishCommand (setResult (written s w).out.length
      (deliver (dstRegion s.params s.regs) (written s w).out (setWriter s.regs.handle.toNat (written s w).writer
        { startCommand s with enc := (written s w).enc })))) := by
  refine runCommand_of_done ?_
  unfold ruleWriteFrame
  rw [handleWriter_startCommand, hw]
  simp only
  rw [if_pos (show writeValid (startCommand s) w from hv)]
  exact if_neg (Nat.not_le.mpr ht)

theorem execWriteFrame_tooLong {s : State} {w : WriterCtx} (hw : handleWriter s = some w) (hv : writeValid s w)
    (ht : Config.streamMax ≤ (written s w).writer.total) : execWriteFrame s = .refused .streamTooLong := by
  refine runCommand_of_refused ?_
  unfold ruleWriteFrame
  rw [handleWriter_startCommand, hw]
  simp only
  rw [if_pos (show writeValid (startCommand s) w from hv)]
  exact if_pos ht

theorem execWriteFrame_invalid {s : State} (h : ∀ w, handleWriter s = some w → ¬ writeValid s w) :
    execWriteFrame s = .next (raiseError .invalidArgument (startCommand s)) := by
  refine runCommand_of_raised ?_
  unfold ruleWriteFrame
  rw [handleWriter_startCommand]
  cases hw : handleWriter s with
  | none => rfl
  | some w => exact if_neg (h w hw)

theorem execCloseWriter_done {s : State} {w : WriterCtx} (hw : handleWriter s = some w) (hv : closeValid s w) :
    execCloseWriter s = .next (finishCommand (setWriter s.regs.handle.toNat { w with state := .closed }
      (setResult (closeBytes w).length (deliver (dstRegion s.params s.regs) (closeBytes w) (startCommand s))))) := by
  refine runCommand_of_done ?_
  unfold ruleCloseWriter
  rw [handleWriter_startCommand, hw]
  exact if_pos hv

theorem execCloseWriter_invalid {s : State} (h : ∀ w, handleWriter s = some w → ¬ closeValid s w) :
    execCloseWriter s = .next (raiseError .invalidArgument (startCommand s)) := by
  refine runCommand_of_raised ?_
  unfold ruleCloseWriter
  rw [handleWriter_startCommand]
  cases hw : handleWriter s with
  | none => rfl
  | some w => exact if_neg (h w hw)

theorem execOpenReader_done {s : State} {j : Nat} {f : FinfoRegs} (hs : srcAdmitted s.params s.regs)
    (hj : freeReader s = some j) (hf : parseHeader (srcBytes s) = .ok f) :
    execOpenReader s = .next (finishCommand (setResult f.hdrlen.toNat (setHandle j (setFinfo f
      (setReader j (openedReader s.params s.regs f) (startCommand s)))))) := by
  refine runCommand_of_done ?_
  unfold ruleOpenReader
  rw [if_pos (show srcAdmitted (startCommand s).params (startCommand s).regs from hs), freeReader_startCommand, hj,
    srcBytes_startCommand, hf]
  rfl

theorem execOpenReader_error {s : State} {j : Nat} {e : ErrCode} (hs : srcAdmitted s.params s.regs)
    (hj : freeReader s = some j) (hf : parseHeader (srcBytes s) = .error e) :
    execOpenReader s = .next (raiseError e (startCommand s)) := by
  refine runCommand_of_raised ?_
  unfold ruleOpenReader
  rw [if_pos (show srcAdmitted (startCommand s).params (startCommand s).regs from hs), freeReader_startCommand, hj,
    srcBytes_startCommand, hf]

theorem execOpenReader_invalid {s : State} (h : ¬ (srcAdmitted s.params s.regs ∧ freeReader s ≠ none)) :
    execOpenReader s = .next (raiseError .invalidArgument (startCommand s)) := by
  refine runCommand_of_raised ?_
  unfold ruleOpenReader
  by_cases hs : srcAdmitted (startCommand s).params (startCommand s).regs
  · have hn : freeReader s = none := by by_contra h'; exact h ⟨hs, h'⟩
    rw [if_pos hs, freeReader_startCommand, hn]
  · exact if_neg hs

theorem execReadFrame_done {s : State} {r : ReaderCtx} {u : ReadWork} (hr : handleReader s = some r) (hv : readValid s r)
    (hu : readContent s r = .ok u) (ht : u.reader.total < Config.streamMax) :
    execReadFrame s = .next (finishCommand (setStatus (Status.setEos (u.reader.state == .ended)) (setResult u.out.length
      (deliver (dstRegion s.params s.regs) u.out (putReadWork u (startCommand s)))))) := by
  refine runCommand_of_done ?_
  unfold ruleReadFrame
  rw [handleReader_startCommand, hr]
  simp only
  rw [if_pos (show readValid (startCommand s) r from hv), readContent_startCommand, hu]
  exact if_neg (Nat.not_le.mpr ht)

theorem execReadFrame_tooLong {s : State} {r : ReaderCtx} {u : ReadWork} (hr : handleReader s = some r)
    (hv : readValid s r) (hu : readContent s r = .ok u) (ht : Config.streamMax ≤ u.reader.total) :
    execReadFrame s = .refused .streamTooLong := by
  refine runCommand_of_refused ?_
  unfold ruleReadFrame
  rw [handleReader_startCommand, hr]
  simp only
  rw [if_pos (show readValid (startCommand s) r from hv), readContent_startCommand, hu]
  exact if_pos ht

theorem execReadFrame_error {s : State} {r : ReaderCtx} {u : ReadWork} {e : ErrCode} (hr : handleReader s = some r)
    (hv : readValid s r) (hu : readContent s r = .error (e, u)) :
    execReadFrame s = .next (raiseError e
      (deliver (dstRegion s.params s.regs) [] (putReadWork (u.setState .failed) (startCommand s)))) := by
  refine runCommand_of_raised ?_
  unfold ruleReadFrame
  rw [handleReader_startCommand, hr]
  simp only
  rw [if_pos (show readValid (startCommand s) r from hv), readContent_startCommand, hu]
  rfl

theorem execReadFrame_invalid {s : State} (h : ∀ r, handleReader s = some r → ¬ readValid s r) :
    execReadFrame s = .next (raiseError .invalidArgument (startCommand s)) := by
  refine runCommand_of_raised ?_
  unfold ruleReadFrame
  rw [handleReader_startCommand]
  cases hr : handleReader s with
  | none => rfl
  | some r => exact if_neg (h r hr)

/-- The states CLOSE_READER accepts (R260). -/
abbrev closable (r : ReaderCtx) : Prop := r.state = .blocks ∨ r.state = .ended ∨ r.state = .failed

theorem execCloseReader_done {s : State} {r : ReaderCtx} (hr : handleReader s = some r) (hv : closable r) :
    execCloseReader s = .next (finishCommand (setResult 0 (setReader s.regs.handle.toNat { r with state := .closed }
      (startCommand s)))) := by
  refine runCommand_of_done ?_
  unfold ruleCloseReader
  rw [handleReader_startCommand, hr]
  exact if_pos hv

theorem execCloseReader_invalid {s : State} (h : ∀ r, handleReader s = some r → ¬ closable r) :
    execCloseReader s = .next (raiseError .invalidArgument (startCommand s)) := by
  refine runCommand_of_raised ?_
  unfold ruleCloseReader
  rw [handleReader_startCommand]
  cases hr : handleReader s with
  | none => rfl
  | some r => exact if_neg (h r hr)

theorem execIllegalCmd_invalid (w : Word) (s : State) :
    execIllegalCmd w s = .next (raiseError .invalidArgument (startCommand s)) := rfl

/-! ### All ends of a command in one place -/

/-- `CommandEnd s i t`: the command `i` issued in `s` ends in `t`, and how. -/
inductive CommandEnd (s : State) : Instr → State → Prop where
  | invalid (i : Instr) : CommandEnd s i (raiseError .invalidArgument (startCommand s))
  | maxlen (h : s.regs.arg.toNat ≤ Config.lenMax) :
      CommandEnd s .maxlen (finishCommand (setResult (maximumOutputLength s.regs.arg.toNat) (startCommand s)))
  | fits (hv : compressValid s) (hf : fits (compressEncoding s).1.out s.regs.dstCap.toNat) :
      CommandEnd s .compressBlock (finishCommand (setStatus (Status.setNofit false)
        (setResult (compressEncoding s).1.out.length
          (deliver (dstRegion s.params s.regs) (compressEncoding s).1.out (compressed s)))))
  | nofit (hv : compressValid s) :
      CommandEnd s .compressBlock (finishCommand (setStatus (Status.setNofit true) (setResult 0
        (deliver (dstRegion s.params s.regs) [] (compressed s)))))
  | tooSmall (hv : decompressValid s) :
      CommandEnd s .decompressBlock (raiseError .outputTooSmall (deliver (dstRegion s.params s.regs) [] (startCommand s)))
  | decoded (d : DecRegs) (hv : decompressValid s) (hc : s.regs.arg.toNat ≤ s.regs.dstCap.toNat)
      (hd : decompressed s = .ok d) (hl : d.out.length = s.regs.arg.toNat) :
      CommandEnd s .decompressBlock (finishCommand (setResult s.regs.arg.toNat
        (deliver (dstRegion s.params s.regs) d.out { startCommand s with dec := d })))
  | corrupted (d : DecRegs) (hv : decompressValid s) :
      CommandEnd s .decompressBlock (raiseError .corruptedInput
        (deliver (dstRegion s.params s.regs) [] { startCommand s with dec := d }))
  | openWriter (k : Nat) (hp : s.regs.pref.legal ∧ s.regs.cfg.legal) (hk : freeWriter s = some k) :
      CommandEnd s .openWriter
        (finishCommand (setResult 0 (setHandle k (setWriter k (openedWriter s.regs) (startCommand s)))))
  | writeFrame (w : WriterCtx) (hw : handleWriter s = some w) (hv : writeValid s w)
      (ht : (written s w).writer.total < Config.streamMax) :
      CommandEnd s .writeFrame (finishCommand (setResult (written s w).out.length
        (deliver (dstRegion s.params s.regs) (written s w).out (setWriter s.regs.handle.toNat (written s w).writer
          { startCommand s with enc := (written s w).enc }))))
  | closeWriter (w : WriterCtx) (hw : handleWriter s = some w) (hv : closeValid s w) :
      CommandEnd s .closeWriter (finishCommand (setWriter s.regs.handle.toNat { w with state := .closed }
        (setResult (closeBytes w).length (deliver (dstRegion s.params s.regs) (closeBytes w) (startCommand s)))))
  | openReader (j : Nat) (f : FinfoRegs) (hs : srcAdmitted s.params s.regs) (hj : freeReader s = some j)
      (hf : parseHeader (srcBytes s) = .ok f) :
      CommandEnd s .openReader (finishCommand (setResult f.hdrlen.toNat (setHandle j (setFinfo f
        (setReader j (openedReader s.params s.regs f) (startCommand s))))))
  | badHeader (e : ErrCode) (he : e = .corruptedInput ∨ e = .checksumMismatch) :
      CommandEnd s .openReader (raiseError e (startCommand s))
  | readFrame (r : ReaderCtx) (u : ReadWork) (hr : handleReader s = some r) (hv : readValid s r)
      (hu : readContent s r = .ok u) (hlen : u.out.length ≤ s.regs.arg.toNat) (ht : u.reader.total < Config.streamMax) :
      CommandEnd s .readFrame (finishCommand (setStatus (Status.setEos (u.reader.state == .ended)) (setResult u.out.length
        (deliver (dstRegion s.params s.regs) u.out (putReadWork u (startCommand s))))))
  | badFrame (r : ReaderCtx) (u : ReadWork) (e : ErrCode) (he : e = .corruptedInput ∨ e = .checksumMismatch)
      (hr : handleReader s = some r) (hv : readValid s r) (hu : readContent s r = .error (e, u)) :
      CommandEnd s .readFrame (raiseError e
        (deliver (dstRegion s.params s.regs) [] (putReadWork (u.setState .failed) (startCommand s))))
  | closeReader (r : ReaderCtx) (hr : handleReader s = some r) (hv : closable r) :
      CommandEnd s .closeReader (finishCommand (setResult 0 (setReader s.regs.handle.toNat { r with state := .closed }
        (startCommand s))))

/-- READ_FRAME's content is no longer than asked for, its errors are the frame's. -/
theorem readContent_spec (s : State) (r : ReaderCtx) :
    match readContent s r with
    | .ok u => u.out.length ≤ s.regs.arg.toNat
    | .error (e, _) => e = .corruptedInput ∨ e = .checksumMismatch :=
  readLoop_spec _ _ _ _ (Nat.zero_le _)

/-- Every command ends in one of these ways, or is WRITE_FRAME or READ_FRAME on a stream that is not modelled (R34). -/
theorem exec_command_cases {i : Instr} (s : State) (hi : isCommand i) :
    (∃ t, exec i s = .next t ∧ CommandEnd s i t) ∨
    (exec i s = .refused .streamTooLong ∧ (i = .writeFrame ∨ i = .readFrame)) := by
  cases i
  case maxlen =>
    left
    by_cases h : s.regs.arg.toNat ≤ Config.lenMax
    · exact ⟨_, execMaxlen_done h, .maxlen h⟩
    · exact ⟨_, execMaxlen_invalid (by omega), .invalid _⟩
  case compressBlock =>
    left
    by_cases hv : compressValid s
    · by_cases hf : fits (compressEncoding s).1.out s.regs.dstCap.toNat
      · exact ⟨_, execCompressBlock_fits hv hf, .fits hv hf⟩
      · exact ⟨_, execCompressBlock_nofit hv hf, .nofit hv⟩
    · exact ⟨_, execCompressBlock_invalid hv, .invalid _⟩
  case decompressBlock =>
    left
    by_cases hv : decompressValid s
    · by_cases hc : s.regs.dstCap.toNat < s.regs.arg.toNat
      · exact ⟨_, execDecompressBlock_tooSmall hv hc, .tooSmall hv⟩
      · cases hd : decompressed s with
        | error d => exact ⟨_, execDecompressBlock_corrupted hv (by omega) hd, .corrupted d hv⟩
        | ok d =>
          by_cases hl : d.out.length = s.regs.arg.toNat
          · exact ⟨_, execDecompressBlock_done hv (by omega) hd hl, .decoded d hv (by omega) hd hl⟩
          · exact ⟨_, execDecompressBlock_short hv (by omega) hd hl, .corrupted d hv⟩
    · exact ⟨_, execDecompressBlock_invalid hv, .invalid _⟩
  case openWriter =>
    left
    by_cases h : (s.regs.pref.legal ∧ s.regs.cfg.legal) ∧ freeWriter s ≠ none
    · obtain ⟨k, hk⟩ := Option.ne_none_iff_exists'.mp h.2
      exact ⟨_, execOpenWriter_done h.1 hk, .openWriter k h.1 hk⟩
    · exact ⟨_, execOpenWriter_invalid h, .invalid _⟩
  case writeFrame =>
    by_cases h : ∃ w, handleWriter s = some w ∧ writeValid s w
    · obtain ⟨w, hw, hv⟩ := h
      by_cases ht : (written s w).writer.total < Config.streamMax
      · exact .inl ⟨_, execWriteFrame_done hw hv ht, .writeFrame w hw hv ht⟩
      · exact .inr ⟨execWriteFrame_tooLong hw hv (by omega), .inl rfl⟩
    · exact .inl ⟨_, execWriteFrame_invalid fun w hw hv => h ⟨w, hw, hv⟩, .invalid _⟩
  case closeWriter =>
    left
    by_cases h : ∃ w, handleWriter s = some w ∧ closeValid s w
    · obtain ⟨w, hw, hv⟩ := h
      exact ⟨_, execCloseWriter_done hw hv, .closeWriter w hw hv⟩
    · exact ⟨_, execCloseWriter_invalid fun w hw hv => h ⟨w, hw, hv⟩, .invalid _⟩
  case openReader =>
    left
    by_cases h : srcAdmitted s.params s.regs ∧ freeReader s ≠ none
    · obtain ⟨j, hj⟩ := Option.ne_none_iff_exists'.mp h.2
      cases hf : parseHeader (srcBytes s) with
      | error e => exact ⟨_, execOpenReader_error h.1 hj hf, .badHeader e (parseHeader_error hf)⟩
      | ok f => exact ⟨_, execOpenReader_done h.1 hj hf, .openReader j f h.1 hj hf⟩
    · exact ⟨_, execOpenReader_invalid h, .invalid _⟩
  case readFrame =>
    by_cases h : ∃ r, handleReader s = some r ∧ readValid s r
    · obtain ⟨r, hr, hv⟩ := h
      have hs := readContent_spec s r
      cases hu : readContent s r with
      | error e =>
        rw [hu] at hs
        exact .inl ⟨_, execReadFrame_error hr hv hu, .badFrame r e.2 e.1 hs hr hv hu⟩
      | ok u =>
        rw [hu] at hs
        by_cases ht : u.reader.total < Config.streamMax
        · exact .inl ⟨_, execReadFrame_done hr hv hu ht, .readFrame r u hr hv hu hs ht⟩
        · exact .inr ⟨execReadFrame_tooLong hr hv hu (by omega), .inr rfl⟩
    · exact .inl ⟨_, execReadFrame_invalid fun r hr hv => h ⟨r, hr, hv⟩, .invalid _⟩
  case closeReader =>
    left
    by_cases h : ∃ r, handleReader s = some r ∧ closable r
    · obtain ⟨r, hr, hv⟩ := h
      exact ⟨_, execCloseReader_done hr hv, .closeReader r hr hv⟩
    · exact ⟨_, execCloseReader_invalid fun r hr hv => h ⟨r, hr, hv⟩, .invalid _⟩
  case illegalCmd w => exact .inl ⟨_, execIllegalCmd_invalid w s, .invalid _⟩
  all_goals simp [isCommand, Instr.position] at hi

/-- The next state of a command is one of its ends. -/
theorem commandEnd_of_next {i : Instr} {s t : State} (hi : isCommand i) (h : exec i s = .next t) : CommandEnd s i t := by
  rcases exec_command_cases s hi with ⟨u, hu, hc⟩ | ⟨hr, -⟩
  · rw [hu, Host.Outcome.next.injEq] at h
    exact h ▸ hc
  · rw [hr] at h
    simp at h

end Sys2Proof.Machine
end

