-- ==== Sys2Proof/Laws/Decoder.lean ====
section
/-! SUPPORT. The laws of the block decoder: the match copy, the extension readers, one sequence, and the loop. -/

namespace Sys2Proof.Machine

/-! ### The match copy (R197) -/

@[simp] theorem length_appendMatch (dict : List Byte) (off n : Nat) (out : List Byte) :
    (appendMatch dict off n out).length = out.length + n := by
  induction n generalizing out with
  | zero => rfl
  | succ n ih => simp only [appendMatch, ih, List.length_append, List.length_singleton]; omega

/-- The copy appends to the output. -/
theorem appendMatch_prefix (dict : List Byte) (off n : Nat) (out : List Byte) :
    ∃ tail, appendMatch dict off n out = out ++ tail ∧ tail.length = n := by
  induction n generalizing out with
  | zero => exact ⟨[], by simp [appendMatch], rfl⟩
  | succ n ih =>
    obtain ⟨tail, h1, h2⟩ := ih (out ++ [(dict ++ out).getD ((dict ++ out).length - off) 0#8])
    exact ⟨_ :: tail, by rw [appendMatch, h1, List.append_assoc]; rfl, by simp [h2]⟩

/-- Copying a match that is real in a string whose front is `dict ++ out` gives the string's next bytes. -/
theorem appendMatch_of_real {dict out h : List Byte} {off n : Nat} (h1 : 1 ≤ off) (h2 : off ≤ dict.length + out.length)
    (hpre : h.take (dict.length + out.length) = dict ++ out) (hlen : dict.length + out.length + n ≤ h.length)
    (hreal : ∀ i, i < n → h[dict.length + out.length - off + i]? = h[dict.length + out.length + i]?) :
    dict ++ appendMatch dict off n out = h.take (dict.length + out.length + n) := by
  induction n generalizing out with
  | zero => simpa [appendMatch] using hpre.symm
  | succ n ih =>
    have hget : (dict ++ out).getD ((dict ++ out).length - off) 0#8 = h[dict.length + out.length]'(by omega) := by
      have h0 := hreal 0 (by omega)
      simp only [Nat.add_zero] at h0
      rw [List.getElem?_eq_getElem (i := dict.length + out.length) (by omega)] at h0
      rw [List.getD_eq_getElem?_getD, List.length_append, ← hpre, List.getElem?_take, if_pos (by omega), h0]
      rfl
    simp only [appendMatch, hget]
    have hlen' : dict.length + (out ++ [h[dict.length + out.length]'(by omega)]).length = dict.length + out.length + 1 := by
      simp; omega
    rw [ih (by omega) ?_ (by omega) ?_]
    · rw [hlen']; congr 1; omega
    · rw [hlen', List.take_add_one, hpre, List.getElem?_eq_getElem (by omega)]; simp
    · intro i hi
      have := hreal (i + 1) (by omega)
      rw [hlen']
      rw [show dict.length + out.length - off + (i + 1) = dict.length + out.length + 1 - off + i by omega,
        show dict.length + out.length + (i + 1) = dict.length + out.length + 1 + i by omega] at this
      exact this

/-! ### Extension bytes (R192, R196) -/

theorem readLLExt_append (q m : Nat) (hm : m < 255) (rest : List Byte) (r : DecRegs) :
    readLLExt (List.replicate q 255#8 ++ BitVec.ofNat 8 m :: rest) r =
      .ok { r with ip := r.ip + q + 1, ll := r.ll + 255 * q + m } := by
  induction q generalizing r with
  | zero =>
    have hne : BitVec.ofNat 8 m ≠ 255#8 := by
      intro h
      have := congrArg BitVec.toNat h
      simp only [BitVec.toNat_ofNat] at this
      omega
    simp only [List.replicate_zero, List.nil_append, readLLExt, if_neg hne, DecRegs.takeLLExt, BitVec.toNat_ofNat]
    rw [Nat.mod_eq_of_lt (by omega)]
    simp
  | succ q ih =>
    simp only [List.replicate_succ, List.cons_append, readLLExt, if_true, ih, DecRegs.takeLLExt, BitVec.toNat_ofNat]
    congr 2
    · omega
    · omega

theorem readMLExt_append (q m : Nat) (hm : m < 255) (rest : List Byte) (r : DecRegs) :
    readMLExt (List.replicate q 255#8 ++ BitVec.ofNat 8 m :: rest) r =
      .ok { r with ip := r.ip + q + 1, ml := r.ml + 255 * q + m } := by
  induction q generalizing r with
  | zero =>
    have hne : BitVec.ofNat 8 m ≠ 255#8 := by
      intro h
      have := congrArg BitVec.toNat h
      simp only [BitVec.toNat_ofNat] at this
      omega
    simp only [List.replicate_zero, List.nil_append, readMLExt, if_neg hne, DecRegs.takeMLExt, BitVec.toNat_ofNat]
    rw [Nat.mod_eq_of_lt (by omega)]
    simp
  | succ q ih =>
    simp only [List.replicate_succ, List.cons_append, readMLExt, if_true, ih, DecRegs.takeMLExt, BitVec.toNat_ofNat]
    congr 2
    · omega
    · omega

/-- The extension bytes of a literal length of 15 or more are read. -/
theorem readLLExt_lenField {v : Nat} (hv : 15 ≤ v) (rest : List Byte) (r : DecRegs) (hr : r.ll = 15) :
    readLLExt (lenField v ++ rest) r = .ok { r with ip := r.ip + (lenField v).length, ll := v } := by
  have h := readLLExt_append ((v - 15) / 255) ((v - 15) % 255) (Nat.mod_lt _ (by omega)) rest r
  simp only [lenField, if_neg (show ¬ v < 15 by omega), lenExt, List.append_assoc, List.singleton_append, h,
    List.length_append, List.length_replicate, List.length_singleton]
  congr 2
  all_goals omega

/-- The extension bytes of a match length of 19 or more are read. -/
theorem readMLExt_lenField {v : Nat} (hv : 15 ≤ v) (rest : List Byte) (r : DecRegs) (hr : r.ml = 19) :
    readMLExt (lenField v ++ rest) r = .ok { r with ip := r.ip + (lenField v).length, ml := 4 + v } := by
  have h := readMLExt_append ((v - 15) / 255) ((v - 15) % 255) (Nat.mod_lt _ (by omega)) rest r
  simp only [lenField, if_neg (show ¬ v < 15 by omega), lenExt, List.append_assoc, List.singleton_append, h,
    List.length_append, List.length_replicate, List.length_singleton]
  congr 2
  all_goals omega

/-! ### One whole sequence (R91, R98, R190) -/

/-- The head of a sequence, token and literal length, is read. -/
theorem readHead_lenField {t : Byte} {ll : Nat} (ht : tokenLL t = min ll 15) (rest : List Byte) (r : DecRegs) :
    r.readHead t (lenField ll ++ rest) = .ok (r.takeHead t ll) := by
  unfold DecRegs.readHead
  by_cases h : ll < 15
  · rw [if_neg (by omega)]
    simp [DecRegs.takeToken, DecRegs.takeHead, lenField, h, ht]; omega
  · rw [if_pos (by omega), readLLExt_lenField (by omega) _ _ (by simp [DecRegs.takeToken]; omega)]
    simp [DecRegs.takeToken, DecRegs.takeHead]

/-- The match length's extension bytes are read. -/
theorem readTail_lenField {m : Nat} {r : DecRegs} (ht : tokenML r.token = min m 15) (hr : r.ml = 4 + min m 15)
    (rest : List Byte) :
    r.readTail (lenField m ++ rest) = .ok { r with ip := r.ip + (lenField m).length, ml := 4 + m } := by
  unfold DecRegs.readTail
  by_cases h : m < 15
  · rw [if_neg (by omega)]
    have hm : r.ml = 4 + m := by omega
    simp [lenField, h, ← hm]
  · rw [if_pos (by omega), readMLExt_lenField (by omega) _ _ (by omega)]

/-- What a literal copy answers (R193, R198). -/
theorem takeLiterals_eq_ok {inLen limit : Nat} {lit : List Byte} {r d : DecRegs} :
    r.takeLiterals inLen limit lit = .ok d ↔ r.ip + r.ll ≤ inLen ∧ r.out.length + r.ll ≤ limit ∧
      d = { r with out := r.out ++ lit, ip := r.ip + r.ll } := by
  unfold DecRegs.takeLiterals
  split_ifs with h1 h2
  · simp; omega
  · simp; omega
  · simp only [Except.ok.injEq]
    exact ⟨fun h => ⟨by omega, by omega, h.symm⟩, fun h => h.2.2.symm⟩

theorem takeLiterals_eq_error {inLen limit : Nat} {lit : List Byte} {r d : DecRegs}
    (h : r.takeLiterals inLen limit lit = .error d) : d = r := by
  unfold DecRegs.takeLiterals at h
  split_ifs at h <;> simpa using h.symm

/-- What an offset answers (R195). -/
theorem takeOffset_eq_ok {inLen dictLen : Nat} {off : BitVec 16} {r d : DecRegs} :
    r.takeOffset inLen dictLen off = .ok d ↔ r.ip + 2 ≤ inLen ∧ off ≠ 0#16 ∧ off.toNat ≤ dictLen + r.out.length ∧
      d = { r with ip := r.ip + 2, off := off, ml := 4 + tokenML r.token } := by
  unfold DecRegs.takeOffset
  split_ifs with h1 h2
  · simp; omega
  · simp only [false_iff]
    rintro ⟨-, h3, h4, -⟩
    rcases h2 with h2 | h2
    · exact h3 h2
    · omega
  · simp only [Except.ok.injEq]
    refine ⟨fun h => ⟨by omega, fun h3 => h2 (.inl h3), ?_, h.symm⟩, fun h => h.2.2.2.symm⟩
    by_contra h3; exact h2 (.inr (by omega))

/-- What a match copy answers (R197, R198). -/
theorem copyMatch_eq_ok {dict : List Byte} {limit : Nat} {r d : DecRegs} :
    r.copyMatch dict limit = .ok d ↔ r.out.length + r.ml ≤ limit ∧
      d = { r with out := appendMatch dict r.off.toNat r.ml r.out } := by
  unfold DecRegs.copyMatch
  split_ifs with h1
  · simp; omega
  · simp only [Except.ok.injEq]
    exact ⟨fun h => ⟨by omega, h.symm⟩, fun h => h.2.symm⟩

theorem drop_of_drop_eq {bs a b : List Byte} {n : Nat} (h : bs.drop n = a ++ b) : bs.drop (n + a.length) = b := by
  rw [← List.drop_drop, h, List.drop_left]

theorem length_of_drop_eq {bs a : List Byte} {n : Nat} (h : bs.drop n = a) (hn : n ≤ bs.length) :
    bs.length = n + a.length := by
  rw [← h, List.length_drop]; omega

/-- Where bytes remain, the position is inside. -/
theorem le_of_drop_eq_cons {bs a : List Byte} {b : Byte} {n : Nat} (h : bs.drop n = b :: a) : n ≤ bs.length := by
  rcases Nat.lt_or_ge bs.length n with h' | h'
  · rw [List.drop_of_length_le (by omega)] at h; simp at h
  · exact h'

/-- At the bytes of a SEQ the decoder does what the whole sequence does. -/
theorem decodeSeq_of_emitSeq {inp dict : List Byte} {limit : Nat} {r : DecRegs} {lit rest : List Byte} {off : BitVec 16}
    {ml : Nat} (hml : 4 ≤ ml) (hin : inp.drop r.ip = emitSeq lit off.toNat ml ++ rest) :
    decodeSeq inp dict limit r =
      match r.takeSeq inp.length dict limit lit off ml with
      | .error d => .error d
      | .ok d => .ok (d, false) := by
  have hip : r.ip ≤ inp.length := le_of_drop_eq_cons (by rw [hin]; rfl)
  have hlen := length_of_drop_eq hin hip
  simp only [List.length_append, length_emitSeq] at hlen
  have hbytes : emitSeq lit off.toNat ml ++ rest = makeToken lit.length (ml - 4) ::
      (lenField lit.length ++ (lit ++ (leBytes 2 off.toNat ++ (lenField (ml - 4) ++ rest)))) := by
    simp [emitSeq]
  rw [hbytes] at hin
  simp only [decodeSeq, hin]
  rw [readHead_lenField (ll := lit.length) (by simp)]
  simp only [DecRegs.takeSeq]
  generalize hr1 : r.takeHead (makeToken lit.length (ml - 4)) lit.length = r1
  have h1ip : r1.ip = r.ip + 1 + (lenField lit.length).length := by rw [← hr1]; rfl
  have h1ll : r1.ll = lit.length := by rw [← hr1]; rfl
  have h1tok : r1.token = makeToken lit.length (ml - 4) := by rw [← hr1]; rfl
  have hd1 : inp.drop r1.ip = lit ++ (leBytes 2 off.toNat ++ (lenField (ml - 4) ++ rest)) := by
    rw [h1ip]
    exact drop_of_drop_eq (n := r.ip + 1) (by
      have := drop_of_drop_eq (a := [makeToken lit.length (ml - 4)]) (n := r.ip) hin
      simpa using this)
  have hlit : (inp.drop r1.ip).take r1.ll = lit := by rw [hd1, h1ll]; exact List.take_left
  rw [hlit]
  cases hr2 : r1.takeLiterals inp.length limit lit with
  | error d => rfl
  | ok r2 =>
    obtain ⟨-, -, hr2'⟩ := takeLiterals_eq_ok.mp hr2
    have hd2 : inp.drop r2.ip = leBytes 2 off.toNat ++ (lenField (ml - 4) ++ rest) := by
      rw [hr2', h1ll]; exact drop_of_drop_eq hd1
    have h2ip : r2.ip = r.ip + 1 + (lenField lit.length).length + lit.length := by rw [hr2', h1ll, h1ip]
    simp only
    rw [if_neg (by omega)]
    have hoff : BitVec.ofNat 16 (leNat ((inp.drop r2.ip).take 2)) = off := by
      rw [hd2, List.take_append_of_le_length (by simp), List.take_of_length_le (by simp), leNat_leBytes]
      apply BitVec.eq_of_toNat_eq
      have := off.isLt
      simp only [BitVec.toNat_ofNat]; omega
    rw [decodeMatch, hoff]
    cases hr3 : r2.takeOffset inp.length dict.length off with
    | error d => rfl
    | ok r3 =>
      obtain ⟨-, -, -, hr3'⟩ := takeOffset_eq_ok.mp hr3
      have h2tok : r2.token = makeToken lit.length (ml - 4) := by rw [hr2']; exact h1tok
      have hd3 : inp.drop r3.ip = lenField (ml - 4) ++ rest := by
        rw [hr3']
        have := drop_of_drop_eq hd2
        simpa using this
      have hml' : r3.ml = 4 + min (ml - 4) 15 := by rw [hr3', h2tok]; simp
      have h3tok : tokenML r3.token = min (ml - 4) 15 := by rw [hr3', h2tok]; simp
      simp only [hd3, readTail_lenField h3tok hml']
      rw [show 4 + (ml - 4) = ml by omega] <;> rfl

/-- At the bytes of a LAST that end the input the decoder does what the whole sequence does. -/
theorem decodeSeq_of_emitLast {inp dict : List Byte} {limit : Nat} {r : DecRegs} {lit : List Byte} {mln : BitVec 4}
    (hin : inp.drop r.ip = emitLastWith lit mln.toNat) :
    decodeSeq inp dict limit r =
      match r.takeLast inp.length limit lit mln with
      | .error d => .error d
      | .ok d => .ok (d, true) := by
  have hip : r.ip ≤ inp.length := le_of_drop_eq_cons (by rw [hin]; rfl)
  have hlen := length_of_drop_eq hin hip
  simp only [length_emitLastWith] at hlen
  have hbytes : emitLastWith lit mln.toNat = makeToken lit.length mln.toNat :: (lenField lit.length ++ lit) := rfl
  rw [hbytes] at hin
  simp only [decodeSeq, hin]
  rw [readHead_lenField (ll := lit.length) (by simp)]
  simp only [DecRegs.takeLast]
  generalize hr1 : r.takeHead (makeToken lit.length mln.toNat) lit.length = r1
  have h1ip : r1.ip = r.ip + 1 + (lenField lit.length).length := by rw [← hr1]; rfl
  have h1ll : r1.ll = lit.length := by rw [← hr1]; rfl
  have hd1 : inp.drop r1.ip = lit := by
    rw [h1ip]
    exact drop_of_drop_eq (n := r.ip + 1) (by
      have := drop_of_drop_eq (a := [makeToken lit.length mln.toNat]) (n := r.ip) hin
      simpa using this)
  have hlit : (inp.drop r1.ip).take r1.ll = lit := by rw [hd1, h1ll]; exact List.take_length
  rw [hlit]
  cases hr2 : r1.takeLiterals inp.length limit lit with
  | error d => rfl
  | ok r2 =>
    obtain ⟨-, -, hr2'⟩ := takeLiterals_eq_ok.mp hr2
    simp only
    rw [if_pos (by rw [hr2']; simp only; omega)]

/-! ### When a whole sequence goes through -/

/-- A SEQ whose bytes are there, whose output fits and whose offset is good. -/
theorem takeSeq_eq_ok {inLen limit ml : Nat} {dict lit : List Byte} {off : BitVec 16} {r : DecRegs}
    (hin : r.ip + (emitSeq lit off.toNat ml).length ≤ inLen) (hout : r.out.length + lit.length + ml ≤ limit)
    (hoff : off ≠ 0#16) (hback : off.toNat ≤ dict.length + r.out.length + lit.length) :
    r.takeSeq inLen dict limit lit off ml = .ok { r with
      ip := r.ip + (emitSeq lit off.toNat ml).length
      token := makeToken lit.length (ml - 4)
      ll := lit.length
      ml := ml
      off := off
      out := appendMatch dict off.toNat ml (r.out ++ lit) } := by
  simp only [length_emitSeq] at hin ⊢
  have h1 := (takeLiterals_eq_ok (r := r.takeHead (makeToken lit.length (ml - 4)) lit.length) (inLen := inLen)
    (limit := limit) (lit := lit)).mpr ⟨by simp only [DecRegs.takeHead]; omega, by simp only [DecRegs.takeHead]; omega, rfl⟩
  rw [DecRegs.takeSeq, h1]
  simp only
  rw [takeOffset_eq_ok.mpr ⟨by simp only [DecRegs.takeHead]; omega, hoff,
    by simp only [DecRegs.takeHead, List.length_append]; omega, rfl⟩]
  simp only
  rw [copyMatch_eq_ok.mpr ⟨by simp only [DecRegs.takeHead, List.length_append]; omega, rfl⟩]
  simp only [DecRegs.takeHead, Except.ok.injEq, DecRegs.mk.injEq, and_self, and_true]
  omega

/-- A LAST whose bytes are there and whose output fits. -/
theorem takeLast_eq_ok {inLen limit : Nat} {lit : List Byte} {mln : BitVec 4} {r : DecRegs}
    (hin : r.ip + (emitLastWith lit mln.toNat).length ≤ inLen) (hout : r.out.length + lit.length ≤ limit) :
    r.takeLast inLen limit lit mln = .ok { r with
      ip := r.ip + (emitLastWith lit mln.toNat).length
      token := makeToken lit.length mln.toNat
      ll := lit.length
      out := r.out ++ lit } := by
  simp only [length_emitLastWith] at hin ⊢
  rw [DecRegs.takeLast, takeLiterals_eq_ok.mpr ⟨by simp only [DecRegs.takeHead]; omega,
    by simp only [DecRegs.takeHead]; omega, rfl⟩]
  simp only [DecRegs.takeHead, Except.ok.injEq, DecRegs.mk.injEq, and_self, and_true]
  omega

/-! ### What a sequence takes and gives -/

/-- Literal-length extension bytes only move the cursor and add to `LL`. -/
theorem readLLExt_eq_ok {l : List Byte} {r d : DecRegs} (h : readLLExt l r = .ok d) :
    r.ip < d.ip ∧ d.ip ≤ r.ip + l.length ∧ d.out = r.out ∧ d.token = r.token := by
  induction l generalizing r with
  | nil => simp [readLLExt] at h
  | cons e t ih =>
    simp only [readLLExt] at h
    split at h
    · have := ih h
      simp only [DecRegs.takeLLExt, List.length_cons] at this ⊢
      exact ⟨by omega, by omega, this.2.2⟩
    · simp only [Except.ok.injEq] at h
      subst h
      simp only [DecRegs.takeLLExt, List.length_cons]
      exact ⟨by omega, by omega, by trivial, by trivial⟩

/-- Match-length extension bytes only move the cursor and add to `ML`. -/
theorem readMLExt_eq_ok {l : List Byte} {r d : DecRegs} (h : readMLExt l r = .ok d) :
    r.ip < d.ip ∧ d.ip ≤ r.ip + l.length ∧ d.out = r.out ∧ d.off = r.off := by
  induction l generalizing r with
  | nil => simp [readMLExt] at h
  | cons e t ih =>
    simp only [readMLExt] at h
    split at h
    · have := ih h
      simp only [DecRegs.takeMLExt, List.length_cons] at this ⊢
      exact ⟨by omega, by omega, this.2.2⟩
    · simp only [Except.ok.injEq] at h
      subst h
      simp only [DecRegs.takeMLExt, List.length_cons]
      exact ⟨by omega, by omega, by trivial, by trivial⟩

theorem readHead_eq_ok {t : Byte} {rest : List Byte} {r d : DecRegs} (h : r.readHead t rest = .ok d) :
    r.ip < d.ip ∧ d.ip ≤ r.ip + 1 + rest.length ∧ d.out = r.out := by
  unfold DecRegs.readHead at h
  split at h
  · have := readLLExt_eq_ok h
    simp only [DecRegs.takeToken] at this
    exact ⟨by omega, by omega, this.2.2.1⟩
  · simp only [Except.ok.injEq] at h
    subst h
    simp only [DecRegs.takeToken]
    exact ⟨by omega, by omega, by trivial⟩

theorem readTail_eq_ok {rest : List Byte} {r d : DecRegs} (h : r.readTail rest = .ok d) :
    r.ip ≤ d.ip ∧ d.ip ≤ r.ip + rest.length ∧ d.out = r.out := by
  unfold DecRegs.readTail at h
  split at h
  · have := readMLExt_eq_ok h
    exact ⟨by omega, by omega, this.2.2.1⟩
  · simp only [Except.ok.injEq] at h
    subst h
    exact ⟨le_refl _, by omega, by trivial⟩

/-- A match takes bytes, stays inside the input and under the limit, and only adds to the output. -/
theorem decodeMatch_eq_ok {inp dict : List Byte} {limit : Nat} {r d : DecRegs} (h : decodeMatch inp dict limit r = .ok d) :
    r.ip < d.ip ∧ d.ip ≤ inp.length ∧ r.out.length ≤ d.out.length ∧ d.out.length ≤ limit := by
  unfold decodeMatch at h
  cases h1 : r.takeOffset inp.length dict.length (BitVec.ofNat 16 (leNat ((inp.drop r.ip).take 2))) with
  | error e => rw [h1] at h; simp at h
  | ok r1 =>
    rw [h1] at h
    simp only at h
    obtain ⟨a1, -, -, a2⟩ := takeOffset_eq_ok.mp h1
    cases h2 : r1.readTail (inp.drop r1.ip) with
    | error e => rw [h2] at h; simp at h
    | ok r2 =>
      rw [h2] at h
      simp only at h
      obtain ⟨b1, b2, b3⟩ := readTail_eq_ok h2
      obtain ⟨c1, c2⟩ := copyMatch_eq_ok.mp h
      obtain ⟨tail, ht, hl⟩ := appendMatch_prefix dict r2.off.toNat r2.ml r2.out
      have e1 : r1.ip = r.ip + 2 := by rw [a2]
      have e2 : r1.out = r.out := by rw [a2]
      have e3 : d.ip = r2.ip := by rw [c2]
      have e4 : d.out.length = r2.out.length + r2.ml := by rw [c2]; simp only; rw [ht, List.length_append, hl]
      rw [List.length_drop] at b2
      rw [b3, e2] at e4 c1
      exact ⟨by omega, by omega, by omega, by omega⟩

/-- A sequence takes at least one byte (R208), stays inside the input and under the limit, and only adds to the output; when it
completes the block the input is used up. -/
theorem decodeSeq_eq_ok {inp dict : List Byte} {limit : Nat} {r d : DecRegs} {b : Bool}
    (h : decodeSeq inp dict limit r = .ok (d, b)) :
    r.ip < inp.length ∧ r.ip < d.ip ∧ d.ip ≤ inp.length ∧ r.out.length ≤ d.out.length ∧ d.out.length ≤ limit ∧
      (b = true → d.ip = inp.length) := by
  unfold decodeSeq at h
  cases hd : inp.drop r.ip with
  | nil => rw [hd] at h; simp at h
  | cons t rest =>
    rw [hd] at h
    simp only at h
    have hlt : r.ip < inp.length := by
      rcases Nat.lt_or_ge r.ip inp.length with h' | h'
      · exact h'
      · rw [List.drop_of_length_le h'] at hd; simp at hd
    cases h1 : r.readHead t rest with
    | error e => rw [h1] at h; simp at h
    | ok r1 =>
      rw [h1] at h
      simp only at h
      obtain ⟨a1, a2, a3⟩ := readHead_eq_ok h1
      cases h2 : r1.takeLiterals inp.length limit ((inp.drop r1.ip).take r1.ll) with
      | error e => rw [h2] at h; simp at h
      | ok r2 =>
        rw [h2] at h
        simp only at h
        obtain ⟨b1, b2, b3⟩ := takeLiterals_eq_ok.mp h2
        have e1 : r2.ip = r1.ip + r1.ll := by rw [b3]
        have e2 : r2.out.length = r1.out.length + r1.ll := by
          rw [b3]; simp only [List.length_append, List.length_take, List.length_drop]; omega
        rw [a3] at e2 b2
        split at h
        · simp only [Except.ok.injEq, Prod.mk.injEq] at h
          obtain ⟨rfl, -⟩ := h
          exact ⟨hlt, by omega, by omega, by omega, by omega, fun _ => by assumption⟩
        · cases h3 : decodeMatch inp dict limit r2 with
          | error e => rw [h3] at h; simp at h
          | ok r3 =>
            rw [h3] at h
            simp only [Except.ok.injEq, Prod.mk.injEq] at h
            obtain ⟨rfl, rfl⟩ := h
            obtain ⟨c1, c2, c3, c4⟩ := decodeMatch_eq_ok h3
            exact ⟨hlt, by omega, c2, by omega, c4, fun h => nomatch h⟩

end Sys2Proof.Machine
end

