-- ==== Sys2Proof/Laws/Elements.lean ====
section
/-! SUPPORT. What the meaning of a wire element can change: the decoder's working registers, the header and block names, and
the run; nothing else of the machine. -/

namespace Sys2Proof.Machine

/-- `t` differs from `s` in the working registers and the run only. -/
def RunOnly (s t : State) : Prop := t = { s with dec := t.dec, hdr := t.hdr, blk := t.blk, stream := t.stream }

/-- Every next state of an outcome differs from `s` in the working registers and the run only. -/
def KeepsRest (s : State) (o : Host.Outcome State Fault Refusal) : Prop := ∀ t, o = .next t → RunOnly s t

theorem keepsRest_next {s t : State} (h : RunOnly s t) : KeepsRest s (.next t) := by
  rintro _ ⟨⟩; exact h

theorem keepsRest_refused {s : State} {r : Refusal} : KeepsRest s (.refused r) := fun _ h => nomatch h

theorem keepsRest_ite {s : State} {c : Prop} [Decidable c] {x y : Host.Outcome State Fault Refusal}
    (hx : KeepsRest s x) (hy : KeepsRest s y) : KeepsRest s (if c then x else y) := by
  split <;> assumption

theorem keepsRest_atPos {s : State} {p : Pos} {k : Host.Outcome State Fault Refusal} (h : KeepsRest s k) :
    KeepsRest s (atPos p s k) := keepsRest_ite h keepsRest_refused

theorem keepsRest_afterStep {s u : State} {r : Except DecRegs DecRegs} {k : State → State}
    (hk : ∀ d, RunOnly s (k { u with dec := d })) (hu : RunOnly s u) : KeepsRest s (afterStep r u k) := by
  unfold afterStep
  split
  · exact keepsRest_next (hk _)
  · refine keepsRest_next ?_
    rw [RunOnly] at hu ⊢; rw [hu]; rfl

theorem keepsRest_finishMatch {s u : State} (hu : RunOnly s u) : KeepsRest s (finishMatch u) :=
  keepsRest_afterStep (fun _ => by rw [RunOnly] at hu ⊢; rw [hu]; rfl) hu

theorem runOnly_advance {s : State} {n : Nat} : RunOnly s (advanceRun n s) := rfl

theorem keepsRest_frameElement {s : State} {p : Pos} {n : Nat} {k : State → Host.Outcome State Fault Refusal}
    (h : KeepsRest s (k (advanceRun n s))) : KeepsRest s (frameElement p n s k) :=
  keepsRest_atPos (keepsRest_ite (keepsRest_next rfl) h)

theorem keepsRest_afterRead {s u : State} {r : ReadStep} {k : State → Host.Outcome State Fault Refusal} (hu : RunOnly s u)
    (h : ∀ t, KeepsRest s (k (putStreamWork t u))) : KeepsRest s (afterRead r u k) := by
  unfold afterRead
  split
  · exact h _
  · refine keepsRest_next ?_
    rw [RunOnly] at hu ⊢; rw [hu]; rfl

theorem keepsRest_finishRunBlock {s u : State} (hu : RunOnly s u) : KeepsRest s (finishRunBlock u) := by
  refine keepsRest_afterRead hu fun t => keepsRest_ite keepsRest_refused (keepsRest_next ?_)
  rw [RunOnly] at hu ⊢; rw [hu]; rfl

theorem keepsRest_finishRunFrame {s u : State} (hu : RunOnly s u) : KeepsRest s (finishRunFrame u) := by
  refine keepsRest_next ?_
  rw [RunOnly] at hu ⊢; rw [hu]; rfl

/-- A wire element changes the working registers and the run only, whatever it does. -/
theorem keepsRest_element {i : Instr} (hi : ¬ isCommand i) (s : State) : KeepsRest s (exec i s) := by
  cases i
  case token t => exact keepsRest_atPos (keepsRest_ite (keepsRest_next rfl) (keepsRest_next rfl))
  case llext v => exact keepsRest_atPos (keepsRest_ite (keepsRest_next rfl) (keepsRest_next rfl))
  case literals lit =>
    refine keepsRest_atPos (keepsRest_ite (keepsRest_afterStep (fun d => ?_) rfl) keepsRest_refused)
    split <;> rfl
  case offset off =>
    refine keepsRest_atPos ?_
    split
    · exact keepsRest_next rfl
    · exact keepsRest_ite (keepsRest_next rfl) (keepsRest_finishMatch rfl)
  case mlext v =>
    exact keepsRest_atPos (keepsRest_ite (keepsRest_next rfl) (keepsRest_ite (keepsRest_next rfl) (keepsRest_finishMatch rfl)))
  case seq lit off ml =>
    exact keepsRest_atPos (keepsRest_ite (keepsRest_next rfl) (keepsRest_afterStep (fun _ => rfl) rfl))
  case last lit mln =>
    exact keepsRest_atPos (keepsRest_ite (keepsRest_next rfl)
      (keepsRest_ite keepsRest_refused (keepsRest_afterStep (fun _ => rfl) rfl)))
  case magic =>
    unfold exec execMagic
    exact keepsRest_frameElement (keepsRest_next rfl)
  case flg b => exact keepsRest_atPos (keepsRest_ite (keepsRest_next rfl) (keepsRest_next rfl))
  case bd b =>
    unfold exec execBd
    exact keepsRest_frameElement (keepsRest_ite (keepsRest_next rfl) (keepsRest_next rfl))
  case csize v =>
    unfold exec execCsize
    exact keepsRest_frameElement (keepsRest_next rfl)
  case dictid v =>
    unfold exec execDictid
    exact keepsRest_frameElement (keepsRest_next rfl)
  case hc c =>
    unfold exec execHc
    exact keepsRest_frameElement (keepsRest_ite (keepsRest_next rfl)
      (keepsRest_ite (keepsRest_next rfl) (keepsRest_next rfl)))
  case blkhdr raw size =>
    unfold exec execBlkhdr
    exact keepsRest_frameElement (keepsRest_afterRead rfl fun _ => keepsRest_next rfl)
  case payload bytes =>
    exact keepsRest_atPos (keepsRest_ite (keepsRest_ite (keepsRest_next rfl)
      (keepsRest_ite (keepsRest_next rfl) (keepsRest_finishRunBlock rfl))) keepsRest_refused)
  case blksum sum =>
    exact keepsRest_atPos (keepsRest_ite (keepsRest_next rfl) (keepsRest_afterRead rfl fun _ => keepsRest_finishRunBlock rfl))
  case endmark =>
    unfold exec execEndmark
    exact keepsRest_frameElement (keepsRest_afterRead rfl fun _ =>
      keepsRest_ite (keepsRest_next rfl) (keepsRest_finishRunFrame rfl))
  case csum sum =>
    exact keepsRest_atPos (keepsRest_ite (keepsRest_next rfl) (keepsRest_afterRead rfl fun _ => keepsRest_finishRunFrame rfl))
  all_goals exact absurd rfl hi

/-- The frame of a wire element. -/
theorem exec_element_frame {i : Instr} {s t : State} (hi : ¬ isCommand i) (h : exec i s = .next t) :
    t = { s with dec := t.dec, hdr := t.hdr, blk := t.blk, stream := t.stream } := keepsRest_element hi s t h

end Sys2Proof.Machine
end

