-- ==== Sys2Proof/Laws/Memory.lean ====
section
/-! SUPPORT. The laws of the sorted association lists, and of buffer memory built on them. -/

namespace Sys2Proof.Machine

variable {α : Type}

/-! ### Association lists -/

@[simp] theorem Assoc.find_nil (k : Nat) : Assoc.find k ([] : List (Nat × α)) = none := rfl

@[simp] theorem Assoc.find_insert_same (k : Nat) (v : α) (m : List (Nat × α)) :
    Assoc.find k (Assoc.insert k v m) = some v := by
  induction m with
  | nil => simp [Assoc.insert, Assoc.find]
  | cons c t ih =>
    obtain ⟨k', v'⟩ := c
    simp only [Assoc.insert]
    split_ifs with h1 h2
    · simp [Assoc.find]
    · simp [Assoc.find]
    · simp [Assoc.find, h2, ih]

theorem Assoc.find_insert_other {k j : Nat} (h : j ≠ k) (v : α) (m : List (Nat × α)) :
    Assoc.find j (Assoc.insert k v m) = Assoc.find j m := by
  induction m with
  | nil => simp [Assoc.insert, Assoc.find, h]
  | cons c t ih =>
    obtain ⟨k', v'⟩ := c
    simp only [Assoc.insert]
    split_ifs with h1 h2
    · simp [Assoc.find, h]
    · subst h2; simp [Assoc.find, h]
    · simp only [Assoc.find, ih]

theorem Assoc.find_erase_other {k j : Nat} (h : j ≠ k) (m : List (Nat × α)) :
    Assoc.find j (Assoc.erase k m) = Assoc.find j m := by
  induction m with
  | nil => rfl
  | cons c t ih =>
    obtain ⟨k', v'⟩ := c
    simp only [Assoc.erase]
    split_ifs with h1
    · subst h1; simp [Assoc.find, h]
    · simp only [Assoc.find, ih]

/-- A key that is below every listed key is not listed. -/
theorem Assoc.find_eq_none {k : Nat} {m : List (Nat × α)} (h : ∀ c ∈ m, c.1 ≠ k) : Assoc.find k m = none := by
  induction m with
  | nil => rfl
  | cons c t ih =>
    simp only [Assoc.find]
    rw [if_neg (fun e => h c (by simp) e.symm)]
    exact ih fun c hc => h c (by simp [hc])

theorem Assoc.find_erase_same {k : Nat} {m : List (Nat × α)} (hm : Assoc.Sorted m) :
    Assoc.find k (Assoc.erase k m) = none := by
  induction m with
  | nil => rfl
  | cons c t ih =>
    simp only [Assoc.Sorted, List.map_cons, List.pairwise_cons, List.mem_map] at hm
    simp only [Assoc.erase]
    split_ifs with h1
    · exact Assoc.find_eq_none fun d hd => by have := hm.1 _ ⟨d, hd, rfl⟩; omega
    · simp only [Assoc.find, if_neg h1]; exact ih hm.2

/-- What an inserted list holds. -/
theorem Assoc.mem_insert {k : Nat} {v : α} {m : List (Nat × α)} {c : Nat × α} (h : c ∈ Assoc.insert k v m) :
    c = (k, v) ∨ c ∈ m := by
  induction m with
  | nil => simpa [Assoc.insert] using h
  | cons d t ih =>
    simp only [Assoc.insert] at h
    split_ifs at h with h1 h2
    · simpa using h
    · simp only [List.mem_cons] at h ⊢; tauto
    · simp only [List.mem_cons] at h ⊢; rcases h with h | h
      · tauto
      · have := ih h; tauto

theorem Assoc.mem_erase {k : Nat} {m : List (Nat × α)} {c : Nat × α} (h : c ∈ Assoc.erase k m) : c ∈ m := by
  induction m with
  | nil => exact h
  | cons d t ih =>
    simp only [Assoc.erase] at h
    split_ifs at h with h1
    · simp [h]
    · simp only [List.mem_cons] at h ⊢; rcases h with h | h
      · tauto
      · exact .inr (ih h)

/-- Inserting keeps the keys strictly rising. -/
theorem Assoc.sorted_insert {k : Nat} {v : α} {m : List (Nat × α)} (hm : Assoc.Sorted m) :
    Assoc.Sorted (Assoc.insert k v m) := by
  induction m with
  | nil => simp [Assoc.insert, Assoc.Sorted]
  | cons c t ih =>
    have hm' := hm
    simp only [Assoc.Sorted, List.map_cons, List.pairwise_cons, List.mem_map] at hm
    simp only [Assoc.insert]
    split_ifs with h1 h2
    · simp only [Assoc.Sorted, List.map_cons, List.pairwise_cons] at hm' ⊢
      refine ⟨?_, hm'⟩
      intro a ha
      simp only [List.mem_cons, List.mem_map] at ha
      rcases ha with rfl | ⟨d, hd, rfl⟩
      · exact h1
      · have := hm.1 _ ⟨d, hd, rfl⟩; omega
    · subst h2; exact hm'
    · simp only [Assoc.Sorted, List.map_cons, List.pairwise_cons, List.mem_map]
      refine ⟨?_, ih hm.2⟩
      rintro _ ⟨d, hd, rfl⟩
      rcases Assoc.mem_insert hd with rfl | hd
      · show c.1 < k; omega
      · exact hm.1 _ ⟨d, hd, rfl⟩

/-- Erasing keeps the keys strictly rising. -/
theorem Assoc.sorted_erase {k : Nat} {m : List (Nat × α)} (hm : Assoc.Sorted m) : Assoc.Sorted (Assoc.erase k m) := by
  induction m with
  | nil => exact hm
  | cons c t ih =>
    simp only [Assoc.Sorted, List.map_cons, List.pairwise_cons, List.mem_map] at hm
    simp only [Assoc.erase]
    split_ifs with h1
    · exact hm.2
    · simp only [Assoc.Sorted, List.map_cons, List.pairwise_cons, List.mem_map]
      refine ⟨?_, ih hm.2⟩
      rintro _ ⟨d, hd, rfl⟩
      exact hm.1 _ ⟨d, Assoc.mem_erase hd, rfl⟩

/-! ### One byte -/

/-- A byte written reads back. -/
theorem Mem.read_write_same {m : Mem} (hm : Mem.wf m) (a : Nat) (b : Byte) : Mem.read (Mem.write m a b) a = b := by
  unfold Mem.read Mem.write
  split_ifs with h
  · rw [Assoc.find_erase_same hm.1, h]; rfl
  · simp

/-- A write leaves every other byte alone. -/
theorem Mem.read_write_other {a a' : Nat} (h : a' ≠ a) (m : Mem) (b : Byte) :
    Mem.read (Mem.write m a b) a' = Mem.read m a' := by
  unfold Mem.read Mem.write
  split_ifs
  · rw [Assoc.find_erase_other h]
  · rw [Assoc.find_insert_other h]

/-- What a written memory lists. -/
theorem Mem.mem_write {m : Mem} {a : Nat} {b : Byte} {c : Host.Cell} (h : c ∈ Mem.write m a b) : c.1 = a ∨ c ∈ m := by
  unfold Mem.write at h
  split_ifs at h
  · exact .inr (Assoc.mem_erase h)
  · rcases Assoc.mem_insert h with rfl | h
    · exact .inl rfl
    · exact .inr h

/-- A write keeps the canonical form. -/
theorem Mem.wf_write {m : Mem} (hm : Mem.wf m) (a : Nat) (b : Byte) : Mem.wf (Mem.write m a b) := by
  unfold Mem.write
  split_ifs with h
  · exact ⟨Assoc.sorted_erase hm.1, fun c hc => hm.2 c (Assoc.mem_erase hc)⟩
  · refine ⟨Assoc.sorted_insert hm.1, fun c hc => ?_⟩
    rcases Assoc.mem_insert hc with rfl | hc
    · exact h
    · exact hm.2 c hc

/-! ### Many bytes -/

/-- Storing a string keeps the canonical form. -/
theorem Mem.wf_writeBytes {m : Mem} (hm : Mem.wf m) (a : Nat) (bs : List Byte) : Mem.wf (Mem.writeBytes m a bs) := by
  induction bs generalizing m a with
  | nil => exact hm
  | cons b t ih => exact ih (Mem.wf_write hm a b) (a + 1)

/-- Storing a string leaves every byte outside it alone. -/
theorem Mem.read_writeBytes_outside (m : Mem) (a : Nat) (bs : List Byte) {x : Nat} (h : x < a ∨ a + bs.length ≤ x) :
    Mem.read (Mem.writeBytes m a bs) x = Mem.read m x := by
  induction bs generalizing m a with
  | nil => rfl
  | cons b t ih =>
    simp only [List.length_cons] at h
    simp only [Mem.writeBytes]
    rw [ih _ _ (by omega), Mem.read_write_other (by omega)]

/-- A stored string reads back byte by byte. -/
theorem Mem.read_writeBytes {m : Mem} (hm : Mem.wf m) (a : Nat) (bs : List Byte) {i : Nat} (hi : i < bs.length) :
    Mem.read (Mem.writeBytes m a bs) (a + i) = bs[i] := by
  induction bs generalizing m a i with
  | nil => simp at hi
  | cons b t ih =>
    simp only [Mem.writeBytes]
    cases i with
    | zero => rw [Mem.read_writeBytes_outside _ _ _ (by omega)]; simpa using Mem.read_write_same hm a b
    | succ i =>
      have := ih (Mem.wf_write hm a b) (a + 1) (i := i) (by simpa using hi)
      rw [show a + (i + 1) = a + 1 + i by omega]; simpa using this

@[simp] theorem Mem.length_readBytes (m : Mem) (a n : Nat) : (Mem.readBytes m a n).length = n := by
  simp [Mem.readBytes]

/-- A stored string reads back. -/
theorem Mem.readBytes_writeBytes {m : Mem} (hm : Mem.wf m) (a : Nat) (bs : List Byte) {n : Nat} (hn : n ≤ bs.length) :
    Mem.readBytes (Mem.writeBytes m a bs) a n = bs.take n := by
  apply List.ext_getElem
  · simp [hn]
  · intro i h1 h2
    simp only [Mem.length_readBytes] at h1
    simp only [Mem.readBytes, List.getElem_map, List.getElem_range, List.getElem_take]
    exact Mem.read_writeBytes hm a bs (by omega)

/-- What a memory lists after a string is stored. -/
theorem Mem.mem_writeBytes {m : Mem} {a : Nat} {bs : List Byte} {c : Host.Cell} (h : c ∈ Mem.writeBytes m a bs) :
    (a ≤ c.1 ∧ c.1 < a + bs.length) ∨ c ∈ m := by
  induction bs generalizing m a with
  | nil => exact .inr h
  | cons b t ih =>
    simp only [Mem.writeBytes] at h
    simp only [List.length_cons]
    rcases ih h with h | h
    · left; omega
    · rcases Mem.mem_write h with h | h
      · left; omega
      · exact .inr h

/-! ### The destination region -/

@[simp] theorem length_freeBytes (k n : Nat) : (freeBytes k n).length = n := by simp [freeBytes]

/-- `deliver` keeps the canonical form. -/
theorem deliver_wf {dst : Region} {o : List Byte} {s : State} (h : Mem.wf s.mem) : Mem.wf (deliver dst o s).mem :=
  Mem.wf_writeBytes h _ _

/-- `deliver` writes no byte outside the destination region (R66). -/
theorem deliver_read_outside (dst : Region) (o : List Byte) (s : State) (ho : o.length ≤ dst.len) {a : Nat}
    (h : a < dst.addr ∨ dst.addr + dst.len ≤ a) : Mem.read (deliver dst o s).mem a = Mem.read s.mem a := by
  refine Mem.read_writeBytes_outside _ _ _ ?_
  simp only [List.length_append, length_freeBytes]
  omega

/-- The bytes delivered stand at the region's start (R62). -/
theorem deliver_readBytes {dst : Region} {o : List Byte} {s : State} (h : Mem.wf s.mem) :
    Mem.readBytes (deliver dst o s).mem dst.addr o.length = o := by
  show Mem.readBytes (Mem.writeBytes _ _ _) _ _ = _
  rw [Mem.readBytes_writeBytes h _ _ (by simp)]
  simp

/-- What BM lists after a delivery. -/
theorem mem_of_mem_deliver {dst : Region} {o : List Byte} {s : State} (ho : o.length ≤ dst.len) {c : Host.Cell}
    (h : c ∈ (deliver dst o s).mem) : (dst.addr ≤ c.1 ∧ c.1 < dst.addr + dst.len) ∨ c ∈ s.mem := by
  rcases Mem.mem_writeBytes h with h | h
  · left; simp only [List.length_append, length_freeBytes] at h; omega
  · exact .inr h

end Sys2Proof.Machine
end

