-- ==== Sys2Proof/Laws/Finder.lean ====
section
/-! SUPPORT. The laws of the match finder: what a reported match is, what it does to the tables, and how far a failed attempt
steps. -/

namespace Sys2Proof.Machine

/-! ### Common lengths (R134) -/

theorem commonLength_le (n : Nat) (a b : List Byte) : commonLength n a b ≤ n := by
  induction n generalizing a b with
  | zero => simp [commonLength]
  | succ n ih =>
    cases a <;> cases b <;> simp only [commonLength] <;> try omega
    rename_i x s y t
    have := ih s t
    split_ifs <;> omega

/-- The first `commonLength` bytes of the two strings exist and agree. -/
theorem commonLength_spec (n : Nat) (a b : List Byte) {i : Nat} (h : i < commonLength n a b) :
    i < a.length ∧ i < b.length ∧ a[i]? = b[i]? := by
  induction n generalizing a b i with
  | zero => simp [commonLength] at h
  | succ n ih =>
    cases a with
    | nil => simp [commonLength] at h
    | cons x s =>
      cases b with
      | nil => simp [commonLength] at h
      | cons y t =>
        simp only [commonLength] at h
        split_ifs at h with hxy
        · cases i with
          | zero => simp [hxy]
          | succ i =>
            have := ih s t (i := i) (by omega)
            simpa using this
        · simp at h

/-- Four bytes are determined by their little-endian number. -/
theorem leNat_inj {a b : List Byte} (hl : a.length = b.length) (h : leNat a = leNat b) : a = b := by
  induction a generalizing b with
  | nil => cases b <;> simp_all
  | cons x s ih =>
    cases b with
    | nil => simp at hl
    | cons y t =>
      have hx := x.isLt
      have hy := y.isLt
      simp only [leNat] at h
      have hxy : x = y := BitVec.eq_of_toNat_eq (by omega)
      rw [hxy, ih (by simpa using hl) (by omega)]

/-! ### A confirmed candidate is a real match (R132 to R135) -/

/-- The match a confirmed candidate gives is real, at least 4 long, in the window and in the history, and ends at `matchlimit` or
before. -/
theorem FinderEnv.confirmed_real {e : FinderEnv} {p c : Nat} (hp : p + 4 ≤ e.matchlimit) (hm : e.matchlimit ≤ e.hist.length)
    (h : e.confirmed p c) :
    1 ≤ e.p0 + p - c ∧ e.p0 + p - c ≤ 65535 ∧ e.p0 + p - c ≤ p ∧ 4 ≤ e.matchLen (c - e.p0) p ∧
    p + e.matchLen (c - e.p0) p ≤ e.matchlimit ∧
    ∀ i, i < e.matchLen (c - e.p0) p → e.hist[p - (e.p0 + p - c) + i]? = e.hist[p + i]? := by
  obtain ⟨⟨h1, h2, h3⟩, h4⟩ := h
  simp only [Config.window] at h3
  have hle := commonLength_le (e.matchlimit - (p + 4)) (e.hist.drop (c - e.p0 + 4)) (e.hist.drop (p + 4))
  refine ⟨by omega, by omega, by omega, by simp [FinderEnv.matchLen], by unfold FinderEnv.matchLen; omega, fun i hi => ?_⟩
  rw [show p - (e.p0 + p - c) = c - e.p0 by omega]
  rcases Nat.lt_or_ge i 4 with h | h
  · have h5 : (e.hist.drop (c - e.p0)).take 4 = (e.hist.drop p).take 4 :=
      leNat_inj (by simp only [List.length_take, List.length_drop]; omega) h4
    have := congrArg (fun l => l[i]?) h5
    simpa [List.getElem?_take, h] using this
  · have := (commonLength_spec _ _ _ (show i - 4 < commonLength (e.matchlimit - (p + 4)) (e.hist.drop (c - e.p0 + 4))
      (e.hist.drop (p + 4)) by unfold FinderEnv.matchLen at hi; omega)).2.2
    simp only [List.getElem?_drop] at this
    rw [show c - e.p0 + 4 + (i - 4) = c - e.p0 + i by omega, show p + 4 + (i - 4) = p + i by omega] at this
    exact this

/-- What the one candidate of a fast variant gives. -/
theorem FinderEnv.judge_eq_some {e : FinderEnv} {p off len : Nat} {c : Option Nat} (h : e.judge p c = some (off, len)) :
    ∃ d, c = some d ∧ e.confirmed p d ∧ off = e.p0 + p - d ∧ len = e.matchLen (d - e.p0) p := by
  unfold FinderEnv.judge at h
  split at h
  · simp at h
  · rename_i d
    split_ifs at h with hc
    simp only [Option.some.injEq, Prod.mk.injEq] at h
    exact ⟨d, rfl, hc, h.1.symm, h.2.symm⟩

/-- What the chain search answers is the match so far or that of a confirmed candidate of the chain. -/
theorem searchChain_eq_some {e : FinderEnv} {p off len : Nat} {l : List Nat} {best : Option (Nat × Nat)}
    (h : searchChain e p l best = some (off, len)) :
    best = some (off, len) ∨ ∃ d ∈ l, e.confirmed p d ∧ off = e.p0 + p - d ∧ len = e.matchLen (d - e.p0) p := by
  induction l generalizing best with
  | nil => exact .inl h
  | cons c rest ih =>
    have lift : (∃ d ∈ rest, e.confirmed p d ∧ off = e.p0 + p - d ∧ len = e.matchLen (d - e.p0) p) →
        ∃ d ∈ c :: rest, e.confirmed p d ∧ off = e.p0 + p - d ∧ len = e.matchLen (d - e.p0) p :=
      fun ⟨d, hd, hr⟩ => ⟨d, List.mem_cons_of_mem _ hd, hr⟩
    simp only [searchChain] at h
    split at h
    · exact .inl h
    · split at h
      · rename_i hconf
        have hthis : ∀ {q : Nat × Nat}, q = (off, len) → q = (e.p0 + p - c, e.matchLen (c - e.p0) p) →
            ∃ d ∈ c :: rest, e.confirmed p d ∧ off = e.p0 + p - d ∧ len = e.matchLen (d - e.p0) p := by
          rintro q rfl hq
          simp only [Prod.mk.injEq] at hq
          exact ⟨c, List.mem_cons_self .., hconf, hq.1, hq.2⟩
        have go : ∀ b : Nat × Nat, (b = (off, len) → best = some (off, len) ∨
              ∃ d ∈ c :: rest, e.confirmed p d ∧ off = e.p0 + p - d ∧ len = e.matchLen (d - e.p0) p) →
            (if e.optLen ≤ b.2 then some b else searchChain e p rest (some b)) = some (off, len) →
            best = some (off, len) ∨
              ∃ d ∈ c :: rest, e.confirmed p d ∧ off = e.p0 + p - d ∧ len = e.matchLen (d - e.p0) p := by
          intro b hb hh
          split_ifs at hh
          · exact hb (by simpa using hh)
          · rcases ih hh with h' | h'
            · exact hb (by simpa using h')
            · exact .inr (lift h')
        cases best with
        | none => exact go _ (fun hq => .inr (hthis hq rfl)) h
        | some b =>
          refine go _ (fun hq => ?_) h
          simp only at hq
          split_ifs at hq
          · exact .inr (hthis hq rfl)
          · exact .inl (by rw [hq])
      · rcases ih h with h' | h'
        · exact .inl h'
        · exact .inr (lift h')

/-- R132 to R136, R149: a match the finder reports, whatever the tables hold. -/
theorem findMatch_real {e : FinderEnv} {v : Variant} {p off len : Nat} {t : TableSet} (hp : p + 4 ≤ e.matchlimit)
    (hm : e.matchlimit ≤ e.hist.length) (h : (findMatch e v p t).1 = some (off, len)) :
    1 ≤ off ∧ off ≤ 65535 ∧ off ≤ p ∧ 4 ≤ len ∧ p + len ≤ e.matchlimit ∧
    ∀ i, i < len → e.hist[p - off + i]? = e.hist[p + i]? := by
  have key : ∃ d, e.confirmed p d ∧ off = e.p0 + p - d ∧ len = e.matchLen (d - e.p0) p := by
    cases v with
    | fast a =>
      obtain ⟨d, -, h1⟩ := FinderEnv.judge_eq_some h
      exact ⟨d, h1⟩
    | highRatio l =>
      rcases searchChain_eq_some h with h' | ⟨d, -, h1⟩
      · simp at h'
      · exact ⟨d, h1⟩
  obtain ⟨d, hd, rfl, rfl⟩ := key
  exact FinderEnv.confirmed_real hp hm hd

/-- Any match the finder reports is at least 4 long. -/
theorem findMatch_length {e : FinderEnv} {v : Variant} {p off len : Nat} {t : TableSet}
    (h : (findMatch e v p t).1 = some (off, len)) : 4 ≤ len := by
  cases v with
  | fast a =>
    obtain ⟨d, -, -, -, rfl⟩ := FinderEnv.judge_eq_some h
    unfold FinderEnv.matchLen; omega
  | highRatio l =>
    rcases searchChain_eq_some h with h' | ⟨d, -, -, -, rfl⟩
    · simp at h'
    · unfold FinderEnv.matchLen; omega

/-! ### The chain search on a chain whose positions fall (R144 to R148) -/

/-- Where the search stops (R147), no later position of a falling chain is confirmed either. -/
theorem searchChain_far {e : FinderEnv} {p c : Nat} {rest : List Nat} (hs : (c :: rest).Pairwise (· > ·))
    (h : Config.window < e.p0 + p - c ∨ c < e.p0) : ∀ d ∈ c :: rest, ¬ e.confirmed p d := by
  intro d hd hc
  have hle : d ≤ c := by
    rcases List.mem_cons.mp hd with rfl | hd
    · exact le_refl _
    · exact le_of_lt ((List.pairwise_cons.mp hs).1 d hd)
  obtain ⟨⟨h1, h2, h3⟩, -⟩ := hc
  omega

/-- A match found is never given up. -/
theorem searchChain_ne_none {e : FinderEnv} {p : Nat} {l : List Nat} {b : Nat × Nat} : searchChain e p l (some b) ≠ none := by
  induction l generalizing b with
  | nil => simp [searchChain]
  | cons c rest ih =>
    simp only [searchChain]
    split_ifs <;> simp [ih]

/-- The search of a falling chain finds none exactly when no candidate is confirmed. -/
theorem searchChain_eq_none {e : FinderEnv} {p : Nat} {l : List Nat} (hs : l.Pairwise (· > ·)) :
    searchChain e p l none = none ↔ ∀ c ∈ l, ¬ e.confirmed p c := by
  induction l with
  | nil => simp [searchChain]
  | cons c rest ih =>
    have ih := ih (List.pairwise_cons.mp hs).2
    simp only [searchChain]
    split_ifs with h1 h2 h3
    · exact ⟨fun _ => searchChain_far hs h1, fun _ => rfl⟩
    · simp only [false_iff]
      exact fun h => h c (List.mem_cons_self ..) h2
    · simp only [searchChain_ne_none, false_iff]
      exact fun h => h c (List.mem_cons_self ..) h2
    · rw [ih]
      exact ⟨fun h d hd => (List.mem_cons.mp hd).elim (fun he => he ▸ h2) (h d), fun h d hd => h d (List.mem_cons_of_mem _ hd)⟩

/-- While no candidate reaches HC_OPT_LEN, none beats the match answered, and none as long is closer (R144, R145). -/
theorem searchChain_longest {e : FinderEnv} {p off len : Nat} {l : List Nat} {best : Option (Nat × Nat)} (hs : l.Pairwise (· > ·))
    (hb : ∀ b, best = some b → b.2 < e.optLen ∧ ∀ c ∈ l, b.1 ≤ e.p0 + p - c)
    (ho : ∀ c ∈ l, e.confirmed p c → e.matchLen (c - e.p0) p < e.optLen)
    (h : searchChain e p l best = some (off, len)) :
    (∀ b, best = some b → b.2 ≤ len ∧ (b.2 = len → off = b.1)) ∧
    ∀ c ∈ l, e.confirmed p c → e.matchLen (c - e.p0) p ≤ len ∧ (e.matchLen (c - e.p0) p = len → off ≤ e.p0 + p - c) := by
  induction l generalizing best with
  | nil => simp only [searchChain] at h; subst h; simp
  | cons c rest ih =>
    have hs' := (List.pairwise_cons.mp hs)
    simp only [searchChain] at h
    split at h
    · rename_i h1
      subst h
      refine ⟨fun b hb => by simp at hb; subst hb; simp, fun d hd hc => absurd hc (searchChain_far hs h1 d hd)⟩
    · split at h
      · rename_i hc
        have hoc := ho c (List.mem_cons_self ..) hc
        have key : ∀ q : Nat × Nat, q.2 < e.optLen → (∀ d ∈ rest, q.1 ≤ e.p0 + p - d) →
            searchChain e p rest (some q) = some (off, len) →
            (q.2 ≤ len ∧ (q.2 = len → off = q.1)) ∧ ∀ d ∈ rest, e.confirmed p d →
              e.matchLen (d - e.p0) p ≤ len ∧ (e.matchLen (d - e.p0) p = len → off ≤ e.p0 + p - d) := by
          intro q hq hq' hh
          have := ih hs'.2 (best := some q) (fun b hb => by simp at hb; subst hb; exact ⟨hq, hq'⟩)
            (fun d hd => ho d (List.mem_cons_of_mem _ hd)) hh
          exact ⟨this.1 q rfl, this.2⟩
        have hnear : ∀ d ∈ rest, e.p0 + p - c ≤ e.p0 + p - d := fun d hd => by
          have := hs'.1 d hd; omega
        cases best with
        | none =>
          simp only at h
          rw [if_neg (by omega)] at h
          obtain ⟨k1, k2⟩ := key _ hoc hnear h
          refine ⟨by simp, fun d hd hdc => ?_⟩
          rcases List.mem_cons.mp hd with rfl | hd
          · exact ⟨k1.1, fun he => by have := k1.2 he; simp at this; omega⟩
          · exact k2 d hd hdc
        | some b =>
          obtain ⟨hb1, hb2⟩ := hb b rfl
          simp only at h
          split_ifs at h with h5 h6 h6
          · simp at h6; omega
          · obtain ⟨k1, k2⟩ := key _ hoc hnear h
            simp only at k1 h5
            refine ⟨fun b' hb' => by simp at hb'; subst hb'; exact ⟨by omega, by omega⟩, fun d hd hdc => ?_⟩
            rcases List.mem_cons.mp hd with rfl | hd
            · exact ⟨k1.1, fun he => by have := k1.2 he; omega⟩
            · exact k2 d hd hdc
          · omega
          · obtain ⟨k1, k2⟩ := key b hb1 (fun d hd => hb2 d (List.mem_cons_of_mem _ hd)) h
            refine ⟨fun b' hb' => by simp at hb'; subst hb'; exact k1, fun d hd hdc => ?_⟩
            rcases List.mem_cons.mp hd with rfl | hd
            · have := hb2 d (List.mem_cons_self ..)
              exact ⟨by omega, fun he => by rw [k1.2 (by omega)]; exact this⟩
            · exact k2 d hd hdc
      · rename_i hc
        have := ih hs'.2 (fun b hbb => ⟨(hb b hbb).1, fun d hd => (hb b hbb).2 d (List.mem_cons_of_mem _ hd)⟩)
          (fun d hd => ho d (List.mem_cons_of_mem _ hd)) h
        refine ⟨this.1, fun d hd hdc => ?_⟩
        rcases List.mem_cons.mp hd with rfl | hd
        · exact absurd hdc hc
        · exact this.2 d hd hdc

/-- The first candidate that reaches HC_OPT_LEN is taken (R148). -/
theorem searchChain_short_circuit {e : FinderEnv} {p c : Nat} {newer older : List Nat} {best : Option (Nat × Nat)}
    (hs : (newer ++ c :: older).Pairwise (· > ·)) (hc : e.confirmed p c) (ho : e.optLen ≤ e.matchLen (c - e.p0) p)
    (hb : ∀ b, best = some b → b.2 < e.optLen)
    (hn : ∀ d ∈ newer, e.confirmed p d → e.matchLen (d - e.p0) p < e.optLen) :
    searchChain e p (newer ++ c :: older) best = some (e.p0 + p - c, e.matchLen (c - e.p0) p) := by
  induction newer generalizing best with
  | nil =>
    simp only [List.nil_append, searchChain]
    rw [if_neg (fun h => searchChain_far hs h c (List.mem_cons_self ..) hc), if_pos hc]
    cases best with
    | none => simp only; rw [if_pos ho]
    | some b =>
      have := hb b rfl
      simp only
      have hlt : b.2 < e.matchLen (c - e.p0) p := by omega
      simp only [hlt, if_true, ho]
  | cons d newer ih =>
    rw [List.cons_append] at hs
    have hs' := List.pairwise_cons.mp hs
    have ih := fun b hb => ih (best := b) hs'.2 hb (fun d hd => hn d (List.mem_cons_of_mem _ hd))
    simp only [List.cons_append, searchChain]
    rw [if_neg (fun h => searchChain_far hs h c (by simp) hc)]
    by_cases h1 : e.confirmed p d
    · have hd := hn d (List.mem_cons_self ..) h1
      rw [if_pos h1]
      have go : ∀ b : Nat × Nat, b.2 < e.optLen → (if e.optLen ≤ b.2 then some b else searchChain e p (newer ++ c :: older) (some b)) =
          some (e.p0 + p - c, e.matchLen (c - e.p0) p) := by
        intro b hbb
        rw [if_neg (by omega)]
        exact ih _ (fun b' h' => by simp at h'; subst h'; exact hbb)
      apply go
      cases best with
      | none => exact hd
      | some b =>
        have hbb := hb b rfl
        simp only
        split_ifs
        · exact hd
        · exact hbb
    · rw [if_neg h1]
      exact ih _ hb

/-! ### The tables (R131, R143) -/

/-- A write of HT keeps the canonical form. -/
theorem insertHT_ok {e : FinderEnv} {p n : Nat} {t : TableSet} (h : t.ok n) : (e.insertHT p t).ok n :=
  ⟨Assoc.sorted_insert h.1, h.2⟩

/-- An insertion into CH keeps the canonical form and the chains' bound. -/
theorem insertCH_ok {e : FinderEnv} {p n : Nat} {t : TableSet} (hn : e.maxAttempts ≤ n) (h : t.ok n) : (e.insertCH p t).ok n := by
  refine ⟨h.1, Assoc.sorted_insert h.2.1, fun c hc => ?_⟩
  rcases Assoc.mem_insert hc with rfl | hc
  · simp only [List.length_take]; omega
  · exact h.2.2 c hc

/-- The table sets' canonical form, and the bound on the chains, are kept by the reference. -/
theorem findMatch_tables {e : FinderEnv} {v : Variant} {p n : Nat} {t : TableSet} (hn : e.maxAttempts ≤ n) (h : t.ok n) :
    (findMatch e v p t).2.ok n := by
  cases v with
  | fast a => exact insertHT_ok h
  | highRatio l => exact insertCH_ok hn h

/-- They are kept by any policy's insertions. -/
theorem insertPosition_ok {e : FinderEnv} {v : Variant} {p n : Nat} {t : TableSet} (hn : e.maxAttempts ≤ n) (h : t.ok n) :
    (e.insertPosition v t p).ok n := by
  unfold FinderEnv.insertPosition
  split
  · cases v with
    | fast a => exact insertHT_ok h
    | highRatio l => exact insertCH_ok hn h
  · exact h

/-- A visit keeps the tables' canonical form, whatever the policy. -/
theorem visit_tables {q : Policy} {c : CfgRegs} {v : Variant} {e : FinderEnv} {r : EncRegs} {n : Nat} {t : TableSet}
    (hn : e.maxAttempts ≤ n) (h : t.ok n) : (visit q c v e r t).tables.ok n := by
  cases q with
  | reference => exact findMatch_tables hn h
  | other f =>
    simp only [visit, boundVisit]
    generalize (f (finderView c v e r t)).inserted = l
    induction l generalizing t with
    | nil => exact h
    | cons p l ih => exact ih (insertPosition_ok hn h)

/-! ### What binds every policy (R141) -/

/-- A match a policy is held to is one. -/
theorem bindMatch_eq_some {e : FinderEnv} {p off len : Nat} {m : Option (Nat × Nat)} (h : e.bindMatch p m = some (off, len)) :
    m = some (off, len) ∧ e.isMatch p off len := by
  unfold FinderEnv.bindMatch at h
  split at h
  · simp at h
  · split_ifs at h with hm
    simp only [Option.some.injEq, Prod.mk.injEq] at h
    obtain ⟨rfl, rfl⟩ := h
    exact ⟨rfl, hm⟩

/-- A match that binds every policy is real, byte by byte. -/
theorem FinderEnv.isMatch_real {e : FinderEnv} {p off len : Nat} (h : e.isMatch p off len) :
    1 ≤ off ∧ off ≤ 65535 ∧ off ≤ p ∧ 4 ≤ len ∧ p + len ≤ e.matchlimit ∧
    ∀ i, i < len → e.hist[p - off + i]? = e.hist[p + i]? := by
  obtain ⟨h1, h2, h3, h4, h5, h6⟩ := h
  refine ⟨h1, h2, h3, h4, h5, fun i hi => ?_⟩
  have := congrArg (fun l => l[i]?) h6
  simpa [List.getElem?_take, hi] using this

/-- R132 to R136, R141: a match any policy reports. -/
theorem visit_real {q : Policy} {c : CfgRegs} {v : Variant} {e : FinderEnv} {r : EncRegs} {t : TableSet} {off len : Nat}
    (hp : r.cur + 4 ≤ e.matchlimit) (hm : e.matchlimit ≤ e.hist.length) (h : (visit q c v e r t).found = some (off, len)) :
    1 ≤ off ∧ off ≤ 65535 ∧ off ≤ r.cur ∧ 4 ≤ len ∧ r.cur + len ≤ e.matchlimit ∧
    ∀ i, i < len → e.hist[r.cur - off + i]? = e.hist[r.cur + i]? := by
  cases q with
  | reference => exact findMatch_real hp hm h
  | other f => exact FinderEnv.isMatch_real (bindMatch_eq_some h).2

/-- The next cursor is not before the end of the match, nor before the cursor. -/
theorem visit_next_ge (q : Policy) (c : CfgRegs) (v : Variant) (e : FinderEnv) (r : EncRegs) (t : TableSet) :
    r.cur ≤ (visit q c v e r t).next ∧
    ∀ off len, (visit q c v e r t).found = some (off, len) → r.cur + len ≤ (visit q c v e r t).next := by
  cases q with
  | reference =>
    simp only [visit, referenceVisit]
    cases (findMatch e v r.cur t).1 with
    | none => simp
    | some m => exact ⟨by simp, fun off len h => by simp only [Option.some.injEq] at h; subst h; exact Nat.le_refl _⟩
  | other f =>
    simp only [visit, boundVisit, leastNext]
    cases e.bindMatch r.cur (f (finderView c v e r t)).found with
    | none => exact ⟨by simp only; omega, by simp⟩
    | some m => exact ⟨by simp only; omega, fun off len h => by simp only [Option.some.injEq] at h; subst h; simp only; omega⟩

/-! ### Steps (R138, R150) -/

/-- R138: the step is the formula, whatever the exponent. -/
theorem skipStep_eq (c : CfgRegs) {a : Nat} (fails : Nat) (ha : 1 ≤ a) (hc : c.skipCeil.toNat ≤ 65535) :
    skipStep c a fails = min c.skipCeil.toNat (a * 2 ^ (fails / 2 ^ c.skipStrength.toNat)) := by
  unfold skipStep
  split_ifs with h
  · have h1 : 2 ^ 16 ≤ 2 ^ (fails / 2 ^ c.skipStrength.toNat) := Nat.pow_le_pow_right (by omega) h
    have h2 : 1 * 2 ^ (fails / 2 ^ c.skipStrength.toNat) ≤ a * 2 ^ (fails / 2 ^ c.skipStrength.toNat) :=
      Nat.mul_le_mul_right _ ha
    omega
  · rfl

/-- A failed attempt advances the cursor by at least 1. -/
theorem failStep_pos {c : CfgRegs} (hc : c.legal) (level : Int) (fails : Nat) :
    1 ≤ failStep c (variantOf c level) fails := by
  obtain ⟨-, -, -, ⟨h1, h2⟩, -⟩ := hc
  have hfast : ∀ a : Nat, 1 ≤ a → 1 ≤ skipStep c a fails := by
    intro a ha
    rw [skipStep_eq c fails ha h2]
    have : 1 * 1 ≤ a * 2 ^ (fails / 2 ^ c.skipStrength.toNat) := Nat.mul_le_mul ha Nat.one_le_two_pow
    omega
  unfold variantOf
  split_ifs
  · exact hfast _ (by omega)
  · exact hfast _ (by omega)
  · simp [failStep]

end Sys2Proof.Machine
end

