-- ==== Sys2Proof/Laws/Encoder.lean ====
section
/-! SUPPORT. The laws of the block encoder: its output is a chain of real sequences over its history, decoding a chain gives the
history back, and a chain is short. -/

namespace Sys2Proof.Machine

/-! ### Chains of sequences -/

/-- The sequences `q` cover the bytes `a .. b)` of `h`: each one's literals are the bytes there, and its match is real, in the
window, at least 4 long, and ends at `lim` or before (R162). -/
def SeqChain (h : List Byte) (lim : Nat) : Nat → List SeqParts → Nat → Prop
  | a, [], b => a = b
  | a, x :: q, b =>
    x.1 = slice h a (a + x.1.length) ∧ 1 ≤ x.2.1 ∧ x.2.1 ≤ 65535 ∧ x.2.1 ≤ a + x.1.length ∧ 4 ≤ x.2.2 ∧
    a + x.1.length + x.2.2 ≤ lim ∧
    (∀ i, i < x.2.2 → h[a + x.1.length - x.2.1 + i]? = h[a + x.1.length + i]?) ∧
    SeqChain h lim (a + x.1.length + x.2.2) q b

theorem SeqChain.append {h : List Byte} {lim a b c : Nat} {q p : List SeqParts} (h1 : SeqChain h lim a q b)
    (h2 : SeqChain h lim b p c) : SeqChain h lim a (q ++ p) c := by
  induction q generalizing a with
  | nil => simp only [SeqChain] at h1; subst h1; exact h2
  | cons x q ih =>
    simp only [SeqChain, List.cons_append] at h1 ⊢
    obtain ⟨h3, h4, h5, h6, h7, h8, h9, h10⟩ := h1
    exact ⟨h3, h4, h5, h6, h7, h8, h9, ih h10⟩

/-- The front of a chain is a chain. -/
theorem SeqChain.cover {h : List Byte} {lim a b : Nat} {q : List SeqParts} (h1 : SeqChain h lim a q b) :
    a + sequencesCover q = b := by
  induction q generalizing a with
  | nil => simpa [SeqChain, sequencesCover] using h1
  | cons x q ih =>
    simp only [SeqChain] at h1
    have := ih h1.2.2.2.2.2.2.2
    simp only [sequencesCover, List.map_cons, List.sum_cons] at this ⊢
    omega

/-- A non-empty chain ends at `lim` or before. -/
theorem SeqChain.le_lim {h : List Byte} {lim a b : Nat} {q : List SeqParts} (h1 : SeqChain h lim a q b) :
    a ≤ b ∧ (b ≤ lim ∨ q = []) := by
  induction q generalizing a with
  | nil => simp only [SeqChain] at h1; subst h1; simp
  | cons x q ih =>
    simp only [SeqChain] at h1
    obtain ⟨-, -, -, -, -, h8, -, h10⟩ := h1
    have := ih h10
    refine ⟨by omega, .inl ?_⟩
    rcases this.2 with h | rfl
    · exact h
    · simp only [SeqChain] at h10; omega

/-- What each sequence of a chain is. -/
theorem SeqChain.get {h : List Byte} {lim a b k : Nat} {q : List SeqParts} {x : SeqParts} (h1 : SeqChain h lim a q b)
    (hk : q[k]? = some x) :
    1 ≤ x.2.1 ∧ x.2.1 ≤ 65535 ∧ 4 ≤ x.2.2 ∧ x.2.1 ≤ a + sequencesCover (q.take k) + x.1.length ∧
    a + sequencesCover (q.take (k + 1)) ≤ lim := by
  induction q generalizing a k with
  | nil => simp at hk
  | cons y q ih =>
    simp only [SeqChain] at h1
    obtain ⟨-, h4, h5, h6, h7, h8, -, h10⟩ := h1
    cases k with
    | zero =>
      simp only [List.getElem?_cons_zero, Option.some.injEq] at hk
      subst hk
      simp only [sequencesCover, List.take_zero, List.map_nil, List.sum_nil, List.take_succ_cons, List.map_cons,
        List.sum_cons]
      omega
    | succ k =>
      have := ih h10 (by simpa using hk)
      simp only [sequencesCover, List.take_succ_cons, List.map_cons, List.sum_cons] at this ⊢
      omega

/-! ### The encoder makes a chain (R166) -/

/-- What the encoder loop keeps: the output is a chain from the block's start to `anchor`, and `cur` is not before it. -/
structure EncInv (h : List Byte) (base lim : Nat) (r : EncRegs) : Prop where
  chain : ∃ q, r.out = (q.map fun x => emitSeq x.1 x.2.1 x.2.2).flatten ∧ SeqChain h lim base q r.anchor
  le : r.anchor ≤ r.cur

theorem encodeTurn_inv {q : Policy} {c : CfgRegs} {v : Variant} {e : FinderEnv} {base : Nat} {r : EncRegs} {t : TableSet}
    (hm : e.matchlimit ≤ e.hist.length) (hcur : r.cur + 4 ≤ e.matchlimit) (hi : EncInv e.hist base e.matchlimit r) :
    EncInv e.hist base e.matchlimit (encodeTurn e.hist (visit q c v e r t).found (visit q c v e r t).next r) := by
  obtain ⟨⟨l, hq, hc⟩, hle⟩ := hi
  obtain ⟨hn, hn'⟩ := visit_next_ge q c v e r t
  cases hf : (visit q c v e r t).found with
  | none => exact ⟨⟨l, hq, hc⟩, by simp only [encodeTurn]; omega⟩
  | some m =>
    obtain ⟨off, ml⟩ := m
    obtain ⟨h1, h2, h3, h4, h5, h6⟩ := visit_real hcur hm hf
    have hlen : (slice e.hist r.anchor r.cur).length = r.cur - r.anchor := by
      simp only [slice, List.length_take, List.length_drop]; omega
    have hcur' : r.anchor + (slice e.hist r.anchor r.cur).length = r.cur := by omega
    refine ⟨⟨l ++ [(slice e.hist r.anchor r.cur, off, ml)], ?_, hc.append ?_⟩, hn' off ml hf⟩
    · simp [encodeTurn, hq]
    · simp only [SeqChain, hcur', encodeTurn]
      exact ⟨trivial, h1, h2, h3, h4, h5, h6, trivial⟩

theorem encodeTurn_bounds {h : List Byte} {m : Option (Nat × Nat)} {next : Nat} {r : EncRegs} :
    (encodeTurn h m next r).mflimit = r.mflimit ∧ (encodeTurn h m next r).endPos = r.endPos ∧
    (encodeTurn h m next r).base = r.base ∧ (encodeTurn h m next r).p0 = r.p0 := by
  unfold encodeTurn; split <;> simp

/-- The loop keeps what its turns keep. -/
theorem encodeLoop_inv {q : Policy} {c : CfgRegs} {v : Variant} {e : FinderEnv} {base : Nat} (n : Nat) {r : EncRegs} {t : TableSet}
    (hm : e.matchlimit ≤ e.hist.length) (hlim : r.mflimit + 4 ≤ e.matchlimit) (hi : EncInv e.hist base e.matchlimit r) :
    EncInv e.hist base e.matchlimit (encodeLoop q c v e n r t).1 ∧
    (encodeLoop q c v e n r t).1.endPos = r.endPos := by
  induction n generalizing r t with
  | zero => exact ⟨hi, rfl⟩
  | succ n ih =>
    simp only [encodeLoop]
    split_ifs with hcur
    · have hb := encodeTurn_bounds (h := e.hist) (m := (visit q c v e r t).found) (next := (visit q c v e r t).next) (r := r)
      have := ih (t := (visit q c v e r t).tables) (by rw [hb.1]; exact hlim) (encodeTurn_inv hm (by omega) hi)
      exact ⟨this.1, by rw [this.2, hb.2.1]⟩
    · exact ⟨hi, rfl⟩

/-- What the match attempts of a block leave: a chain that ends 5 bytes before the block's end or earlier, none below 13
bytes. -/
theorem encodeMatches_chain {p : Policy} {c : CfgRegs} {v : Variant} {ind : Bool} {h : List Byte} {base n : Nat} {t : TableSet}
    {r : EncRegs} (hh : h.length = base + n) (hout : r.out = []) (hanc : r.anchor = base) (hcur : r.cur = base)
    (hend : r.endPos = base + n) :
    ∃ q, (encodeMatches p c v ind h n t r).1.out = (q.map fun x => emitSeq x.1 x.2.1 x.2.2).flatten ∧
      SeqChain h (base + n - 5) base q (encodeMatches p c v ind h n t r).1.anchor ∧
      (encodeMatches p c v ind h n t r).1.endPos = base + n ∧ (n < 13 → q = []) := by
  unfold encodeMatches
  split_ifs with h13
  · simp only [Config.minLength] at h13
    have hlim : 9 ≤ p.attemptLimit ∧ p.attemptLimit ≤ 12 := by
      cases p <;> simp only [Policy.attemptLimit, Config.mfLimit, Config.lastLiterals, Config.minMatch] <;> omega
    simp only [hend, Config.lastLiterals]
    obtain ⟨⟨⟨q, hq, hc⟩, -⟩, he⟩ := encodeLoop_inv (q := p) (c := c) (v := v)
      (e := finderEnv c h r.p0 (tableBits c (usesNarrow c v ind n)) (base + n - 5)) (base := base) n (t := t)
      (r := { r with endPos := base + n, mflimit := base + n - p.attemptLimit, matchlimit := base + n - 5 })
      (by simp only [finderEnv]; omega) (by simp only [finderEnv]; omega)
      ⟨⟨[], hout, hanc.symm⟩, by simp only; omega⟩
    exact ⟨q, hq, hc, he, fun h => absurd h (by omega)⟩
  · exact ⟨[], hout, hanc.symm, hend, fun _ => rfl⟩

/-- R162: the encoding of a non-empty block is a chain over `dict ++ block` that ends 5 bytes before its end or earlier, and
a LAST of the rest; below 13 bytes the chain is empty. -/
theorem encodeBlock_chain {p : Policy} {c : CfgRegs} {level : Int} {ind : Bool} {dict block : List Byte} {t : TableSet} {p0 : Nat}
    {r : EncRegs} (hb : block ≠ []) :
    ∃ q b, SeqChain (dict ++ block) (dict.length + block.length - 5) dict.length q b ∧
      (encodeBlock p c level ind dict block t p0 r).1.out = sequenceBytes q ((dict ++ block).drop b) ∧
      b ≤ dict.length + block.length ∧ (5 ≤ block.length → b + 5 ≤ dict.length + block.length) ∧
      (block.length < 13 → q = []) := by
  obtain ⟨q, hq, hc, he, hs⟩ := encodeMatches_chain (p := p) (c := c) (v := variantOf c level) (ind := ind) (h := dict ++ block)
    (base := dict.length) (n := block.length) (t := t) (r := encodeStart (variantOf c level) dict.length block.length p0 r)
    (by simp) rfl rfl rfl rfl
  have hl := hc.le_lim
  have hbound : ∀ k, k ≤ block.length → k ≤ 5 →
      (encodeMatches p c (variantOf c level) ind (dict ++ block) block.length t
        (encodeStart (variantOf c level) dict.length block.length p0 r)).1.anchor + k ≤ dict.length + block.length := by
    intro k h1 h2
    rcases hl.2 with h | rfl
    · omega
    · simp only [SeqChain] at hc; omega
  refine ⟨q, _, hc, ?_, hbound 0 (by omega) (by omega), fun h => hbound 5 h (by omega), hs⟩
  rw [encodeBlock, if_neg hb]
  simp only [sequenceBytes]
  rw [hq, he, slice, List.take_of_length_le (by simp)]

/-! ### Decoding a chain (R171) -/

/-- From a boundary whose output is the history's front, the decoder gives the whole history. -/
theorem decodeLoop_of_chain {h inp dict : List Byte} {lim a b limit : Nat} (q : List SeqParts) {r : DecRegs} {fuel : Nat}
    (hc : SeqChain h lim a q b) (hlim : lim ≤ h.length) (ha : a ≤ h.length) (hout : dict ++ r.out = h.take a)
    (hcap : h.length ≤ dict.length + limit) (hin : inp.drop r.ip = sequenceBytes q (h.drop b)) (hfuel : q.length < fuel) :
    ∃ d, decodeLoop inp dict limit fuel r = .ok d ∧ dict ++ d.out = h := by
  induction q generalizing a r fuel with
  | nil =>
    simp only [SeqChain] at hc
    subst hc
    obtain ⟨fuel, rfl⟩ : ∃ f, fuel = f + 1 := ⟨fuel - 1, by simp at hfuel; omega⟩
    simp only [sequenceBytes, List.map_nil, List.flatten_nil, List.nil_append] at hin
    have hseq := decodeSeq_of_emitLast (mln := 0#4) (limit := limit) (dict := dict) (by simpa [emitLast] using hin)
    have hip : r.ip ≤ inp.length := le_of_drop_eq_cons (by rw [hin]; rfl)
    have hlen := length_of_drop_eq hin hip
    have hol := congrArg List.length hout
    simp only [List.length_append, List.length_take] at hol
    rw [takeLast_eq_ok (by rw [hlen]; simp [emitLast]) (by simp only [List.length_drop]; omega)] at hseq
    refine ⟨_, by rw [decodeLoop, hseq], ?_⟩
    simp only
    rw [← List.append_assoc, hout, List.take_append_drop]
  | cons x q ih =>
    simp only [SeqChain] at hc
    obtain ⟨h3, h4, h5, h6, h7, h8, h9, h10⟩ := hc
    obtain ⟨fuel, rfl⟩ : ∃ f, fuel = f + 1 := ⟨fuel - 1, by simp at hfuel; omega⟩
    have hoffn : (BitVec.ofNat 16 x.2.1).toNat = x.2.1 := by
      simp only [BitVec.toNat_ofNat]; omega
    have hin' : inp.drop r.ip = emitSeq x.1 (BitVec.ofNat 16 x.2.1).toNat x.2.2 ++ sequenceBytes q (h.drop b) := by
      rw [hin, hoffn]; simp [sequenceBytes]
    have hip : r.ip ≤ inp.length := le_of_drop_eq_cons (by rw [hin']; rfl)
    have hlen := length_of_drop_eq hin' hip
    rw [List.length_append] at hlen
    have hol := congrArg List.length hout
    simp only [List.length_append, List.length_take] at hol
    have hseq := decodeSeq_of_emitSeq (limit := limit) (dict := dict) h7 hin'
    rw [takeSeq_eq_ok (by omega) (by omega)
      (by intro h0; have := congrArg BitVec.toNat h0; rw [hoffn] at this; simp at this; omega) (by omega)] at hseq
    rw [decodeLoop, hseq]
    simp only
    have hpre : h.take (dict.length + (r.out ++ x.1).length) = dict ++ (r.out ++ x.1) := by
      rw [← List.append_assoc, hout, List.length_append, show dict.length + (r.out.length + x.1.length) = a + x.1.length by omega,
        List.take_add]
      congr 1
      rw [h3]; simp [slice]
    have hlen2 : dict.length + (r.out ++ x.1).length = a + x.1.length := by rw [List.length_append]; omega
    have hcopy := appendMatch_of_real (dict := dict) (out := r.out ++ x.1) (h := h) (off := x.2.1) (n := x.2.2) h4
      (by omega) hpre (by omega) (by rw [hlen2]; exact h9)
    refine ih (r := { r with
        ip := r.ip + (emitSeq x.1 (BitVec.ofNat 16 x.2.1).toNat x.2.2).length, token := _, ll := _, ml := _, off := _,
        out := appendMatch dict (BitVec.ofNat 16 x.2.1).toNat x.2.2 (r.out ++ x.1) }) h10 (by omega) ?_ ?_
      (by simp at hfuel; omega)
    · simp only [hoffn]; rw [hcopy, hlen2]
    · simp only; exact drop_of_drop_eq hin'

/-! ### The length of a chain's bytes (R170) -/

theorem length_lenField_le (v : Nat) : (lenField v).length ≤ v / 255 + 1 ∧ (lenField v).length ≤ v := by
  unfold lenField
  split_ifs
  · simp
  · rw [length_lenExt]; omega

theorem sequenceBytes_length {h : List Byte} {lim a b : Nat} {q : List SeqParts} (tail : List Byte)
    (hc : SeqChain h lim a q b) :
    (sequenceBytes q tail).length ≤ (b - a + tail.length) + (b - a + tail.length) / 255 + 2 := by
  have hcov := hc.cover
  have key : ∀ (q : List SeqParts) (a : Nat), SeqChain h lim a q b →
      ((q.map fun x => emitSeq x.1 x.2.1 x.2.2).flatten).length ≤ sequencesCover q + sequencesCover q / 255 := by
    intro q
    induction q with
    | nil => intro a _; simp [sequencesCover]
    | cons x q ih =>
      intro a hc
      simp only [SeqChain] at hc
      obtain ⟨-, -, -, -, h7, -, -, h10⟩ := hc
      have := ih _ h10
      have h1 := length_lenField_le x.1.length
      have h2 := length_lenField_le (x.2.2 - 4)
      simp only [List.map_cons, List.flatten_cons, List.length_append, length_emitSeq, sequencesCover, List.sum_cons] at this ⊢
      have e1 : (lenField x.1.length).length ≤ x.1.length / 255 + 1 := h1.1
      have e2 : 3 + (lenField x.1.length).length + x.1.length + (lenField (x.2.2 - 4)).length ≤
          x.1.length + x.2.2 + x.1.length / 255 := by omega
      omega
  have := key q a hc
  have h1 := length_lenField_le tail.length
  simp only [sequenceBytes, List.length_append, emitLast, length_emitLastWith]
  have hb : b - a = sequencesCover q := by omega
  rw [hb]
  omega

end Sys2Proof.Machine
end

