-- ==== Sys2Proof/Laws/FrameRun.lean ====
section
/-! SUPPORT. What a frame run's block can come to: delivered, raised, or a stream that is not modelled. -/

namespace Sys2Proof.Machine

/-- The content of a block and the decoder's registers after it (R252, R254). -/
theorem decodeContent_eq_ok {t : ReadWork} {c : List Byte} {d : DecRegs} :
    t.decodeContent = .ok (c, d) ↔
      (t.blk.raw = true ∧ c = t.blk.payload ∧ d = t.dec) ∨
      (t.blk.raw = false ∧ c = d.out ∧
        decodeBlock t.blk.payload t.reader.dict (blockMax t.reader.finfo.bsclass.toNat) t.dec = .ok d) := by
  unfold ReadWork.decodeContent
  cases t.blk.raw with
  | true => simp [eq_comm]
  | false =>
    cases decodeBlock t.blk.payload t.reader.dict (blockMax t.reader.finfo.bsclass.toNat) t.dec with
    | error e => simp
    | ok e =>
      simp only [Bool.false_eq_true, if_false, Except.ok.injEq, Prod.mk.injEq, false_and, true_and, false_or]
      exact ⟨fun ⟨h1, h2⟩ => ⟨by rw [← h1, h2], h2⟩, fun ⟨h1, h2⟩ => ⟨by rw [h1, h2], h2⟩⟩

/-- Only a compressed payload can fail to decode. -/
theorem decodeContent_eq_error {t : ReadWork} {d : DecRegs} :
    t.decodeContent = .error d ↔ t.blk.raw = false ∧
      decodeBlock t.blk.payload t.reader.dict (blockMax t.reader.finfo.bsclass.toNat) t.dec = .error d := by
  unfold ReadWork.decodeContent
  cases t.blk.raw with
  | true => simp
  | false =>
    cases decodeBlock t.blk.payload t.reader.dict (blockMax t.reader.finfo.bsclass.toNat) t.dec <;> simp

/-- The run's content is what the reader's step decodes. -/
theorem runContent_iff {s : State} {c : List Byte} {d : DecRegs} :
    runContent s s.blk.payload c d ↔ (streamWork s).decodeContent = .ok (c, d) :=
  (decodeContent_eq_ok (t := streamWork s)).symm

/-- A complete block whose content keeps TOTAL below 2^64 is delivered at once (R251, R257). -/
theorem finishRunBlock_of_ok {s : State} {c : List Byte} {d : DecRegs} (h : (streamWork s).decodeContent = .ok (c, d))
    (ht : s.stream.reader.total + c.length < Config.streamMax) :
    finishRunBlock s = .next (blockDelivered 0 c d s) := by
  unfold finishRunBlock ReadWork.finishBlock
  rw [h]
  refine (if_neg (Nat.not_le.mpr ht)).trans ?_
  simp [blockDelivered, goOn, putStreamWork, streamWork, ReadWork.deliverStage, ReaderCtx.stageContent, Config.window]
  all_goals exact ⟨rfl, rfl⟩

/-- A complete block whose content brings TOTAL to 2^64 is not modelled (R34). -/
theorem finishRunBlock_of_tooLong {s : State} {c : List Byte} {d : DecRegs} (h : (streamWork s).decodeContent = .ok (c, d))
    (ht : Config.streamMax ≤ s.stream.reader.total + c.length) : finishRunBlock s = .refused .streamTooLong := by
  unfold finishRunBlock ReadWork.finishBlock
  rw [h]
  exact if_pos ht

/-- A payload that does not decode is CorruptedInput (R254). -/
theorem finishRunBlock_of_error {s : State} {d : DecRegs} (h : (streamWork s).decodeContent = .error d)
    (hs : s.stream.reader.state ≠ .header) :
    finishRunBlock s = .next (frameFailed 0 .corruptedInput { s with dec := d }) := by
  unfold finishRunBlock ReadWork.finishBlock
  rw [h]
  simp [afterRead, raiseFrame, frameFailed, putStreamWork, streamWork, hs]

/-- A block is refused only when its content brings TOTAL to 2^64. -/
theorem finishRunBlock_eq_refused {s : State} {r : Refusal} (h : finishRunBlock s = .refused r) :
    r = .streamTooLong ∧ ∃ c d, runContent s s.blk.payload c d ∧ 2 ^ 64 ≤ s.stream.reader.total + c.length := by
  cases hd : (streamWork s).decodeContent with
  | error d => unfold finishRunBlock ReadWork.finishBlock at h; rw [hd] at h; simp [afterRead] at h
  | ok x =>
    obtain ⟨c, d⟩ := x
    rcases Nat.lt_or_ge (s.stream.reader.total + c.length) Config.streamMax with ht | ht
    · rw [finishRunBlock_of_ok hd ht] at h; simp at h
    · rw [finishRunBlock_of_tooLong hd ht, Host.Outcome.refused.injEq] at h
      exact ⟨h.symm, c, d, runContent_iff.mpr hd, ht⟩

end Sys2Proof.Machine
end

