-- ==== Sys2Proof/Laws/PerInstr.lean ====
section
/-! SUPPORT. Statements made per instruction. -/

namespace Sys2Proof

/-- How many bytes of the wire an instruction takes (R90, R94, R163, R164); a command word takes four (R117). -/
def wireLength (i : Instr) : Nat :=
  match i with
  | .token _ => 1
  | .llext _ => 1
  | .literals lit => lit.length
  | .offset _ => 2
  | .mlext _ => 1
  | .seq lit _ ml => 3 + (lenField lit.length).length + lit.length + (lenField (ml - 4)).length
  | .last lit _ => 1 + (lenField lit.length).length + lit.length
  | .magic => 4
  | .flg _ => 1
  | .bd _ => 1
  | .csize _ => 8
  | .dictid _ => 4
  | .hc _ => 1
  | .blkhdr _ _ => 4
  | .payload bytes => bytes.length
  | .blksum _ => 4
  | .endmark => 4
  | .csum _ => 4
  | .maxlen => 4
  | .compressBlock => 4
  | .decompressBlock => 4
  | .openWriter => 4
  | .writeFrame => 4
  | .closeWriter => 4
  | .openReader => 4
  | .readFrame => 4
  | .closeReader => 4
  | .illegalCmd _ => 4

/-- A well-formed instruction is encoded in as many bytes as its format has. -/
def Laws.Length.Statement (i : Instr) : Prop := i.wellFormed = true → (encode i).length = wireLength i

theorem Laws.Length.token (t : Byte) : Laws.Length.Statement (.token t) := fun _ => by simp [encode, wireLength]
theorem Laws.Length.llext (v : Byte) : Laws.Length.Statement (.llext v) := fun _ => by simp [encode, wireLength]
theorem Laws.Length.literals (lit : List Byte) : Laws.Length.Statement (.literals lit) := fun _ => by simp [encode, wireLength]
theorem Laws.Length.offset (off : BitVec 16) : Laws.Length.Statement (.offset off) := fun _ => by simp [encode, wireLength]
theorem Laws.Length.mlext (v : Byte) : Laws.Length.Statement (.mlext v) := fun _ => by simp [encode, wireLength]
theorem Laws.Length.seq (lit : List Byte) (off : BitVec 16) (ml : Nat) : Laws.Length.Statement (.seq lit off ml) := fun _ => by simp [encode, wireLength]
theorem Laws.Length.last (lit : List Byte) (mln : BitVec 4) : Laws.Length.Statement (.last lit mln) := fun _ => by simp [encode, wireLength]
theorem Laws.Length.magic : Laws.Length.Statement (.magic) := fun _ => by simp [encode, wireLength]
theorem Laws.Length.flg (b : Byte) : Laws.Length.Statement (.flg b) := fun _ => by simp [encode, wireLength]
theorem Laws.Length.bd (b : Byte) : Laws.Length.Statement (.bd b) := fun _ => by simp [encode, wireLength]
theorem Laws.Length.csize (v : DWord) : Laws.Length.Statement (.csize v) := fun _ => by simp [encode, wireLength]
theorem Laws.Length.dictid (v : Word) : Laws.Length.Statement (.dictid v) := fun _ => by simp [encode, wireLength]
theorem Laws.Length.hc (c : Byte) : Laws.Length.Statement (.hc c) := fun _ => by simp [encode, wireLength]
theorem Laws.Length.blkhdr (raw : Bool) (size : BitVec 31) : Laws.Length.Statement (.blkhdr raw size) := fun _ => by simp [encode, wireLength]
theorem Laws.Length.payload (bytes : List Byte) : Laws.Length.Statement (.payload bytes) := fun _ => by simp [encode, wireLength]
theorem Laws.Length.blksum (sum : Word) : Laws.Length.Statement (.blksum sum) := fun _ => by simp [encode, wireLength]
theorem Laws.Length.endmark : Laws.Length.Statement (.endmark) := fun _ => by simp [encode, wireLength]
theorem Laws.Length.csum (sum : Word) : Laws.Length.Statement (.csum sum) := fun _ => by simp [encode, wireLength]
theorem Laws.Length.maxlen : Laws.Length.Statement (.maxlen) := fun _ => by simp [encode, wireLength]
theorem Laws.Length.compressBlock : Laws.Length.Statement (.compressBlock) := fun _ => by simp [encode, wireLength]
theorem Laws.Length.decompressBlock : Laws.Length.Statement (.decompressBlock) := fun _ => by simp [encode, wireLength]
theorem Laws.Length.openWriter : Laws.Length.Statement (.openWriter) := fun _ => by simp [encode, wireLength]
theorem Laws.Length.writeFrame : Laws.Length.Statement (.writeFrame) := fun _ => by simp [encode, wireLength]
theorem Laws.Length.closeWriter : Laws.Length.Statement (.closeWriter) := fun _ => by simp [encode, wireLength]
theorem Laws.Length.openReader : Laws.Length.Statement (.openReader) := fun _ => by simp [encode, wireLength]
theorem Laws.Length.readFrame : Laws.Length.Statement (.readFrame) := fun _ => by simp [encode, wireLength]
theorem Laws.Length.closeReader : Laws.Length.Statement (.closeReader) := fun _ => by simp [encode, wireLength]
theorem Laws.Length.illegalCmd (w : Word) : Laws.Length.Statement (.illegalCmd w) := fun _ => by simp [encode, wireLength]

end Sys2Proof
end

