-- ==== Sys2Proof/Laws/Runs.lean ====
section
/-! SUPPORT. Runs of several steps, and the steps of a wire-data run one element at a time. -/

namespace Sys2Proof.Machine

/-- Some number of steps leads from `s` to `t`. -/
def Steps (s t : State) : Prop := ∃ k, Host.Core.run Sys2Proof.core k s = .next t

theorem Steps.refl (s : State) : Steps s s := ⟨0, rfl⟩

theorem core_run_succ (k : Nat) {s t : State} (h : step s = .next t) :
    Host.Core.run Sys2Proof.core (k + 1) s = Host.Core.run Sys2Proof.core k t := by
  have h' : Sys2Proof.core.step s = .next t := h
  simp only [Host.Core.run, h']

theorem Steps.head {s t u : State} (h : step s = .next t) (h' : Steps t u) : Steps s u := by
  obtain ⟨k, hk⟩ := h'
  exact ⟨k + 1, (core_run_succ k h).trans hk⟩

theorem Steps.single {s t : State} (h : step s = .next t) : Steps s t := Steps.head h (Steps.refl t)

theorem Steps.trans {s t u : State} (h : Steps s t) (h' : Steps t u) : Steps s u := by
  obtain ⟨k, hk⟩ := h
  induction k generalizing s with
  | zero =>
    have e : s = t := by injection hk
    rw [e]; exact h'
  | succ k ih =>
    cases hs : step s with
    | next v =>
      rw [core_run_succ k hs] at hk
      exact Steps.head hs (ih hk)
    | fault r =>
      have h' : Sys2Proof.core.step s = .fault r := hs
      simp [Host.Core.run, h'] at hk
    | refused r =>
      have h' : Sys2Proof.core.step s = .refused r := hs
      simp [Host.Core.run, h'] at hk

/-- While a run is active a step is an element's. -/
theorem step_of_pos {s : State} (h : s.stream.pos ≠ .idle) : step s = streamStep s := by
  unfold step
  split
  · exact absurd (by assumption) h
  · rfl

/-- While a run is active and an element is there, a step is its `exec`. -/
theorem step_of_decode {s : State} {i : Instr} {rest : List Byte} (h : s.stream.pos ≠ .idle)
    (hd : decode (fetchAt s) (fetchBytes s) = .ok (i, rest)) : step s = exec i s := by
  rw [step_of_pos h, streamStep, hd]

/-- While a run is active and no element is there, a step rejects it. -/
theorem step_of_reject {s : State} {e : Reject} (h : s.stream.pos ≠ .idle)
    (hd : decode (fetchAt s) (fetchBytes s) = .error e) : step s = .next (rejectElement s) := by
  rw [step_of_pos h, streamStep, hd]

theorem atPos_of_pos {p : Pos} {s : State} {k : Host.Outcome State Fault Refusal} (h : s.stream.pos = p) :
    atPos p s k = k := if_pos h

/-! ### A block run by wire elements -/

/-- The block run of `s` at position `p` with the working registers `d`. -/
def runAt (s : State) (p : Pos) (d : DecRegs) : State := { s with dec := d, stream := { s.stream with pos := p } }

@[simp] theorem runAt_pos (s : State) (p : Pos) (d : DecRegs) : (runAt s p d).stream.pos = p := rfl
@[simp] theorem runAt_dec (s : State) (p : Pos) (d : DecRegs) : (runAt s p d).dec = d := rfl
@[simp] theorem runAt_input (s : State) (p : Pos) (d : DecRegs) : (runAt s p d).stream.input = s.stream.input := rfl
@[simp] theorem runAt_dict (s : State) (p : Pos) (d : DecRegs) : (runAt s p d).stream.dict = s.stream.dict := rfl
@[simp] theorem runAt_limit (s : State) (p : Pos) (d : DecRegs) : (runAt s p d).stream.limit = s.stream.limit := rfl
@[simp] theorem runAt_grain (s : State) (p : Pos) (d : DecRegs) : (runAt s p d).stream.grain = s.stream.grain := rfl

/-- The run has ended with CorruptedInput. -/
def runFailed (s : State) (d : DecRegs) : State := raiseBlock .corruptedInput (runAt s .idle d)

/-- The run has ended: the block is complete. -/
def runDone (s : State) (d : DecRegs) : State := streamReturn (runAt s .idle d)

theorem not_le_of_drop {bs rest : List Byte} {n : Nat} {b : Byte} (h : bs.drop n = b :: rest) : ¬ bs.length ≤ n := by
  intro h'
  rw [List.drop_of_length_le h'] at h
  simp at h

theorem drop_succ_of_drop {bs rest : List Byte} {n : Nat} {b : Byte} (h : bs.drop n = b :: rest) :
    bs.drop (n + 1) = rest := by
  rw [← List.drop_drop, h]; rfl

/-- The extension bytes of a literal length, one at a step. -/
theorem steps_llext (s : State) {l : List Byte} {d : DecRegs} (h : s.stream.input.drop d.ip = l) :
    match readLLExt l d with
    | .ok d' => Steps (runAt s .llext d) (runAt s .literals d')
    | .error d' => Steps (runAt s .llext d) (runFailed s d') := by
  induction l generalizing d with
  | nil =>
    refine Steps.single ?_
    have hd : decode (fetchAt (runAt s .llext d)) (fetchBytes (runAt s .llext d)) = .error .truncated := by
      show decodeByte .llext (s.stream.input.drop d.ip) = _
      rw [h]; rfl
    rw [step_of_reject (by simp) hd]; rfl
  | cons e t ih =>
    have hd : decode (fetchAt (runAt s .llext d)) (fetchBytes (runAt s .llext d)) = .ok (.llext e, t) := by
      show decodeByte .llext (s.stream.input.drop d.ip) = _
      rw [h]; rfl
    have hs : step (runAt s .llext d) = .next (runAt s (if e = 255#8 then .llext else .literals) (d.takeLLExt e)) := by
      rw [step_of_decode (by simp) hd]
      show execLlext e (runAt s .llext d) = _
      unfold execLlext
      rw [atPos_of_pos (runAt_pos s .llext d),
        if_neg (show ¬ (runAt s .llext d).stream.input.length ≤ (runAt s .llext d).dec.ip from not_le_of_drop h)]
      rfl
    simp only [readLLExt]
    by_cases he : e = 255#8
    · rw [if_pos he]
      rw [if_pos he] at hs
      have := ih (d := d.takeLLExt e) (drop_succ_of_drop h)
      split at this
      · exact Steps.head hs this
      · exact Steps.head hs this
    · rw [if_neg he]
      rw [if_neg he] at hs
      exact Steps.single hs

/-- The end of a match length: the copy, and the next boundary. -/
theorem finishMatch_runAt (s : State) (p : Pos) (d : DecRegs) :
    finishMatch (runAt s p d) = .next (match d.copyMatch s.stream.dict s.stream.limit with
      | .ok d' => runAt s .boundary d'
      | .error d' => runFailed s d') := by
  show afterStep (d.copyMatch s.stream.dict s.stream.limit) (runAt s p d) (goOn .boundary) = _
  cases d.copyMatch s.stream.dict s.stream.limit <;> rfl

/-- The extension bytes of a match length, and then the copy. -/
theorem steps_mlext (s : State) {l : List Byte} {d : DecRegs} (h : s.stream.input.drop d.ip = l) :
    match readMLExt l d with
    | .ok d' => match d'.copyMatch s.stream.dict s.stream.limit with
      | .ok d'' => Steps (runAt s .mlext d) (runAt s .boundary d'')
      | .error d'' => Steps (runAt s .mlext d) (runFailed s d'')
    | .error d' => Steps (runAt s .mlext d) (runFailed s d') := by
  induction l generalizing d with
  | nil =>
    refine Steps.single ?_
    have hd : decode (fetchAt (runAt s .mlext d)) (fetchBytes (runAt s .mlext d)) = .error .truncated := by
      show decodeByte .mlext (s.stream.input.drop d.ip) = _
      rw [h]; rfl
    rw [step_of_reject (by simp) hd]; rfl
  | cons e t ih =>
    have hd : decode (fetchAt (runAt s .mlext d)) (fetchBytes (runAt s .mlext d)) = .ok (.mlext e, t) := by
      show decodeByte .mlext (s.stream.input.drop d.ip) = _
      rw [h]; rfl
    simp only [readMLExt]
    by_cases he : e = 255#8
    · have hs : step (runAt s .mlext d) = .next (runAt s .mlext (d.takeMLExt e)) := by
        rw [step_of_decode (by simp) hd]
        show execMlext e (runAt s .mlext d) = _
        unfold execMlext
        rw [atPos_of_pos (runAt_pos s .mlext d),
          if_neg (show ¬ (runAt s .mlext d).stream.input.length ≤ (runAt s .mlext d).dec.ip from not_le_of_drop h), if_pos he]
        rfl
      rw [if_pos he]
      have := ih (d := d.takeMLExt e) (drop_succ_of_drop h)
      split at this
      · split at this <;> exact Steps.head hs this
      · exact Steps.head hs this
    · have hs : step (runAt s .mlext d) = finishMatch (runAt s .mlext (d.takeMLExt e)) := by
        rw [step_of_decode (by simp) hd]
        show execMlext e (runAt s .mlext d) = _
        unfold execMlext
        rw [atPos_of_pos (runAt_pos s .mlext d),
          if_neg (show ¬ (runAt s .mlext d).stream.input.length ≤ (runAt s .mlext d).dec.ip from not_le_of_drop h), if_neg he]
        rfl
      rw [finishMatch_runAt] at hs
      rw [if_neg he]
      simp only
      split <;> simp_all only <;> exact Steps.single hs

/-- Token and literal length of a sequence. -/
theorem steps_head (s : State) (hg : s.stream.grain = .element) {t : Byte} {rest : List Byte} {d : DecRegs}
    (h : s.stream.input.drop d.ip = t :: rest) :
    match d.readHead t rest with
    | .ok d' => Steps (runAt s .boundary d) (runAt s .literals d')
    | .error d' => Steps (runAt s .boundary d) (runFailed s d') := by
  have hd : decode (fetchAt (runAt s .boundary d)) (fetchBytes (runAt s .boundary d)) = .ok (.token t, rest) := by
    have : fetchAt (runAt s .boundary d) = .token := by simp [fetchAt, hg]
    rw [this]
    show decodeByte .token (s.stream.input.drop d.ip) = _
    rw [h]; rfl
  have hs : step (runAt s .boundary d) = .next (runAt s (if tokenLL t = 15 then .llext else .literals) (d.takeToken t)) := by
    rw [step_of_decode (by simp) hd]
    show execToken t (runAt s .boundary d) = _
    unfold execToken
    rw [atPos_of_pos (runAt_pos s .boundary d),
      if_neg (show ¬ (runAt s .boundary d).stream.input.length ≤ (runAt s .boundary d).dec.ip from not_le_of_drop h)]
    rfl
  unfold DecRegs.readHead
  by_cases hl : tokenLL t = 15
  · rw [if_pos hl]
    rw [if_pos hl] at hs
    have := steps_llext s (d := d.takeToken t) (drop_succ_of_drop h)
    split at this <;> exact Steps.head hs this
  · rw [if_neg hl]
    rw [if_neg hl] at hs
    exact Steps.single hs

/-- Offset, match length and copy. -/
theorem steps_match (s : State) (d : DecRegs) :
    match decodeMatch s.stream.input s.stream.dict s.stream.limit d with
    | .ok d' => Steps (runAt s .offset d) (runAt s .boundary d')
    | .error d' => Steps (runAt s .offset d) (runFailed s d') := by
  by_cases hin : s.stream.input.length < d.ip + 2
  · have hoff : ∀ off, d.takeOffset s.stream.input.length s.stream.dict.length off = .error d := fun off => by
      unfold DecRegs.takeOffset; rw [if_pos hin]
    have hd : decode (fetchAt (runAt s .offset d)) (fetchBytes (runAt s .offset d)) = .error .truncated := by
      show decodeLE _ 2 (s.stream.input.drop d.ip) = _
      unfold decodeLE takeLE
      rw [if_pos (by rw [List.length_drop]; omega)]
    simp only [decodeMatch, hoff]
    refine Steps.single ?_
    rw [step_of_reject (by simp) hd]; rfl
  · have hd : decode (fetchAt (runAt s .offset d)) (fetchBytes (runAt s .offset d)) =
        .ok (.offset (BitVec.ofNat 16 (leNat ((s.stream.input.drop d.ip).take 2))), (s.stream.input.drop d.ip).drop 2) := by
      show decodeLE _ 2 (s.stream.input.drop d.ip) = _
      unfold decodeLE takeLE
      rw [if_neg (by rw [List.length_drop]; omega)]
    have hs := step_of_decode (s := runAt s .offset d) (by simp) hd
    change _ = execOffset _ (runAt s .offset d) at hs
    unfold execOffset at hs
    rw [atPos_of_pos (runAt_pos s .offset d)] at hs
    simp only [runAt_dec, runAt_input, runAt_dict] at hs
    unfold decodeMatch
    cases ho : d.takeOffset s.stream.input.length s.stream.dict.length
        (BitVec.ofNat 16 (leNat ((s.stream.input.drop d.ip).take 2))) with
    | error d' =>
      rw [ho] at hs
      exact Steps.single hs
    | ok d' =>
      rw [ho] at hs
      simp only at hs ⊢
      unfold DecRegs.readTail
      by_cases hm : tokenML d'.token = 15
      · rw [if_pos hm] at hs ⊢
        have h := steps_mlext s (d := d') rfl
        have hs' : step (runAt s .offset d) = .next (runAt s .mlext d') := hs
        cases hr : readMLExt (s.stream.input.drop d'.ip) d' with
        | error d2 => rw [hr] at h; exact Steps.head hs' h
        | ok d2 =>
          rw [hr] at h
          simp only at h ⊢
          cases hc : d2.copyMatch s.stream.dict s.stream.limit with
          | error d3 => rw [hc] at h; exact Steps.head hs' h
          | ok d3 => rw [hc] at h; exact Steps.head hs' h
      · rw [if_neg hm] at hs ⊢
        have hs' : step (runAt s .offset d) = finishMatch (runAt s .offset d') := hs
        rw [finishMatch_runAt] at hs'
        simp only
        cases hc : d'.copyMatch s.stream.dict s.stream.limit with
        | error d3 => rw [hc] at hs'; exact Steps.single hs'
        | ok d3 => rw [hc] at hs'; exact Steps.single hs'

/-- One sequence of a block run, one element at a step. -/
theorem steps_seq (s : State) (hg : s.stream.grain = .element) (d : DecRegs) :
    match decodeSeq s.stream.input s.stream.dict s.stream.limit d with
    | .ok (d', true) => Steps (runAt s .boundary d) (runDone s d')
    | .ok (d', false) => Steps (runAt s .boundary d) (runAt s .boundary d')
    | .error d' => Steps (runAt s .boundary d) (runFailed s d') := by
  unfold decodeSeq
  cases h : s.stream.input.drop d.ip with
  | nil =>
    have hd : decode (fetchAt (runAt s .boundary d)) (fetchBytes (runAt s .boundary d)) = .error .truncated := by
      have : fetchAt (runAt s .boundary d) = .token := by simp [fetchAt, hg]
      rw [this]
      show decodeByte .token (s.stream.input.drop d.ip) = _
      rw [h]; rfl
    refine Steps.single ?_
    rw [step_of_reject (by simp) hd]; rfl
  | cons t rest =>
    have hh := steps_head s hg h
    dsimp only
    cases h1 : d.readHead t rest with
    | error d1 => rw [h1] at hh; exact hh
    | ok d1 =>
      rw [h1] at hh
      simp only at hh ⊢
      by_cases hin : (s.stream.input.drop d1.ip).length < d1.ll
      · have hl : d1.takeLiterals s.stream.input.length s.stream.limit ((s.stream.input.drop d1.ip).take d1.ll) = .error d1 := by
          rw [List.length_drop] at hin
          unfold DecRegs.takeLiterals; rw [if_pos (by omega)]
        have hd : decode (fetchAt (runAt s .literals d1)) (fetchBytes (runAt s .literals d1)) = .error .truncated := by
          show decodeRun _ d1.ll (s.stream.input.drop d1.ip) = _
          unfold decodeRun
          rw [if_pos hin]
        rw [hl]
        refine hh.trans (Steps.single ?_)
        rw [step_of_reject (by simp) hd]; rfl
      · have hd : decode (fetchAt (runAt s .literals d1)) (fetchBytes (runAt s .literals d1)) =
            .ok (.literals ((s.stream.input.drop d1.ip).take d1.ll), (s.stream.input.drop d1.ip).drop d1.ll) := by
          show decodeRun _ d1.ll (s.stream.input.drop d1.ip) = _
          unfold decodeRun
          rw [if_neg hin]
        have hs := step_of_decode (s := runAt s .literals d1) (by simp) hd
        change _ = execLiterals _ (runAt s .literals d1) at hs
        unfold execLiterals at hs
        rw [atPos_of_pos (runAt_pos s .literals d1),
          if_pos (by rw [List.length_take, runAt_dec]; omega)] at hs
        simp only [runAt_dec, runAt_input, runAt_limit] at hs
        cases hl : d1.takeLiterals s.stream.input.length s.stream.limit ((s.stream.input.drop d1.ip).take d1.ll) with
        | error d2 =>
          rw [hl] at hs
          exact hh.trans (Steps.single hs)
        | ok d2 =>
          rw [hl] at hs
          have hs' : step (runAt s .literals d1) =
              .next (if d2.ip = s.stream.input.length then runDone s d2 else runAt s .offset d2) := by
            rw [hs]; unfold afterStep; simp only
            congr 1
          simp only
          by_cases he : d2.ip = s.stream.input.length
          · rw [if_pos he] at hs' ⊢
            exact hh.trans (Steps.single hs')
          · rw [if_neg he] at hs' ⊢
            have hm := steps_match s d2
            cases h3 : decodeMatch s.stream.input s.stream.dict s.stream.limit d2 with
            | error d3 => rw [h3] at hm; exact hh.trans (Steps.head hs' hm)
            | ok d3 => rw [h3] at hm; exact hh.trans (Steps.head hs' hm)

end Sys2Proof.Machine
end

