-- ==== Sys2Proof/Tests/Slice0.lean ====
section
/-! SUPPORT. The model's own tests: ill-formed terms refused, words written out from the spec's encodings, one step of each
instruction (expected results from spec/95_test_vectors.md), and for every obligation with hypotheses a witness that meets
them. -/

namespace Sys2Proof.Tests

open Sys2Proof.Machine

/-! ### Helpers -/

/-- Bytes from their values. -/
abbrev bs (l : List Nat) : List Byte := l.map (BitVec.ofNat 8)

/-- What a test looks at in a next state. -/
def after {α : Type} (o : Host.Outcome State Fault Refusal) (f : State → α) : Option α :=
  match o with
  | .next t => some (f t)
  | _ => none

/-- Reset, the bytes `src` at 0x1000 as the source region, the destination region at 0x8000, and ARG. -/
def loaded (src : List Byte) (cap arg : Word) : State :=
  { State.reset with
    mem := Mem.writeBytes [] 0x1000 src
    regs := { Regs.reset with
      srcAddrLo := 0x1000#32, srcLen := BitVec.ofNat 32 src.length, dstAddrLo := 0x8000#32, dstCap := cap, arg := arg } }

/-- The host's next action is the store of `v` to CMD. -/
def issue (v : Word) (s : State) : State := { s with host := [.storeReg 0 .word v] }

/-- STATUS, RESULT and the first bytes of the destination region. -/
def report (n : Nat) (t : State) : Nat × Nat × List Byte :=
  (t.regs.status.word.toNat, t.regs.result.toNat, Mem.readBytes t.mem 0x8000 n)

/-- A block run at position `p`. -/
def blockRun (p : Pos) (input dict : List Byte) (limit : Nat) (d : DecRegs) : State :=
  { State.reset with
    dec := d, stream := { Stream.reset with pos := p, input := input, dict := dict, limit := limit } }

/-- The same, a whole sequence at a step. -/
def seqRun (input dict : List Byte) (limit : Nat) (d : DecRegs) : State :=
  { State.reset with
    dec := d
    stream := { Stream.reset with pos := .boundary, grain := .sequence, input := input, dict := dict, limit := limit } }

/-- What a test looks at in a block run: position, cursor, output, verdict. -/
def blockView (t : State) : Pos × Nat × List Byte × Verdict :=
  (t.stream.pos, t.dec.ip, t.dec.out, t.stream.verdict)

/-- A reader that has read the header H1 with the flags `flags` and stands at RIP 0. -/
def reader (flags : Word) : ReaderCtx :=
  { ReaderCtx.reset with state := .blocks, finfo := { FinfoRegs.reset with flags := flags, bsclass := 4#32 } }

/-- A frame run at position `p`. -/
def frameRun (p : Pos) (input : List Byte) (r : ReaderCtx) : State :=
  { State.reset with stream := { Stream.reset with pos := p, input := input, reader := r } }

/-- What a test looks at in a frame run: position, RIP, content, verdict. -/
def frameView (t : State) : Pos × Nat × List Byte × Verdict :=
  (t.stream.pos, t.stream.reader.rip, t.stream.content, t.stream.verdict)

/-- A writer just opened with the reset preferences but for PREF_FLAGS and PREF_LEVEL. -/
def writer (flags level : Word) : WriterCtx :=
  { WriterCtx.reset with state := .header, prefs := { PrefRegs.reset with flags := flags, level := level } }

/-- 13 × 'a', and E4, its encoding. -/
abbrev aaa : List Byte := List.replicate 13 0x61#8
abbrev e4 : List Byte := bs [0x13, 0x61, 1, 0, 0x50, 0x61, 0x61, 0x61, 0x61, 0x61]

/-! ### Ill-formed terms (WellFormed) -/

theorem test_illformed_offset : (Instr.offset 0#16).wellFormed = false := by decide
theorem test_illformed_seq_offset : (Instr.seq [] 0#16 4).wellFormed = false := by decide
theorem test_illformed_seq_length : (Instr.seq [] 1#16 3).wellFormed = false := by decide
theorem test_illformed_flg_version : (Instr.flg 0x20#8).wellFormed = false := by decide
theorem test_illformed_flg_version3 : (Instr.flg 0xE0#8).wellFormed = false := by decide
theorem test_illformed_flg_reserved : (Instr.flg 0x62#8).wellFormed = false := by decide
theorem test_illformed_bd_reserved_high : (Instr.bd 0xC0#8).wellFormed = false := by decide
theorem test_illformed_bd_reserved_low : (Instr.bd 0x48#8).wellFormed = false := by decide
theorem test_illformed_bd_class : (Instr.bd 0x30#8).wellFormed = false := by decide
theorem test_illformed_blkhdr : (Instr.blkhdr false 0#31).wellFormed = false := by decide
theorem test_illformed_illegal : (Instr.illegalCmd 0x01#32).wellFormed = false := by decide
theorem test_wellformed_flg : (Instr.flg 0x7D#8).wellFormed = true := by decide
theorem test_wellformed_bd : (Instr.bd 0x70#8).wellFormed = true := by decide

/-! ### Words of the spec's encodings, each constructor (30_encoding.md R92 to R118; vectors of 95_test_vectors.md) -/

theorem test_decode_token : decode .token (bs [0x4F, 9]) = .ok (.token 0x4F#8, bs [9]) := rfl
theorem test_decode_llext : decode .llext (bs [0x01, 9]) = .ok (.llext 1#8, bs [9]) := rfl
theorem test_decode_literals : decode (.literals 2) (bs [0x61, 0x62, 9]) = .ok (.literals (bs [0x61, 0x62]), bs [9]) := rfl
theorem test_decode_offset : decode .offset (bs [0x04, 0x01, 9]) = .ok (.offset 0x0104#16, bs [9]) := rfl
theorem test_decode_mlext : decode .mlext (bs [0xFF, 9]) = .ok (.mlext 255#8, bs [9]) := rfl
theorem test_decode_seq :
    decode .sequence (bs [0x1F, 0x58, 0x09, 0x00, 0x01, 0x50]) = .ok (.seq (bs [0x58]) 9#16 20, bs [0x50]) := rfl
theorem test_decode_last : decode .sequence (bs [0x1A, 0x61]) = .ok (.last (bs [0x61]) 10#4, []) := rfl
theorem test_decode_magic : decode .magic (bs [0x04, 0x22, 0x4D, 0x18, 9]) = .ok (.magic, bs [9]) := rfl
theorem test_decode_flg : decode .flg (bs [0x7D, 9]) = .ok (.flg 0x7D#8, bs [9]) := rfl
theorem test_decode_bd : decode .bd (bs [0x70, 9]) = .ok (.bd 0x70#8, bs [9]) := rfl
theorem test_decode_csize :
    decode .csize (bs [0x14, 1, 0, 0, 0, 0, 0, 0x80]) = .ok (.csize 0x8000000000000114#64, []) := rfl
theorem test_decode_dictid : decode .dictid (bs [0x44, 0x33, 0x22, 0x11]) = .ok (.dictid 0x11223344#32, []) := rfl
theorem test_decode_hc : decode .hc (bs [0x82, 9]) = .ok (.hc 0x82#8, bs [9]) := rfl
theorem test_decode_blkhdr : decode .block (bs [0x03, 0, 0, 0x80, 9]) = .ok (.blkhdr true 3#31, bs [9]) := rfl
theorem test_decode_blkhdr_compressed : decode .block (bs [0x0B, 1, 0, 0]) = .ok (.blkhdr false 267#31, []) := rfl
theorem test_decode_payload : decode (.payload 2) (bs [0x41, 0x42, 9]) = .ok (.payload (bs [0x41, 0x42]), bs [9]) := rfl
theorem test_decode_blksum : decode .blksum (bs [0x63, 0x68, 0x80, 0xB5]) = .ok (.blksum 0xB5806863#32, []) := rfl
theorem test_decode_endmark : decode .block (bs [0, 0, 0, 0, 9]) = .ok (.endmark, bs [9]) := rfl
theorem test_decode_csum : decode .csum (bs [0x1D, 0x27, 0xF3, 0xBE]) = .ok (.csum 0xBEF3271D#32, []) := rfl
theorem test_decode_maxlen : decode .command (bs [0x01, 0, 0, 0]) = .ok (.maxlen, []) := rfl
theorem test_decode_compress : decode .command (bs [0x02, 0, 0, 0]) = .ok (.compressBlock, []) := rfl
theorem test_decode_decompress : decode .command (bs [0x03, 0, 0, 0]) = .ok (.decompressBlock, []) := rfl
theorem test_decode_open_writer : decode .command (bs [0x10, 0, 0, 0]) = .ok (.openWriter, []) := rfl
theorem test_decode_write_frame : decode .command (bs [0x11, 0, 0, 0]) = .ok (.writeFrame, []) := rfl
theorem test_decode_close_writer : decode .command (bs [0x12, 0, 0, 0]) = .ok (.closeWriter, []) := rfl
theorem test_decode_open_reader : decode .command (bs [0x20, 0, 0, 0]) = .ok (.openReader, []) := rfl
theorem test_decode_read_frame : decode .command (bs [0x21, 0, 0, 0]) = .ok (.readFrame, []) := rfl
theorem test_decode_close_reader : decode .command (bs [0x22, 0, 0, 0]) = .ok (.closeReader, []) := rfl
theorem test_decode_illegal : decode .command (bs [0x02, 1, 0, 0]) = .ok (.illegalCmd 0x102#32, []) := rfl
theorem test_decode_truncated : decode .offset (bs [0x01]) = .error .truncated := rfl
theorem test_decode_bad_magic : decode .magic (bs [0x04, 0x22, 0x4D, 0x19]) = .error .badMagic := rfl
theorem test_table_command : decodeTableWord 32 0x10 = some .openWriter := rfl
theorem test_table_flg : decodeTableWord 8 0x40 = some (.flg 0x40#8) := rfl
theorem test_table_blkhdr : decodeTableWord 32 0x80000000 = some (.blkhdr true 0#31) := rfl

/-! ### One step of each wire element of a block (P1, D4, D8, D12, D14, D16, D19) -/

theorem test_token_p1 : after (step (blockRun .boundary (bs [0x1F, 0x58]) [] 34 DecRegs.reset))
    (fun t => (blockView t, t.dec.ll)) = some ((.literals, 1, [], .running), 1) := by decide
theorem test_token_extension : after (step (blockRun .boundary (bs [0xF0, 0]) [] 34 DecRegs.reset))
    (fun t => (blockView t, t.dec.ll)) = some ((.llext, 1, [], .running), 15) := by decide
theorem test_llext : after (step (blockRun .llext (bs [0xF0, 0x03]) [] 34 { DecRegs.reset with ip := 1, ll := 15 }))
    (fun t => (blockView t, t.dec.ll)) = some ((.literals, 2, [], .running), 18) := by decide
theorem test_llext_missing : after (step (blockRun .llext (bs [0xF0]) [] 34 { DecRegs.reset with ip := 1, ll := 15 }))
    blockView = some (.idle, 1, [], .raised .corruptedInput) := by decide
theorem test_literals : after (step (blockRun .literals (bs [0x22, 0x61, 0x62, 2, 0]) [] 34
    { DecRegs.reset with ip := 1, ll := 2 })) blockView = some (.offset, 3, bs [0x61, 0x62], .running) := by decide
theorem test_literals_end : after (step (blockRun .literals (bs [0x1A, 0x61]) [] 34 { DecRegs.reset with ip := 1, ll := 1 }))
    blockView = some (.idle, 2, bs [0x61], .returned) := by decide
theorem test_offset_p1 : after (step (blockRun .offset (bs [0x22, 0x61, 0x62, 2, 0, 0]) [] 34
    { DecRegs.reset with ip := 3, token := 0x22#8, out := bs [0x61, 0x62] })) blockView =
    some (.boundary, 5, bs [0x61, 0x62, 0x61, 0x62, 0x61, 0x62, 0x61, 0x62], .running) := by decide
theorem test_offset_zero : after (step (blockRun .offset (bs [0x10, 0x61, 0, 0, 0]) [] 34
    { DecRegs.reset with ip := 2, token := 0x10#8, out := bs [0x61] })) blockView =
    some (.idle, 4, bs [0x61], .raised .corruptedInput) := by decide
theorem test_mlext_pattern : after (step (blockRun .mlext (bs [0x1F, 0x58, 9, 0, 1, 0x50]) [] 34
    { DecRegs.reset with ip := 4, ml := 19, off := 3#16, out := bs [1, 2, 3] })) blockView =
    some (.boundary, 5, bs [1, 2, 3, 1, 2, 3, 1, 2, 3, 1, 2, 3, 1, 2, 3, 1, 2, 3, 1, 2, 3, 1, 2], .running) := by decide
theorem test_mlext_255 : after (step (blockRun .mlext (bs [255, 0]) [] 34 { DecRegs.reset with ml := 19 }))
    (fun t => (blockView t, t.dec.ml)) = some ((.mlext, 1, [], .running), 274) := by decide
theorem test_seq_dictionary : after (step (seqRun (bs [0x12, 0x41, 2, 0, 0]) (bs [0x70, 0x71]) 7 DecRegs.reset))
    blockView = some (.boundary, 4, bs [0x41, 0x71, 0x41, 0x71, 0x41, 0x71, 0x41], .running) := by decide
theorem test_seq_limit : after (step (seqRun (bs [0x10, 0x61, 1, 0, 0]) [] 4 DecRegs.reset))
    blockView = some (.idle, 4, bs [0x61], .raised .corruptedInput) := by decide
theorem test_last_nibble : after (step (seqRun (bs [0x1A, 0x61]) [] 34 DecRegs.reset))
    blockView = some (.idle, 2, bs [0x61], .returned) := by decide
theorem test_last_limit : after (step (seqRun (bs [0x30, 0x61, 0x62, 0x63]) [] 2 DecRegs.reset))
    (fun t => t.stream.verdict) = some (.raised .corruptedInput) := by decide

/-! ### One step of each wire element of a frame (F4, F6, F11, F12, F14, F15, F20, F21) -/

theorem test_magic : after (step (frameRun .magic (bs [4, 0x22, 0x4D, 0x18, 0x60]) runReader)) frameView =
    some (.flg, 4, [], .running) := by decide
theorem test_magic_wrong : after (step (frameRun .magic (bs [4, 0x22, 0x4D, 0x19, 0x60]) runReader)) frameView =
    some (.idle, 0, [], .raised .corruptedInput) := by decide
theorem test_flg : after (step (frameRun .flg (bs [0x60, 0x40]) runReader)) (fun t => (frameView t, t.hdr.flg)) =
    some ((.bd, 1, [], .running), 0x60#8) := by decide
theorem test_flg_truncated : after (step (frameRun .flg (bs [0x60]) runReader)) frameView =
    some (.idle, 0, [], .raised .corruptedInput) := by decide
theorem test_bd : after (step { frameRun .bd (List.replicate 20 0x40#8) { runReader with rip := 5 } with
    hdr := { HdrRegs.reset with flg := 0x68#8 } }) (fun t => (frameView t, t.hdr.bd)) =
    some ((.csize, 6, [], .running), 0x40#8) := by decide
theorem test_bd_truncated : after (step { frameRun .bd (List.replicate 14 0x40#8) { runReader with rip := 5 } with
    hdr := { HdrRegs.reset with flg := 0x68#8 } }) frameView =
    some (.idle, 6, [], .raised .corruptedInput) := by decide
theorem test_csize : after (step { frameRun .csize (bs [20, 0, 0, 0, 0, 0, 0, 0, 9]) runReader with
    hdr := { HdrRegs.reset with flg := 0x69#8 } }) (fun t => (frameView t, t.hdr.csize)) =
    some ((.dictid, 8, [], .running), 20#64) := by decide
theorem test_dictid : after (step (frameRun .dictid (bs [0x44, 0x33, 0x22, 0x11, 9]) runReader))
    (fun t => (frameView t, t.hdr.dictid)) = some ((.hc, 4, [], .running), 0x11223344#32) := by decide
theorem test_blkhdr : after (step (frameRun .block (bs [3, 0, 0, 0x80, 0x41, 0x42, 0x43]) (reader 0x60#32)))
    (fun t => (frameView t, t.blk.raw, t.blk.size)) = some ((.payload, 4, [], .running), true, 3) := by decide
theorem test_blkhdr_too_big : after (step (frameRun .block (bs [1, 0, 1, 0x80]) (reader 0x60#32))) frameView =
    some (.idle, 4, [], .raised .corruptedInput) := by decide
theorem test_payload_raw : after (step { frameRun .payload (bs [0x41, 0x42, 0x43]) (reader 0x60#32) with
    blk := { BlkRegs.reset with raw := true, size := 3 } }) frameView =
    some (.block, 3, bs [0x41, 0x42, 0x43], .running) := by decide
theorem test_payload_compressed : after (step { frameRun .payload e4 (reader 0x60#32) with
    blk := { BlkRegs.reset with raw := false, size := 10 } }) frameView =
    some (.block, 10, aaa, .running) := by decide
theorem test_endmark : after (step (frameRun .block (bs [0, 0, 0, 0]) (reader 0x60#32))) frameView =
    some (.idle, 4, [], .returned) := by decide
theorem test_endmark_size : after (step (frameRun .block (bs [0, 0, 0, 0])
    { reader 0x68#32 with finfo := { (reader 0x68#32).finfo with csizeLo := 20#32 }, total := 19 })) frameView =
    some (.idle, 4, [], .raised .corruptedInput) := by decide

/-- HC with the checksum that `hash32` gives (F1): the blocks begin. -/
theorem test_hc : ∀ c, c = hdrsum (Config.hash32 (bs [0x60, 0x40])) →
    after (step { frameRun .hc [c] runReader with hdr := { HdrRegs.reset with flg := 0x60#8, bd := 0x40#8 } })
      (fun t => (frameView t, t.stream.reader.finfo.flags)) = some ((.block, 1, [], .running), 0x60#32) := by
  intro c h
  have hd : (bs [0x60, 0x40]) = descriptor 0x60#8 0x40#8 0#64 0#32 := rfl
  rw [hd] at h
  simp [step, frameRun, streamStep, fetchAt, fetchBytes, Pos.inBlock, runReader, ReaderCtx.reset, decode, decodeByte, exec,
    execHc, frameElement, atPos, runTruncated, advanceRun, putStreamWork, streamWork, ReadWork.advance, ← h, HdrRegs.reset]
  rfl

/-- BLKSUM and CSUM accept the sum that `hash32` gives (F14, F21). -/
theorem test_blksum : after (exec (.blksum (Config.hash32 (bs [0x5A])))
    { frameRun .blksum (bs [0, 0, 0, 0]) (reader 0x70#32) with blk := { raw := true, size := 1, payload := bs [0x5A] } })
      frameView = some (.block, 4, bs [0x5A], .running) := by
  simp [exec, execBlksum, atPos, frameRun, ReadWork.takeBlksum, streamWork, afterRead]
  rfl
theorem test_csum : after (exec (.csum (Config.hash32 [])) (frameRun .csum (bs [0, 0, 0, 0]) (reader 0x64#32))) frameView =
    some (.idle, 4, [], .returned) := by
  simp [exec, execCsum, atPos, frameRun, ReadWork.takeCsum, streamWork, afterRead, reader, ReaderCtx.reset]
  rfl

/-! ### One step of each command (M-table, E4, E12, E13, C10, R283, W1, W2, W4, F15, C6) -/

theorem test_maxlen : after (step (issue 0x01#32 (loaded [] 0#32 13#32))) (report 0) = some (2, 29, []) := by decide
theorem test_maxlen_too_long : after (step (issue 0x01#32 (loaded [] 0#32 0x80000000#32))) (report 0) =
    some (0x12, 0, []) := by decide
theorem test_compress_e4 : after (step (issue 0x02#32 (loaded aaa 10#32 0#32))) (report 10) = some (2, 10, e4) := by decide
theorem test_compress_nofit : after (step (issue 0x02#32 (loaded aaa 9#32 0#32))) (report 0) = some (6, 0, []) := by decide
theorem test_decompress_d3 : after (step (issue 0x03#32 (loaded e4 13#32 13#32))) (report 13) = some (2, 13, aaa) := by
  decide
theorem test_decompress_too_small : after (step (issue 0x03#32 (loaded e4 12#32 13#32))) (report 0) =
    some (0x32, 0, []) := by decide
theorem test_open_writer : after (step (issue 0x10#32 (loaded [] 0#32 0#32)))
    (fun t => (report 0 t, t.regs.handle, t.writers.map (·.state))) = some ((2, 0, []), 0#32, [.header]) := by decide
theorem test_write_frame_raw : after (step (issue 0x11#32 { loaded (bs [0x61, 0x62, 0x63]) 7#32 0#32 with
    writers := [{ writer 0x20#32 0#32 with state := .blocks }] })) (report 7) =
    some (2, 7, bs [3, 0, 0, 0x80, 0x61, 0x62, 0x63]) := by decide
theorem test_close_writer : after (step (issue 0x12#32 { loaded [] 4#32 0#32 with
    writers := [{ writer 0x20#32 0#32 with state := .blocks }] }))
    (fun t => (report 4 t, t.writers.map (·.state))) = some ((2, 4, bs [0, 0, 0, 0]), [.closed]) := by decide
theorem test_open_reader_short : after (step (issue 0x20#32 (loaded (bs [4, 0x22, 0x4D]) 0#32 0#32))) (report 0) =
    some (0x22, 0, []) := by decide
theorem test_read_frame_part : after (step (issue 0x21#32 { loaded (bs [3, 0, 0, 0x80, 0x41, 0x42, 0x43, 0, 0, 0, 0]) 2#32 2#32
    with readers := [{ reader 0x60#32 with srcAddr := 0x1000#64, srcLen := 11#32 }] }))
    (fun t => (report 2 t, t.readers.map (fun r => (r.rip, r.stage)))) =
    some ((2, 2, bs [0x41, 0x42]), [(7, bs [0x43])]) := by decide
theorem test_read_frame_end : after (step (issue 0x21#32 { loaded (bs [0, 0, 0, 0]) 2#32 2#32
    with readers := [{ reader 0x60#32 with srcAddr := 0x1000#64, srcLen := 4#32 }] })) (report 0) =
    some (10, 0, []) := by decide
theorem test_close_reader : after (step (issue 0x22#32 { loaded [] 0#32 0#32 with readers := [reader 0x60#32] }))
    (fun t => (report 0 t, t.readers.map (·.state))) = some ((2, 0, []), [.closed]) := by decide
theorem test_close_reader_closed : after (step (issue 0x22#32 (loaded [] 0#32 0#32))) (report 0) =
    some (0x12, 0, []) := by decide
theorem test_illegal : after (step (issue 0x7F#32 (loaded [] 0#32 0#32))) (report 0) = some (0x12, 0, []) := by decide

/-! ### The host's other actions, and the placing of a table word -/

theorem test_store_load : after (step { State.reset with host := [.storeReg 0x28 .word 7#32] })
    (fun t => t.regs.read .arg) = some 7#32 := by decide
theorem test_unaligned_refused : step { State.reset with host := [.loadReg 0x02 .word] } =
    .refused .registerAccessNotAWord := rfl
theorem test_byte_outside : step { State.reset with host := [.loadByte (2 ^ 64)] } = .fault .addressOutsideBM := rfl
theorem test_fetch_command : step (State.reset.withFetchWord 32 0x10) = exec .openWriter State.reset := rfl

/-! ### Witnesses: for each obligation with hypotheses, a state and operands that meet all of them -/

/-- A state with a store to CMD pending, in the invariant. -/
def pending : State := State.reset.withFetchWord 32 0x10

theorem pending_inv : pending.Inv := by
  refine ⟨by decide, ⟨by decide, by decide⟩, rfl, ⟨by decide, by decide, by decide⟩, ?_, ?_, fun h => absurd h (by decide)⟩
  · intro w hw
    have : w = WriterCtx.reset := by simpa [pending, State.withFetchWord, tablePosition, placeCommand, State.reset,
      State.resetWith, Instr.commandWords, Config.magic] using hw
    subst this; exact ⟨.inl rfl, fun h => absurd rfl h⟩
  · intro r hr
    have : r = ReaderCtx.reset := by simpa [pending, State.withFetchWord, tablePosition, placeCommand, State.reset,
      State.resetWith, Instr.commandWords, Config.magic] using hr
    subst this; exact ⟨.inl rfl, fun h => absurd rfl h⟩

theorem witness_StepKeepsTheInvariant : ∃ s t : State, s.Inv ∧ step s = .next t ∧ t ≠ s :=
  ⟨pending, _, pending_inv, rfl, by decide⟩

theorem witness_ResetEventResetsTheDeviceAndKeepsMemory : ∃ (s : State) (rest : List HostOp),
    s.stream.pos = .idle ∧ s.host = HostOp.reset :: rest :=
  ⟨{ loaded aaa 10#32 0#32 with host := [.reset] }, [], rfl, rfl⟩

theorem witness_StepRunsTheStoredCommand : ∃ (s : State) (v : Word) (rest : List HostOp),
    s.stream.pos = .idle ∧ s.regs.status.busy = false ∧ s.host = .storeReg 0 .word v :: rest :=
  ⟨issue 0x02#32 (loaded aaa 10#32 0#32), 0x02#32, [], rfl, rfl, rfl⟩

theorem witness_StepRunsTheDecodedElement :
    (∃ s i rest, s.stream.pos ≠ .idle ∧ decode (fetchAt s) (fetchBytes s) = .ok (i, rest)) ∧
    (∃ s e, s.stream.pos ≠ .idle ∧ decode (fetchAt s) (fetchBytes s) = .error e) :=
  ⟨⟨seqRun e4 [] 13 DecRegs.reset, .seq [0x61#8] 1#16 7, bs [0x50, 0x61, 0x61, 0x61, 0x61, 0x61], by decide, rfl⟩,
    ⟨blockRun .offset [1#8] [] 13 DecRegs.reset, .truncated, by decide, rfl⟩⟩

theorem witness_DecodeOfEncodeIsTheInstruction :
    (∃ (i : Instr) (rest : List Byte), i.wellFormed = true ∧ ((∃ lit mln, i = .last lit mln) → rest = []) ∧ rest ≠ []) ∧
    (∃ (lit : List Byte) (mln : BitVec 4), (Instr.last lit mln).wellFormed = true) :=
  ⟨⟨.seq [] 65535#16 4, [9#8], by decide, (by rintro ⟨_, _, h⟩; cases h), by decide⟩, ⟨List.replicate 15 1#8, 15#4, by decide⟩⟩

theorem witness_EncodeOfDecodeIsTheBytes : ∃ (p : DecodeAt) (b rest : List Byte) (i : Instr), decode p b = .ok (i, rest) :=
  ⟨.sequence, e4, _, _, rfl⟩

theorem witness_LengthEncodingIsExactAndUnique :
    (∃ (nib v k : Nat) (b : List Byte), nib ≤ 15 ∧ readLen nib b = some (v, k)) ∧ (∃ v : Nat, v < 15) ∧ (∃ v : Nat, 15 ≤ v) :=
  ⟨⟨15, 15, 1, [0#8], by decide, rfl⟩, ⟨14, by decide⟩, ⟨15, by decide⟩⟩

theorem witness_HostAccessesFollowTheirRules :
    (∃ (s : State) (v : Word), s.stream.pos = .idle ∧ s.regs.status.busy = false ∧ 0x90 % 4 = 0 ∧
      regAt 0x90 = some .cfgHashMult ∧ s.host = .storeReg 0x90 .word v :: []) ∧
    (∃ (s : State) (v : Word), s.stream.pos = .idle ∧ s.regs.status.busy = false ∧ regAt 0x2C = none ∧
      s.host = .storeReg 0x2C .word v :: []) ∧
    (∃ (s : State) (v : Word), s.stream.pos = .idle ∧ s.regs.status.busy = false ∧ s.host = .storeReg 0x64 .word v :: []) ∧
    (∃ s : State, s.stream.pos = .idle ∧ s.regs.status.busy = false ∧ regAt 0x94 = none ∧
      s.host = .loadReg 0x94 .word :: []) ∧
    (∃ s : State, s.stream.pos = .idle ∧ s.regs.status.busy = false ∧ s.host = .loadReg 0x00 .word :: []) ∧
    (∃ s : State, s.stream.pos = .idle ∧ s.regs.status.busy = false ∧ regAt 0x04 = some .status ∧
      s.host = .loadReg 0x04 .word :: []) ∧
    (∃ (s : State) (v : Word), s.stream.pos = .idle ∧ s.regs.status.busy = true ∧ 0 % 4 = 0 ∧ s.host = .storeReg 0 .word v :: []) ∧
    (∃ s : State, s.stream.pos = .idle ∧ s.regs.status.busy = true ∧ s.host = .loadReg 0x04 .word :: []) ∧
    (∃ (s : State) (a : Nat) (b : Byte), s.stream.pos = .idle ∧ Mem.wf s.mem ∧ a + 1 = s.params.bmSize ∧
      s.host = .storeByte a b :: []) ∧
    (∃ (s : State) (a : Nat), s.stream.pos = .idle ∧ Mem.wf s.mem ∧ a + 1 = s.params.bmSize ∧ s.host = .loadByte a :: []) ∧
    (∃ s : State, s.stream.pos = .idle ∧ s.regs.status.busy = true ∧ Mem.wf s.mem ∧ 0 < s.params.bmSize ∧
      s.host = .loadByte 0 :: []) :=
  ⟨⟨{ State.reset with host := [.storeReg 0x90 .word 3#32] }, 3#32, rfl, rfl, rfl, rfl, rfl⟩,
    ⟨{ State.reset with host := [.storeReg 0x2C .word 3#32] }, 3#32, rfl, rfl, rfl, rfl⟩,
    ⟨{ State.reset with host := [.storeReg 0x64 .word 3#32] }, 3#32, rfl, rfl, rfl⟩,
    ⟨{ State.reset with host := [.loadReg 0x94 .word] }, rfl, rfl, rfl, rfl⟩,
    ⟨{ State.reset with host := [.loadReg 0x00 .word] }, rfl, rfl, rfl⟩,
    ⟨{ State.reset with host := [.loadReg 0x04 .word] }, rfl, rfl, rfl, rfl⟩,
    ⟨{ startCommand State.reset with host := [.storeReg 0 .word 1#32] }, 1#32, rfl, rfl, rfl, rfl⟩,
    ⟨{ startCommand State.reset with host := [.loadReg 0x04 .word] }, rfl, rfl, rfl⟩,
    ⟨{ State.reset with host := [.storeByte (2 ^ 64 - 1) 7#8] }, _, 7#8, rfl, by decide, rfl, rfl⟩,
    ⟨{ State.reset with host := [.loadByte (2 ^ 64 - 1)] }, _, rfl, by decide, rfl, rfl⟩,
    ⟨{ startCommand State.reset with host := [.loadByte 0] }, rfl, rfl, by decide, by decide, rfl⟩⟩

theorem witness_MaxlenAnswersTheBound :
    (∃ s : State, s.regs.arg.toNat = 2 ^ 31 - 1) ∧ (∃ s : State, s.regs.arg.toNat = 2 ^ 31) :=
  ⟨⟨loaded [] 0#32 0x7FFFFFFF#32, rfl⟩, ⟨loaded [] 0#32 0x80000000#32, rfl⟩⟩

theorem witness_IllegalCommandChangesNothing : ∃ w : Word,
    w ∉ [0x01#32, 0x02#32, 0x03#32, 0x10#32, 0x11#32, 0x12#32, 0x20#32, 0x21#32, 0x22#32] := ⟨0x102#32, by decide⟩

theorem witness_CompressBlockDeliversOrReportsNofit :
    (∃ s : State, Mem.wf s.mem ∧ regionsValid s.params s.regs ∧ s.regs.cfg.legal ∧
      (encodeBlock (policyOf s.params) s.regs.cfg s.regs.arg.toInt true [] (srcBytes s) TableSet.empty 0 s.enc).1.out.length =
        s.regs.dstCap.toNat) ∧
    (∃ s : State, Mem.wf s.mem ∧ regionsValid s.params s.regs ∧ s.regs.cfg.legal ∧
      (encodeBlock (policyOf s.params) s.regs.cfg s.regs.arg.toInt true [] (srcBytes s) TableSet.empty 0 s.enc).1.out.length =
        s.regs.dstCap.toNat + 1) :=
  ⟨⟨loaded aaa 10#32 0#32, by decide, by decide, by decide, by decide⟩,
    ⟨loaded aaa 9#32 0#32, by decide, by decide, by decide, by decide⟩⟩

/-- How DECOMPRESS_BLOCK's decoder ends on a state. -/
def decodedLength (s : State) : Option Nat :=
  match decodeBlock (srcBytes s) [] s.regs.arg.toNat s.dec with
  | .ok d => some d.out.length
  | .error _ => none

theorem decodedLength_some {s : State} {n : Nat} (h : decodedLength s = some n) :
    ∃ d, decodeBlock (srcBytes s) [] s.regs.arg.toNat s.dec = .ok d ∧ d.out.length = n := by
  unfold decodedLength at h
  split at h
  · exact ⟨_, by assumption, by simpa using h⟩
  · simp at h

theorem decodedLength_none {s : State} (h : decodedLength s = none) :
    ∃ d, decodeBlock (srcBytes s) [] s.regs.arg.toNat s.dec = .error d := by
  unfold decodedLength at h
  split at h
  · simp at h
  · exact ⟨_, by assumption⟩

theorem witness_DecompressBlockDeliversExactlyTheKnownLength :
    (∃ s : State, Mem.wf s.mem ∧ regionsValid s.params s.regs ∧ s.regs.arg.toNat ≤ 2 ^ 31 - 1 ∧
      s.regs.dstCap.toNat + 1 = s.regs.arg.toNat) ∧
    (∃ s d, Mem.wf s.mem ∧ regionsValid s.params s.regs ∧ s.regs.arg.toNat = s.regs.dstCap.toNat ∧
      decodeBlock (srcBytes s) [] s.regs.arg.toNat s.dec = .ok d ∧ d.out.length = s.regs.arg.toNat) ∧
    (∃ s d, Mem.wf s.mem ∧ regionsValid s.params s.regs ∧ s.regs.arg.toNat ≤ s.regs.dstCap.toNat ∧
      decodeBlock (srcBytes s) [] s.regs.arg.toNat s.dec = .ok d ∧ d.out.length + 1 = s.regs.arg.toNat) ∧
    (∃ s d, Mem.wf s.mem ∧ regionsValid s.params s.regs ∧ s.regs.arg.toNat ≤ s.regs.dstCap.toNat ∧
      decodeBlock (srcBytes s) [] s.regs.arg.toNat s.dec = .error d) := by
  refine ⟨⟨loaded e4 12#32 13#32, by decide, by decide, by decide, by decide⟩, ?_, ?_, ?_⟩
  · obtain ⟨d, h, hl⟩ := decodedLength_some (s := loaded e4 13#32 13#32) (n := 13) (by decide)
    exact ⟨_, d, by decide, by decide, by decide, h, hl⟩
  · obtain ⟨d, h, hl⟩ := decodedLength_some (s := loaded e4 14#32 14#32) (n := 13) (by decide)
    exact ⟨_, d, by decide, by decide, by decide, h, by rw [hl]; rfl⟩
  · obtain ⟨d, h⟩ := decodedLength_none (s := loaded e4 12#32 12#32) (by decide)
    exact ⟨_, d, by decide, by decide, by decide, h⟩

theorem witness_OpenWriterTakesTheLowestClosedContext : ∃ (s : State) (k : Nat) (w : WriterCtx),
    s.regs.pref.legal ∧ s.regs.cfg.legal ∧ s.writers[k]? = some w ∧ w.state = .closed ∧ 0 < k ∧
    (∀ j v, j < k → s.writers[j]? = some v → v.state ≠ .closed) :=
  ⟨{ State.reset with writers := [writer 0x20#32 0#32, WriterCtx.reset, WriterCtx.reset] }, 1, WriterCtx.reset, by decide,
    by decide, rfl, rfl, by decide, fun j v hj hv => by
      obtain rfl : j = 0 := by omega
      obtain rfl : writer 0x20#32 0#32 = v := by simpa using hv
      decide⟩

/-- A state with the writer `w` open under handle 0. -/
def writing (w : WriterCtx) (src : List Byte) (cap : Word) : State := { loaded src cap 0#32 with writers := [w] }

theorem witness_WriteFrameDeliversTheBlocksOfItsData :
    (∃ (s : State) (w : WriterCtx), Mem.wf s.mem ∧ s.writers[s.regs.handle.toNat]? = some w ∧ writeValid s w ∧
      w.state = .header ∧ w.total + s.regs.srcLen.toNat < 2 ^ 64 ∧
      writeNeed w s.regs.srcLen.toNat = s.regs.dstCap.toNat) ∧
    (∃ (s : State) (w : WriterCtx), Mem.wf s.mem ∧ s.writers[s.regs.handle.toNat]? = some w ∧ writeValid s w ∧
      w.state = .blocks ∧ w.total + s.regs.srcLen.toNat < 2 ^ 64) :=
  ⟨⟨writing (writer 0x34#32 0#32) aaa 28#32, writer 0x34#32 0#32, by decide, rfl, by decide, rfl, by decide, by decide⟩,
    ⟨writing { writer 0x34#32 0#32 with state := .blocks, total := 13, acc := aaa } [] 0#32,
      { writer 0x34#32 0#32 with state := .blocks, total := 13, acc := aaa }, by decide, rfl, by decide, rfl, by decide⟩⟩

theorem witness_CloseWriterDeliversTheTrailer :
    (∃ (s : State) (w : WriterCtx), Mem.wf s.mem ∧ s.writers[s.regs.handle.toNat]? = some w ∧ closeValid s w ∧
      w.state = .header ∧ closeNeed w = s.regs.dstCap.toNat) ∧
    (∃ (s : State) (w : WriterCtx), Mem.wf s.mem ∧ s.writers[s.regs.handle.toNat]? = some w ∧ closeValid s w ∧
      w.state = .blocks ∧ w.prefs.ccsum = true) :=
  ⟨⟨writing (writer 0x20#32 0#32) [] 11#32, writer 0x20#32 0#32, by decide, rfl, by decide, rfl, by decide⟩,
    ⟨writing { writer 0x34#32 0#32 with state := .blocks, total := 13, acc := aaa } [] 8#32,
      { writer 0x34#32 0#32 with state := .blocks, total := 13, acc := aaa }, by decide, rfl, by decide, rfl, by decide⟩⟩

/-- The frame of no content that the reset preferences give (F1). -/
def emptyFrame : List Byte := headerBytes PrefRegs.reset ++ [0#8, 0#8, 0#8, 0#8]

theorem emptyFrame_eq : emptyFrame =
    bs [4, 0x22, 0x4D, 0x18, 0x60, 0x40] ++ [hdrsum (Config.hash32 (bs [0x60, 0x40]))] ++ [0#8, 0#8, 0#8, 0#8] := rfl

theorem emptyFrame_header : parseHeader emptyFrame = .ok (finfoOf 0x60#8 0x40#8 0#64 0#32) := by
  rw [emptyFrame_eq]
  simp only [parseHeader, bs, List.map, List.cons_append, List.nil_append, List.getD_cons_succ, List.getD_cons_zero]
  rw [if_neg (by decide), if_neg (by decide), if_neg (by decide), if_neg ?_, if_neg (by decide)]
  · rfl
  · intro h; exact h rfl

theorem srcBytes_loaded (l : List Byte) (cap arg : Word) (hl : l.length < 2 ^ 32) : srcBytes (loaded l cap arg) = l := by
  have h : (BitVec.ofNat 32 l.length).toNat = l.length := by simp; omega
  have hr : srcRegion (loaded l cap arg).params (loaded l cap arg).regs = { addr := 0x1000, len := l.length } := by
    simp only [srcRegion, loaded, State.reset, State.resetWith, Params.default, regAddr, h]
    rfl
  simp only [srcBytes, regionBytes, hr]
  rw [show (loaded l cap arg).mem = Mem.writeBytes [] 0x1000 l from rfl, Mem.readBytes_writeBytes (by decide) _ _ (le_refl _), List.take_length]

theorem witness_OpenReaderTakesTheHeaderOrReportsItsError :
    (∃ (s : State) (j : Nat) (r : ReaderCtx) (f : FinfoRegs), srcAdmitted s.params s.regs ∧ s.readers[j]? = some r ∧
      r.state = .closed ∧ (∀ i v, i < j → s.readers[i]? = some v → v.state ≠ .closed) ∧
      parseHeader (srcBytes s) = .ok f) ∧
    (∃ (s : State) (j : Nat) (r : ReaderCtx) (e : ErrCode), srcAdmitted s.params s.regs ∧ s.readers[j]? = some r ∧
      r.state = .closed ∧ (∀ i v, i < j → s.readers[i]? = some v → v.state ≠ .closed) ∧
      parseHeader (srcBytes s) = .error e) :=
  ⟨⟨loaded emptyFrame 0#32 0#32, 0, ReaderCtx.reset, _, by decide, rfl, rfl, fun _ _ h => absurd h (Nat.not_lt_zero _),
      by rw [srcBytes_loaded _ _ _ (by decide)]; exact emptyFrame_header⟩,
    ⟨loaded (bs [4, 0x22, 0x4D]) 0#32 0#32, 0, ReaderCtx.reset, .corruptedInput, by decide, rfl, rfl,
      fun _ _ h => absurd h (Nat.not_lt_zero _), rfl⟩⟩

/-- A state with the reader of `flags` open under handle 0 on the bytes `src`, at its first block. -/
def reading (flags : Word) (src : List Byte) (cap arg : Word) : State :=
  { loaded src cap arg with
    readers := [{ reader flags with srcAddr := 0x1000#64, srcLen := BitVec.ofNat 32 src.length }] }

/-- How READ_FRAME's loop ends on the reader under handle 0: content and state, or the error. -/
def readResult (s : State) (r : ReaderCtx) : Except ErrCode (List Byte × FrameState) :=
  match readContent s r with
  | .ok u => .ok (u.out, u.reader.state)
  | .error (e, _) => .error e

theorem readContent_of_ok {s : State} {r : ReaderCtx} {x : List Byte × FrameState} (h : readResult s r = .ok x) :
    ∃ u, readContent s r = .ok u ∧ u.out = x.1 ∧ u.reader.state = x.2 := by
  unfold readResult at h
  split at h
  · injection h with h; subst h; exact ⟨_, by assumption, rfl, rfl⟩
  · simp at h

theorem readContent_of_error {s : State} {r : ReaderCtx} {e : ErrCode} (h : readResult s r = .error e) :
    ∃ u, readContent s r = .error (e, u) := by
  unfold readResult at h
  split at h
  · simp at h
  · injection h with h; subst h; exact ⟨_, by assumption⟩

theorem witness_ReadFrameDeliversContentOrFails :
    (∃ (s : State) (r : ReaderCtx) (u : ReadWork), Mem.wf s.mem ∧ s.readers[s.regs.handle.toNat]? = some r ∧
      readValid s r ∧ s.regs.arg = s.regs.dstCap ∧
      readLoop (regionBytes s r.region) s.regs.arg.toNat (readFuel r.region.len)
        { reader := r, dec := s.dec, blk := s.blk, out := [] } = .ok u ∧ u.reader.state = .ended) ∧
    (∃ (s : State) (r : ReaderCtx) (e : ErrCode) (u : ReadWork), Mem.wf s.mem ∧
      s.readers[s.regs.handle.toNat]? = some r ∧ readValid s r ∧
      readLoop (regionBytes s r.region) s.regs.arg.toNat (readFuel r.region.len)
        { reader := r, dec := s.dec, blk := s.blk, out := [] } = .error (e, u)) := by
  constructor
  · obtain ⟨u, h, -, hs⟩ := readContent_of_ok (s := reading 0x60#32 (bs [0, 0, 0, 0]) 2#32 2#32)
      (r := { reader 0x60#32 with srcAddr := 0x1000#64, srcLen := 4#32 }) (x := ([], .ended)) (by decide)
    exact ⟨_, _, u, by decide, rfl, by decide, rfl, h, hs⟩
  · obtain ⟨u, h⟩ := readContent_of_error (s := reading 0x60#32 (bs [3, 0, 0, 0x80, 0x41]) 2#32 2#32)
      (r := { reader 0x60#32 with srcAddr := 0x1000#64, srcLen := 5#32 }) (e := .corruptedInput) (by decide)
    exact ⟨_, _, _, u, by decide, rfl, by decide, h⟩

theorem witness_CloseReaderFreesTheContext :
    (∀ f, f = FrameState.blocks ∨ f = .ended ∨ f = .failed →
      ∃ (s : State) (r : ReaderCtx), s.readers[s.regs.handle.toNat]? = some r ∧ r.state = f) ∧
    (∃ s : State, s.regs.handle.toNat = s.readers.length ∧
      ∀ r, s.readers[s.regs.handle.toNat]? = some r → r.state ≠ .blocks ∧ r.state ≠ .ended ∧ r.state ≠ .failed) :=
  ⟨fun f _ => ⟨{ State.reset with readers := [{ reader 0x60#32 with state := f }] }, { reader 0x60#32 with state := f }, rfl, rfl⟩,
    ⟨{ State.reset with readers := [] }, rfl, fun r h => by simp at h⟩⟩

theorem witness_InvalidArgumentsAreRejected :
    (∃ s : State, s.regs.arg.toNat = 2 ^ 31) ∧
    (∃ s : State, ¬ (regionsValid s.params s.regs ∧ s.regs.cfg.legal)) ∧
    (∃ s : State, regionsValid s.params s.regs ∧ s.regs.arg.toNat = 2 ^ 31) ∧
    (∃ s : State, s.regs.pref.legal ∧ s.regs.cfg.legal ∧ ∀ w ∈ s.writers, w.state ≠ .closed) ∧
    (∃ s : State, ∃ w, s.writers[s.regs.handle.toNat]? = some w ∧ w.isOpen ∧ regionsValid s.params s.regs ∧
      s.regs.dstCap.toNat + 1 = writeNeed w s.regs.srcLen.toNat) ∧
    (∃ s : State, ∃ w, s.writers[s.regs.handle.toNat]? = some w ∧ w.isOpen ∧ ¬ closeValid s w) ∧
    (∃ s : State, ¬ srcAdmitted s.params s.regs) ∧
    (∃ s : State, ∃ r, s.readers[s.regs.handle.toNat]? = some r ∧ r.isReadable ∧
      s.regs.arg.toNat = s.regs.dstCap.toNat + 1) ∧
    (∃ s : State, s.regs.handle.toNat + 1 = s.readers.length ∧
      ∀ r, s.readers[s.regs.handle.toNat]? = some r → r.state ≠ .blocks ∧ r.state ≠ .ended ∧ r.state ≠ .failed) :=
  ⟨⟨loaded aaa 13#32 0x80000000#32, by decide⟩, ⟨State.reset, by decide⟩, ⟨loaded aaa 13#32 0x80000000#32, by decide, by decide⟩,
    ⟨{ State.reset with writers := [writer 0x20#32 0#32] }, by decide, by decide, by decide⟩,
    ⟨writing (writer 0x34#32 0#32) aaa 27#32, writer 0x34#32 0#32, rfl, by decide, by decide, by decide⟩,
    ⟨writing (writer 0x20#32 0#32) [] 10#32, writer 0x20#32 0#32, rfl, by decide, by decide⟩,
    ⟨State.reset, by decide⟩, ⟨reading 0x60#32 [] 99#32 100#32, _, rfl, by decide, by decide⟩,
    ⟨State.reset, by decide, fun r h => by cases h; decide⟩⟩

theorem witness_InvalidArgumentChangesNothingElse : ∃ (i : Instr) (s t : State),
    isCommand i ∧ exec i s = .next t ∧ t.regs.status.err = .invalidArgument :=
  ⟨.compressBlock, State.reset, _, rfl, rfl, rfl⟩

/-- Commands that report NOFIT, EOS, and an error of their own. -/
theorem witness_StatusAfterEveryCommand :
    (∃ (i : Instr) (s t : State), isCommand i ∧ exec i s = .next t ∧ t.regs.status.nofit = true) ∧
    (∃ (i : Instr) (s t : State), isCommand i ∧ exec i s = .next t ∧ t.regs.status.eos = true) ∧
    (∃ (i : Instr) (s t : State), isCommand i ∧ exec i s = .next t ∧ t.regs.status.err = .outputTooSmall) ∧
    (∃ (i : Instr) (s t : State), isCommand i ∧ exec i s = .next t ∧ t.regs.status.err = .corruptedInput) :=
  ⟨⟨.compressBlock, loaded aaa 9#32 0#32, _, rfl, rfl, by decide⟩,
    ⟨.readFrame, reading 0x60#32 (bs [0, 0, 0, 0]) 2#32 2#32, _, rfl, rfl, by decide⟩,
    ⟨.decompressBlock, loaded e4 12#32 13#32, _, rfl, rfl, by decide⟩,
    ⟨.openReader, loaded (bs [4, 0x22, 0x4D]) 0#32 0#32, _, rfl, rfl, by decide⟩⟩

theorem witness_CommandsNeverWriteTheirArguments :
    (∃ (i : Instr) (s t : State), isCommand i ∧ exec i s = .next t ∧ t.regs.handle ≠ s.regs.handle) ∧
    (∃ (s t : State), exec .openReader s = .next t ∧ t.regs.finfo ≠ s.regs.finfo) := by
  constructor
  · exact ⟨.openWriter, { State.reset with writers := [writer 0x20#32 0#32, WriterCtx.reset] }, _, rfl, rfl, by decide⟩
  · refine ⟨loaded emptyFrame 0#32 0#32, _, execOpenReader_done (by decide) rfl
      (by rw [srcBytes_loaded _ _ _ (by decide)]; exact emptyFrame_header), by decide⟩

theorem witness_DeviceWritesOnlyTheDestinationRegion : ∃ (i : Instr) (s t : State), exec i s = .next t ∧ t.mem ≠ s.mem :=
  ⟨.compressBlock, loaded aaa 10#32 0#32, _, rfl, by decide⟩

theorem witness_CommandsTouchOnlyTheirOwnContext : ∃ (i : Instr) (s t : State) (k : Nat),
    isCommand i ∧ exec i s = .next t ∧ k < s.writers.length ∧
    ¬ ((i = .writeFrame ∨ i = .closeWriter) ∧ k = s.regs.handle.toNat) ∧ ¬ (i = .openWriter ∧ freeWriter s = some k) :=
  ⟨.openWriter, { State.reset with writers := [writer 0x20#32 0#32, WriterCtx.reset] }, _, 0, rfl, rfl, by decide, by decide,
    by decide⟩

theorem witness_FailedReaderStaysFailed :
    (∃ s t : State, exec .readFrame s = .next t ∧ t.regs.status.err = .corruptedInput) ∧
    (∃ s t : State, exec .readFrame s = .next t ∧ t.regs.status.err = .invalidArgument) ∧
    (∃ (s t : State) (j : Nat) (r : ReaderCtx) (i : Instr), s.readers[j]? = some r ∧ r.state = .failed ∧
      exec i s = .next t ∧ ¬ (i = .closeReader ∧ j = s.regs.handle.toNat) ∧ j = s.regs.handle.toNat ∧
      ∀ w ∈ s.writers, w.state ≠ .failed) :=
  ⟨⟨reading 0x60#32 (bs [3, 0, 0, 0x80, 0x41]) 2#32 2#32, _, rfl, by decide⟩, ⟨State.reset, _, rfl, by decide⟩,
    { State.reset with readers := [{ reader 0x60#32 with state := .failed }] }, _, 0, { reader 0x60#32 with state := .failed },
    .openReader, rfl, rfl, rfl, by decide, rfl, by decide⟩

theorem witness_EosExactlyAtTheEnd :
    (∃ (s t : State), exec .readFrame s = .next t ∧ t.regs.status.err = .none) ∧
    (∃ (i : Instr) (s t : State), isCommand i ∧ i ≠ .readFrame ∧ exec i s = .next t) :=
  ⟨⟨reading 0x60#32 (bs [0, 0, 0, 0]) 2#32 2#32, _, rfl, by decide⟩, ⟨.maxlen, State.reset, _, rfl, by decide, rfl⟩⟩

/-- For each command two states that differ in working registers, in another context or in a byte outside its region. -/
theorem witness_CommandResultsDependOnTheirOwnArguments :
    (∃ s s' t : State,
      Mem.wf s.mem ∧ Mem.wf s'.mem ∧ s'.params = s.params ∧ s'.regs.srcAddrLo = s.regs.srcAddrLo ∧
      s'.regs.srcAddrHi = s.regs.srcAddrHi ∧ s'.regs.srcLen = s.regs.srcLen ∧ s'.regs.dstAddrLo = s.regs.dstAddrLo ∧
      s'.regs.dstAddrHi = s.regs.dstAddrHi ∧ s'.regs.dstCap = s.regs.dstCap ∧ s'.regs.arg = s.regs.arg ∧
      s'.regs.cfg = s.regs.cfg ∧ srcBytes s' = srcBytes s ∧ exec .compressBlock s = .next t ∧
      t.regs.status.err = .none ∧ s' ≠ s) ∧
    (∃ s s' t : State, Mem.wf s.mem ∧ Mem.wf s'.mem ∧ s'.params = s.params ∧ s'.regs = s.regs ∧ srcBytes s' = srcBytes s ∧
      exec .decompressBlock s = .next t ∧ t.regs.status.err = .none ∧ s'.dec ≠ s.dec ∧ s'.mem ≠ s.mem) ∧
    (∃ s s' t : State, Mem.wf s.mem ∧ Mem.wf s'.mem ∧ s'.params = s.params ∧ s'.regs = s.regs ∧ srcBytes s' = srcBytes s ∧
      s'.writers[s.regs.handle.toNat]? = s.writers[s.regs.handle.toNat]? ∧ exec .writeFrame s = .next t ∧
      t.regs.status.err = .none ∧ s'.enc ≠ s.enc ∧ s'.writers ≠ s.writers) ∧
    (∃ (s s' t : State) (r : ReaderCtx), Mem.wf s.mem ∧ Mem.wf s'.mem ∧ s'.params = s.params ∧
      s'.regs.dstAddrLo = s.regs.dstAddrLo ∧ s'.regs.dstAddrHi = s.regs.dstAddrHi ∧ s'.regs.dstCap = s.regs.dstCap ∧
      s'.regs.handle = s.regs.handle ∧ s'.regs.arg = s.regs.arg ∧
      s'.readers[s.regs.handle.toNat]? = s.readers[s.regs.handle.toNat]? ∧ s.readers[s.regs.handle.toNat]? = some r ∧
      regionBytes s' r.region = regionBytes s r.region ∧ exec .readFrame s = .next t ∧ t.regs.status.err = .none ∧
      s'.regs.srcLen ≠ s.regs.srcLen ∧ s'.readers ≠ s.readers) :=
  ⟨⟨loaded aaa 10#32 0#32,
      { loaded aaa 10#32 0#32 with mem := Mem.write (loaded aaa 10#32 0#32).mem 0x7000 1#8, writers := [] }, _, by decide,
      by decide, rfl, rfl, rfl, rfl, rfl, rfl, rfl, rfl, rfl, by decide, rfl, by decide, by decide⟩,
    ⟨loaded e4 13#32 13#32,
      { loaded e4 13#32 13#32 with
        mem := Mem.write (loaded e4 13#32 13#32).mem 0x7000 1#8, dec := { DecRegs.reset with token := 255#8, out := [1#8] } },
      _, by decide, by decide, rfl, rfl, by decide, rfl, by decide, by decide, by decide⟩,
    ⟨writing { writer 0x20#32 0#32 with state := .blocks } [0x61#8] 5#32,
      { writing { writer 0x20#32 0#32 with state := .blocks } [0x61#8] 5#32 with
        enc := { EncRegs.reset with cur := 5, out := [1#8] }
        writers := [{ writer 0x20#32 0#32 with state := .blocks }, WriterCtx.reset] }, _, by decide, by decide, rfl, rfl,
      by decide, rfl, rfl, by decide, by decide, by decide⟩,
    ⟨reading 0x60#32 (bs [0, 0, 0, 0]) 2#32 2#32,
      { reading 0x60#32 (bs [0, 0, 0, 0]) 2#32 2#32 with
        regs := { (reading 0x60#32 (bs [0, 0, 0, 0]) 2#32 2#32).regs with srcLen := 0#32 }
        readers := (reading 0x60#32 (bs [0, 0, 0, 0]) 2#32 2#32).readers ++ [ReaderCtx.reset] }, _,
      { reader 0x60#32 with srcAddr := 0x1000#64, srcLen := 4#32 }, by decide, by decide, rfl, rfl, rfl, rfl, rfl, rfl, rfl,
      rfl, by decide, rfl, by decide, by decide, by decide⟩⟩

theorem witness_LevelAndFailuresDecideTheStep :
    (∃ (c : CfgRegs) (level : Int), c.legal ∧ level = -2147483648 ∧ level ≤ 0) ∧
    (∃ (c : CfgRegs) (level : Int), c.legal ∧ 0 < level ∧ level = c.hcMinLevel.toNat) ∧
    (∃ (c : CfgRegs) (level : Int), c.legal ∧ 0 < level ∧ level = c.hcMinLevel.toNat + 1) :=
  ⟨⟨CfgRegs.reset, _, by decide, rfl, by decide⟩, ⟨CfgRegs.reset, 2, by decide, by decide, rfl⟩,
    ⟨CfgRegs.reset, 3, by decide, by decide, rfl⟩⟩

/-- The finder's environment of E12's input, and its tables before the attempt at 11 (P2). -/
def p2Env : FinderEnv := finderEnv CfgRegs.reset ("abcdeXabcdYabcdeZ0123456789AB".toList.map fun c => BitVec.ofNat 8 c.toNat) 0 12 24
def p2Table : TableSet := { ht := [(1584, 6)], ch := [(1584, [6, 0])] }

/-- A policy of its own: at 11 the match 11 back of 4 bytes, then straight to 17; elsewhere a match that is none, and 2 on. -/
def ownPolicy (v : FinderView) : FinderAnswer :=
  if v.cur = 11 then { found := some (11, 4), next := 17, inserted := [11, 12] } else { found := some (1, 9), next := v.cur + 2, inserted := [] }

/-- R141: another policy's match is taken, one that is not real counts as none, and the cursor always moves on; the insertions
go to the positions' buckets (11 and 12 hash to 1584 and, by R156, 1591). -/
theorem test_own_policy : (visit (.other ownPolicy) CfgRegs.reset (.fast 1) p2Env { EncRegs.reset with cur := 11 } p2Table).found =
    some (11, 4) ∧
    (visit (.other ownPolicy) CfgRegs.reset (.fast 1) p2Env { EncRegs.reset with cur := 11 } p2Table).next = 17 ∧
    (visit (.other ownPolicy) CfgRegs.reset (.fast 1) p2Env { EncRegs.reset with cur := 11 } p2Table).tables.ht =
      [(1584, 11), (1591, 12)] := by decide
theorem test_own_policy_unreal :
    (visit (.other ownPolicy) CfgRegs.reset (.fast 1) p2Env { EncRegs.reset with cur := 6 } p2Table).found = none ∧
    (visit (.other ownPolicy) CfgRegs.reset (.fast 1) p2Env { EncRegs.reset with cur := 6 } p2Table).next = 8 := by decide

theorem witness_ReportedMatchIsReal :
    (∃ (q : Policy) (c : CfgRegs) (v : Variant) (e : FinderEnv) (r : EncRegs) (t : TableSet) (off len : Nat),
      r.cur + 4 ≤ e.matchlimit ∧ e.matchlimit ≤ e.hist.length ∧ q = .reference ∧ (visit q c v e r t).found = some (off, len)) ∧
    (∃ (c : CfgRegs), c.legal) ∧
    (∃ (f : FinderView → FinderAnswer) (c : CfgRegs) (v : Variant) (e : FinderEnv) (r : EncRegs) (t : TableSet)
      (a : FinderAnswer) (off len : Nat), a = f (finderView c v e r t) ∧ a.found = some (off, len) ∧ 1 ≤ off ∧ off ≤ 65535 ∧
      off = r.cur ∧ len = 4 ∧ r.cur + len ≤ e.matchlimit ∧
      (∀ i, i < len → e.hist[r.cur - off + i]? = e.hist[r.cur + i]?) ∧ r.cur + len ≤ a.next) ∧
    (∃ (f : FinderView → FinderAnswer) (c : CfgRegs) (v : Variant) (e : FinderEnv) (r : EncRegs) (t : TableSet)
      (a : FinderAnswer), a = f (finderView c v e r t) ∧ a.found = none ∧ a.next = r.cur + 1) :=
  ⟨⟨.reference, CfgRegs.reset, .fast 1, p2Env, { EncRegs.reset with cur := 11 }, p2Table, 5, 4, by decide, by decide, rfl, by decide⟩,
    ⟨CfgRegs.reset, by decide⟩,
    ⟨ownPolicy, CfgRegs.reset, .fast 1, p2Env, { EncRegs.reset with cur := 11 }, p2Table, _, 11, 4, rfl, rfl, by decide, by decide,
      rfl, rfl, by decide, by decide, by decide⟩,
    ⟨fun v => { found := none, next := v.cur + 1, inserted := [] }, CfgRegs.reset, .fast 1, p2Env, EncRegs.reset, p2Table, _, rfl,
      rfl, rfl⟩⟩

theorem witness_FastFinderWritesItsBucketOnly : ∃ (e : FinderEnv) (p h : Nat), h ≠ e.hash p := ⟨p2Env, 11, 0, by decide⟩

theorem witness_HighRatioFinderTakesTheLongestThenClosest :
    (∃ (e : FinderEnv) (p : Nat) (t : TableSet), (chainAt t (e.hash p)).Pairwise (· > ·) ∧ chainAt t (e.hash p) ≠ [] ∧
      ∀ c ∈ chainAt t (e.hash p), ¬ e.confirmed p c) ∧
    (∃ (e : FinderEnv) (l : Int) (p off len c : Nat) (t : TableSet), (chainAt t (e.hash p)).Pairwise (· > ·) ∧
      (findMatch e (.highRatio l) p t).1 = some (off, len) ∧
      (∀ c ∈ chainAt t (e.hash p), e.confirmed p c → e.matchLen (c - e.p0) p < e.optLen) ∧
      c ∈ chainAt t (e.hash p) ∧ e.confirmed p c ∧ e.matchLen (c - e.p0) p < len) ∧
    (∃ (e : FinderEnv) (p c : Nat) (newer older : List Nat) (t : TableSet), (chainAt t (e.hash p)).Pairwise (· > ·) ∧
      chainAt t (e.hash p) = newer ++ c :: older ∧ e.confirmed p c ∧ e.optLen = e.matchLen (c - e.p0) p ∧ newer ≠ [] ∧
      ∀ d ∈ newer, e.confirmed p d → e.matchLen (d - e.p0) p < e.optLen) ∧
    (∃ (e : FinderEnv) (p h : Nat), h ≠ e.hash p) :=
  ⟨⟨p2Env, 11, { ht := [], ch := [(1584, [5, 1])] }, by decide, by decide, by decide⟩,
    ⟨p2Env, 3, 11, 11, 5, 6, p2Table, by decide, by decide, by decide, by decide, by decide, by decide⟩,
    ⟨{ p2Env with optLen := 5 }, 11, 0, [6], [], p2Table, by decide, by decide, by decide, by decide, by decide, by decide⟩,
    ⟨p2Env, 11, 0, by decide⟩⟩

theorem witness_BitScanCountsEqualLeadingBytes : ∃ a b : Word, a ≠ b := ⟨0#32, 0x80000000#32, by decide⟩

theorem witness_EncodingIsLegalSequences :
    (∃ block : List Byte, block = []) ∧ (∃ block : List Byte, block ≠ [] ∧ block.length = 12) ∧
    (∃ (block : List Byte) (q : List SeqParts) (k : Nat) (x : SeqParts),
      block.length = 13 ∧ q ≠ [] ∧ q[k]? = some x ∧ sequencesCover q + 5 ≤ block.length) :=
  ⟨⟨[], rfl⟩, ⟨List.replicate 12 1#8, by decide, rfl⟩, ⟨aaa, [([0x61#8], 1, 7)], 0, _, by decide, by decide, rfl, by decide⟩⟩

theorem witness_DecodingUndoesEncoding :
    (∃ (block : List Byte) (limit : Nat), block ≠ [] ∧ block.length = limit) ∧
    (∃ s t u : State, Mem.wf s.mem ∧ Mem.wf u.mem ∧ exec .compressBlock s = .next t ∧ t.regs.status.err = .none ∧
      t.regs.status.nofit = false ∧
      srcBytes u = Mem.readBytes t.mem (dstRegion s.params s.regs).addr t.regs.result.toNat ∧
      regionsValid u.params u.regs ∧ u.regs.arg = s.regs.srcLen ∧ s.regs.srcLen.toNat = u.regs.dstCap.toNat) :=
  ⟨⟨aaa, 13, by decide, by decide⟩,
    ⟨loaded aaa 10#32 0#32, _, loaded e4 13#32 13#32, by decide, by decide, rfl, by decide, by decide, by decide, by decide,
      rfl, rfl⟩⟩

theorem witness_EveryLoopEnds : ∃ (c : CfgRegs) (r : EncRegs) (n : Nat), c.legal ∧ r.mflimit + 1 = r.cur + n :=
  ⟨CfgRegs.reset, { EncRegs.reset with mflimit := 17 }, 18, by decide, rfl⟩

theorem witness_MatchCopyRepeatsThePattern : ∃ (dict out : List Byte) (off n i : Nat),
    1 ≤ off ∧ off = dict.length + out.length ∧ i < n := ⟨bs [1, 2], bs [3], 3, 7, 6, by decide, by decide, by decide⟩

theorem witness_DecoderRespectsItsLimit :
    (∃ (inp dict : List Byte) (limit limit' : Nat) (r d : DecRegs), decodeBlock inp dict limit r = .ok d ∧
      d.out.length = limit') ∧
    (∃ (inp dict : List Byte) (limit limit' : Nat) (r d : DecRegs), decodeBlock inp dict limit r = .ok d ∧
      limit' + 1 = d.out.length) := by
  obtain ⟨d, h, hl⟩ := decodedLength_some (s := loaded e4 13#32 13#32) (n := 13) (by decide)
  exact ⟨⟨_, _, _, 13, _, d, h, hl⟩, ⟨_, _, _, 12, _, d, h, hl.symm⟩⟩

theorem witness_ElementRunIsDecodeBlock : ∃ s : State, s.stream.pos = .idle ∧ s.host = [] := ⟨State.reset, rfl, rfl⟩

theorem witness_SequenceStepIsItsElements :
    (∃ (s : State) (i : Instr) (rest : List Byte), s.stream.pos = .boundary ∧ s.stream.grain = .sequence ∧
      decode .sequence (s.stream.input.drop s.dec.ip) = .ok (i, rest) ∧ rest = []) ∧
    (∃ (s : State) (i : Instr) (rest : List Byte), s.stream.pos = .boundary ∧ s.stream.grain = .sequence ∧
      decode .sequence (s.stream.input.drop s.dec.ip) = .ok (i, rest) ∧ rest ≠ []) :=
  ⟨⟨seqRun e4 [] 13 { DecRegs.reset with ip := 4 }, _, _, rfl, rfl, rfl, rfl⟩,
    ⟨seqRun e4 [] 13 DecRegs.reset, _, _, rfl, rfl, rfl, by decide⟩⟩

theorem witness_LengthElementsAccumulate :
    (∀ p : Pos, ∃ s : State, s.dec.ip + 1 = s.stream.input.length ∧ s.stream.pos = p) ∧
    (∃ (v : Byte) (s : State), s.dec.ip < s.stream.input.length ∧ s.stream.pos = .mlext ∧ v ≠ 255#8 ∧
      s.dec.out.length + s.dec.ml + v.toNat = s.stream.limit) ∧
    (∃ (v : Byte) (s : State), s.dec.ip < s.stream.input.length ∧ s.stream.pos = .mlext ∧ v ≠ 255#8 ∧
      s.stream.limit + 1 = s.dec.out.length + s.dec.ml + v.toNat) :=
  ⟨fun p => ⟨blockRun p [1#8] [] 0 DecRegs.reset, rfl, rfl⟩,
    ⟨254#8, blockRun .mlext [254#8] [] 273 { DecRegs.reset with ml := 19 }, by decide, rfl, by decide, by decide⟩,
    ⟨254#8, blockRun .mlext [254#8] [] 272 { DecRegs.reset with ml := 19 }, by decide, rfl, by decide, by decide⟩⟩

theorem witness_LiteralsAreCopiedThenTheEndIsTested :
    (∃ (lit : List Byte) (s : State), s.stream.pos = .literals ∧ lit.length = s.dec.ll ∧
      s.dec.ip + s.dec.ll = s.stream.input.length ∧ s.dec.out.length + s.dec.ll = s.stream.limit) ∧
    (∃ (lit : List Byte) (s : State), s.stream.pos = .literals ∧ lit.length = s.dec.ll ∧
      s.stream.input.length + 1 = s.dec.ip + s.dec.ll) ∧
    (∃ (lit : List Byte) (s : State), s.stream.pos = .literals ∧ lit.length = s.dec.ll ∧
      s.stream.limit + 1 = s.dec.out.length + s.dec.ll) :=
  ⟨⟨[1#8], blockRun .literals [1#8] [] 1 { DecRegs.reset with ll := 1 }, rfl, rfl, rfl, rfl⟩,
    ⟨[1#8], blockRun .literals [] [] 1 { DecRegs.reset with ll := 1 }, rfl, rfl, rfl⟩,
    ⟨[1#8], blockRun .literals [1#8] [] 0 { DecRegs.reset with ll := 1 }, rfl, rfl, rfl⟩⟩

/-- A block run that stands before an offset, `limit` bytes allowed. -/
def atOffset (token : Byte) (limit : Nat) : State :=
  blockRun .offset [0#8, 0#8] [1#8] limit { DecRegs.reset with token := token, out := [2#8] }

theorem witness_OffsetIsValidatedThenTheMatchIsCopied :
    (∃ (off : BitVec 16) (s : State), s.stream.pos = .offset ∧ s.dec.ip + 2 = s.stream.input.length ∧ off = 0#16) ∧
    (∃ (off : BitVec 16) (s : State), s.stream.pos = .offset ∧ s.dec.ip + 2 ≤ s.stream.input.length ∧
      s.stream.dict.length + s.dec.out.length + 1 = off.toNat) ∧
    (∃ (off : BitVec 16) (s : State), s.stream.pos = .offset ∧ s.dec.ip + 2 ≤ s.stream.input.length ∧ off ≠ 0#16 ∧
      off.toNat = s.stream.dict.length + s.dec.out.length ∧ s.dec.token.toNat % 16 = 15) ∧
    (∃ (off : BitVec 16) (s : State), s.stream.pos = .offset ∧ s.dec.ip + 2 ≤ s.stream.input.length ∧ off ≠ 0#16 ∧
      off.toNat ≤ s.stream.dict.length + s.dec.out.length ∧ s.dec.token.toNat % 16 = 14 ∧
      s.dec.out.length + (4 + s.dec.token.toNat % 16) = s.stream.limit) ∧
    (∃ (off : BitVec 16) (s : State), s.stream.pos = .offset ∧ s.dec.ip + 2 ≤ s.stream.input.length ∧ off ≠ 0#16 ∧
      off.toNat ≤ s.stream.dict.length + s.dec.out.length ∧ s.dec.token.toNat % 16 ≠ 15 ∧
      s.stream.limit + 1 = s.dec.out.length + (4 + s.dec.token.toNat % 16)) :=
  ⟨⟨0#16, atOffset 0#8 9, rfl, rfl, rfl⟩, ⟨3#16, atOffset 0#8 9, rfl, by decide, rfl⟩,
    ⟨2#16, atOffset 15#8 9, rfl, by decide, by decide, rfl, rfl⟩,
    ⟨1#16, atOffset 14#8 19, rfl, by decide, by decide, by decide, rfl, rfl⟩,
    ⟨1#16, atOffset 0#8 4, rfl, by decide, by decide, by decide, by decide, rfl⟩⟩

theorem witness_WholeSequencesComplete :
    (∃ (lit : List Byte) (off : BitVec 16) (ml : Nat) (s : State), s.stream.pos = .boundary ∧ 4 ≤ ml ∧
      s.dec.ip + (emitSeq lit off.toNat ml).length ≤ s.stream.input.length ∧
      s.dec.out.length + lit.length + ml = s.stream.limit ∧ off ≠ 0#16 ∧
      off.toNat = s.stream.dict.length + s.dec.out.length + lit.length) ∧
    (∃ (lit : List Byte) (mln : BitVec 4) (s : State), s.stream.pos = .boundary ∧
      s.dec.ip + (emitLastWith lit mln.toNat).length = s.stream.input.length ∧
      s.dec.out.length + lit.length = s.stream.limit) :=
  ⟨⟨[0x61#8], 1#16, 4, seqRun (bs [0x10, 0x61, 1, 0]) [] 5 DecRegs.reset, rfl, by decide, by decide, by decide, by decide,
      by decide⟩,
    ⟨[0x61#8], 10#4, seqRun (bs [0x1A, 0x61]) [] 1 DecRegs.reset, rfl, by decide, by decide⟩⟩

theorem witness_HeaderReadsBack :
    (∃ p : PrefRegs, p.legal ∧ p.csize = true ∧ p.hasDictid = true ∧ p.bsclass.toNat = 7) ∧
    (∃ p : PrefRegs, p.legal ∧ p.csize = false ∧ p.bsclass.toNat = 4) :=
  ⟨⟨{ PrefRegs.reset with flags := 0x3D#32, bsclass := 7#32 }, by decide, by decide, by decide, by decide⟩,
    ⟨PrefRegs.reset, by decide, by decide, by decide⟩⟩

theorem witness_HeaderErrorsInTheirOrder :
    (∃ f : List Byte, f.length = 3) ∧ (∃ f : List Byte, 4 ≤ f.length ∧ leNat (f.take 4) ≠ 0x184D2204) ∧
    (∃ f : List Byte, f.length = 5 ∧ leNat (f.take 4) = 0x184D2204) ∧
    (∃ (f : List Byte) (flg bd : Byte) (hl : Nat), f[4]? = some flg ∧ f[5]? = some bd ∧
      hl = 7 + 8 * (flg.getLsbD 3).toNat + 4 * (flg.getLsbD 0).toNat ∧ leNat (f.take 4) = 0x184D2204 ∧ f.length + 1 = hl) ∧
    (∃ (f : List Byte) (flg bd c : Byte) (hl : Nat), f[4]? = some flg ∧ f[5]? = some bd ∧
      hl = 7 + 8 * (flg.getLsbD 3).toNat + 4 * (flg.getLsbD 0).toNat ∧ leNat (f.take 4) = 0x184D2204 ∧ hl = f.length ∧
      f[hl - 1]? = some c ∧ c = hdrsum (Config.hash32 ((f.take (hl - 1)).drop 4))) ∧
    (∃ (f : List Byte) (flg bd c : Byte) (hl : Nat), f[4]? = some flg ∧ f[5]? = some bd ∧
      hl = 7 + 8 * (flg.getLsbD 3).toNat + 4 * (flg.getLsbD 0).toNat ∧ leNat (f.take 4) = 0x184D2204 ∧ hl ≤ f.length ∧
      f[hl - 1]? = some c ∧ c ≠ hdrsum (Config.hash32 ((f.take (hl - 1)).drop 4))) :=
  ⟨⟨bs [4, 0x22, 0x4D], rfl⟩, ⟨bs [4, 0x22, 0x4D, 0x19], by decide, by decide⟩, ⟨bs [4, 0x22, 0x4D, 0x18, 0x60], rfl, rfl⟩,
    ⟨bs [4, 0x22, 0x4D, 0x18, 0x60, 0x40], _, _, 7, rfl, rfl, rfl, rfl, rfl⟩,
    ⟨bs [4, 0x22, 0x4D, 0x18, 0x62, 0x40] ++ [hdrsum (Config.hash32 (bs [0x62, 0x40]))], _, _, _, 7, rfl, rfl, rfl, rfl, rfl,
      rfl, rfl⟩,
    ⟨bs [4, 0x22, 0x4D, 0x18, 0x60, 0x40] ++ [hdrsum (Config.hash32 (bs [0x60, 0x40])) + 1#8], _, _, _, 7, rfl, rfl, rfl, rfl,
      by decide, rfl, by
        show hdrsum (Config.hash32 (bs [0x60, 0x40])) + 1#8 ≠ hdrsum (Config.hash32 (bs [0x60, 0x40]))
        generalize hdrsum (Config.hash32 (bs [0x60, 0x40])) = c
        intro h
        have := congrArg BitVec.toNat h
        simp only [BitVec.toNat_add, BitVec.toNat_ofNat] at this
        omega⟩⟩

theorem witness_ChunksCutTheData : ∃ (b : Nat) (data : List Byte), b = 1 ∧ 1 ≤ b ∧ data ≠ [] := ⟨1, aaa, rfl, by decide, by decide⟩

theorem witness_EmitBlockStoresCompressedOrRaw :
    (∃ (t : WriteWork) (c : List Byte), c ≠ [] ∧
      (t.writer.encoding .reference t.enc c).1.out.length < c.length) ∧
    (∃ (t : WriteWork) (c : List Byte), c ≠ [] ∧ c.length ≤ (t.writer.encoding .reference t.enc c).1.out.length) :=
  ⟨⟨{ writer := writer 0x20#32 0#32, enc := EncRegs.reset, out := [] }, aaa, by decide, by decide⟩,
    ⟨{ writer := writer 0x20#32 0#32, enc := EncRegs.reset, out := [] }, [1#8], by decide, by decide⟩⟩

/-- F14 with a bit of the block sum flipped: whatever `hash32` gives, some sum differs from it. -/
theorem witness_BlockChecksumComesBeforeDecoding : ∃ (f : List Byte) (t : ReadWork) (w : Nat),
    t.reader.rip + 4 ≤ f.length ∧ w = t.word f ∧ w ≠ 0 ∧ t.reader.finfo.bcsum = true ∧
    w % 2 ^ 31 ≤ blockMax t.reader.finfo.bsclass.toNat ∧ t.reader.rip + 4 + w % 2 ^ 31 + 4 = f.length ∧
    BitVec.ofNat 32 (leNat ((f.drop (t.reader.rip + 4 + w % 2 ^ 31)).take 4)) ≠
      Config.hash32 ((f.drop (t.reader.rip + 4)).take (w % 2 ^ 31)) := by
  by_cases h : Config.hash32 [0x5A#8] = 0#32
  · exact ⟨bs [1, 0, 0, 0x80, 0x5A, 1, 0, 0, 0], { reader := reader 0x70#32, dec := DecRegs.reset, blk := BlkRegs.reset, out := [] },
      2 ^ 31 + 1, by decide, by decide, by decide, by decide, by decide, by decide, fun e => by
        have e : (1#32 : Word) = Config.hash32 [0x5A#8] := e
        rw [h] at e; exact absurd e (by decide)⟩
  · exact ⟨bs [1, 0, 0, 0x80, 0x5A, 0, 0, 0, 0], { reader := reader 0x70#32, dec := DecRegs.reset, blk := BlkRegs.reset, out := [] },
      2 ^ 31 + 1, by decide, by decide, by decide, by decide, by decide, by decide, fun e => by
        have e : (0#32 : Word) = Config.hash32 [0x5A#8] := e
        exact h e.symm⟩

theorem witness_FrameRoundTrip :
    (∃ (r : Regs) (ds : List (List Byte)) (max : Nat), r.pref.legal ∧
      (r.pref.csize = true → r.pref.contentSize.toNat = ds.flatten.length) ∧ ds.flatten.length + 1 = max) ∧
    (∃ (r : Regs) (ds : List (List Byte)) (max : Nat), r.pref.legal ∧ r.pref.csize = true ∧
      r.pref.contentSize.toNat = ds.flatten.length ∧ ds.flatten.length < max) :=
  ⟨⟨Regs.reset, [aaa, [], bs [1, 2, 3]], 17, by decide, by decide, by decide⟩,
    ⟨{ Regs.reset with pref := { PrefRegs.reset with flags := 0x3C#32, csizeLo := 26#32 } }, [aaa, aaa], 27, by decide,
      by decide, by decide, by decide⟩⟩

theorem witness_DeliveryDoesNotDependOnTheCuts : ∃ (f : List Byte) (m n : Nat) (t u v : ReadWork), t.out = [] ∧
    readLoop f m (readFuel f.length) t = .ok u ∧ readLoop f n (readFuel f.length) { u with out := [] } = .ok v ∧
    u.out ≠ [] ∧ v.out ≠ [] :=
  ⟨bs [3, 0, 0, 0x80, 0x41, 0x42, 0x43, 0, 0, 0, 0], 2, 2,
    { reader := reader 0x60#32, dec := DecRegs.reset, blk := BlkRegs.reset, out := [] }, _, _, rfl, rfl, rfl, by decide,
    by decide⟩

theorem witness_HeaderRunIsParseHeader :
    (∃ (s : State) (f : List Byte) (h : FinfoRegs), s.stream.pos = .idle ∧ s.host = [] ∧ parseHeader f = .ok h) ∧
    (∃ (s : State) (f : List Byte) (e : ErrCode), s.stream.pos = .idle ∧ s.host = [] ∧ parseHeader f = .error e) :=
  ⟨⟨State.reset, emptyFrame, _, rfl, rfl, emptyFrame_header⟩, ⟨State.reset, bs [4, 0x22, 0x4D], _, rfl, rfl, rfl⟩⟩

theorem witness_BlockRunIsNextBlock :
    (∃ (s : State) (u : ReadWork), s.stream.pos = .block ∧ s.stream.reader.state = .blocks ∧ s.host = [] ∧
      s.stream.reader.total + blockMax s.stream.reader.finfo.bsclass.toNat < 2 ^ 64 ∧
      nextBlock s.stream.input
        { reader := s.stream.reader, dec := s.dec, blk := s.blk, out := s.stream.content } = .ok u) ∧
    (∃ (s : State) (e : ErrCode) (u : ReadWork), s.stream.pos = .block ∧ s.stream.reader.state = .blocks ∧ s.host = [] ∧
      s.stream.reader.total + blockMax s.stream.reader.finfo.bsclass.toNat < 2 ^ 64 ∧
      nextBlock s.stream.input
        { reader := s.stream.reader, dec := s.dec, blk := s.blk, out := s.stream.content } = .error (e, u)) :=
  ⟨⟨frameRun .block (bs [3, 0, 0, 0x80, 0x41, 0x42, 0x43]) (reader 0x60#32), _, rfl, rfl, rfl, by decide, rfl⟩,
    ⟨frameRun .block (bs [3, 0, 0, 0x80, 0x41]) (reader 0x60#32), _, _, rfl, rfl, rfl, by decide, rfl⟩⟩

theorem witness_HeaderElementsAreRecorded :
    (∃ s : State, s.stream.pos = .magic ∧ s.stream.reader.rip + 4 = s.stream.input.length) ∧
    (∃ s : State, s.stream.pos = .flg ∧ s.stream.reader.rip + 2 = s.stream.input.length) ∧
    (∃ s : State, s.stream.pos = .bd ∧
      s.stream.reader.rip + 2 + 8 * (s.hdr.flg.getLsbD 3).toNat + 4 * (s.hdr.flg.getLsbD 0).toNat =
        s.stream.input.length) ∧
    (∃ s : State, s.stream.pos = .csize ∧ s.stream.reader.rip + 8 = s.stream.input.length) ∧
    (∃ s : State, s.stream.pos = .dictid ∧ s.stream.reader.rip + 4 = s.stream.input.length) :=
  ⟨⟨frameRun .magic (bs [4, 0x22, 0x4D, 0x18]) runReader, rfl, rfl⟩, ⟨frameRun .flg (bs [0x60, 0x40]) runReader, rfl, rfl⟩,
    ⟨{ frameRun .bd (List.replicate 14 0#8) runReader with hdr := { HdrRegs.reset with flg := 0x69#8 } }, rfl, by decide⟩,
    ⟨frameRun .csize (List.replicate 8 0#8) runReader, rfl, rfl⟩, ⟨frameRun .dictid (List.replicate 4 0#8) runReader, rfl, rfl⟩⟩

/-- A frame run that stands before HC, FLG and BD read. -/
def atHc (flg bd : Byte) : State :=
  { frameRun .hc [0#8] runReader with hdr := { HdrRegs.reset with flg := flg, bd := bd } }

theorem witness_HeaderChecksumIsVerifiedFirst :
    (∃ (s : State) (c good : Byte), s.stream.pos = .hc ∧ s.stream.reader.state = .header ∧
      s.stream.reader.rip + 1 = s.stream.input.length ∧
      good = hdrsum (Config.hash32 (descriptor s.hdr.flg s.hdr.bd s.hdr.csize s.hdr.dictid)) ∧ c = good ∧
      headerLegal s.hdr.flg s.hdr.bd) ∧
    (∃ (s : State) (c good : Byte), s.stream.pos = .hc ∧ s.stream.reader.state = .header ∧
      s.stream.reader.rip + 1 ≤ s.stream.input.length ∧
      good = hdrsum (Config.hash32 (descriptor s.hdr.flg s.hdr.bd s.hdr.csize s.hdr.dictid)) ∧ c = good ∧
      ¬ headerLegal s.hdr.flg s.hdr.bd) ∧
    (∃ c good : Byte, good = hdrsum (Config.hash32 (descriptor 0x60#8 0x40#8 0#64 0#32)) ∧ c ≠ good) := by
  refine ⟨⟨atHc 0x60#8 0x40#8, _, _, rfl, rfl, rfl, rfl, rfl, by decide⟩,
    ⟨atHc 0x60#8 0x30#8, _, _, rfl, rfl, by decide, rfl, rfl, by decide⟩, ?_⟩
  generalize hdrsum (Config.hash32 (descriptor 0x60#8 0x40#8 0#64 0#32)) = g
  by_cases h : g = 0#8
  · exact ⟨1#8, _, rfl, by rw [h]; decide⟩
  · exact ⟨0#8, _, rfl, fun e => h e.symm⟩

/-- A frame run that stands in a block whose size word has been read. -/
def inBlock (p : Pos) (raw : Bool) (flags : Word) (input payload : List Byte) : State :=
  { frameRun p input (reader flags) with blk := { raw := raw, size := payload.length, payload := payload } }

theorem witness_BlockElementsDeliverTheContent :
    (∃ (s : State) (size : BitVec 31), s.stream.pos = .block ∧
      size.toNat ≤ blockMax s.stream.reader.finfo.bsclass.toNat ∧
      s.stream.reader.rip + 4 + size.toNat + 4 * s.stream.reader.finfo.bcsum.toNat = s.stream.input.length) ∧
    (∃ (s : State) (size : BitVec 31), s.stream.pos = .block ∧ s.stream.reader.rip + 4 = s.stream.input.length ∧
      size.toNat = blockMax s.stream.reader.finfo.bsclass.toNat + 1 ∧ s.stream.reader.state ≠ .header) ∧
    (∃ (s : State) (size : BitVec 31), s.stream.pos = .block ∧ s.stream.reader.rip + 4 ≤ s.stream.input.length ∧
      s.stream.input.length + 1 =
        s.stream.reader.rip + 4 + size.toNat + 4 * s.stream.reader.finfo.bcsum.toNat ∧ s.stream.reader.state ≠ .header) ∧
    (∃ (s : State) (b : List Byte), s.stream.pos = .payload ∧ b.length = s.blk.size ∧
      s.stream.reader.rip + s.blk.size = s.stream.input.length ∧ s.stream.reader.finfo.bcsum = true) ∧
    (∀ raw, ∃ (s : State) (b c : List Byte) (d : DecRegs), s.stream.pos = .payload ∧ b.length = s.blk.size ∧
      s.stream.reader.rip + s.blk.size = s.stream.input.length ∧ s.stream.reader.finfo.bcsum = false ∧ s.blk.raw = raw ∧
      runContent s b c d ∧ s.stream.reader.total + c.length < 2 ^ 64) ∧
    (∃ (s : State) (b : List Byte) (d : DecRegs), s.stream.pos = .payload ∧ b.length = s.blk.size ∧
      s.stream.reader.rip + s.blk.size = s.stream.input.length ∧ s.stream.reader.finfo.bcsum = false ∧ s.blk.raw = false ∧
      s.stream.reader.state ≠ .header ∧
      decodeBlock b (if s.stream.reader.finfo.bindep then [] else s.stream.reader.hist)
        (blockMax s.stream.reader.finfo.bsclass.toNat) s.dec = .error d) ∧
    (∀ raw, ∃ (s : State) (c : List Byte) (d : DecRegs), s.stream.pos = .blksum ∧
      s.stream.reader.rip + 4 = s.stream.input.length ∧ s.blk.raw = raw ∧
      runContent s s.blk.payload c d ∧ s.stream.reader.total + c.length < 2 ^ 64) ∧
    (∃ (s : State) (d : DecRegs), s.stream.pos = .blksum ∧ s.stream.reader.rip + 4 = s.stream.input.length ∧
      s.blk.raw = false ∧ s.stream.reader.state ≠ .header ∧
      decodeBlock s.blk.payload (if s.stream.reader.finfo.bindep then [] else s.stream.reader.hist)
        (blockMax s.stream.reader.finfo.bsclass.toNat) s.dec = .error d) ∧
    (∃ (s : State) (sum : Word), s.stream.pos = .blksum ∧ s.stream.reader.rip + 4 ≤ s.stream.input.length ∧
      sum ≠ Config.hash32 s.blk.payload ∧ s.stream.reader.state ≠ .header) := by
  refine ⟨⟨inBlock .block false 0x70#32 (bs [1, 0, 0, 0, 0, 0, 0, 0, 0]) [], 1#31, rfl, by decide, by decide⟩,
    ⟨inBlock .block false 0x60#32 [0#8, 0#8, 0#8, 0#8] [], 65537#31, rfl, rfl, by decide, by decide⟩,
    ⟨inBlock .block false 0x70#32 (bs [1, 0, 0, 0, 0, 0, 0, 0]) [], 1#31, rfl, by decide, by decide, by decide⟩,
    ⟨inBlock .payload true 0x70#32 [1#8] [1#8], [1#8], rfl, rfl, rfl, by decide⟩,
    fun raw => ?_, ⟨inBlock .payload false 0x60#32 [0x10#8] [0x10#8], [0x10#8], _, rfl, rfl, rfl, by decide, rfl, by decide, rfl⟩,
    fun raw => ?_, ⟨inBlock .blksum false 0x70#32 [0#8, 0#8, 0#8, 0#8] [0x10#8], _, rfl, rfl, rfl, by decide, rfl⟩, ?_⟩
  · cases raw
    · exact ⟨inBlock .payload false 0x60#32 [0#8] [0#8], [0#8], _, _, rfl, rfl, rfl, by decide, rfl, .inr ⟨rfl, rfl, rfl⟩,
        by decide⟩
    · exact ⟨inBlock .payload true 0x60#32 [1#8] [1#8], [1#8], _, _, rfl, rfl, rfl, by decide, rfl, .inl ⟨rfl, rfl, rfl⟩,
        by decide⟩
  · cases raw
    · exact ⟨inBlock .blksum false 0x70#32 [0#8, 0#8, 0#8, 0#8] [0#8], _, _, rfl, rfl, rfl, .inr ⟨rfl, rfl, rfl⟩, by decide⟩
    · exact ⟨inBlock .blksum true 0x70#32 [0#8, 0#8, 0#8, 0#8] [1#8], _, _, rfl, rfl, rfl, .inl ⟨rfl, rfl, rfl⟩, by decide⟩
  · by_cases h : Config.hash32 [1#8] = 0#32
    · exact ⟨inBlock .blksum true 0x70#32 [0#8, 0#8, 0#8, 0#8] [1#8], 1#32, rfl, by decide, fun e => by
        have e : (1#32 : Word) = Config.hash32 [1#8] := e
        rw [h] at e; exact absurd e (by decide), by decide⟩
    · exact ⟨inBlock .blksum true 0x70#32 [0#8, 0#8, 0#8, 0#8] [1#8], 0#32, rfl, by decide, fun e => h e.symm, by decide⟩

/-- A reader one byte short of 2^64 content bytes, before its next block; a frame run of it before a raw block's payload. -/
def almostFull : ReaderCtx := { reader 0x60#32 with srcAddr := 0x1000#64, srcLen := 5#32, total := 2 ^ 64 - 1 }
def inBlockOf (r : ReaderCtx) : State :=
  { frameRun .payload [1#8] r with blk := { raw := true, size := 1, payload := [] } }

/-- A stream one byte short of 2^64 bytes, and one more: WRITE_FRAME, READ_FRAME, a run's raw block, beside the stops of the
host's accesses. -/
theorem witness_StopsAreOnlyTheNamedOnes :
    (∃ i s, isCommand i ∧ i = .writeFrame ∧ ¬ writeTooLong s ∧ ¬ readTooLong s) ∧
    (∃ (s : State) (w : WriterCtx), s.writers[s.regs.handle.toNat]? = some w ∧ writeValid s w ∧
      w.total + s.regs.srcLen.toNat = 2 ^ 64) ∧
    (∃ s, readTooLong s) ∧ (∃ s r, runTooLong s ∧ step s = .refused r) ∧
    (∃ s f, step s = .fault f) ∧ (∃ s, step s = .refused .registerAccessNotAWord) := by
  refine ⟨⟨.writeFrame, State.reset, rfl, rfl, ?_, ?_⟩,
    ⟨writing { writer 0x20#32 0#32 with state := .blocks, total := 2 ^ 64 - 1 } [1#8] 5#32,
      { writer 0x20#32 0#32 with state := .blocks, total := 2 ^ 64 - 1 }, rfl, by decide, by decide⟩,
    ⟨{ reading 0x60#32 (bs [1, 0, 0, 0x80, 0x41]) 1#32 1#32 with readers := [almostFull] }, almostFull, _, rfl, by decide, rfl,
      by decide⟩,
    ⟨inBlockOf almostFull, .streamTooLong, ⟨[1#8], [1#8], _, .inl ⟨rfl, by decide, rfl, rfl⟩, .inl ⟨rfl, rfl, rfl⟩, by decide⟩, rfl⟩,
    ⟨{ State.reset with host := [.storeByte (2 ^ 64) 1#8] }, .addressOutsideBM, rfl⟩,
    ⟨{ State.reset with host := [.storeReg 0 .byte 1#32] }, rfl⟩⟩
  · rintro ⟨w, hw, hv, -⟩
    obtain rfl : WriterCtx.reset = w := Option.some.inj hw
    exact absurd hv (by decide)
  · rintro ⟨r, u, hr, hv, -⟩
    obtain rfl : ReaderCtx.reset = r := Option.some.inj hr
    exact absurd hv (by decide)

theorem witness_TrailerElementsEndTheFrame :
    (∃ s : State, s.stream.reader.rip + 4 = s.stream.input.length ∧ s.stream.pos = .block ∧
      s.stream.reader.finfo.csize = true ∧ s.stream.reader.total = s.stream.reader.finfo.contentSize.toNat) ∧
    (∃ s : State, s.stream.reader.rip + 4 = s.stream.input.length ∧ s.stream.pos = .block ∧
      s.stream.reader.state = .blocks ∧ s.stream.reader.finfo.csize = true ∧
      s.stream.reader.total + 1 = s.stream.reader.finfo.contentSize.toNat) ∧
    (∃ s : State, s.stream.reader.rip + 4 = s.stream.input.length ∧ s.stream.pos = .csum) ∧
    (∃ (s : State) (sum : Word), s.stream.reader.rip + 4 = s.stream.input.length ∧ s.stream.pos = .csum ∧
      s.stream.reader.state ≠ .header ∧ sum ≠ Config.hash32 s.stream.reader.acc) := by
  refine ⟨⟨frameRun .block [0#8, 0#8, 0#8, 0#8] (reader 0x68#32), rfl, rfl, by decide, by decide⟩,
    ⟨frameRun .block [0#8, 0#8, 0#8, 0#8]
      { reader 0x68#32 with finfo := { (reader 0x68#32).finfo with csizeLo := 20#32 }, total := 19 }, rfl, rfl, rfl, by decide,
      by decide⟩,
    ⟨frameRun .csum [0#8, 0#8, 0#8, 0#8] (reader 0x64#32), rfl, rfl⟩, ?_⟩
  by_cases h : Config.hash32 [] = 0#32
  · exact ⟨frameRun .csum [0#8, 0#8, 0#8, 0#8] { reader 0x64#32 with state := .contentChecksum }, 1#32, rfl, rfl, by decide,
      fun e => by
        have e : (1#32 : Word) = Config.hash32 [] := e
        rw [h] at e; exact absurd e (by decide)⟩
  · exact ⟨frameRun .csum [0#8, 0#8, 0#8, 0#8] { reader 0x64#32 with state := .contentChecksum }, 0#32, rfl, rfl, by decide,
      fun e => h e.symm⟩

end Sys2Proof.Tests
end

namespace Sys2Proof.Machine

/-! ## Proofs: STATUS and RESULT after a command (R270, R306) -/

/-- The errors `i` can report: InvalidArgument, and those of the bytes it reads (R272). -/
def OwnError (i : Instr) (e : ErrCode) : Prop :=
  e = .invalidArgument ∨
  (i = .decompressBlock ∧ (e = .outputTooSmall ∨ e = .corruptedInput)) ∨
  ((i = .openReader ∨ i = .readFrame) ∧ (e = .corruptedInput ∨ e = .checksumMismatch))

/-- STATUS and RESULT as the command `i` can leave them (R22, R270, R306). -/
inductive Reports (i : Instr) : Status → Word → Prop where
  | done (v : Word) : Reports i statusDone v
  | nofit (v : Word) (hi : i = .compressBlock) : Reports i { statusDone with nofit := true } v
  | ended (v : Word) (hi : i = .readFrame) : Reports i { statusDone with eos := true } v
  | error (e : ErrCode) (he : OwnError i e) : Reports i (statusError e) 0#32

/-- READ_FRAME sets EOS or leaves STATUS plain, by the reader's state (R22). -/
theorem reports_setEos (ended : Bool) (v : Word) :
    Reports .readFrame (Status.setEos ended statusDone) v := by
  cases ended with
  | false => exact .done v
  | true => exact .ended v rfl

/-- Each end of a command reports in one of these ways. -/
theorem CommandEnd.reports {s t : State} {i : Instr} (h : CommandEnd s i t) :
    Reports i t.regs.status t.regs.result := by
  cases h with
  | invalid => exact .error _ (.inl rfl)
  | maxlen => exact .done _
  | fits => exact .done _
  | nofit => exact .nofit _ rfl
  | tooSmall => exact .error _ (.inr (.inl ⟨rfl, .inl rfl⟩))
  | decoded => exact .done _
  | corrupted => exact .error _ (.inr (.inl ⟨rfl, .inr rfl⟩))
  | openWriter => exact .done _
  | writeFrame => exact .done _
  | closeWriter => exact .done _
  | openReader => exact .done _
  | badHeader e he => exact .error e (.inr (.inr ⟨.inl rfl, he⟩))
  | readFrame r u => exact reports_setEos (u.reader.state == .ended) _
  | badFrame r u e he => exact .error e (.inr (.inr ⟨.inr rfl, he⟩))
  | closeReader => exact .done _

/-- Settles O25: each of the four ways to report is as R22, R23, R270, R272 and R306 ask. -/
theorem statusAfterEveryCommand : Obligations.StatusAfterEveryCommand := by
  intro i s t hi h
  have hr := (commandEnd_of_next hi h).reports
  generalize t.regs.status = st at hr ⊢
  generalize t.regs.result = v at hr ⊢
  cases hr with
  | done => simp [statusDone]
  | nofit _ hi => simp [statusDone, hi]
  | ended _ hi => simp [statusDone, hi]
  | error e he =>
    refine ⟨rfl, rfl, nofun, nofun, fun _ => ⟨rfl, rfl, rfl⟩, fun _ hne => ?_⟩
    exact he.resolve_left hne

/-! ## Proofs: reset (R46) -/

@[simp] theorem resetWith_regs (p : Params) (nw nr : Nat) : (State.resetWith p nw nr).regs = Regs.reset := rfl
@[simp] theorem resetWith_bt (p : Params) (nw nr : Nat) : (State.resetWith p nw nr).bt = TableSet.empty := rfl
@[simp] theorem resetWith_writers (p : Params) (nw nr : Nat) :
    (State.resetWith p nw nr).writers = List.replicate nw WriterCtx.reset := rfl
@[simp] theorem resetWith_readers (p : Params) (nw nr : Nat) :
    (State.resetWith p nw nr).readers = List.replicate nr ReaderCtx.reset := rfl

/-- Settles O1: the registers by evaluation, the contexts as copies of the reset context. -/
theorem resetLeavesTheStatedValues : Obligations.ResetLeavesTheStatedValues := by
  intro p nw nr
  simp only [resetWith_regs, resetWith_bt, resetWith_writers, resetWith_readers, List.length_replicate, true_and]
  refine ⟨rfl, by decide, rfl, rfl, rfl, rfl, rfl, rfl, rfl, rfl, rfl, rfl, ?_, ?_, Params.default, rfl, rfl⟩
  · intro w hw
    obtain rfl := List.eq_of_mem_replicate hw
    exact ⟨rfl, rfl⟩
  · intro r hr
    obtain rfl := List.eq_of_mem_replicate hr
    rfl

/-! ## Proofs: the host's actions (R20, R21, R60, R280) -/

/-- With no run, the step is the host's first action. -/
theorem step_of_host {s : State} {op : HostOp} {rest : List HostOp} (hp : s.stream.pos = .idle)
    (hh : s.host = op :: rest) : step s = hostAction op { s with host := rest } := by
  simp only [step, hp, hostStep, hh]

/-- Settles O5: CMD stands at offset 0, and its four bytes are what R68 makes of its value. -/
theorem stepRunsTheStoredCommand : Obligations.StepRunsTheStoredCommand := by
  intro s v rest hp hb hh
  constructor
  · have h := decodeLE_leBytes (fun v => decodeCommand (BitVec.ofNat 32 v)) (show v.toNat < 256 ^ 4 from v.isLt) []
    simpa [decode] using h
  · rw [step_of_host hp hh]
    simp [hostAction, hostStore, hb]

/-- The registers marked RW (R20). -/
def hostWritable : List RegName :=
  [.handle, .srcAddrLo, .srcAddrHi, .srcLen, .dstAddrLo, .dstAddrHi, .dstCap, .arg, .prefFlags, .prefBsclass,
    .prefCsizeLo, .prefCsizeHi, .prefDictid, .prefLevel, .cfgHashLog, .cfgFlavor, .cfgSkipStrength, .cfgSkipCeil,
    .cfgHcMinLevel, .cfgHcMaxLevel, .cfgHcMaxAttempts, .cfgHcOptLen, .cfgHashMult]

/-- What every register reads after a store to one: a table of register against register. -/
theorem Regs.read_write (r : Regs) (n m : RegName) (v : Word) :
    (r.write n v).read m = if m = n ∧ n ∈ hostWritable then v else r.read m := by
  cases n <;> cases m <;> rfl

@[simp] theorem Regs.write_status (r : Regs) (n : RegName) (v : Word) : (r.write n v).status = r.status := by
  cases n <;> rfl

theorem Regs.read_write_same (r : Regs) {n : RegName} (hn : n ∈ hostWritable) (v : Word) :
    (r.write n v).read n = v := by
  rw [Regs.read_write, if_pos ⟨rfl, hn⟩]

theorem Regs.read_write_other (r : Regs) {n m : RegName} (hm : m ≠ n) (v : Word) :
    (r.write n v).read m = r.read m := by
  rw [Regs.read_write, if_neg fun h => hm h.1]

theorem storeRegister_of_some {off : Nat} {n : RegName} (h : regAt off = some n) (v : Word) (s : State) :
    storeRegister off v s = { s with regs := s.regs.write n v } := by
  simp only [storeRegister, h]

theorem storeRegister_of_none {off : Nat} (h : regAt off = none) (v : Word) (s : State) : storeRegister off v s = s := by
  simp only [storeRegister, h]

/-- A store to STATUS, RESULT or a FINFO register is ignored (R314). -/
theorem storeRegister_of_readOnly {off : Nat} (h : off ∈ [0x04, 0x08, 0x50, 0x54, 0x58, 0x5C, 0x60, 0x64]) (v : Word)
    (s : State) : storeRegister off v s = s := by
  simp only [List.mem_cons, List.not_mem_nil, or_false] at h
  rcases h with rfl | rfl | rfl | rfl | rfl | rfl | rfl | rfl <;> rfl

theorem loadRegister_of_some {off : Nat} {n : RegName} (h : regAt off = some n) (s : State) :
    loadRegister off s = s.regs.read n := by
  simp only [loadRegister, h]

theorem loadRegister_of_none {off : Nat} (h : regAt off = none) (s : State) : loadRegister off s = 0#32 := by
  simp only [loadRegister, h]

/-- A load of a reserved offset or of CMD (R20, R21). -/
theorem loadRegister_eq_zero {off : Nat} (hoff : regAt off = none ∨ off = 0x00) (s : State) :
    loadRegister off s = 0#32 := by
  rcases hoff with hoff | rfl
  · exact loadRegister_of_none hoff s
  · rfl

section RegisterSteps
/-! A register access at the head of the host's actions, as a step. -/

variable {s : State} {off : Nat} {v : Word} {rest : List HostOp}

theorem step_storeReg_idle (hp : s.stream.pos = .idle) (hb : s.regs.status.busy = false) (ha : off % 4 = 0)
    (h0 : off ≠ 0) (hh : s.host = .storeReg off .word v :: rest) :
    step s = .next (storeRegister off v { s with host := rest }) := by
  rw [step_of_host hp hh]
  simp [hostAction, hostStore, ha, hb, h0]

theorem step_storeReg_busy (hp : s.stream.pos = .idle) (hb : s.regs.status.busy = true) (ha : off % 4 = 0)
    (hh : s.host = .storeReg off .word v :: rest) : step s = .next { s with host := rest } := by
  rw [step_of_host hp hh]
  simp [hostAction, hostStore, ha, hb]

theorem step_loadReg_idle (hp : s.stream.pos = .idle) (hb : s.regs.status.busy = false) (ha : off % 4 = 0)
    (hh : s.host = .loadReg off .word :: rest) :
    step s = .next { s with host := rest, busData := loadRegister off { s with host := rest } } := by
  rw [step_of_host hp hh]
  simp [hostAction, hostLoad, ha, hb]

/-- STATUS can be loaded whether BUSY or not (R280). -/
theorem step_loadStatus (hp : s.stream.pos = .idle) (hh : s.host = .loadReg 0x04 .word :: rest) :
    step s = .next { s with host := rest, busData := s.regs.status.word } := by
  rw [step_of_host hp hh]
  simp [hostAction, hostLoad, regAt, loadRegister, Regs.read]

/-- A store to a register marked RW (R20). -/
theorem step_storeReg_writable {n : RegName} (hp : s.stream.pos = .idle) (hb : s.regs.status.busy = false)
    (ha : off % 4 = 0) (hn : regAt off = some n) (hw : n ∈ hostWritable)
    (hh : s.host = .storeReg off .word v :: rest) :
    step s = .next { s with regs := s.regs.write n v, host := rest } := by
  have h0 : off ≠ 0 := by
    rintro rfl
    obtain rfl : RegName.cmd = n := Option.some.inj hn
    exact absurd hw (by decide)
  rw [step_storeReg_idle hp hb ha h0 hh, storeRegister_of_some hn]

/-- A store to a register marked R or to a reserved offset (R20, R314). -/
theorem step_storeReg_ignored (hp : s.stream.pos = .idle) (hb : s.regs.status.busy = false) (ha : off % 4 = 0)
    (hoff : regAt off = none ∨ off ∈ [0x04, 0x08, 0x50, 0x54, 0x58, 0x5C, 0x60, 0x64])
    (hh : s.host = .storeReg off .word v :: rest) : step s = .next { s with host := rest } := by
  have h0 : off ≠ 0 := by
    rintro rfl
    exact absurd hoff (by decide)
  rw [step_storeReg_idle hp hb ha h0 hh]
  rcases hoff with hoff | hoff
  · rw [storeRegister_of_none hoff]
  · rw [storeRegister_of_readOnly hoff]

end RegisterSteps

/-- Settles O12: a store to REG or BM is the one write it names, a load the one read; the rest of the state is the record's
other fields. -/
theorem hostAccessesFollowTheirRules : Obligations.HostAccessesFollowTheirRules := by
  refine ⟨fun s off v rest hp hb ha => ⟨?storeWritable, ?storeIgnored, ?loadZero, ?loadValue⟩,
    fun s off v rest hp hb ha => ⟨step_storeReg_busy hp hb ha, step_loadStatus hp⟩,
    fun s a b rest hp hm ha => ⟨?storeByte, fun hh => (step_of_host hp hh).trans (if_pos ha)⟩⟩
  case storeWritable =>
    intro n hn hw hh
    exact ⟨_, step_storeReg_writable hp hb ha hn hw hh, s.regs.read_write_same hw v,
      fun m hm => s.regs.read_write_other hm v, s.regs.write_status n v, rfl⟩
  case storeIgnored => exact step_storeReg_ignored hp hb ha
  case loadZero =>
    intro hoff hh
    rw [step_loadReg_idle hp hb ha hh, loadRegister_eq_zero hoff]
  case loadValue =>
    intro n hn hh
    rw [step_loadReg_idle hp hb ha hh, loadRegister_of_some hn]
  case storeByte =>
    intro hh
    exact ⟨_, (step_of_host hp hh).trans (if_pos ha), Mem.read_write_same hm a b,
      fun c hc => Mem.read_write_other hc s.mem b, Mem.wf_write hm a b, rfl⟩

end Sys2Proof.Machine

namespace Sys2Proof.Machine

/-! ## Proofs: the device writes the destination region only (R66) -/

/-- WRITE_FRAME's bytes fit DST_CAP (R238, R242). -/
theorem written_out_le_dstCap {s : State} {w : WriterCtx} (hv : writeValid s w) :
    (written s w).out.length ≤ s.regs.dstCap.toNat := by
  obtain ⟨-, -, -, hroom⟩ := hv
  obtain ⟨-, -, -, -, hout⟩ := writeBlocks_spec (policyOf s.params) w s.enc (srcBytes s)
  have hlen : (srcBytes s).length = s.regs.srcLen.toNat := Mem.length_readBytes _ _ _
  rw [hlen] at hout
  exact hout.trans hroom

/-- CLOSE_WRITER's bytes fit DST_CAP (R244). -/
theorem closeBytes_le_dstCap {s : State} {w : WriterCtx} (hv : closeValid s w) :
    (closeBytes w).length ≤ s.regs.dstCap.toNat := by
  obtain ⟨-, -, -, hroom⟩ := hv
  exact (length_closeBytes w).trans_le hroom

/-- READ_FRAME asks for no more than DST_CAP (R274). -/
theorem arg_le_dstCap_of_readValid {s : State} {r : ReaderCtx} (hv : readValid s r) :
    s.regs.arg.toNat ≤ s.regs.dstCap.toNat := by
  obtain ⟨-, -, -, -, hcap⟩ := hv
  exact hcap

/-- BM after a command: as before, or with one delivery of bytes the destination region has room for (R45, R62). -/
theorem CommandEnd.mem_eq_or_delivered {s t : State} {i : Instr} (h : CommandEnd s i t) :
    t.mem = s.mem ∨
    ∃ o : List Byte, o.length ≤ s.regs.dstCap.toNat ∧ t.mem = (deliver (dstRegion s.params s.regs) o s).mem := by
  cases h with
  | invalid => exact .inl rfl
  | maxlen => exact .inl rfl
  | fits hv hf => exact .inr ⟨_, hf, rfl⟩
  | nofit => exact .inr ⟨[], Nat.zero_le _, rfl⟩
  | tooSmall => exact .inr ⟨[], Nat.zero_le _, rfl⟩
  | decoded d hv hc hd hl => exact .inr ⟨d.out, hl.trans_le hc, rfl⟩
  | corrupted => exact .inr ⟨[], Nat.zero_le _, rfl⟩
  | openWriter => exact .inl rfl
  | writeFrame w hw hv => exact .inr ⟨_, written_out_le_dstCap hv, rfl⟩
  | closeWriter w hw hv => exact .inr ⟨_, closeBytes_le_dstCap hv, rfl⟩
  | openReader => exact .inl rfl
  | badHeader => exact .inl rfl
  | readFrame r u hr hv hu hlen => exact .inr ⟨u.out, hlen.trans (arg_le_dstCap_of_readValid hv), rfl⟩
  | badFrame => exact .inr ⟨[], Nat.zero_le _, rfl⟩
  | closeReader => exact .inl rfl

/-- A wire element writes no byte of BM. -/
theorem exec_element_mem {i : Instr} {s t : State} (hi : ¬ isCommand i) (h : exec i s = .next t) : t.mem = s.mem := by
  rw [exec_element_frame hi h]

theorem bytesSameOutside_of_mem_eq {s t : State} (g : Region) (h : t.mem = s.mem) : bytesSameOutside g s t := by
  intro a _
  rw [h]

/-- Settles O27: a wire element leaves BM as it was; a command leaves it so too, or delivers bytes that fit the destination
region. -/
theorem deviceWritesOnlyTheDestinationRegion : Obligations.DeviceWritesOnlyTheDestinationRegion := by
  intro i s t h
  by_cases hi : isCommand i
  · rcases (commandEnd_of_next hi h).mem_eq_or_delivered with hm | ⟨o, ho, hm⟩
    · exact bytesSameOutside_of_mem_eq _ hm
    · intro a ha
      rw [hm]
      exact deliver_read_outside _ o s ho ha
  · exact bytesSameOutside_of_mem_eq _ (exec_element_mem hi h)

end Sys2Proof.Machine

namespace Sys2Proof

/-! ## Proofs: encoding what was decoded (R94, R115, R116) -/

section EncodeOfDecode
variable {bs rest : List Byte} {i : Instr} {n : Nat}

/-- An element of one byte is written as it was read. -/
theorem encode_of_decodeByte {f : Byte → Instr} (h : decodeByte f bs = .ok (i, rest)) (hf : ∀ b, encode (f b) = [b]) :
    encode i ++ rest = bs := by
  obtain ⟨b, rfl, hb⟩ := decodeByte_eq_ok h
  rw [hf, ← hb]
  rfl

/-- A run of bytes is written as it was read. -/
theorem encode_of_decodeRun {f : List Byte → Instr} (h : decodeRun f n bs = .ok (i, rest))
    (hf : ∀ l, encode (f l) = l) : encode i ++ rest = bs := by
  obtain ⟨l, rfl, -, hl⟩ := decodeRun_eq_ok h
  rw [hf, hl]

/-- A word of `m` bits holds all of an `n`-byte field of as many bits. -/
theorem leBytes_ofNat {m v : Nat} (hm : 2 ^ m = 256 ^ n) (hv : v < 256 ^ n) :
    leBytes n (BitVec.ofNat m v).toNat = leBytes n v := by
  rw [BitVec.toNat_ofNat, hm, Nat.mod_eq_of_lt hv]

/-- A little-endian field is written as it was read. -/
theorem encode_of_decodeLE {f : Nat → Instr} (h : decodeLE f n bs = .ok (i, rest))
    (hf : ∀ v, v < 256 ^ n → encode (f v) = leBytes n v) : encode i ++ rest = bs := by
  obtain ⟨v, rfl, hv, hl⟩ := decodeLE_eq_ok h
  rw [hf v hv, hl]

theorem encode_of_decodeMagic (h : decodeMagic bs = .ok (i, rest)) : encode i ++ rest = bs := by
  unfold decodeMagic at h
  split at h
  next => simp at h
  next v r htake =>
    split_ifs at h with hv
    simp only [Except.ok.injEq, Prod.mk.injEq] at h
    obtain ⟨rfl, rfl⟩ := h
    obtain ⟨-, hbytes, -⟩ := takeLE_eq_some htake
    rw [← hbytes, hv]
    rfl

/-- A whole sequence is written as it was read. -/
theorem encode_of_decodeSequence (h : decodeSequence bs = .ok (i, rest)) : encode i ++ rest = bs := by
  rcases decodeSequence_eq_ok h with ⟨lit, off, ml, rfl, -, hbytes⟩ | ⟨lit, mln, rfl, rfl, hbytes⟩
  · exact hbytes.symm
  · rw [hbytes]
    exact List.append_nil _

/-- The word at a block boundary is written as it was read: the RAW bit and the size are all of it (R110, R113). -/
theorem encode_decodeSizeWord {w : Nat} (h : w < 256 ^ 4) : encode (decodeSizeWord w) = leBytes 4 w := by
  unfold decodeSizeWord
  by_cases h0 : w = 0
  · rw [if_pos h0, h0]
    rfl
  · rw [if_neg h0]
    have hword : sizeWord (decide (2147483648 ≤ w)) (BitVec.ofNat 31 w).toNat = w := by
      unfold sizeWord
      rw [BitVec.toNat_ofNat]
      by_cases hraw : 2147483648 ≤ w <;> simp [hraw] <;> omega
    simp only [encode, hword]

/-- A value stored to CMD is written as it was read, a command word or not (R118, R273). -/
theorem encode_decodeCommand (w : Word) : encode (decodeCommand w) = leBytes 4 w.toNat := by
  unfold decodeCommand
  split_ifs with h1 h2 h3 h4 h5 h6 h7 h8 h9
  case neg => rfl
  all_goals subst w; rfl

end EncodeOfDecode

/-- Settles O9: by the reader of each position; the size word and the command word are the two that are not a field as it
stands. -/
theorem encodeOfDecodeIsTheBytes : Obligations.EncodeOfDecodeIsTheBytes := by
  intro p bs rest i h
  cases p with
  | token | llext | mlext | flg | bd | hc => exact encode_of_decodeByte h fun _ => rfl
  | literals | payload => exact encode_of_decodeRun h fun _ => rfl
  | sequence => exact encode_of_decodeSequence h
  | magic => exact encode_of_decodeMagic h
  | offset | csize | dictid | blksum | csum =>
    exact encode_of_decodeLE h fun _ hv => leBytes_ofNat (by norm_num) hv
  | block => exact encode_of_decodeLE h fun _ => encode_decodeSizeWord
  | command =>
    refine encode_of_decodeLE h fun v hv => ?_
    rw [encode_decodeCommand, leBytes_ofNat (by norm_num) hv]

/-- Settles O10: the length is read back from its encoding, and what was read is that encoding. -/
theorem lengthEncodingIsExactAndUnique : Obligations.LengthEncodingIsExactAndUnique := by
  refine ⟨readLen_lenField, fun nib v k bs hnib h => ?_, fun v hv => if_pos hv, fun v hv => if_neg (by omega)⟩
  obtain ⟨hmin, hbytes, -, -⟩ := readLen_eq_some hnib h
  exact ⟨hmin, hbytes⟩

end Sys2Proof

namespace Sys2Proof.Machine

/-! ## Proofs: the step of a wire-data run (R115, R121, R350) -/

/-- A rejected element ends the run with CorruptedInput, and the machine beside the run is as it was. -/
theorem rejectElement_ends (s : State) :
    (rejectElement s).stream.pos = .idle ∧ (rejectElement s).stream.verdict = .raised .corruptedInput ∧
    (rejectElement s).regs = s.regs ∧ (rejectElement s).mem = s.mem ∧ (rejectElement s).writers = s.writers ∧
    (rejectElement s).readers = s.readers := by
  unfold rejectElement
  split
  · exact ⟨rfl, rfl, rfl, rfl, rfl, rfl⟩
  · exact ⟨rfl, rfl, rfl, rfl, rfl, rfl⟩

/-- Settles O6: the two answers of the decoder are the two ways of a run's step. -/
theorem stepRunsTheDecodedElement : Obligations.StepRunsTheDecodedElement :=
  fun s hp => ⟨fun _ _ hd => step_of_decode hp hd,
    fun _ hd => ⟨rejectElement s, step_of_reject hp hd, rejectElement_ends s⟩⟩

/-! ## Proofs: whole sequences (R91, R98, R99) -/

/-- A run that stands at a position already goes on there as it is. -/
theorem goOn_of_pos {s : State} {p : Pos} (h : s.stream.pos = p) : goOn p s = s := by
  subst h
  rfl

/-- The state a run's step leaves after one whole sequence (R190, R194): the next boundary, or the block's end. -/
def afterSequence (s : State) : Except DecRegs (DecRegs × Bool) → State
  | .ok (d, true) => streamReturn { s with dec := d }
  | .ok (d, false) => { s with dec := d }
  | .error d => raiseBlock .corruptedInput { s with dec := d }

section Sequence
variable {s : State} {lit rest : List Byte} {off : BitVec 16} {ml : Nat} {mln : BitVec 4}

/-- A SEQ at its bytes does what the decoder does there (R91). -/
theorem execSeq_eq_decodeSeq (hp : s.stream.pos = .boundary) (hml : 4 ≤ ml)
    (hin : s.stream.input.drop s.dec.ip = emitSeq lit off.toNat ml ++ rest) :
    execSeq lit off ml s =
      .next (afterSequence s (decodeSeq s.stream.input s.stream.dict s.stream.limit s.dec)) := by
  have hlen := congrArg List.length hin
  rw [List.length_drop, List.length_append] at hlen
  have hpos : 0 < (emitSeq lit off.toNat ml).length := by rw [length_emitSeq]; omega
  rw [decodeSeq_of_emitSeq hml hin, execSeq, atPos_of_pos hp, if_neg (by simp only [encode]; omega)]
  cases s.dec.takeSeq s.stream.input.length s.stream.dict s.stream.limit lit off ml with
  | error d => rfl
  | ok d => exact congrArg Host.Outcome.next (goOn_of_pos (s := { s with dec := d }) hp)

/-- A LAST at its bytes, which end the input, does what the decoder does there (R98, R99). -/
theorem execLast_eq_decodeSeq (hp : s.stream.pos = .boundary)
    (hin : s.stream.input.drop s.dec.ip = emitLastWith lit mln.toNat) :
    execLast lit mln s =
      .next (afterSequence s (decodeSeq s.stream.input s.stream.dict s.stream.limit s.dec)) := by
  have hlen := congrArg List.length hin
  rw [List.length_drop] at hlen
  have hpos : 0 < (emitLastWith lit mln.toNat).length := by rw [length_emitLastWith]; omega
  rw [decodeSeq_of_emitLast hin, execLast, atPos_of_pos hp, if_neg (by simp only [encode]; omega),
    if_neg (by simp only [encode]; omega)]
  cases s.dec.takeLast s.stream.input.length s.stream.limit lit mln <;> rfl

/-- A decoded sequence does what the decoder does at its bytes. -/
theorem exec_sequence_eq_decodeSeq {i : Instr} (hp : s.stream.pos = .boundary)
    (hd : decode .sequence (s.stream.input.drop s.dec.ip) = .ok (i, rest)) :
    exec i s = .next (afterSequence s (decodeSeq s.stream.input s.stream.dict s.stream.limit s.dec)) := by
  rcases decodeSequence_eq_ok hd with ⟨lit, off, ml, rfl, hml, hin⟩ | ⟨lit, mln, rfl, -, hin⟩
  · exact execSeq_eq_decodeSeq hp hml hin
  · exact execLast_eq_decodeSeq hp hin

end Sequence

/-- Settles O43: a run at the sequence grain reads a whole sequence, and that is one turn of the decoder. -/
theorem sequenceStepIsItsElements : Obligations.SequenceStepIsItsElements := by
  intro s i rest hp hg hd
  have hfetch : decode (fetchAt s) (fetchBytes s) = .ok (i, rest) := by
    have hat : fetchAt s = .sequence := by simp only [fetchAt, hp, hg]
    have hbytes : fetchBytes s = s.stream.input.drop s.dec.ip := by simp [fetchBytes, hp, Pos.inBlock]
    rw [hat, hbytes, hd]
  refine ⟨step_of_decode (by simp [hp]) hfetch, ?_⟩
  rw [exec_sequence_eq_decodeSeq hp hd]
  rcases decodeSeq s.stream.input s.stream.dict s.stream.limit s.dec with d | ⟨d, _ | _⟩ <;> rfl

/-! ## Proofs: the wire elements of a frame (R101 to R114) -/

/-- An element of a frame whose bytes are there starts with RIP past them. -/
theorem frameElement_of_room {p : Pos} {n : Nat} {s : State} (hp : s.stream.pos = p)
    (hin : s.stream.reader.rip + n ≤ s.stream.input.length) (k : State → Host.Outcome State Fault Refusal) :
    frameElement p n s k = k (advanceRun n s) :=
  (atPos_of_pos hp).trans (if_neg (Nat.not_lt.mpr hin))

/-- The reader's working state put back as it was. -/
@[simp] theorem putStreamWork_streamWork (s : State) : putStreamWork (streamWork s) s = s := rfl

/-- Settles O57: with the bytes there, each element writes its name and moves on. -/
theorem headerElementsAreRecorded : Obligations.HeaderElementsAreRecorded := by
  intro s b v w
  refine ⟨fun hp hin => ?magic, fun hp hin => ?flg, fun hp hin => ?bd, fun hp hin => ?csize, fun hp hin => ?dictid⟩
  case magic =>
    rw [exec, execMagic, frameElement_of_room hp hin]
    rfl
  case flg => exact (atPos_of_pos hp).trans (if_neg (Nat.not_lt.mpr hin))
  case bd =>
    have hrest : s.stream.reader.rip + 1 + (hdrLen (s.hdr.flg.getLsbD 3) (s.hdr.flg.getLsbD 0) - 6) ≤
        s.stream.input.length := by
      unfold hdrLen
      omega
    rw [exec, execBd, frameElement_of_room hp (by omega)]
    exact if_neg (Nat.not_lt.mpr hrest)
  case csize =>
    rw [exec, execCsize, frameElement_of_room hp hin]
    rfl
  case dictid =>
    rw [exec, execDictid, frameElement_of_room hp hin]
    rfl

/-- A frame run that raises in its header, `n` bytes on, takes no context (R248). -/
theorem raiseFrame_advanceRun_of_header {s : State} (hs : s.stream.reader.state = .header) (n : Nat) (e : ErrCode) :
    raiseFrame e (advanceRun n s) = { s with stream := { s.stream with
      pos := .idle, verdict := .raised e
      reader := { s.stream.reader with state := .closed, rip := s.stream.reader.rip + n } } } := by
  simp [raiseFrame, advanceRun, putStreamWork, streamWork, ReadWork.advance, hs]

/-- A frame run that raises after its header, `n` bytes on, has its context Failed (R259). -/
theorem raiseFrame_advanceRun {s : State} (hs : s.stream.reader.state ≠ .header) (n : Nat) (e : ErrCode) :
    raiseFrame e (advanceRun n s) = frameFailed n e s := by
  simp [raiseFrame, frameFailed, advanceRun, putStreamWork, streamWork, ReadWork.advance, hs]

/-- Settles O58: the two tests of HC in R222's order. -/
theorem headerChecksumIsVerifiedFirst : Obligations.HeaderChecksumIsVerifiedFirst := by
  intro s c good hp hs hin hgood
  subst hgood
  rw [exec, execHc, frameElement_of_room hp hin]
  refine ⟨fun hc hl => ?_, fun hc => ?_, fun hc hl => ?_⟩
  · exact (if_neg (not_not.mpr hc)).trans (if_neg (not_not.mpr hl))
  · rw [← raiseFrame_advanceRun_of_header hs]
    exact if_pos hc
  · rw [← raiseFrame_advanceRun_of_header hs]
    exact (if_neg (not_not.mpr hc)).trans (if_pos hl)

/-! ### The reader's steps in a run (R251, R253, R256) -/

section ReadSteps
variable {t : ReadWork}

theorem openBlock_of_fits {inLen size : Nat} (raw : Bool) (hmax : size ≤ blockMax t.reader.finfo.bsclass.toNat)
    (hin : t.reader.rip + size + 4 * t.reader.finfo.bcsum.toNat ≤ inLen) :
    t.openBlock inLen raw size = .ok { t with blk := { t.blk with raw := raw, size := size } } :=
  (if_neg (Nat.not_lt.mpr hmax)).trans (if_neg (Nat.not_lt.mpr hin))

theorem openBlock_of_not_fits {inLen size : Nat} (raw : Bool) (h : blockMax t.reader.finfo.bsclass.toNat < size ∨
    inLen < t.reader.rip + size + 4 * t.reader.finfo.bcsum.toNat) :
    t.openBlock inLen raw size = .error (.corruptedInput, t) := by
  unfold ReadWork.openBlock
  split_ifs with hmax hin
  · rfl
  · rfl
  · exact absurd h (not_or.mpr ⟨hmax, hin⟩)

theorem takeBlksum_of_eq : t.takeBlksum (Config.hash32 t.blk.payload) = .ok (t.advance 4) := if_neg (not_not.mpr rfl)

theorem takeBlksum_of_ne {sum : Word} (h : sum ≠ Config.hash32 t.blk.payload) :
    t.takeBlksum sum = .error (.checksumMismatch, t.advance 4) := if_pos h

theorem checkSize_of_eq (h : t.reader.finfo.csize = true → t.reader.total = t.reader.finfo.contentSize.toNat) :
    t.checkSize = .ok t := if_neg fun hne => hne.2 (h hne.1)

theorem checkSize_of_ne (hc : t.reader.finfo.csize = true) (h : t.reader.total ≠ t.reader.finfo.contentSize.toNat) :
    t.checkSize = .error (.corruptedInput, t) := if_pos ⟨hc, h⟩

theorem takeCsum_of_eq : t.takeCsum (Config.hash32 t.reader.acc) = .ok (t.advance 4) := if_neg (not_not.mpr rfl)

theorem takeCsum_of_ne {sum : Word} (h : sum ≠ Config.hash32 t.reader.acc) :
    t.takeCsum sum = .error (.checksumMismatch, t.advance 4) := if_pos h

variable {r : ReadStep} {s : State} {k : State → Host.Outcome State Fault Refusal}

theorem afterRead_of_ok (h : r = .ok t) : afterRead r s k = k (putStreamWork t s) := by rw [h]; rfl

theorem afterRead_of_error {e : ErrCode} (h : r = .error (e, t)) :
    afterRead r s k = .next (raiseFrame e (putStreamWork t s)) := by rw [h]; rfl

end ReadSteps

/-! ### BLKHDR, PAYLOAD, BLKSUM (R110 to R112) -/

section BlockElements
variable {s : State} {c bytes : List Byte} {d : DecRegs}

/-- The run after the payload `bytes`. -/
def payloadTaken (bytes : List Byte) (s : State) : State := putStreamWork ((streamWork s).takePayload bytes) s

/-- A payload whose bytes are there is taken; its checksum follows, or the block is complete (R251). -/
theorem exec_payload_of_room (hp : s.stream.pos = .payload) (hlen : bytes.length = s.blk.size)
    (hin : s.stream.reader.rip + s.blk.size ≤ s.stream.input.length) :
    exec (.payload bytes) s = if s.stream.reader.finfo.bcsum then .next (goOn .blksum (payloadTaken bytes s))
      else finishRunBlock (payloadTaken bytes s) := by
  rw [exec, execPayload, atPos_of_pos hp, if_pos hlen, if_neg (Nat.not_lt.mpr hin)]
  rfl

/-- A block checksum that matches completes the block (R253). -/
theorem exec_blksum_of_eq (hp : s.stream.pos = .blksum) (hin : s.stream.reader.rip + 4 ≤ s.stream.input.length) :
    exec (.blksum (Config.hash32 s.blk.payload)) s = finishRunBlock (advanceRun 4 s) := by
  rw [exec, execBlksum, atPos_of_pos hp, if_neg (Nat.not_lt.mpr hin)]
  exact afterRead_of_ok (takeBlksum_of_eq (t := streamWork s))

/-- A complete block of content `c` is delivered, with the cursor where the block's last element left it (R255, R257). -/
theorem finishRunBlock_of_content (h : runContent s s.blk.payload c d) (ht : s.stream.reader.total + c.length < 2 ^ 64) :
    finishRunBlock s = .next (blockDelivered 0 c d s) := finishRunBlock_of_ok (runContent_iff.mp h) ht

/-- A complete block whose payload does not decode raises (R254). -/
theorem finishRunBlock_of_undecodable (hraw : s.blk.raw = false) (hs : s.stream.reader.state ≠ .header)
    (h : decodeBlock s.blk.payload s.stream.reader.dict (blockMax s.stream.reader.finfo.bsclass.toNat) s.dec = .error d) :
    finishRunBlock s = .next (frameFailed 0 .corruptedInput { s with dec := d }) :=
  finishRunBlock_of_error (decodeContent_eq_error.mpr ⟨hraw, h⟩) hs

end BlockElements

/-- Settles O59: a block header is judged by its two bounds, a checksum by its sum; then the block is complete. -/
theorem blockElementsDeliverTheContent : Obligations.BlockElementsDeliverTheContent := by
  refine ⟨fun s raw size hp hin => ⟨fun hmax hroom => ?opened, fun hbad hs => ?rejected⟩,
    fun s bytes hp hlen hin => ⟨fun hsum => ?stored, fun c d hsum hc ht => ?delivered,
      fun d hsum hraw hs hd => ?undecodable⟩,
    fun s hp hin => ⟨fun c d hc ht => ?sumDelivered, fun d hraw hs hd => ?sumUndecodable, fun sum hne hs => ?mismatch⟩⟩
  case opened =>
    rw [exec, execBlkhdr, frameElement_of_room hp hin]
    exact afterRead_of_ok (openBlock_of_fits (t := streamWork (advanceRun 4 s)) raw hmax hroom)
  case rejected =>
    rw [exec, execBlkhdr, frameElement_of_room hp hin, ← raiseFrame_advanceRun hs]
    exact afterRead_of_error (openBlock_of_not_fits (t := streamWork (advanceRun 4 s)) raw hbad)
  case stored =>
    rw [exec_payload_of_room hp hlen hin, if_pos hsum]
    rfl
  case delivered =>
    rw [exec_payload_of_room hp hlen hin, if_neg (ne_true_of_eq_false hsum)]
    exact finishRunBlock_of_content (s := payloadTaken bytes s) hc ht
  case undecodable =>
    rw [exec_payload_of_room hp hlen hin, if_neg (ne_true_of_eq_false hsum)]
    exact finishRunBlock_of_undecodable (s := payloadTaken bytes s) hraw hs hd
  case sumDelivered =>
    rw [exec_blksum_of_eq hp hin]
    exact finishRunBlock_of_content (s := advanceRun 4 s) hc ht
  case sumUndecodable =>
    rw [exec_blksum_of_eq hp hin]
    exact finishRunBlock_of_undecodable (s := advanceRun 4 s) hraw hs hd
  case mismatch =>
    rw [exec, execBlksum, atPos_of_pos hp, if_neg (Nat.not_lt.mpr hin), ← raiseFrame_advanceRun hs]
    exact afterRead_of_error (takeBlksum_of_ne (t := streamWork s) hne)

/-! ### ENDMARK and CSUM (R113, R114) -/

/-- An ENDMARK at the declared content size, or without one, goes on to the checksum or ends the frame (R256). -/
theorem exec_endmark_of_size {s : State} (hp : s.stream.pos = .block)
    (hin : s.stream.reader.rip + 4 ≤ s.stream.input.length)
    (hsize : s.stream.reader.finfo.csize = true → s.stream.reader.total = s.stream.reader.finfo.contentSize.toNat) :
    exec .endmark s = if s.stream.reader.finfo.ccsum then
      .next (goOn .csum (putStreamWork ((streamWork (advanceRun 4 s)).setState .contentChecksum) (advanceRun 4 s)))
      else finishRunFrame (advanceRun 4 s) := by
  rw [exec, execEndmark, frameElement_of_room hp hin]
  refine (afterRead_of_ok (checkSize_of_eq (t := streamWork (advanceRun 4 s)) hsize)).trans ?_
  rw [putStreamWork_streamWork]
  rfl

/-- Settles O60: the size is judged by ENDMARK, the checksum by CSUM. -/
theorem trailerElementsEndTheFrame : Obligations.TrailerElementsEndTheFrame := by
  refine fun s hin => ⟨fun hp hsize => ?ended, fun hp hs hc hne => ?wrongSize, fun hp => ?csum,
    fun sum hp hs hne => ?mismatch⟩
  case ended =>
    rw [exec_endmark_of_size hp hin hsize]
    cases s.stream.reader.finfo.ccsum <;> rfl
  case wrongSize =>
    have hne' : s.stream.reader.state ≠ .header := by simp [hs]
    rw [exec, execEndmark, frameElement_of_room hp hin]
    refine (afterRead_of_error (checkSize_of_ne (t := streamWork (advanceRun 4 s)) hc hne)).trans ?_
    exact congrArg Host.Outcome.next (raiseFrame_advanceRun hne' 4 .corruptedInput)
  case csum =>
    rw [exec, execCsum, atPos_of_pos hp, if_neg (Nat.not_lt.mpr hin)]
    exact afterRead_of_ok (takeCsum_of_eq (t := streamWork s))
  case mismatch =>
    rw [exec, execCsum, atPos_of_pos hp, if_neg (Nat.not_lt.mpr hin)]
    refine (afterRead_of_error (takeCsum_of_ne (t := streamWork s) hne)).trans ?_
    exact congrArg Host.Outcome.next (raiseFrame_advanceRun hs 4 .checksumMismatch)

end Sys2Proof.Machine

namespace Sys2Proof.Machine

/-! ## Proofs: the header reads back (R109, R221, R222) -/

/-- Below 64 the flags of the preferences are their six bits (R27). -/
theorem PrefRegs.flags_toNat {p : PrefRegs} (h : p.flags.toNat < 64) (h1 : p.flags.getLsbD 1 = false) :
    p.flags.toNat = 32 * p.bindep.toNat + 16 * p.bcsum.toNat + 8 * p.csize.toNat + 4 * p.ccsum.toNat +
      p.hasDictid.toNat := by
  have hbit : ∀ i, (p.flags.getLsbD i).toNat = p.flags.toNat / 2 ^ i % 2 := Nat.toNat_testBit p.flags.toNat
  have h1' : p.flags.toNat / 2 ^ 1 % 2 = 0 := by rw [← hbit, h1]; rfl
  simp only [PrefRegs.bindep, PrefRegs.bcsum, PrefRegs.csize, PrefRegs.ccsum, PrefRegs.hasDictid, hbit]
  omega

/-- The BD byte of a legal class (R105, R221). -/
theorem PrefRegs.bd_toNat {p : PrefRegs} (h : p.bsclass.toNat ≤ 7) : p.bd.toNat = p.bsclass.toNat * 16 := by
  rw [PrefRegs.bd, BitVec.toNat_ofNat]
  omega

/-- FLG and BD of legal preferences are legal (R222). -/
theorem PrefRegs.headerLegal_of_legal {p : PrefRegs} (hp : p.legal) : headerLegal p.flg p.bd := by
  obtain ⟨-, -, hlo, hhi⟩ := hp
  obtain ⟨-, -, -, -, hreserved, -, hversion⟩ := p.flg_bits
  have hbd := PrefRegs.bd_toNat hhi
  refine ⟨hversion, hreserved, ?_, by omega, by omega⟩
  exact Nat.testBit_lt_two_pow (by omega)

/-- The two halves of the content size (R25, R27). -/
theorem pair64_halves (hi lo : Word) :
    BitVec.ofNat 32 (pair64 hi lo).toNat = lo ∧ BitVec.ofNat 32 ((pair64 hi lo).toNat / 4294967296) = hi := by
  have hhi := hi.isLt
  have hlo := lo.isLt
  have h : (pair64 hi lo).toNat = hi.toNat * 4294967296 + lo.toNat := by
    rw [pair64, BitVec.toNat_ofNat]
    omega
  constructor <;> apply BitVec.eq_of_toNat_eq <;> rw [h, BitVec.toNat_ofNat] <;> omega

/-- A little-endian field of as many bits as `v` is read back as `v`. -/
theorem ofNat_leNat_take {m n : Nat} (hm : 2 ^ m = 256 ^ n) (v : BitVec m) (rest : List Byte) :
    BitVec.ofNat m (leNat ((leBytes n v.toNat ++ rest).take n)) = v := by
  rw [List.take_left' (length_leBytes n _), leNat_leBytes, ← hm, Nat.mod_eq_of_lt v.isLt, BitVec.ofNat_toNat,
    BitVec.setWidth_eq]

section ParseHeader
variable {f rest : List Byte} {flg bd : Byte} {csize : DWord} {dictid : Word}

/-- FINFO depends on the size and the id where their flag is set only (R28). -/
theorem finfoOf_congr {csize' : DWord} {dictid' : Word} (hcsize : flg.getLsbD 3 = true → csize' = csize)
    (hdictid : flg.getLsbD 0 = true → dictid' = dictid) : finfoOf flg bd csize' dictid' = finfoOf flg bd csize dictid := by
  unfold finfoOf
  congr 1
  · exact ite_congr rfl (fun h => by rw [hcsize h]) fun _ => rfl
  · exact ite_congr rfl (fun h => by rw [hcsize h]) fun _ => rfl
  · exact ite_congr rfl hdictid fun _ => rfl

/-- The declared size stands behind BD (R103, R106). -/
theorem csize_of_drop (hf : f.drop 4 = descriptor flg bd csize dictid ++ rest) (h : flg.getLsbD 3 = true) :
    BitVec.ofNat 64 (leNat (slice f 6 14)) = csize := by
  have hd : f.drop 6 = leBytes 8 csize.toNat ++ ((if flg.getLsbD 0 then leBytes 4 dictid.toNat else []) ++ rest) := by
    rw [← List.drop_drop (i := 2) (j := 4), hf, descriptor, if_pos h]
    simp only [List.append_assoc]
    rfl
  rw [slice, hd]
  exact ofNat_leNat_take (by norm_num) csize _

/-- The dictionary id stands behind the declared size (R103, R107). -/
theorem dictid_of_drop (hf : f.drop 4 = descriptor flg bd csize dictid ++ rest) (h : flg.getLsbD 0 = true) :
    BitVec.ofNat 32 (leNat (slice f (6 + 8 * (flg.getLsbD 3).toNat) (6 + 8 * (flg.getLsbD 3).toNat + 4))) = dictid := by
  have hd : f.drop (6 + 8 * (flg.getLsbD 3).toNat) = leBytes 4 dictid.toNat ++ rest := by
    have hn : ([flg, bd] ++ (if flg.getLsbD 3 then leBytes 8 csize.toNat else [])).length = 2 + 8 * (flg.getLsbD 3).toNat := by
      cases flg.getLsbD 3 <;> rfl
    rw [show 6 + 8 * (flg.getLsbD 3).toNat = 4 + (2 + 8 * (flg.getLsbD 3).toNat) by omega, ← List.drop_drop, hf,
      descriptor, if_pos h, List.append_assoc, List.drop_left' hn]
  rw [slice, hd, Nat.add_sub_cancel_left]
  exact ofNat_leNat_take (by norm_num) dictid _

/-- A header as R101 lays it out, with its right checksum and legal FLG and BD, is accepted with its fields (R222). -/
theorem parseHeader_of_drop (hmagic : leNat (f.take 4) = Config.magic)
    (hf : f.drop 4 = descriptor flg bd csize dictid ++ hdrsum (Config.hash32 (descriptor flg bd csize dictid)) :: rest)
    (hlegal : headerLegal flg bd) : parseHeader f = .ok (finfoOf flg bd csize dictid) := by
  have hget : ∀ n, f.getD (4 + n) 0#8 = (f.drop 4).getD n 0#8 := fun n => by
    rw [List.getD_eq_getElem?_getD, List.getD_eq_getElem?_getD, List.getElem?_drop]
  have hflg : f.getD 4 0#8 = flg := by rw [hget 0, hf]; rfl
  have hbd : f.getD 5 0#8 = bd := by rw [hget 1, hf]; rfl
  have hdesc := length_descriptor flg bd csize dictid
  have hlen := congrArg List.length hf
  rw [List.length_drop, List.length_append, List.length_cons, hdesc] at hlen
  have hlast : hdrLen (flg.getLsbD 3) (flg.getLsbD 0) - 1 = 4 + (descriptor flg bd csize dictid).length := by
    rw [hdesc, hdrLen]
    omega
  have hslice : slice f 4 (4 + (descriptor flg bd csize dictid).length) = descriptor flg bd csize dictid := by
    rw [slice, hf, Nat.add_sub_cancel_left, List.take_left]
  have hsum : f.getD (4 + (descriptor flg bd csize dictid).length) 0#8 =
      hdrsum (Config.hash32 (descriptor flg bd csize dictid)) := by
    rw [hget, hf, List.getD_append_right _ _ _ _ le_rfl, Nat.sub_self]
    rfl
  simp only [parseHeader, hflg, hbd, hlast]
  rw [if_neg (by simp only [hmagic]; omega), if_neg (by omega), if_neg (by rw [hdrLen]; omega), hslice, hsum,
    if_neg (not_not.mpr rfl), if_neg (not_not.mpr hlegal)]
  exact congrArg Except.ok (finfoOf_congr (csize_of_drop hf) (dictid_of_drop hf))

end ParseHeader

/-- A header written for legal preferences is accepted with their fields (R221, R222). -/
theorem parseHeader_headerBytes {p : PrefRegs} (hp : p.legal) (rest : List Byte) :
    parseHeader (headerBytes p ++ rest) = .ok (finfoOf p.flg p.bd p.contentSize p.dictid) := by
  have hbytes : headerBytes p ++ rest =
      leBytes 4 Config.magic ++ (p.descriptor ++ hdrsum (Config.hash32 p.descriptor) :: rest) := by
    simp [headerBytes]
  refine parseHeader_of_drop (rest := rest) ?_ ?_ (PrefRegs.headerLegal_of_legal hp)
  · rw [hbytes, List.take_left' (length_leBytes 4 _), leNat_leBytes, Nat.mod_eq_of_lt (by decide)]
  · rw [hbytes, List.drop_left' (length_leBytes 4 _)]
    rfl

/-- Settles O48: the header is accepted, and FINFO holds what FLG and BD were made of. -/
theorem headerReadsBack : Obligations.HeaderReadsBack := by
  refine fun p rest => ⟨length_headerBytes p, fun hp => ⟨_, parseHeader_headerBytes hp rest, ?_⟩⟩
  obtain ⟨hflags, hreserved, -, hclass⟩ := hp
  obtain ⟨-, -, h3, -, -, h0, -⟩ := p.flg_bits
  obtain ⟨hlo, hhi⟩ := pair64_halves p.csizeHi p.csizeLo
  have hlen := hdrLen_le p.csize p.hasDictid
  simp only [finfoOf, h3, h0, length_headerBytes, PrefRegs.hdrLen]
  refine ⟨?flags, ?bsclass, fun hc => ?sized, fun hc => ?unsized, trivial, ?hdrlen⟩
  case flags =>
    rw [BitVec.toNat_ofNat, PrefRegs.flg_toNat, PrefRegs.flags_toNat hflags hreserved]
    have hflg := p.flg.isLt
    rw [PrefRegs.flg_toNat] at hflg
    omega
  case bsclass =>
    apply BitVec.eq_of_toNat_eq
    rw [BitVec.toNat_ofNat, PrefRegs.bd_toNat hclass]
    omega
  case sized =>
    rw [if_pos hc, if_pos hc]
    exact ⟨hlo, hhi⟩
  case unsized => simp [hc]
  case hdrlen =>
    rw [BitVec.toNat_ofNat]
    omega

end Sys2Proof.Machine

namespace Sys2Proof.Machine

/-! ## Proofs: LEVEL and the step (R137, R138, R139) -/

/-- The step never shrinks as failures go on (R137). -/
theorem skipStep_le_succ (c : CfgRegs) {a : Nat} (fails : Nat) (ha : 1 ≤ a) (hc : c.skipCeil.toNat ≤ 65535) :
    skipStep c a fails ≤ skipStep c a (fails + 1) := by
  rw [skipStep_eq c fails ha hc, skipStep_eq c (fails + 1) ha hc]
  have hexp : fails / 2 ^ c.skipStrength.toNat ≤ (fails + 1) / 2 ^ c.skipStrength.toNat :=
    Nat.div_le_div_right (Nat.le_succ fails)
  exact min_le_min_left _ (Nat.mul_le_mul_left a (Nat.pow_le_pow_right Nat.two_pos hexp))

/-- The step is at least 1 and at most SKIP_CEIL (R137). -/
theorem skipStep_bounds (c : CfgRegs) {a : Nat} (fails : Nat) (ha : 1 ≤ a)
    (hc : 1 ≤ c.skipCeil.toNat ∧ c.skipCeil.toNat ≤ 65535) :
    1 ≤ skipStep c a fails ∧ skipStep c a fails ≤ c.skipCeil.toNat := by
  rw [skipStep_eq c fails ha hc.2]
  have hpos : 0 < a * 2 ^ (fails / 2 ^ c.skipStrength.toNat) := Nat.mul_pos ha (Nat.two_pow_pos _)
  exact ⟨le_min hc.1 hpos, min_le_left _ _⟩

/-- Settles O32: the three ranges of LEVEL are the branches of `Variant(LEVEL)`; the step by its formula. -/
theorem levelAndFailuresDecideTheStep : Obligations.LevelAndFailuresDecideTheStep := by
  intro c level a fails hlegal ha
  obtain ⟨-, -, -, hceil, -⟩ := hlegal
  obtain ⟨hge, hle⟩ := skipStep_bounds c fails ha hceil
  refine ⟨fun h0 => ?fast, fun h0 hmin => ?fastOne, fun h0 hmin => ?highRatio, skipStep_eq c fails ha hceil.2, hge, hle,
    skipStep_le_succ c fails ha hceil.2⟩
  case fast => exact ⟨_, if_pos h0, by omega, by omega⟩
  case fastOne => rw [variantOf, if_neg (by omega), if_pos hmin]
  case highRatio => rw [variantOf, if_neg (by omega), if_neg (by omega)]

/-! ## Proofs: what a policy reports (R132 to R136, R141) -/

/-- Byte by byte, a real match keeps the rules that bind every policy (R141). -/
theorem FinderEnv.isMatch_of_real {e : FinderEnv} {p off len : Nat} (hpos : 1 ≤ off) (hwin : off ≤ 65535) (hoff : off ≤ p)
    (hlen : 4 ≤ len) (hlim : p + len ≤ e.matchlimit)
    (hreal : ∀ i, i < len → e.hist[p - off + i]? = e.hist[p + i]?) : e.isMatch p off len := by
  refine ⟨hpos, hwin, hoff, hlen, hlim, List.ext_getElem? fun i => ?_⟩
  by_cases hi : i < len
  · simpa [List.getElem?_take, hi] using hreal i hi
  · simp [hi]

/-- An answer that is a match binds as it stands (R141). -/
theorem FinderEnv.bindMatch_of_isMatch {e : FinderEnv} {p off len : Nat} (h : e.isMatch p off len) :
    e.bindMatch p (some (off, len)) = some (off, len) := if_pos h

/-- Any match a visit reports is at least 4 long (R141). -/
theorem visit_length {q : Policy} {c : CfgRegs} {v : Variant} {e : FinderEnv} {r : EncRegs} {t : TableSet} {off len : Nat}
    (h : (visit q c v e r t).found = some (off, len)) : 4 ≤ len := by
  cases q with
  | reference => exact findMatch_length h
  | other f =>
    obtain ⟨-, -, -, -, hlen, -⟩ := bindMatch_eq_some h
    exact hlen

/-- Without a match the cursor moves on too (R138, R141, R150). -/
theorem visit_next_of_none {q : Policy} {c : CfgRegs} {level : Int} {e : FinderEnv} {r : EncRegs} {t : TableSet}
    (hc : c.legal) (h : (visit q c (variantOf c level) e r t).found = none) :
    r.cur < (visit q c (variantOf c level) e r t).next := by
  cases q with
  | reference =>
    have hnone : (findMatch e (variantOf c level) r.cur t).1 = none := h
    have hstep := failStep_pos hc level (nextFails r)
    simp only [visit, referenceVisit, hnone]
    omega
  | other f =>
    have hnone : e.bindMatch r.cur (f (finderView c (variantOf c level) e r t)).found = none := h
    simp only [visit, boundVisit, hnone, leastNext]
    omega

/-- The next cursor is strictly greater than the current one (R141). -/
theorem visit_next_gt {q : Policy} {c : CfgRegs} {level : Int} {e : FinderEnv} {r : EncRegs} {t : TableSet} (hc : c.legal) :
    r.cur < (visit q c (variantOf c level) e r t).next := by
  cases hf : (visit q c (variantOf c level) e r t).found with
  | none => exact visit_next_of_none hc hf
  | some m =>
    have hend := (visit_next_ge q c (variantOf c level) e r t).2 m.1 m.2 hf
    have hlen := visit_length hf
    omega

/-- An answer that binds as it stands, with a next cursor the rules allow, is the visit's (R141). -/
theorem visit_other_of_bound {f : FinderView → FinderAnswer} {c : CfgRegs} {v : Variant} {e : FinderEnv} {r : EncRegs}
    {t : TableSet}
    (hbound : e.bindMatch r.cur (f (finderView c v e r t)).found = (f (finderView c v e r t)).found)
    (hnext : leastNext r.cur (f (finderView c v e r t)).found ≤ (f (finderView c v e r t)).next) :
    (visit (.other f) c v e r t).found = (f (finderView c v e r t)).found ∧
    (visit (.other f) c v e r t).next = (f (finderView c v e r t)).next := by
  simp only [visit, boundVisit, hbound, true_and]
  exact max_eq_left hnext

/-- Settles O33: the laws of a visit, and a conforming answer of another policy binds as it stands. -/
theorem reportedMatchIsReal : Obligations.ReportedMatchIsReal := by
  refine ⟨fun q c v e r t off len hp hm hf => ?real, fun q c level e r t hc => visit_next_gt hc,
    fun f c v e r t a ha => ⟨fun off len hf hpos hwin hoff hlen hlim hreal hnext => ?taken, fun hf hnext => ?none⟩⟩
  case real =>
    obtain ⟨hpos, hwin, hoff, hlen, hlim, hreal⟩ := visit_real hp hm hf
    exact ⟨hpos, hwin, hoff, hlen, hlim, hreal, (visit_next_ge q c v e r t).2 off len hf⟩
  case taken =>
    subst ha
    apply visit_other_of_bound
    · rw [hf, FinderEnv.bindMatch_of_isMatch (FinderEnv.isMatch_of_real hpos hwin hoff hlen hlim hreal)]
    · rw [hf]
      exact hnext
  case none =>
    subst ha
    rw [← hf]
    apply visit_other_of_bound
    · rw [hf]
      rfl
    · rw [hf]
      exact hnext

/-! ## Proofs: the finders and their tables (R131, R136, R142 to R149) -/

/-- Settles O34: one write of HT, after the read. -/
theorem fastFinderWritesItsBucketOnly : Obligations.FastFinderWritesItsBucketOnly :=
  fun e _ p _ t => ⟨rfl, Assoc.find_insert_same (e.hash p) (e.p0 + p) t.ht,
    fun hne => Assoc.find_insert_other hne (e.p0 + p) t.ht, rfl⟩

/-- The position stands in front of its chain, cut to HC_MAX_ATTEMPTS (R143). -/
theorem chainAt_insertCH_same (e : FinderEnv) (p : Nat) (t : TableSet) :
    chainAt (e.insertCH p t) (e.hash p) = ((e.p0 + p) :: chainAt t (e.hash p)).take e.maxAttempts := by
  rw [chainAt, FinderEnv.insertCH, Assoc.find_insert_same, Option.getD_some]

/-- No other chain changes (R143). -/
theorem chainAt_insertCH_other {e : FinderEnv} {p h : Nat} (hne : h ≠ e.hash p) (t : TableSet) :
    chainAt (e.insertCH p t) h = chainAt t h := by
  rw [chainAt, FinderEnv.insertCH, Assoc.find_insert_other hne, chainAt]

/-- The search that starts with no match answers that of a confirmed candidate of the chain (R149). -/
theorem searchChain_none_eq_some {e : FinderEnv} {p off len : Nat} {l : List Nat}
    (h : searchChain e p l none = some (off, len)) :
    ∃ c ∈ l, e.confirmed p c ∧ off = e.p0 + p - c ∧ len = e.matchLen (c - e.p0) p :=
  (searchChain_eq_some h).resolve_left (by simp)

/-- Settles O35: the laws of the chain search, then the one insertion. -/
theorem highRatioFinderTakesTheLongestThenClosest : Obligations.HighRatioFinderTakesTheLongestThenClosest := by
  intro e l p t hs
  refine ⟨searchChain_eq_none hs, fun off len hf => ⟨searchChain_none_eq_some hf, fun hshort => ?longest⟩,
    fun newer c older hchain hc hopt hnewer => ?shortCircuit, chainAt_insertCH_same e p t,
    fun h hne => chainAt_insertCH_other hne t, rfl⟩
  case longest => exact (searchChain_longest hs (by simp) hshort hf).2
  case shortCircuit =>
    have hshort := searchChain_short_circuit (best := none) (hchain ▸ hs) hc hopt (by simp) hnewer
    rwa [← hchain] at hshort

/-! ## Proofs: the bit scan counts equal bytes (R134) -/

/-- A number with a bit among its first `k` has fewer than `k` trailing zeros. -/
theorem countTrailingZeros_lt {k v : Nat} (fuel : Nat) (h : v % 2 ^ k ≠ 0) : countTrailingZeros fuel v < k := by
  induction k generalizing fuel v with
  | zero => exact absurd (Nat.mod_one v) h
  | succ k ih =>
    cases fuel with
    | zero => exact Nat.succ_pos k
    | succ fuel =>
      rw [countTrailingZeros]
      split_ifs with hodd
      · exact Nat.succ_pos k
      · rw [Nat.pow_succ', Nat.mod_mul] at h
        exact Nat.succ_lt_succ (ih fuel (by omega))

/-- A number whose first `k` bits are zero has `k` trailing zeros and those of the rest. -/
theorem countTrailingZeros_add {k v : Nat} (fuel : Nat) (h : v % 2 ^ k = 0) :
    countTrailingZeros (fuel + k) v = countTrailingZeros fuel (v / 2 ^ k) + k := by
  induction k generalizing v with
  | zero => simp
  | succ k ih =>
    rw [Nat.pow_succ', Nat.mod_mul] at h
    rw [← Nat.add_assoc, countTrailingZeros, if_neg (by omega), ih (by omega), Nat.div_div_eq_div_mul, Nat.pow_succ',
      Nat.add_assoc]

/-- Two numbers have the same low byte when the low byte of their XOR is zero. -/
theorem ofNat_eq_ofNat_iff_xor_mod (a b : Nat) : BitVec.ofNat 8 a = BitVec.ofNat 8 b ↔ (a ^^^ b) % 2 ^ 8 = 0 := by
  rw [Nat.xor_mod_two_pow, Nat.xor_eq_zero_iff, BitVec.toNat_eq, BitVec.toNat_ofNat, BitVec.toNat_ofNat]

/-- The bit scan of `n` bytes is the bytewise count, low byte first (R69, R134). -/
theorem countTrailingZeros_xor_div (n a b : Nat) :
    countTrailingZeros (8 * n) (a ^^^ b) / 8 = commonLength n (leBytes n a) (leBytes n b) := by
  induction n generalizing a b with
  | zero => simp [countTrailingZeros, commonLength]
  | succ n ih =>
    have hlow := ofNat_eq_ofNat_iff_xor_mod a b
    rw [leBytes, leBytes, commonLength]
    split_ifs with hab
    · have hrest : (a ^^^ b) / 2 ^ 8 = a / 256 ^^^ b / 256 := Nat.xor_div_two_pow
      rw [Nat.mul_succ, countTrailingZeros_add _ (hlow.mp hab), hrest, Nat.add_div_right _ (by decide), ih]
    · exact Nat.div_eq_of_lt (countTrailingZeros_lt _ (mt hlow.mpr hab))

/-- Settles O36: a word is four bytes. For equal words the scan counts all four, so the hypothesis is not used. -/
theorem bitScanCountsEqualLeadingBytes : Obligations.BitScanCountsEqualLeadingBytes := by
  intro a b _
  rw [equalLeadingBytes, BitVec.toNat_xor]
  exact countTrailingZeros_xor_div 4 a.toNat b.toNat

/-! ## Proofs: an encoding is legal sequences (R162, R167 to R174) -/

section Encoding
variable (q : Policy) (c : CfgRegs) (level : Int) (ind : Bool) (dict : List Byte) (t : TableSet) (p0 : Nat) (r : EncRegs)

/-- The empty block's encoding is empty (R168). -/
theorem encodeBlock_nil_out : (encodeBlock q c level ind dict [] t p0 r).1.out = [] := by
  rw [encodeBlock, if_pos rfl]

/-- An encoding is no longer than its block, one byte for each 255 of it, and two (R170). -/
theorem length_encodeBlock_out_le (block : List Byte) :
    (encodeBlock q c level ind dict block t p0 r).1.out.length ≤ block.length + block.length / 255 + 2 := by
  by_cases hb : block = []
  · simp [hb, encodeBlock_nil_out]
  · obtain ⟨l, b, hchain, hout, hend, -, -⟩ := encodeBlock_chain (p := q) (c := c) (level := level) (ind := ind)
      (dict := dict) (t := t) (p0 := p0) (r := r) hb
    obtain ⟨hstart, -⟩ := hchain.le_lim
    have hlen := sequenceBytes_length ((dict ++ block).drop b) hchain
    have hcover : b - dict.length + ((dict ++ block).drop b).length = block.length := by
      rw [List.length_drop, List.length_append]
      omega
    rwa [hcover, ← hout] at hlen

end Encoding

/-- Settles O37: the chain the encoder makes, read sequence by sequence. -/
theorem encodingIsLegalSequences : Obligations.EncodingIsLegalSequences := by
  intro q c level ind dict block t p0 r
  have hbound := length_encodeBlock_out_le q c level ind dict t p0 r block
  refine ⟨fun hb => hb ▸ encodeBlock_nil_out q c level ind dict t p0 r, fun hb => ?_, hbound, ?_⟩
  · obtain ⟨l, b, hchain, hout, hend, hlast, hshort⟩ := encodeBlock_chain (p := q) (c := c) (level := level) (ind := ind)
      (dict := dict) (t := t) (p0 := p0) (r := r) hb
    have hcover := hchain.cover
    have htail : ((dict ++ block).drop b).length = dict.length + block.length - b := by
      rw [List.length_drop, List.length_append]
    refine ⟨l, (dict ++ block).drop b, hout, fun k x hk => ?sequence, by omega, fun h5 => ?lastLiterals, fun h13 => ?short⟩
    case sequence =>
      have h13 : 13 ≤ block.length := by
        by_contra h
        simp [hshort (by omega)] at hk
      obtain ⟨hpos, hwin, hlen, hoff, hlim⟩ := hchain.get hk
      exact ⟨hpos, hwin, hlen, hoff, by omega⟩
    case lastLiterals =>
      have hfive := hlast h5
      omega
    case short =>
      obtain rfl := hshort h13
      obtain rfl : dict.length = b := hchain
      exact ⟨rfl, List.drop_left⟩
  · rw [maximumOutputLength]
    omega

end Sys2Proof.Machine

namespace Sys2Proof.Machine

/-! ## Proofs: MAXLEN (R160) -/

/-- Settles O13: the bound fits RESULT's 32 bits; above LEN_MAX the argument is rejected. -/
theorem maxlenAnswersTheBound : Obligations.MaxlenAnswersTheBound := by
  refine fun s => ⟨fun h => ?bound, fun h => execMaxlen_invalid (by simpa using h)⟩
  case bound =>
    refine ⟨_, execMaxlen_done (by simpa using h), ?_, rfl⟩
    show (BitVec.ofNat 32 (maximumOutputLength s.regs.arg.toNat)).toNat = _
    rw [BitVec.toNat_ofNat, Nat.mod_eq_of_lt (by rw [maximumOutputLength]; omega), maximumOutputLength]

/-! ## Proofs: COMPRESS_BLOCK delivers or reports NOFIT (R169, R177) -/

/-- A register holds every number up to another register's value as it is. -/
theorem toNat_ofNat_of_le {n : Nat} {w : Word} (h : n ≤ w.toNat) : (BitVec.ofNat 32 n).toNat = n := by
  rw [BitVec.toNat_ofNat, Nat.mod_eq_of_lt (h.trans_lt w.isLt)]

/-- The end of COMPRESS_BLOCK with the bytes `o` delivered, NOFIT and RESULT as given (R177). -/
def compressEnd (nofit : Bool) (result : Nat) (o : List Byte) (s : State) : State :=
  finishCommand (setStatus (Status.setNofit nofit) (setResult result
    (deliver (dstRegion s.params s.regs) o (compressed s))))

/-- COMPRESS_BLOCK leaves the encoder's working registers and BT as the encoding made them; beside them, STATUS and RESULT only
the destination region changes (R66, R177). -/
theorem compressEnd_frame (nofit : Bool) (result : Nat) {o : List Byte} {s : State} (ho : o.length ≤ s.regs.dstCap.toNat) :
    (compressEnd nofit result o s).enc = (compressEncoding s).1 ∧
    (compressEnd nofit result o s).bt = (compressEncoding s).2 ∧
    argumentsSame s (compressEnd nofit result o s) ∧ namesSame s (compressEnd nofit result o s) ∧
    (compressEnd nofit result o s).writers = s.writers ∧ decoderSame s (compressEnd nofit result o s) ∧
    bytesSameOutside (dstRegion s.params s.regs) s (compressEnd nofit result o s) :=
  ⟨rfl, rfl, ⟨rfl, rfl, rfl, rfl, rfl, rfl, rfl, rfl, rfl, rfl, rfl, rfl, rfl, rfl⟩, ⟨rfl, rfl⟩, rfl, ⟨rfl, rfl, rfl⟩,
    fun _ ha => deliver_read_outside _ o (compressed s) ho ha⟩

/-- The bytes COMPRESS_BLOCK delivers stand at the start of the destination region (R62). -/
theorem compressEnd_readBytes (nofit : Bool) (result : Nat) (o : List Byte) {s : State} (hm : Mem.wf s.mem) :
    Mem.readBytes (compressEnd nofit result o s).mem (dstRegion s.params s.regs).addr o.length = o :=
  deliver_readBytes (s := compressed s) hm

/-- Settles O15: the two ends of the rule, by the exact capacity test. -/
theorem compressBlockDeliversOrReportsNofit : Obligations.CompressBlockDeliversOrReportsNofit := by
  intro s hm hregions hcfg
  by_cases hf : fits (compressEncoding s).1.out s.regs.dstCap.toNat
  · obtain ⟨henc, hbt, hargs, hnames, hwriters, hdec, hbytes⟩ :=
      compressEnd_frame false (compressEncoding s).1.out.length hf
    exact ⟨_, compressEncoding s, rfl, execCompressBlock_fits ⟨hregions, hcfg⟩ hf, henc, hbt, hargs, hnames, hwriters, hdec,
      hbytes, fun _ => ⟨rfl, toNat_ofNat_of_le hf, compressEnd_readBytes _ _ _ hm⟩,
      fun hlong => absurd hf (Nat.not_le.mpr hlong)⟩
  · obtain ⟨henc, hbt, hargs, hnames, hwriters, hdec, hbytes⟩ :=
      compressEnd_frame (s := s) true 0 (o := []) (Nat.zero_le _)
    exact ⟨_, compressEncoding s, rfl, execCompressBlock_nofit ⟨hregions, hcfg⟩ hf, henc, hbt, hargs, hnames, hwriters, hdec,
      hbytes, fun hfits => absurd hfits hf, fun _ => ⟨rfl, rfl⟩⟩

/-! ## Proofs: decoding undoes encoding (R171) -/

/-- Each SEQ takes at least one byte. -/
theorem length_le_length_sequenceBytes (l : List SeqParts) (tail : List Byte) :
    l.length ≤ (sequenceBytes l tail).length := by
  induction l with
  | nil => exact Nat.zero_le _
  | cons x l ih =>
    simp only [sequenceBytes, List.map_cons, List.flatten_cons, List.length_append, List.length_cons, length_emitSeq] at ih ⊢
    omega

/-- The decoder restores a block from its encoding, under any limit the block fits (R171). -/
theorem decodeBlock_encodeBlock (q : Policy) (c : CfgRegs) (level : Int) (ind : Bool) (dict block : List Byte) (t : TableSet)
    (p0 : Nat) (r : EncRegs) (d : DecRegs) {limit : Nat} (hlimit : block.length ≤ limit) :
    ∃ d', decodeBlock (encodeBlock q c level ind dict block t p0 r).1.out dict limit d = .ok d' ∧ d'.out = block := by
  by_cases hb : block = []
  · subst hb
    exact ⟨_, by rw [encodeBlock_nil_out, decodeBlock, if_pos rfl], rfl⟩
  · obtain ⟨l, b, hchain, hout, -⟩ := encodeBlock_chain (p := q) (c := c) (level := level) (ind := ind) (dict := dict)
      (t := t) (p0 := p0) (r := r) hb
    have hne : (encodeBlock q c level ind dict block t p0 r).1.out ≠ [] := by
      rw [hout]
      simp [sequenceBytes, emitLast, emitLastWith]
    have hturns : l.length < (encodeBlock q c level ind dict block t p0 r).1.out.length + 1 := by
      rw [hout]
      exact Nat.lt_succ_of_le (length_le_length_sequenceBytes l _)
    obtain ⟨d', hd, hwhole⟩ := decodeLoop_of_chain (dict := dict) (limit := limit) (r := { d with ip := 0, out := [] }) l hchain
      (by rw [List.length_append]; omega) (by rw [List.length_append]; omega) (by simp) (by rw [List.length_append]; omega)
      hout hturns
    exact ⟨d', by rw [decodeBlock, if_neg hne, hd], List.append_cancel_left hwhole⟩

/-- A COMPRESS_BLOCK that reports no error had valid arguments (R301). -/
theorem compressValid_of_err_none {s t : State} (h : exec .compressBlock s = .next t) (herr : t.regs.status.err = .none) :
    compressValid s := by
  by_contra hv
  obtain rfl := Host.Outcome.next.inj ((execCompressBlock_invalid hv).symm.trans h)
  exact nomatch herr

/-- A COMPRESS_BLOCK that reports neither an error nor NOFIT has delivered its encoding (R177). -/
theorem readBytes_of_compressBlock {s t : State} (hm : Mem.wf s.mem) (h : exec .compressBlock s = .next t)
    (herr : t.regs.status.err = .none) (hnofit : t.regs.status.nofit = false) :
    Mem.readBytes t.mem (dstRegion s.params s.regs).addr t.regs.result.toNat = (compressEncoding s).1.out := by
  obtain ⟨hregions, hcfg⟩ := compressValid_of_err_none h herr
  obtain ⟨t', e, rfl, ht', -, -, -, -, -, -, -, hfits, hlong⟩ :=
    compressBlockDeliversOrReportsNofit s hm hregions hcfg
  obtain rfl := Host.Outcome.next.inj (h.symm.trans ht')
  rcases Nat.lt_or_ge s.regs.dstCap.toNat (compressEncoding s).1.out.length with hlt | hle
  · obtain ⟨hstatus, -⟩ := hlong hlt
    rw [hstatus] at hnofit
    exact nomatch hnofit
  · obtain ⟨-, hresult, hbytes⟩ := hfits hle
    rw [hresult]
    exact hbytes

/-- DECOMPRESS_BLOCK delivers the decoding of its source when it has the known length (R204, R205). -/
theorem decompressBlock_delivers {u : State} {d : DecRegs} (hm : Mem.wf u.mem) (hv : decompressValid u)
    (hcap : u.regs.arg.toNat ≤ u.regs.dstCap.toNat) (hd : decompressed u = .ok d) (hlen : d.out.length = u.regs.arg.toNat) :
    ∃ v, exec .decompressBlock u = .next v ∧ v.regs.status = statusDone ∧ v.regs.result = u.regs.arg ∧
      Mem.readBytes v.mem (dstRegion u.params u.regs).addr u.regs.arg.toNat = d.out := by
  refine ⟨_, execDecompressBlock_done hv hcap hd hlen, rfl, BitVec.eq_of_toNat_eq (toNat_ofNat_of_le le_rfl), ?_⟩
  rw [← hlen]
  exact deliver_readBytes (s := { startCommand u with dec := d }) hm

/-- Settles O38: the decoder reads back the chain the encoder made, and the two commands are the two functions. -/
theorem decodingUndoesEncoding : Obligations.DecodingUndoesEncoding := by
  refine ⟨fun q c level ind dict block t p0 limit r d => decodeBlock_encodeBlock q c level ind dict block t p0 r d,
    fun s t u hms hmu ht herr hnofit hsrc hregions harg hcap => ?_⟩
  obtain ⟨⟨⟨-, hmax, -⟩, -⟩, -⟩ := compressValid_of_err_none ht herr
  have hlen : (srcBytes s).length = s.regs.srcLen.toNat := Mem.length_readBytes _ _ _
  obtain ⟨d, hd, hout⟩ := decodeBlock_encodeBlock (policyOf s.params) s.regs.cfg (levelOf s.regs.arg) true [] (srcBytes s)
    TableSet.empty 0 s.enc u.dec hlen.le
  have hdec : decompressed u = .ok d := by
    rw [decompressed, hsrc, readBytes_of_compressBlock hms ht herr hnofit, harg]
    exact hd
  rw [← hout, ← harg]
  exact decompressBlock_delivers hmu ⟨hregions, harg ▸ hmax⟩ (harg ▸ hcap) hdec (by rw [hout, hlen, harg])

/-! ## Proofs: every loop ends (R175, R208, R261 c) -/

@[simp] theorem encodeTurn_cur (h : List Byte) (m : Option (Nat × Nat)) (next : Nat) (r : EncRegs) :
    (encodeTurn h m next r).cur = next := by
  cases m <;> rfl

/-- The encoder's cursor moves on in every turn, so as many turns as it stands before the last attempt's place are enough
(R175). -/
theorem encodeLoop_add {q : Policy} {c : CfgRegs} {level : Int} {e : FinderEnv} (hc : c.legal) (k : Nat) {n : Nat}
    {r : EncRegs} {t : TableSet} (hn : r.mflimit < r.cur + n) :
    encodeLoop q c (variantOf c level) e (n + k) r t = encodeLoop q c (variantOf c level) e n r t := by
  induction n generalizing r t with
  | zero =>
    cases k with
    | zero => rfl
    | succ k => exact if_neg (Nat.not_le.mpr hn)
  | succ n ih =>
    rw [Nat.succ_add, encodeLoop, encodeLoop]
    refine ite_congr rfl (fun _ => ih ?_) fun _ => rfl
    have hnext := visit_next_gt (q := q) (level := level) (e := e) (r := r) (t := t) hc
    rw [encodeTurn_cur, encodeTurn_bounds.1]
    omega

/-- The decoder takes a byte in every turn (R208). -/
theorem decodeLoop_add (inp dict : List Byte) (limit k : Nat) {n : Nat} {r : DecRegs} (hn : inp.length ≤ r.ip + n) :
    decodeLoop inp dict limit (n + k) r = decodeLoop inp dict limit n r := by
  induction n generalizing r with
  | zero =>
    cases k with
    | zero => rfl
    | succ k =>
      have hend : inp.drop r.ip = [] := List.drop_of_length_le hn
      simp only [decodeLoop, decodeSeq, hend]
  | succ n ih =>
    rw [Nat.succ_add, decodeLoop, decodeLoop]
    rcases hd : decodeSeq inp dict limit r with d | ⟨d, _ | _⟩
    · rfl
    · obtain ⟨-, hip, -⟩ := decodeSeq_eq_ok hd
      exact ih (by omega)
    · rfl

/-- A READ_FRAME that has all it was asked for, or has left the blocks, does no further turn (R250). -/
theorem readLoop_of_stopped {f : List Byte} {max : Nat} {t : ReadWork} (h : ¬ (t.out.length < max ∧ t.reader.state = .blocks))
    (n : Nat) : readLoop f max n t = .ok t := by
  cases n with
  | zero => rfl
  | succ n => exact if_neg h

/-- After a delivery the stage is empty, or READ_FRAME has all it was asked for (R250). -/
theorem deliverStage_empties_or_fills (max : Nat) (t : ReadWork) :
    (t.deliverStage max).reader.stage = [] ∨ max ≤ (t.deliverStage max).out.length := by
  simp only [ReadWork.deliverStage, List.drop_eq_nil_iff, List.length_append, List.length_take]
  omega

/-! ### A parsed block moves RIP on (R251, R261 c) -/

/-- A reader's step that goes on does so with RIP at `n` or after it. -/
def ReadStep.RipFrom (n : Nat) (r : ReadStep) : Prop := ∀ u, r = .ok u → n ≤ u.reader.rip

theorem ReadStep.ripFrom_ok {n : Nat} {t : ReadWork} (h : n ≤ t.reader.rip) : ReadStep.RipFrom n (.ok t) :=
  fun _ hu => Except.ok.inj hu ▸ h

theorem ReadStep.ripFrom_error (n : Nat) (e : ErrCode × ReadWork) : ReadStep.RipFrom n (.error e) := nofun

theorem checkSize_ripFrom (t : ReadWork) : ReadStep.RipFrom t.reader.rip t.checkSize := by
  unfold ReadWork.checkSize
  split_ifs
  · exact ReadStep.ripFrom_error _ _
  · exact ReadStep.ripFrom_ok le_rfl

theorem takeCsum_ripFrom (sum : Word) (t : ReadWork) : ReadStep.RipFrom t.reader.rip (t.takeCsum sum) := by
  unfold ReadWork.takeCsum
  split_ifs
  · exact ReadStep.ripFrom_error _ _
  · exact ReadStep.ripFrom_ok (Nat.le_add_right _ _)

theorem checkCsum_ripFrom (f : List Byte) (t : ReadWork) : ReadStep.RipFrom t.reader.rip (t.checkCsum f) := by
  unfold ReadWork.checkCsum
  split_ifs
  · exact ReadStep.ripFrom_error _ _
  · exact takeCsum_ripFrom _ t
  · exact ReadStep.ripFrom_ok le_rfl

theorem trailer_ripFrom (f : List Byte) (t : ReadWork) : ReadStep.RipFrom t.reader.rip (t.trailer f) := by
  unfold ReadWork.trailer
  cases hsize : t.checkSize with
  | error e => exact ReadStep.ripFrom_error _ _
  | ok t1 =>
    dsimp only
    cases hsum : t1.checkCsum f with
    | error e => exact ReadStep.ripFrom_error _ _
    | ok t2 =>
      exact ReadStep.ripFrom_ok ((checkSize_ripFrom t t1 hsize).trans (checkCsum_ripFrom f t1 t2 hsum))

theorem openBlock_ripFrom (inLen : Nat) (raw : Bool) (size : Nat) (t : ReadWork) :
    ReadStep.RipFrom t.reader.rip (t.openBlock inLen raw size) := by
  unfold ReadWork.openBlock
  split_ifs
  · exact ReadStep.ripFrom_error _ _
  · exact ReadStep.ripFrom_error _ _
  · exact ReadStep.ripFrom_ok le_rfl

theorem checkBlksum_ripFrom (f : List Byte) (t : ReadWork) : ReadStep.RipFrom t.reader.rip (t.checkBlksum f) := by
  unfold ReadWork.checkBlksum ReadWork.takeBlksum
  split_ifs
  · exact ReadStep.ripFrom_error _ _
  · exact ReadStep.ripFrom_ok (Nat.le_add_right _ _)
  · exact ReadStep.ripFrom_ok le_rfl

theorem finishBlock_ripFrom (t : ReadWork) : ReadStep.RipFrom t.reader.rip t.finishBlock := by
  unfold ReadWork.finishBlock
  cases t.decodeContent with
  | error d => exact ReadStep.ripFrom_error _ _
  | ok c => exact ReadStep.ripFrom_ok le_rfl

theorem block_ripFrom (f : List Byte) (w : Nat) (t : ReadWork) : ReadStep.RipFrom t.reader.rip (t.block f w) := by
  unfold ReadWork.block
  cases hopen : t.openBlock f.length (decide (2147483648 ≤ w)) (w % 2147483648) with
  | error e => exact ReadStep.ripFrom_error _ _
  | ok t1 =>
    dsimp only
    cases hsum : (t1.takePayload ((f.drop t1.reader.rip).take t1.blk.size)).checkBlksum f with
    | error e => exact ReadStep.ripFrom_error _ _
    | ok t2 =>
      intro u hu
      calc t.reader.rip
        _ ≤ t1.reader.rip := openBlock_ripFrom _ _ _ t t1 hopen
        _ ≤ t1.reader.rip + t1.blk.size := Nat.le_add_right _ _
        _ ≤ t2.reader.rip := checkBlksum_ripFrom f _ t2 hsum
        _ ≤ u.reader.rip := finishBlock_ripFrom t2 u hu

/-- A parse that goes on has read a size word that was there (R251). -/
theorem nextBlock_eq_ok {f : List Byte} {t u : ReadWork} (h : nextBlock f t = .ok u) :
    t.reader.rip + 4 ≤ f.length ∧ t.reader.rip + 4 ≤ u.reader.rip := by
  unfold nextBlock at h
  split_ifs at h with htrunc hend
  · exact ⟨Nat.le_of_not_lt htrunc, trailer_ripFrom f (t.advance 4) u h⟩
  · exact ⟨Nat.le_of_not_lt htrunc, block_ripFrom f (t.word f) (t.advance 4) u h⟩

/-! ### READ_FRAME's turns (R250, R261 c) -/

/-- Turns that are enough from the working state `t`: one parse for each size word the input has room for, a delivery after each,
the parse that fails, and a delivery first when content is staged. -/
def readTurns (inLen : Nat) (t : ReadWork) : Nat :=
  2 * ((inLen - t.reader.rip) / 4) + 1 + (if t.reader.stage = [] then 0 else 1)

theorem readTurns_le (inLen : Nat) (t : ReadWork) : readTurns inLen t ≤ 2 * ((inLen - t.reader.rip) / 4) + 2 := by
  unfold readTurns
  split_ifs <;> omega

theorem readTurns_le_readFuel (inLen : Nat) (t : ReadWork) : readTurns inLen t ≤ readFuel inLen := by
  have h := readTurns_le inLen t
  rw [readFuel]
  omega

/-- A parsed block takes two turns off: its own and its delivery's. -/
theorem readTurns_nextBlock {f : List Byte} {t u : ReadWork} (hstage : t.reader.stage = []) (h : nextBlock f t = .ok u) :
    readTurns f.length u < readTurns f.length t := by
  obtain ⟨hroom, hrip⟩ := nextBlock_eq_ok h
  have hu := readTurns_le f.length u
  have ht : readTurns f.length t = 2 * ((f.length - t.reader.rip) / 4) + 1 := by rw [readTurns, if_pos hstage]
  omega

/-- A delivery that empties the stage takes one turn off. -/
theorem readTurns_deliverStage {inLen max : Nat} {t : ReadWork} (hstage : t.reader.stage ≠ [])
    (h : (t.deliverStage max).reader.stage = []) : readTurns inLen (t.deliverStage max) < readTurns inLen t := by
  rw [readTurns, readTurns, if_pos h, if_neg hstage]
  exact Nat.lt_succ_self _

/-- READ_FRAME's loop ends within `readTurns` turns. -/
theorem readLoop_add (f : List Byte) (max k : Nat) {n : Nat} {t : ReadWork} (hn : readTurns f.length t ≤ n) :
    readLoop f max (n + k) t = readLoop f max n t := by
  induction n generalizing t with
  | zero => exact absurd hn (by unfold readTurns; omega)
  | succ n ih =>
    rw [Nat.succ_add, readLoop, readLoop]
    refine ite_congr rfl (fun _ => ?_) fun _ => rfl
    by_cases hstage : t.reader.stage = []
    · rw [if_pos hstage, if_pos hstage]
      cases hnext : nextBlock f t with
      | error e => rfl
      | ok u =>
        have hturns := readTurns_nextBlock hstage hnext
        exact ih (by omega)
    · rw [if_neg hstage, if_neg hstage]
      obtain hempty | hfull := deliverStage_empties_or_fills max t
      · have hturns := readTurns_deliverStage (inLen := f.length) hstage hempty
        exact ih (by omega)
      · have hstop : ¬ ((t.deliverStage max).out.length < max ∧ (t.deliverStage max).reader.state = .blocks) :=
          fun h => Nat.not_le.mpr h.1 hfull
        rw [readLoop_of_stopped hstop, readLoop_of_stopped hstop]

/-- Settles O39: each loop has a measure that every turn decreases. -/
theorem everyLoopEnds : Obligations.EveryLoopEnds := by
  refine ⟨fun q c level e r t n k hc hn => encodeLoop_add hc k hn, fun inp dict limit k r => ?decoder, fun f max k t => ?reader⟩
  case decoder => exact decodeLoop_add inp dict limit k (by simp only; omega)
  case reader => exact readLoop_add f max k (readTurns_le_readFuel f.length t)

end Sys2Proof.Machine

namespace Sys2Proof.Machine

/-! ## Proofs: the wire elements of a block (R191 to R198) -/

/-- A match copy that would pass the limit raises before any byte is copied (R198). -/
theorem copyMatch_of_overflow {dict : List Byte} {limit : Nat} {r : DecRegs} (h : limit < r.out.length + r.ml) :
    r.copyMatch dict limit = .error r := if_pos h

/-- A complete match length whose copy fits the limit: the copy, and the next boundary (R197, R199). -/
theorem finishMatch_of_fits {s : State} (h : s.dec.out.length + s.dec.ml ≤ s.stream.limit) :
    finishMatch s = .next { s with
      dec := { s.dec with out := appendMatch s.stream.dict s.dec.off.toNat s.dec.ml s.dec.out }
      stream := { s.stream with pos := .boundary } } := by
  rw [finishMatch, copyMatch_eq_ok.mpr ⟨h, rfl⟩]
  rfl

/-- A complete match length whose copy would pass the limit raises (R198). -/
theorem finishMatch_of_overflow {s : State} (h : s.stream.limit < s.dec.out.length + s.dec.ml) :
    finishMatch s = .next (raiseBlock .corruptedInput s) := by
  rw [finishMatch, copyMatch_of_overflow h]
  rfl

/-- An extension byte below 255 completes the match length (R196). -/
theorem exec_mlext_of_ne {v : Byte} {s : State} (hp : s.stream.pos = .mlext) (hin : s.dec.ip < s.stream.input.length)
    (hv : v ≠ 255#8) : exec (.mlext v) s = finishMatch { s with dec := s.dec.takeMLExt v } := by
  rw [exec, execMlext, atPos_of_pos hp, if_neg (Nat.not_le.mpr hin), if_neg hv]

/-- Settles O44: each byte is there, so it is taken; a match length that it completes is copied under the limit. -/
theorem lengthElementsAccumulate : Obligations.LengthElementsAccumulate := by
  refine fun v s hin => ⟨fun hp => ?token, fun hp => ?llext, fun hp hv => ?more, fun hp hv hfits => ?copied,
    fun hp hv hover => ?overflow⟩
  case token => exact (atPos_of_pos hp).trans (if_neg (Nat.not_le.mpr hin))
  case llext => exact (atPos_of_pos hp).trans (if_neg (Nat.not_le.mpr hin))
  case more =>
    subst hv
    rw [exec, execMlext, atPos_of_pos hp, if_neg (Nat.not_le.mpr hin), if_pos rfl]
    exact congrArg Host.Outcome.next (goOn_of_pos (s := { s with dec := s.dec.takeMLExt 255#8 }) hp)
  case copied =>
    rw [exec_mlext_of_ne hp hin hv]
    exact finishMatch_of_fits (by simpa [DecRegs.takeMLExt, Nat.add_assoc] using hfits)
  case overflow =>
    rw [exec_mlext_of_ne hp hin hv]
    exact finishMatch_of_overflow (by simpa [DecRegs.takeMLExt, Nat.add_assoc] using hover)

/-- A literal run that leaves the input or would pass the limit raises before any byte is copied (R193, R198). -/
theorem takeLiterals_of_bad {inLen limit : Nat} {lit : List Byte} {r : DecRegs}
    (h : inLen < r.ip + r.ll ∨ limit < r.out.length + r.ll) : r.takeLiterals inLen limit lit = .error r := by
  unfold DecRegs.takeLiterals
  split_ifs with hin hout
  · rfl
  · rfl
  · exact absurd h (not_or.mpr ⟨hin, hout⟩)

/-- A LITERALS of the due length is the literal copy and the end test (R193, R194). -/
theorem exec_literals_of_length {lit : List Byte} {s : State} (hp : s.stream.pos = .literals) (hlen : lit.length = s.dec.ll) :
    exec (.literals lit) s = afterStep (s.dec.takeLiterals s.stream.input.length s.stream.limit lit) s fun t =>
      if t.dec.ip = t.stream.input.length then streamReturn t else goOn .offset t := by
  rw [exec, execLiterals, atPos_of_pos hp, if_pos hlen]

/-- Settles O45: the literal copy goes through, and the end test decides; or one of its two tests fails. -/
theorem literalsAreCopiedThenTheEndIsTested : Obligations.LiteralsAreCopiedThenTheEndIsTested := by
  intro lit s hp hlen
  rw [exec_literals_of_length hp hlen]
  refine ⟨fun hin hout => ?copied, fun hbad => ?failed⟩
  case copied =>
    rw [takeLiterals_eq_ok.mpr ⟨hin, hout, rfl⟩, afterStep]
    simp only
    split_ifs
    · rfl
    · rfl
  case failed =>
    rw [takeLiterals_of_bad hbad]
    rfl

/-- An offset of 0, or beyond the bytes there are, is rejected (R195). -/
theorem takeOffset_of_bad {inLen dictLen : Nat} {off : BitVec 16} {r : DecRegs} (hin : r.ip + 2 ≤ inLen)
    (h : off = 0#16 ∨ dictLen + r.out.length < off.toNat) :
    r.takeOffset inLen dictLen off = .error { r with ip := r.ip + 2, off := off } :=
  (if_neg (Nat.not_lt.mpr hin)).trans (if_pos h)

/-- An offset that is taken: an extension follows, or the match length is complete (R195, R196). -/
theorem exec_offset_of_ok {off : BitVec 16} {s : State} {d : DecRegs} (hp : s.stream.pos = .offset)
    (h : s.dec.takeOffset s.stream.input.length s.stream.dict.length off = .ok d) :
    exec (.offset off) s =
      if tokenML d.token = 15 then .next (goOn .mlext { s with dec := d }) else finishMatch { s with dec := d } := by
  rw [exec, execOffset, atPos_of_pos hp, h]

/-- Settles O46: the offset is judged, then the token's nibble says whether the match length is complete. -/
theorem offsetIsValidatedThenTheMatchIsCopied : Obligations.OffsetIsValidatedThenTheMatchIsCopied := by
  refine fun off s hp hin => ⟨fun hbad => ?rejected, fun hoff hback => ?taken⟩
  case rejected =>
    rw [exec, execOffset, atPos_of_pos hp, takeOffset_of_bad hin hbad]
    rfl
  case taken =>
    rw [exec_offset_of_ok hp (takeOffset_eq_ok.mpr ⟨hin, hoff, hback, rfl⟩)]
    refine ⟨fun (hml : tokenML s.dec.token = 15) => ?extended, fun hml hfits => ?copied, fun hml hover => ?overflow⟩
    case extended =>
      rw [if_pos hml, hml]
      rfl
    case copied => exact (if_neg hml).trans (finishMatch_of_fits hfits)
    case overflow => exact (if_neg hml).trans (finishMatch_of_overflow hover)

/-- Settles O47: the bytes are there, and the whole sequence goes through. -/
theorem wholeSequencesComplete : Obligations.WholeSequencesComplete := by
  refine ⟨fun lit off ml s hp _ hin hout hoff hback => ?seq, fun lit mln s hp hin hout => ?last⟩
  case seq =>
    refine (atPos_of_pos hp).trans ((if_neg (Nat.not_lt.mpr hin)).trans ?_)
    rw [takeSeq_eq_ok hin hout hoff hback]
    exact congrArg Host.Outcome.next (goOn_of_pos (s := { s with dec := _ }) hp)
  case last =>
    refine (atPos_of_pos hp).trans ((if_neg (Nat.not_lt.mpr hin.le)).trans ((if_neg (Nat.not_lt.mpr hin.ge)).trans ?_))
    rw [takeLast_eq_ok hin.le hout, hin]
    rfl

end Sys2Proof.Machine

namespace Sys2Proof.Machine

/-! ## Proofs: the match copy (R197) -/

section MatchCopy
variable (dict out : List Byte) {off : Nat}

/-- The copy leaves the dictionary and the output before it as they are. -/
theorem getElem?_append_appendMatch_of_lt (off n : Nat) {j : Nat} (hj : j < dict.length + out.length) :
    (dict ++ appendMatch dict off n out)[j]? = (dict ++ out)[j]? := by
  obtain ⟨tail, htail, -⟩ := appendMatch_prefix dict off n out
  rw [htail, ← List.append_assoc, List.getElem?_append_left (by rwa [List.length_append])]

/-- Each byte of the copy is the byte `off` positions before it. -/
theorem appendMatch_getElem? (hpos : 1 ≤ off) (hback : off ≤ dict.length + out.length) {n i : Nat} (hi : i < n) :
    (dict ++ appendMatch dict off n out)[dict.length + out.length + i]? =
      (dict ++ appendMatch dict off n out)[dict.length + out.length - off + i]? := by
  induction n generalizing out i with
  | zero => exact absurd hi (Nat.not_lt_zero i)
  | succ n ih =>
    rw [appendMatch]
    generalize hb : (dict ++ out).getD ((dict ++ out).length - off) 0#8 = b
    have hlen : dict.length + (out ++ [b]).length = dict.length + out.length + 1 := by
      rw [List.length_append, List.length_singleton, Nat.add_assoc]
    cases i with
    | zero =>
      have hnew : (dict ++ (out ++ [b]))[dict.length + out.length]? = some b := by
        rw [← List.append_assoc, ← List.length_append, List.getElem?_concat_length]
      have hsrc : (dict ++ (out ++ [b]))[dict.length + out.length - off]? = some b := by
        rw [← List.append_assoc, List.getElem?_append_left (by rw [List.length_append]; omega), ← hb,
          List.getD_eq_getElem?_getD, List.length_append, List.getElem?_eq_getElem (by rw [List.length_append]; omega)]
        rfl
      rw [Nat.add_zero, Nat.add_zero, getElem?_append_appendMatch_of_lt dict _ _ _ (by omega),
        getElem?_append_appendMatch_of_lt dict _ _ _ (by omega), hnew, hsrc]
    | succ i =>
      have h := ih (out ++ [b]) (by omega) (Nat.lt_of_succ_lt_succ hi)
      rw [hlen] at h
      convert h using 2 <;> omega

/-- The copy repeats the `off` bytes before it. -/
theorem appendMatch_getElem?_mod (hpos : 1 ≤ off) (hback : off ≤ dict.length + out.length) {n i : Nat} (hi : i < n) :
    (dict ++ appendMatch dict off n out)[dict.length + out.length + i]? =
      (dict ++ out)[dict.length + out.length - off + i % off]? := by
  induction i using Nat.strongRecOn with
  | ind i ih =>
    rw [appendMatch_getElem? dict out hpos hback hi]
    rcases Nat.lt_or_ge i off with hlt | hge
    · rw [Nat.mod_eq_of_lt hlt, getElem?_append_appendMatch_of_lt _ _ _ _ (by omega)]
    · rw [Nat.mod_eq_sub_mod hge, ← ih (i - off) (by omega) (by omega)]
      congr 1
      omega

end MatchCopy

/-- Settles O40: byte by byte by induction on the copy's length, the pattern by strong induction on the byte's place. -/
theorem matchCopyRepeatsThePattern : Obligations.MatchCopyRepeatsThePattern := by
  intro dict out off n hpos hback
  obtain ⟨tail, htail, -⟩ := appendMatch_prefix dict off n out
  exact ⟨length_appendMatch dict off n out, by rw [htail, List.take_left],
    fun i hi => ⟨appendMatch_getElem? dict out hpos hback hi, appendMatch_getElem?_mod dict out hpos hback hi⟩⟩

/-! ## Proofs: the limit (R198, R200) -/

section Limit
variable {inp dict : List Byte} {limit limit' : Nat} {r d : DecRegs}

/-- A match decodes when its three steps go through (R195 to R197). -/
theorem decodeMatch_eq_ok_iff : decodeMatch inp dict limit r = .ok d ↔ ∃ r1 r2,
    r.takeOffset inp.length dict.length (BitVec.ofNat 16 (leNat ((inp.drop r.ip).take 2))) = .ok r1 ∧
    r1.readTail (inp.drop r1.ip) = .ok r2 ∧ r2.copyMatch dict limit = .ok d := by
  unfold decodeMatch
  cases r.takeOffset inp.length dict.length (BitVec.ofNat 16 (leNat ((inp.drop r.ip).take 2))) with
  | error e => simp
  | ok r1 => cases htail : r1.readTail (inp.drop r1.ip) <;> simp [htail]

/-- A sequence decodes when head and literals go through, and then the input is used up or a match decodes (R191 to R197). -/
theorem decodeSeq_eq_ok_iff {b : Bool} : decodeSeq inp dict limit r = .ok (d, b) ↔ ∃ t rest r1 r2,
    inp.drop r.ip = t :: rest ∧ r.readHead t rest = .ok r1 ∧
    r1.takeLiterals inp.length limit ((inp.drop r1.ip).take r1.ll) = .ok r2 ∧
    ((r2.ip = inp.length ∧ d = r2 ∧ b = true) ∨
      (r2.ip ≠ inp.length ∧ decodeMatch inp dict limit r2 = .ok d ∧ b = false)) := by
  unfold decodeSeq
  cases inp.drop r.ip with
  | nil => simp
  | cons t rest =>
    cases hhead : r.readHead t rest with
    | error e => simp [hhead]
    | ok r1 =>
      cases hlit : r1.takeLiterals inp.length limit ((inp.drop r1.ip).take r1.ll) with
      | error e => simp [hhead, hlit]
      | ok r2 =>
        by_cases hend : r2.ip = inp.length
        · simp [hhead, hlit, hend, eq_comm]
        · cases hmatch : decodeMatch inp dict limit r2 <;> simp [hhead, hlit, hend, hmatch, eq_comm]

/-- A literal run whose output fits another limit too is copied under it. -/
theorem takeLiterals_of_limit (h : r.takeLiterals inp.length limit ((inp.drop r.ip).take r.ll) = .ok d)
    (hd : d.out.length ≤ limit') : r.takeLiterals inp.length limit' ((inp.drop r.ip).take r.ll) = .ok d := by
  obtain ⟨hin, -, rfl⟩ := takeLiterals_eq_ok.mp h
  simp only [List.length_append, List.length_take, List.length_drop] at hd
  exact takeLiterals_eq_ok.mpr ⟨hin, by omega, rfl⟩

/-- A match whose output fits another limit too decodes to the same under it. -/
theorem decodeMatch_of_limit (h : decodeMatch inp dict limit r = .ok d) (hd : d.out.length ≤ limit') :
    decodeMatch inp dict limit' r = .ok d := by
  obtain ⟨r1, r2, hoff, htail, hcopy⟩ := decodeMatch_eq_ok_iff.mp h
  obtain ⟨-, rfl⟩ := copyMatch_eq_ok.mp hcopy
  exact decodeMatch_eq_ok_iff.mpr ⟨r1, r2, hoff, htail, copyMatch_eq_ok.mpr ⟨by simpa using hd, rfl⟩⟩

/-- A sequence whose output fits another limit too decodes to the same under it. -/
theorem decodeSeq_of_limit {b : Bool} (h : decodeSeq inp dict limit r = .ok (d, b)) (hd : d.out.length ≤ limit') :
    decodeSeq inp dict limit' r = .ok (d, b) := by
  obtain ⟨t, rest, r1, r2, hdrop, hhead, hlit, hrest⟩ := decodeSeq_eq_ok_iff.mp h
  refine decodeSeq_eq_ok_iff.mpr ⟨t, rest, r1, r2, hdrop, hhead, ?_⟩
  rcases hrest with ⟨hend, rfl, hb⟩ | ⟨hend, hmatch, hb⟩
  · exact ⟨takeLiterals_of_limit hlit hd, .inl ⟨hend, rfl, hb⟩⟩
  · obtain ⟨-, -, hgrow, -⟩ := decodeMatch_eq_ok hmatch
    exact ⟨takeLiterals_of_limit hlit (hgrow.trans hd), .inr ⟨hend, decodeMatch_of_limit hmatch hd, hb⟩⟩

/-- A turn of the loop: a sequence that completes the block, or one that does not and then the rest (R199). -/
theorem decodeLoop_succ_eq_ok_iff {fuel : Nat} : decodeLoop inp dict limit (fuel + 1) r = .ok d ↔
    decodeSeq inp dict limit r = .ok (d, true) ∨
    ∃ r1, decodeSeq inp dict limit r = .ok (r1, false) ∧ decodeLoop inp dict limit fuel r1 = .ok d := by
  rw [decodeLoop]
  rcases decodeSeq inp dict limit r with e | ⟨r1, _ | _⟩ <;> simp

/-- The loop only adds to the output, keeps it under the limit and uses the input up (R194, R198). -/
theorem decodeLoop_eq_ok {fuel : Nat} (h : decodeLoop inp dict limit fuel r = .ok d) :
    r.out.length ≤ d.out.length ∧ d.out.length ≤ limit ∧ d.ip = inp.length := by
  induction fuel generalizing r with
  | zero => simp [decodeLoop] at h
  | succ fuel ih =>
    rcases decodeLoop_succ_eq_ok_iff.mp h with hseq | ⟨r1, hseq, hloop⟩
    · obtain ⟨-, -, -, hgrow, hlimit, hend⟩ := decodeSeq_eq_ok hseq
      exact ⟨hgrow, hlimit, hend rfl⟩
    · obtain ⟨-, -, -, hgrow, -⟩ := decodeSeq_eq_ok hseq
      obtain ⟨hgrow', hlimit, hend⟩ := ih hloop
      exact ⟨hgrow.trans hgrow', hlimit, hend⟩

/-- A loop whose output fits another limit too runs the same under it. -/
theorem decodeLoop_of_limit {fuel : Nat} (h : decodeLoop inp dict limit fuel r = .ok d) (hd : d.out.length ≤ limit') :
    decodeLoop inp dict limit' fuel r = .ok d := by
  induction fuel generalizing r with
  | zero => simp [decodeLoop] at h
  | succ fuel ih =>
    refine decodeLoop_succ_eq_ok_iff.mpr ?_
    rcases decodeLoop_succ_eq_ok_iff.mp h with hseq | ⟨r1, hseq, hloop⟩
    · exact .inl (decodeSeq_of_limit hseq hd)
    · obtain ⟨hgrow, -⟩ := decodeLoop_eq_ok hloop
      exact .inr ⟨r1, decodeSeq_of_limit hseq (hgrow.trans hd), ih hloop⟩

@[simp] theorem decodeBlock_nil : decodeBlock [] dict limit r = .ok { r with ip := 0, out := [] } := if_pos rfl

theorem decodeBlock_of_ne_nil (hinp : inp ≠ []) :
    decodeBlock inp dict limit r = decodeLoop inp dict limit (inp.length + 1) { r with ip := 0, out := [] } :=
  if_neg hinp

/-- A decoded block fits its limit, and its input is used up (R198). -/
theorem decodeBlock_eq_ok (h : decodeBlock inp dict limit r = .ok d) : d.out.length ≤ limit ∧ d.ip = inp.length := by
  by_cases hinp : inp = []
  · subst hinp
    obtain rfl := Except.ok.inj (decodeBlock_nil.symm.trans h)
    exact ⟨Nat.zero_le _, rfl⟩
  · rw [decodeBlock_of_ne_nil hinp] at h
    obtain ⟨-, hlimit, hend⟩ := decodeLoop_eq_ok h
    exact ⟨hlimit, hend⟩

/-- A block whose output fits another limit too decodes to the same under it. -/
theorem decodeBlock_of_limit (h : decodeBlock inp dict limit r = .ok d) (hd : d.out.length ≤ limit') :
    decodeBlock inp dict limit' r = .ok d := by
  by_cases hinp : inp = []
  · subst hinp
    exact decodeBlock_nil.trans (decodeBlock_nil.symm.trans h)
  · rw [decodeBlock_of_ne_nil hinp] at h ⊢
    exact decodeLoop_of_limit h hd

/-- Under a limit its output does not fit, a block is rejected: decoded there, it would decode so under the greater limit too. -/
theorem decodeBlock_error_of_limit_lt (h : decodeBlock inp dict limit r = .ok d) (hlt : limit' < d.out.length) :
    ∃ d', decodeBlock inp dict limit' r = .error d' := by
  cases h' : decodeBlock inp dict limit' r with
  | error e => exact ⟨e, rfl⟩
  | ok e =>
    obtain ⟨he, -⟩ := decodeBlock_eq_ok h'
    obtain ⟨hlimit, -⟩ := decodeBlock_eq_ok h
    obtain rfl := Except.ok.inj ((decodeBlock_of_limit h' (by omega)).symm.trans h)
    exact absurd he (Nat.not_le.mpr hlt)

end Limit

/-- Settles O41: the bound and the used-up input of a decoded block, and its independence of the limit. -/
theorem decoderRespectsItsLimit : Obligations.DecoderRespectsItsLimit := by
  refine fun inp dict limit limit' r d => ⟨decodeBlock_nil, fun h => ?_⟩
  obtain ⟨hlimit, hend⟩ := decodeBlock_eq_ok h
  exact ⟨hlimit, hend, decodeBlock_of_limit h, decodeBlock_error_of_limit_lt h⟩

/-! ## Proofs: a block run by wire elements (R190, R199) -/

/-- The run of `s` after its block: complete, or raised (R190). -/
def afterBlock (s : State) : Except DecRegs DecRegs → State
  | .ok d => runDone s d
  | .error d => runFailed s d

/-- The sequences of a block run, one element at a step, are the decoder's loop: each takes a byte, so turns enough for the
bytes left are never used up (R199, R208). -/
theorem steps_loop (s : State) (hg : s.stream.grain = .element) {n : Nat} {d : DecRegs} (hip : d.ip ≤ s.stream.input.length)
    (hn : s.stream.input.length < d.ip + n) :
    Steps (runAt s .boundary d) (afterBlock s (decodeLoop s.stream.input s.stream.dict s.stream.limit n d)) := by
  induction n generalizing d with
  | zero => exact absurd hip (Nat.not_le.mpr hn)
  | succ n ih =>
    have hseq := steps_seq s hg d
    rw [decodeLoop]
    rcases hd : decodeSeq s.stream.input s.stream.dict s.stream.limit d with d' | ⟨d', _ | _⟩ <;> rw [hd] at hseq
    case error => exact hseq
    case ok.false =>
      obtain ⟨-, hlt, hle, -⟩ := decodeSeq_eq_ok hd
      exact hseq.trans (ih hle (by omega))
    case ok.true => exact hseq

/-- Settles O42: the empty input is complete at the start; else the run is the loop, from its first byte.
The steps counted are the run's own, so neither hypothesis on the machine before it is used. -/
theorem elementRunIsDecodeBlock : Obligations.ElementRunIsDecodeBlock := by
  intro s inp dict limit _ _
  by_cases hinp : inp = []
  · subst hinp
    rw [decodeBlock_nil]
    exact ⟨0, rfl⟩
  · have hstart : runAt (startBlockRun .element inp dict limit s) .boundary { s.dec with ip := 0, out := [] } =
        startBlockRun .element inp dict limit s := by
      simp [runAt, startBlockRun, hinp]
    have hrun := steps_loop (startBlockRun .element inp dict limit s) rfl (n := inp.length + 1)
      (d := { s.dec with ip := 0, out := [] }) (Nat.zero_le _) (by simp [startBlockRun])
    rw [hstart] at hrun
    obtain ⟨k, hk⟩ := hrun
    refine ⟨k, hk.trans (congrArg Host.Outcome.next ?_)⟩
    rw [decodeBlock_of_ne_nil hinp]
    show afterBlock _ (decodeLoop inp dict limit (inp.length + 1) { s.dec with ip := 0, out := [] }) = _
    cases decodeLoop inp dict limit (inp.length + 1) { s.dec with ip := 0, out := [] } <;> rfl

/-! ## Proofs: DECOMPRESS_BLOCK (R204, R205, R303) -/

/-- However a command ends, it has written none of its arguments and nothing outside the device (R271). -/
theorem CommandEnd.keeps_arguments {s t : State} {i : Instr} (h : CommandEnd s i t) : argumentsSame s t := by
  cases h <;> exact ⟨rfl, rfl, rfl, rfl, rfl, rfl, rfl, rfl, rfl, rfl, rfl, rfl, rfl, rfl⟩

/-- However DECOMPRESS_BLOCK ends, it has written neither HANDLE nor FINFO, no table, no context and no name of a block. -/
theorem CommandEnd.keeps_rest_of_decompressBlock {s t : State} (h : CommandEnd s .decompressBlock t) :
    namesSame s t ∧ encoderSame s t ∧ t.readers = s.readers ∧ t.blk = s.blk := by
  cases h <;> exact ⟨⟨rfl, rfl⟩, ⟨rfl, rfl, rfl⟩, rfl, rfl⟩

/-- The frame of DECOMPRESS_BLOCK (R66, R204). -/
theorem exec_decompressBlock_frame {s t : State} (h : exec .decompressBlock s = .next t) :
    argumentsSame s t ∧ namesSame s t ∧ encoderSame s t ∧ t.readers = s.readers ∧ t.blk = s.blk ∧
      bytesSameOutside (dstRegion s.params s.regs) s t := by
  have hend : CommandEnd s .decompressBlock t := commandEnd_of_next rfl h
  obtain ⟨hnames, henc, hreaders, hblk⟩ := hend.keeps_rest_of_decompressBlock
  exact ⟨hend.keeps_arguments, hnames, henc, hreaders, hblk, deviceWritesOnlyTheDestinationRegion _ s t h⟩

/-- What DECOMPRESS_BLOCK reports and delivers, by the capacity and by what its source decodes to (R205, R303). -/
def DecompressReports (s t : State) : Prop :=
  (s.regs.dstCap.toNat < s.regs.arg.toNat →
    t.regs.status = statusError .outputTooSmall ∧ t.regs.result = 0#32 ∧ t.dec = s.dec) ∧
  (s.regs.arg.toNat ≤ s.regs.dstCap.toNat →
    (∀ d, decompressed s = .ok d → d.out.length = s.regs.arg.toNat →
      t.regs.status = statusDone ∧ t.regs.result = s.regs.arg ∧ t.dec = d ∧
      Mem.readBytes t.mem (dstRegion s.params s.regs).addr s.regs.arg.toNat = d.out) ∧
    (∀ d, decompressed s = .ok d → d.out.length ≠ s.regs.arg.toNat →
      t.regs.status = statusError .corruptedInput ∧ t.regs.result = 0#32) ∧
    (∀ d, decompressed s = .error d → t.regs.status = statusError .corruptedInput ∧ t.regs.result = 0#32))

/-- The rule's branches, with valid arguments: the capacity, the decoding, its length. -/
theorem decompressBlock_reports {s : State} (hm : Mem.wf s.mem) (hv : decompressValid s) :
    ∃ t, exec .decompressBlock s = .next t ∧ DecompressReports s t := by
  rcases Nat.lt_or_ge s.regs.dstCap.toNat s.regs.arg.toNat with hlt | hle
  · exact ⟨_, execDecompressBlock_tooSmall hv hlt, fun _ => ⟨rfl, rfl, rfl⟩, fun hle => (hle.not_gt hlt).elim⟩
  cases hd : decompressed s with
  | error d =>
    refine ⟨_, execDecompressBlock_corrupted hv hle hd, fun hlt => (hle.not_gt hlt).elim, fun _ => ?_⟩
    simp only [hd, reduceCtorEq, false_imp_iff, implies_true, true_and]
    exact fun _ _ => ⟨rfl, rfl⟩
  | ok d =>
    by_cases hlen : d.out.length = s.regs.arg.toNat
    · refine ⟨_, execDecompressBlock_done hv hle hd hlen, fun hlt => (hle.not_gt hlt).elim, fun _ => ?_⟩
      simp only [hd, Except.ok.injEq, forall_eq', reduceCtorEq, false_imp_iff, implies_true, and_true]
      refine ⟨fun _ => ⟨rfl, BitVec.eq_of_toNat_eq (toNat_ofNat_of_le le_rfl), rfl, ?_⟩, fun hne => (hne hlen).elim⟩
      rw [← hlen]
      exact deliver_readBytes (s := { startCommand s with dec := d }) hm
    · refine ⟨_, execDecompressBlock_short hv hle hd hlen, fun hlt => (hle.not_gt hlt).elim, fun _ => ?_⟩
      simp only [hd, Except.ok.injEq, forall_eq', reduceCtorEq, false_imp_iff, implies_true, and_true]
      exact ⟨fun heq => (hlen heq).elim, fun _ => ⟨rfl, rfl⟩⟩

/-- Settles O16: the frame of any DECOMPRESS_BLOCK, and the report of one with valid arguments. -/
theorem decompressBlockDeliversExactlyTheKnownLength : Obligations.DecompressBlockDeliversExactlyTheKnownLength := by
  intro s hm hregions harg
  obtain ⟨t, ht, hreports⟩ := decompressBlock_reports hm ⟨hregions, harg⟩
  obtain ⟨hargs, hnames, henc, hreaders, hblk, hbytes⟩ := exec_decompressBlock_frame ht
  exact ⟨t, ht, hargs, hnames, henc, hreaders, hblk, hbytes, hreports⟩

end Sys2Proof.Machine

namespace Sys2Proof.Machine

/-! ## Proofs: the encoder keeps its tables in canonical form (R35, R36, R143) -/

theorem TableSet.empty_ok (n : Nat) : TableSet.empty.ok n :=
  ⟨List.Pairwise.nil, List.Pairwise.nil, fun _ hc => nomatch hc⟩

/-- Chains that are short enough for one bound are so for a greater one. -/
theorem TableSet.ok_mono {m n : Nat} {t : TableSet} (h : t.ok m) (hmn : m ≤ n) : t.ok n := by
  obtain ⟨hht, hch, hlen⟩ := h
  exact ⟨hht, hch, fun c hc => (hlen c hc).trans hmn⟩

theorem encodeLoop_tables {q : Policy} {c : CfgRegs} {v : Variant} {e : FinderEnv} {n : Nat} (hn : e.maxAttempts ≤ n)
    (fuel : Nat) {r : EncRegs} {t : TableSet} (h : t.ok n) : (encodeLoop q c v e fuel r t).2.ok n := by
  induction fuel generalizing r t with
  | zero => exact h
  | succ fuel ih =>
    rw [encodeLoop]
    split_ifs
    · exact ih (visit_tables hn h)
    · exact h

theorem encodeBlock_tables {q : Policy} {c : CfgRegs} {level : Int} {ind : Bool} {dict block : List Byte} {t : TableSet}
    {p0 : Nat} {r : EncRegs} (h : t.ok c.hcMaxAttempts.toNat) :
    (encodeBlock q c level ind dict block t p0 r).2.ok c.hcMaxAttempts.toNat := by
  rw [encodeBlock]
  split_ifs
  · exact h
  · dsimp only
    rw [encodeMatches]
    split_ifs
    · exact encodeLoop_tables le_rfl _ h
    · exact h

/-- COMPRESS_BLOCK leaves BT in canonical form, its chains no longer than the greatest legal HC_MAX_ATTEMPTS (R29, R143). -/
theorem compressEncoding_tables {s : State} (hv : compressValid s) : (compressEncoding s).2.ok 65535 := by
  obtain ⟨-, -, -, -, -, -, -, ⟨-, hmax⟩, -⟩ := hv
  exact TableSet.ok_mono (encodeBlock_tables (TableSet.empty_ok _)) hmax

/-! ## Proofs: the writer's steps keep its context (R38, R40, R42, R245) -/

/-- A writer context that goes on, but for the bounds of TOTAL, which WRITE_FRAME judges once for all its data (R38, R42). -/
structure WriterCtx.Sound (w : WriterCtx) : Prop where
  prefs : w.prefs.legal
  cfg : w.cfg.legal
  tables : w.tbl.ok w.cfg.hcMaxAttempts.toNat
  window : w.win.length ≤ Config.window
  inTotal : w.win.length ≤ w.total
  independent : w.prefs.bindep = true → w.win = []
  unsummed : w.prefs.ccsum = false → w.acc = []

theorem length_lastBytes (k : Nat) (bs : List Byte) : (lastBytes k bs).length = min k bs.length := by
  rw [lastBytes, List.length_drop]
  omega

theorem WriterCtx.blockTable_ok {w : WriterCtx} (h : w.Sound) : w.blockTable.ok w.cfg.hcMaxAttempts.toNat := by
  unfold WriterCtx.blockTable
  split_ifs
  · exact TableSet.empty_ok _
  · exact h.tables

theorem emitBlock_sound (q : Policy) {t : WriteWork} (c : List Byte) (h : t.writer.Sound) :
    (emitBlock q t c).writer.Sound where
  prefs := h.prefs
  cfg := h.cfg
  tables := encodeBlock_tables (WriterCtx.blockTable_ok h)
  window := by
    simp only [emitBlock]
    split_ifs
    · exact h.window
    · rw [length_lastBytes]
      exact Nat.min_le_left _ _
  inTotal := by
    have hin := h.inTotal
    simp only [emitBlock]
    split_ifs
    · omega
    · rw [length_lastBytes, List.length_append]
      omega
  independent hb := (if_pos hb).trans (h.independent hb)
  unsummed hc := (if_neg (ne_true_of_eq_false hc)).trans (h.unsummed hc)

theorem foldl_emitBlock_sound (q : Policy) (cs : List (List Byte)) {t : WriteWork} (h : t.writer.Sound) :
    (cs.foldl (emitBlock q) t).writer.Sound := by
  induction cs generalizing t with
  | nil => exact h
  | cons c cs ih => exact ih (emitBlock_sound q c h)

/-- An open context is sound, and its TOTAL is within the stream's and the declared size (R38, R42). -/
theorem WriterCtx.ok_of_sound {w : WriterCtx} (hs : w.isOpen) (h : w.Sound) (ht : w.total < Config.streamMax)
    (hsize : w.prefs.csize = true → w.total ≤ w.prefs.contentSize.toNat) : w.ok :=
  ⟨.inr hs, fun _ => ⟨h.prefs, h.cfg, h.tables, h.window, h.inTotal, ht, h.independent, h.unsummed, hsize⟩⟩

theorem WriterCtx.sound_of_ok {w : WriterCtx} (h : w.ok) (hs : w.isOpen) : w.Sound := by
  obtain ⟨-, h⟩ := h
  obtain ⟨hp, hc, ht, hw, hin, -, hi, ha, -⟩ := h (by rcases hs with hs | hs <;> simp [hs])
  exact ⟨hp, hc, ht, hw, hin, hi, ha⟩

/-- A Closed context meets the invariant whatever its other fields hold (R46). -/
theorem WriterCtx.ok_of_closed {w : WriterCtx} (h : w.state = .closed) : w.ok := ⟨.inl h, fun hn => absurd h hn⟩

theorem openedWriter_ok {r : Regs} (hp : r.pref.legal) (hc : r.cfg.legal) : (openedWriter r).ok := by
  have hsound : (openedWriter r).Sound :=
    ⟨hp, hc, TableSet.empty_ok _, Nat.zero_le _, Nat.zero_le _, fun _ => rfl, fun _ => rfl⟩
  exact WriterCtx.ok_of_sound (.inl rfl) hsound (show 0 < Config.streamMax by decide) fun _ => Nat.zero_le _

/-- WRITE_FRAME leaves its context as R38 and R42 ask: its data keeps TOTAL within the declared size (R238). -/
theorem written_ok {s : State} {w : WriterCtx} (h : w.ok) (hv : writeValid s w)
    (ht : (written s w).writer.total < Config.streamMax) : (written s w).writer.ok := by
  obtain ⟨hopen, -, hsize, -⟩ := hv
  obtain ⟨hprefs, -, hstate, htotal, -⟩ := writeBlocks_spec (policyOf s.params) w s.enc (srcBytes s)
  have hsound := WriterCtx.sound_of_ok h hopen
  have hlen : (srcBytes s).length = s.regs.srcLen.toNat := Mem.length_readBytes _ _ _
  refine WriterCtx.ok_of_sound (.inr hstate) (foldl_emitBlock_sound _ _ ?_) ht fun hc => ?_
  · exact ⟨hsound.prefs, hsound.cfg, hsound.tables, hsound.window, hsound.inTotal, hsound.independent, hsound.unsummed⟩
  · unfold written at hc ⊢
    rw [hprefs] at hc ⊢
    rw [htotal, hlen]
    exact Nat.le_of_not_lt fun hlt => hsize ⟨hc, hlt⟩

end Sys2Proof.Machine

namespace Sys2Proof.Machine

/-! ## Proofs: what the reader's parsing steps can come to (R251, R256) -/

section ReaderCases
variable (f : List Byte) (t : ReadWork)

/-- A size word is accepted when size, payload and checksum are within their bounds, else nothing changes (R251). -/
theorem openBlock_cases (inLen : Nat) (raw : Bool) (size : Nat) :
    (size ≤ blockMax t.reader.finfo.bsclass.toNat ∧ t.reader.rip + size + 4 * t.reader.finfo.bcsum.toNat ≤ inLen ∧
      t.openBlock inLen raw size = .ok { t with blk := { t.blk with raw := raw, size := size } }) ∨
    t.openBlock inLen raw size = .error (.corruptedInput, t) := by
  by_cases h : blockMax t.reader.finfo.bsclass.toNat < size ∨ inLen < t.reader.rip + size + 4 * t.reader.finfo.bcsum.toNat
  · exact .inr (openBlock_of_not_fits raw h)
  · obtain ⟨hmax, hin⟩ := not_or.mp h
    exact .inl ⟨Nat.le_of_not_lt hmax, Nat.le_of_not_lt hin,
      openBlock_of_fits raw (Nat.le_of_not_lt hmax) (Nat.le_of_not_lt hin)⟩

/-- Right or wrong, RIP is past the block checksum once it is judged (R251, R253). -/
theorem checkBlksum_cases :
    t.checkBlksum f = .ok (t.advance (4 * t.reader.finfo.bcsum.toNat)) ∨
    t.checkBlksum f = .error (.checksumMismatch, t.advance (4 * t.reader.finfo.bcsum.toNat)) := by
  unfold ReadWork.checkBlksum ReadWork.takeBlksum
  cases t.reader.finfo.bcsum with
  | false => exact .inl rfl
  | true =>
    rw [if_pos rfl]
    split_ifs
    · exact .inr rfl
    · exact .inl rfl

theorem checkSize_cases : t.checkSize = .ok t ∨ t.checkSize = .error (.corruptedInput, t) := by
  unfold ReadWork.checkSize
  split_ifs
  · exact .inr rfl
  · exact .inl rfl

/-- The content checksum is missing, or it is there and RIP is past it once it is judged (R256). -/
theorem checkCsum_cases :
    t.checkCsum f = .error (.corruptedInput, t) ∨
    (t.reader.rip + 4 * t.reader.finfo.ccsum.toNat ≤ f.length ∨ t.reader.finfo.ccsum = false) ∧
    (t.checkCsum f = .ok (t.advance (4 * t.reader.finfo.ccsum.toNat)) ∨
      t.checkCsum f = .error (.checksumMismatch, t.advance (4 * t.reader.finfo.ccsum.toNat))) := by
  unfold ReadWork.checkCsum ReadWork.takeCsum
  cases t.reader.finfo.ccsum with
  | false => exact .inr ⟨.inr rfl, .inl rfl⟩
  | true =>
    rw [if_pos rfl]
    split_ifs with htrunc
    · exact .inl rfl
    · exact .inr ⟨.inl (Nat.le_of_not_lt htrunc), .inr rfl⟩
    · exact .inr ⟨.inl (Nat.le_of_not_lt htrunc), .inl rfl⟩

variable {t}

/-- A block's content is no longer than BLOCK_MAX when its payload as stored is not (R252, R254). -/
theorem length_decodeContent_le {x : List Byte × DecRegs}
    (hp : t.blk.payload.length ≤ blockMax t.reader.finfo.bsclass.toNat) (h : t.decodeContent = .ok x) :
    x.1.length ≤ blockMax t.reader.finfo.bsclass.toNat := by
  rcases decodeContent_eq_ok.mp h with ⟨-, hc, -⟩ | ⟨-, hc, hd⟩
  · rw [hc]
    exact hp
  · obtain ⟨hlen, -⟩ := decodeBlock_eq_ok hd
    rw [hc]
    exact hlen

end ReaderCases

/-! ## Proofs: the reader's steps keep its context (R39, R40, R42, R67, R261 b) -/

/-- A reader context on `n` bytes of input between two parsing steps. -/
structure ReaderCtx.Sound (p : Params) (n : Nat) (r : ReaderCtx) : Prop where
  state : r.isReadable
  len : r.srcLen.toNat = n
  rip : r.rip ≤ n
  content : r.contentOk
  region : r.region.addr ≠ 0 ∧ r.region.len ≤ Config.lenMax ∧ r.region.addr + r.region.len ≤ p.bmSize

/-- Wherever a step of the reader ends, going on or raising, its context is sound. -/
def ReadStep.Sound (p : Params) (n : Nat) : ReadStep → Prop
  | .ok u => u.reader.Sound p n
  | .error (_, u) => u.reader.Sound p n

section ReaderSound
variable {p : Params} {n : Nat} {t : ReadWork}

theorem advance_sound {k : Nat} (h : t.reader.Sound p n) (hk : t.reader.rip + k ≤ n) : (t.advance k).reader.Sound p n :=
  ⟨h.state, h.len, hk, h.content, h.region⟩

theorem setState_ended_sound (h : t.reader.Sound p n) : (t.setState .ended).reader.Sound p n :=
  ⟨.inr rfl, h.len, h.rip, h.content, h.region⟩

/-- Content of a block's size at most can be staged (R251, R255). -/
theorem stageContent_sound {r : ReaderCtx} {c : List Byte} (h : r.Sound p n)
    (hc : c.length ≤ blockMax r.finfo.bsclass.toNat) : (r.stageContent c).Sound p n := by
  obtain ⟨hclass, hhist, -, hind, hacc⟩ := h.content
  refine ⟨h.state, h.len, h.rip, ⟨hclass, ?_, hc, fun hb => (if_pos hb).trans (hind hb), fun hs => ?_⟩, h.region⟩
  · simp only [ReaderCtx.stageContent]
    split_ifs
    · exact hhist
    · rw [length_lastBytes]
      exact Nat.min_le_left _ _
  · exact (if_neg (ne_true_of_eq_false hs)).trans (hacc hs)

theorem finishBlock_sound (h : t.reader.Sound p n) (hp : t.blk.payload.length ≤ blockMax t.reader.finfo.bsclass.toNat) :
    ReadStep.Sound p n t.finishBlock := by
  unfold ReadWork.finishBlock
  cases hc : t.decodeContent with
  | error d => exact h
  | ok x => exact stageContent_sound h (length_decodeContent_le hp hc)

theorem block_sound {f : List Byte} {w : Nat} (hn : f.length = n) (h : t.reader.Sound p n) :
    ReadStep.Sound p n (t.block f w) := by
  unfold ReadWork.block
  rcases openBlock_cases t f.length (decide (2147483648 ≤ w)) (w % 2147483648) with ⟨hmax, hin, hopen⟩ | hopen <;> rw [hopen]
  case inr => exact h
  dsimp only
  generalize hu : ReadWork.takePayload _ _ = u
  have hreader : u.reader = { t.reader with rip := t.reader.rip + w % 2147483648 } := by rw [← hu]; rfl
  have hpay : u.blk.payload.length ≤ blockMax u.reader.finfo.bsclass.toNat := by
    rw [hreader, ← hu]
    exact (List.length_take_le _ _).trans hmax
  have hsum : (u.advance (4 * u.reader.finfo.bcsum.toNat)).reader.Sound p n := by
    refine ⟨?_, ?_, ?_, ?_, ?_⟩ <;> simp only [ReadWork.advance, hreader]
    exacts [h.state, h.len, hn ▸ hin, h.content, h.region]
  rcases checkBlksum_cases f u with hb | hb <;> rw [hb]
  · exact finishBlock_sound hsum hpay
  · exact hsum

theorem trailer_sound {f : List Byte} (hn : f.length = n) (h : t.reader.Sound p n) :
    ReadStep.Sound p n (t.trailer f) := by
  unfold ReadWork.trailer
  rcases checkSize_cases t with hs | hs <;> rw [hs]
  case inr => exact h
  dsimp only
  rcases checkCsum_cases f t with hc | ⟨hroom, hc⟩
  · rw [hc]
    exact h
  · have hsum : (t.advance (4 * t.reader.finfo.ccsum.toNat)).reader.Sound p n := by
      refine advance_sound h ?_
      rcases hroom with hroom | hno
      · exact hn ▸ hroom
      · simpa [hno] using h.rip
    rcases hc with hc | hc <;> rw [hc]
    · exact setState_ended_sound hsum
    · exact hsum

theorem nextBlock_sound {f : List Byte} (hn : f.length = n) (h : t.reader.Sound p n) :
    ReadStep.Sound p n (nextBlock f t) := by
  unfold nextBlock
  split_ifs with htrunc hend
  · exact h
  · exact trailer_sound hn (advance_sound h (by omega))
  · exact block_sound hn (advance_sound h (by omega))

theorem deliverStage_sound (max : Nat) (h : t.reader.Sound p n) : (t.deliverStage max).reader.Sound p n := by
  obtain ⟨hclass, hhist, hstage, hind, hacc⟩ := h.content
  refine ⟨h.state, h.len, h.rip, ⟨hclass, hhist, ?_, hind, hacc⟩, h.region⟩
  simp only [ReadWork.deliverStage, List.length_drop]
  omega

theorem readLoop_sound {f : List Byte} (hn : f.length = n) (max fuel : Nat) {t : ReadWork} (h : t.reader.Sound p n) :
    ReadStep.Sound p n (readLoop f max fuel t) := by
  induction fuel generalizing t with
  | zero => exact h
  | succ fuel ih =>
    rw [readLoop]
    split_ifs with hgo hstage
    · have hnext := nextBlock_sound hn h
      cases hb : nextBlock f t with
      | error e => rw [hb] at hnext; exact hnext
      | ok u => rw [hb] at hnext; exact ih hnext
    · exact ih (deliverStage_sound max h)
    · exact h

end ReaderSound

theorem ReaderCtx.ok_of_closed {p : Params} {r : ReaderCtx} (h : r.state = .closed) : r.ok p :=
  ⟨.inl h, fun hn => absurd h hn⟩

theorem ReaderCtx.Sound.ok {p : Params} {n : Nat} {r : ReaderCtx} (h : r.Sound p n) : r.ok p := by
  refine ⟨?_, fun _ => ⟨h.len ▸ h.rip, h.content, h.region⟩⟩
  rcases h.state with hs | hs <;> simp [hs]

/-- A context that has failed keeps what held of it (R259). -/
theorem ReaderCtx.Sound.ok_of_failed {p : Params} {n : Nat} {r : ReaderCtx} (h : r.Sound p n) :
    ({ r with state := .failed } : ReaderCtx).ok p :=
  ⟨.inr (.inr (.inr rfl)), fun _ => ⟨h.len ▸ h.rip, h.content, h.region⟩⟩

theorem ReaderCtx.sound_of_ok {p : Params} {r : ReaderCtx} (h : r.ok p) (hs : r.isReadable) :
    r.Sound p r.srcLen.toNat := by
  obtain ⟨-, h⟩ := h
  obtain ⟨hrip, hcontent, hregion⟩ := h (by rcases hs with hs | hs <;> simp [hs])
  exact ⟨hs, rfl, hrip, hcontent, hregion⟩

/-- READ_FRAME's loop keeps the context it reads with (R250). -/
theorem readContent_sound {s : State} {r : ReaderCtx} (h : r.ok s.params) (hv : readValid s r) :
    ReadStep.Sound s.params r.srcLen.toNat (readContent s r) :=
  readLoop_sound (Mem.length_readBytes _ _ _) _ _ (ReaderCtx.sound_of_ok h hv.1)

/-- An address register pair names an address of 64 bits (R25). -/
theorem regAddr_lt (p : Params) (hi lo : Word) : regAddr p hi lo < 2 ^ 64 := by
  unfold regAddr
  split
  · exact lo.isLt.trans (by decide)
  · exact (pair64 hi lo).isLt

/-- OPEN_READER's context starts right after the header, in the region it captured (R39, R67, R248). -/
theorem openedReader_ok {s : State} {f : FinfoRegs} (hs : srcAdmitted s.params s.regs)
    (hf : parseHeader (srcBytes s) = .ok f) : (openedReader s.params s.regs f).ok s.params := by
  obtain ⟨⟨-, -, -, -, hclass⟩, hlen, -, hbs, hhl⟩ := parseHeader_ok hf
  have hsrc : (srcBytes s).length = s.regs.srcLen.toNat := Mem.length_readBytes _ _ _
  have hle := hdrLen_le (((srcBytes s).getD 4 0#8).getLsbD 3) (((srcBytes s).getD 4 0#8).getLsbD 0)
  obtain ⟨haddr, hmax, hroom, -⟩ := hs
  have hregion : (openedReader s.params s.regs f).region = srcRegion s.params s.regs := by
    have hlt := regAddr_lt s.params s.regs.srcAddrHi s.regs.srcAddrLo
    simp only [ReaderCtx.region, openedReader, srcRegion, BitVec.toNat_ofNat, Nat.mod_eq_of_lt hlt]
  refine ⟨.inr (.inl rfl), fun _ => ⟨?rip, ⟨?cls, Nat.zero_le _, Nat.zero_le _, fun _ => rfl, fun _ => rfl⟩, ?region⟩⟩
  case rip =>
    show f.hdrlen.toNat ≤ s.regs.srcLen.toNat
    rw [hhl, BitVec.toNat_ofNat]
    omega
  case cls =>
    show 4 ≤ f.bsclass.toNat ∧ f.bsclass.toNat ≤ 7
    rw [hbs, BitVec.toNat_ofNat]
    omega
  case region =>
    rw [hregion]
    exact ⟨haddr, hmax, hroom⟩

end Sys2Proof.Machine

namespace Sys2Proof.Machine

/-! ## Proofs: a command keeps the invariant (R22, R38 to R42, R61) -/

/-- A command that writes BM has had its destination region admitted (R64, R274). -/
theorem CommandEnd.mem_eq_or_dstAdmitted {s t : State} {i : Instr} (h : CommandEnd s i t) :
    t.mem = s.mem ∨ dstAdmitted s.params s.regs := by
  cases h with
  | fits hv =>
    obtain ⟨⟨-, hdst, -⟩, -⟩ := hv
    exact .inr hdst
  | nofit hv =>
    obtain ⟨⟨-, hdst, -⟩, -⟩ := hv
    exact .inr hdst
  | tooSmall hv =>
    obtain ⟨⟨-, hdst, -⟩, -⟩ := hv
    exact .inr hdst
  | decoded d hv =>
    obtain ⟨⟨-, hdst, -⟩, -⟩ := hv
    exact .inr hdst
  | corrupted d hv =>
    obtain ⟨⟨-, hdst, -⟩, -⟩ := hv
    exact .inr hdst
  | writeFrame w hw hv =>
    obtain ⟨-, ⟨-, hdst, -⟩, -⟩ := hv
    exact .inr hdst
  | closeWriter w hw hv =>
    obtain ⟨-, hdst, -⟩ := hv
    exact .inr hdst
  | readFrame r u hr hv =>
    obtain ⟨-, hdst, -⟩ := hv
    exact .inr hdst
  | badFrame r u e he hr hv =>
    obtain ⟨-, hdst, -⟩ := hv
    exact .inr hdst
  | _ => exact .inl rfl

/-- BM stays in canonical form, with nothing listed beyond its addresses (R60, R61). -/
theorem CommandEnd.memOk {s t : State} {i : Instr} (h : CommandEnd s i t) (hm : s.memOk) : t.memOk := by
  obtain ⟨-, -, -, -, -, -, -, -, -, hparams, -⟩ := h.keeps_arguments
  unfold State.memOk at hm ⊢
  rw [hparams]
  rcases h.mem_eq_or_dstAdmitted with hsame | ⟨-, -, hroom, -⟩
  · rw [hsame]
    exact hm
  rcases h.mem_eq_or_delivered with hsame | ⟨o, ho, hdel⟩
  · rw [hsame]
    exact hm
  rw [hdel]
  refine ⟨deliver_wf hm.1, fun c hc => ?_⟩
  rcases mem_of_mem_deliver ho hc with ⟨-, hlt⟩ | hold
  · exact hlt.trans_le hroom
  · exact hm.2 c hold

theorem CommandEnd.bt_ok {s t : State} {i : Instr} (h : CommandEnd s i t) (hbt : s.bt.ok 65535) : t.bt.ok 65535 := by
  cases h with
  | fits hv => exact compressEncoding_tables hv
  | nofit hv => exact compressEncoding_tables hv
  | _ => exact hbt

/-- A context that takes the place of another in a list all of whose members are right leaves them so. -/
theorem forall_mem_set {α : Type} {P : α → Prop} {l : List α} (h : ∀ x ∈ l, P x) (k : Nat) {y : α} (hy : P y) :
    ∀ x ∈ l.set k y, P x := fun x hx =>
  (List.mem_or_eq_of_mem_set hx).elim (h x) fun he => he ▸ hy

theorem CommandEnd.writers_ok {s t : State} {i : Instr} (h : CommandEnd s i t) (hw : ∀ w ∈ s.writers, w.ok) :
    ∀ w ∈ t.writers, w.ok := by
  cases h with
  | openWriter k hp => exact forall_mem_set hw k (openedWriter_ok hp.1 hp.2)
  | writeFrame w hk hv ht => exact forall_mem_set hw _ (written_ok (hw w (List.mem_of_getElem? hk)) hv ht)
  | closeWriter w => exact forall_mem_set hw _ (WriterCtx.ok_of_closed rfl)
  | _ => exact hw

theorem CommandEnd.readers_ok {s t : State} {i : Instr} (h : CommandEnd s i t) (hr : ∀ r ∈ s.readers, r.ok s.params) :
    ∀ r ∈ t.readers, r.ok s.params := by
  cases h with
  | openReader j f hs hj hf => exact forall_mem_set hr j (openedReader_ok hs hf)
  | readFrame r u hk hv hu =>
    have hsound := readContent_sound (hr r (List.mem_of_getElem? hk)) hv
    rw [hu] at hsound
    exact forall_mem_set hr _ hsound.ok
  | badFrame r u e he hk hv hu =>
    have hsound := readContent_sound (hr r (List.mem_of_getElem? hk)) hv
    rw [hu] at hsound
    exact forall_mem_set hr _ hsound.ok_of_failed
  | closeReader r => exact forall_mem_set hr _ (ReaderCtx.ok_of_closed rfl)
  | _ => exact hr

/-- BUSY is 0 once a command has ended (R22, R270). -/
theorem Reports.busy {i : Instr} {st : Status} {v : Word} (h : Reports i st v) : st.busy = false := by
  cases h <;> rfl

/-- With no run, the run's bounds hold of themselves. -/
theorem runOk_of_not_inBlock {s : State} (h : s.stream.pos.inBlock = false) : s.runOk := by
  intro hb
  rw [h] at hb
  exact nomatch hb

theorem CommandEnd.inv {s t : State} {i : Instr} (h : CommandEnd s i t) (hp : s.stream.pos = .idle) (hs : s.Inv) :
    t.Inv := by
  obtain ⟨hparams, hm, -, hbt, hw, hr, -⟩ := hs
  obtain ⟨-, -, -, -, -, -, -, -, -, hp', -, -, hstream, -⟩ := h.keeps_arguments
  refine ⟨hp' ▸ hparams, h.memOk hm, h.reports.busy, h.bt_ok hbt, h.writers_ok hw, hp' ▸ h.readers_ok hr, ?_⟩
  exact runOk_of_not_inBlock (by rw [hstream, hp]; rfl)

theorem decodeCommand_isCommand (w : Word) : isCommand (decodeCommand w) := by
  unfold decodeCommand
  split_ifs <;> rfl

/-! ## Proofs: the host's actions keep the invariant (R20, R60, R340) -/

/-- A byte that BM has is stored (R60). -/
theorem memOk_write {s : State} {a : Nat} (b : Byte) (ha : a < s.params.bmSize) (hm : s.memOk) :
    ({ s with mem := Mem.write s.mem a b } : State).memOk := by
  refine ⟨Mem.wf_write hm.1 a b, fun c hc => ?_⟩
  rcases Mem.mem_write hc with rfl | hold
  · exact ha
  · exact hm.2 c hold

theorem resetDevice_inv {s : State} (hs : s.Inv) : (resetDevice s).Inv := by
  obtain ⟨hparams, hm, -⟩ := hs
  refine ⟨hparams, hm, rfl, TableSet.empty_ok _, fun w hw => ?_, fun r hr => ?_, runOk_of_not_inBlock rfl⟩
  · rw [List.eq_of_mem_replicate hw]
    exact WriterCtx.ok_of_closed rfl
  · rw [List.eq_of_mem_replicate hr]
    exact ReaderCtx.ok_of_closed rfl

theorem storeRegister_inv (off : Nat) (v : Word) {s : State} (hs : s.Inv) : (storeRegister off v s).Inv := by
  obtain ⟨hparams, hm, hbusy, hrest⟩ := hs
  cases hreg : regAt off with
  | none =>
    rw [storeRegister_of_none hreg]
    exact ⟨hparams, hm, hbusy, hrest⟩
  | some n =>
    rw [storeRegister_of_some hreg]
    exact ⟨hparams, hm, (congrArg Status.busy (Regs.write_status s.regs n v)).trans hbusy, hrest⟩

theorem hostAction_inv {op : HostOp} {s t : State} (hp : s.stream.pos = .idle) (hs : s.Inv)
    (h : hostAction op s = .next t) : t.Inv := by
  obtain ⟨hparams, hm, hbusy, hbt, hw, hr, hrun⟩ := id hs
  cases op with
  | storeReg off width v =>
    simp only [hostAction, hostStore, hbusy, Bool.false_eq_true, if_false] at h
    split_ifs at h
    · exact (commandEnd_of_next (decodeCommand_isCommand v) h).inv hp hs
    · obtain rfl := Host.Outcome.next.inj h
      exact storeRegister_inv off v hs
  | loadReg off width =>
    simp only [hostAction, hostLoad] at h
    split_ifs at h <;> obtain rfl := Host.Outcome.next.inj h <;> exact hs
  | storeByte a b =>
    simp only [hostAction, hostStoreByte] at h
    split_ifs at h with ha
    obtain rfl := Host.Outcome.next.inj h
    exact ⟨hparams, memOk_write b ha hm, hbusy, hbt, hw, hr, hrun⟩
  | loadByte a =>
    simp only [hostAction, hostLoadByte] at h
    split_ifs at h
    obtain rfl := Host.Outcome.next.inj h
    exact hs
  | reset =>
    obtain rfl := Host.Outcome.next.inj h
    exact resetDevice_inv hs
  | runBlock grain input dict limit =>
    obtain rfl := Host.Outcome.next.inj h
    exact ⟨hparams, hm, hbusy, hbt, hw, hr, fun _ => ⟨Nat.zero_le _, Nat.zero_le _⟩⟩
  | runFrame input =>
    obtain rfl := Host.Outcome.next.inj h
    exact ⟨hparams, hm, hbusy, hbt, hw, hr, runOk_of_not_inBlock rfl⟩

theorem hostStep_inv {s t : State} (hp : s.stream.pos = .idle) (hs : s.Inv) (h : hostStep s = .next t) : t.Inv := by
  unfold hostStep at h
  split at h
  next => exact Host.Outcome.next.inj h ▸ hs
  next op rest _ => exact hostAction_inv (s := { s with host := rest }) hp hs h

/-! ## Proofs: the wire elements keep a block run in its bounds (R34, R198) -/

/-- Whatever state the outcome goes on in, a block run is in its bounds there. -/
def KeepsRunOk (o : Host.Outcome State Fault Refusal) : Prop := ∀ t, o = .next t → t.runOk

theorem keepsRunOk_next {t : State} (h : t.runOk) : KeepsRunOk (.next t) := fun _ ht => Host.Outcome.next.inj ht ▸ h

theorem keepsRunOk_outside {t : State} (h : t.stream.pos.inBlock = false) : KeepsRunOk (.next t) :=
  keepsRunOk_next (runOk_of_not_inBlock h)

theorem keepsRunOk_refused (r : Refusal) : KeepsRunOk (.refused r) := fun _ h => nomatch h

theorem keepsRunOk_ite {c : Prop} [Decidable c] {x y : Host.Outcome State Fault Refusal} (hx : c → KeepsRunOk x)
    (hy : ¬ c → KeepsRunOk y) : KeepsRunOk (if c then x else y) := by
  split_ifs with hc
  · exact hx hc
  · exact hy hc

theorem keepsRunOk_atPos {p : Pos} {s : State} {k : Host.Outcome State Fault Refusal}
    (h : s.stream.pos = p → KeepsRunOk k) : KeepsRunOk (atPos p s k) := keepsRunOk_ite h fun _ => keepsRunOk_refused _

/-- The working registers `d` are in the bounds of the block run of `s`. -/
def InRun (s : State) (d : DecRegs) : Prop := d.ip ≤ s.stream.input.length ∧ d.out.length ≤ s.stream.limit

theorem runOk_of_inRun {s t : State} (h : InRun s t.dec) (hin : t.stream.input = s.stream.input)
    (hlim : t.stream.limit = s.stream.limit) : t.runOk := by
  intro _
  rw [hin, hlim]
  exact h

section Elements
variable {s : State}

theorem keepsRunOk_afterStep {r : Except DecRegs DecRegs} {k : State → State}
    (h : ∀ d, r = .ok d → (k { s with dec := d }).runOk) : KeepsRunOk (afterStep r s k) := by
  cases r with
  | error d => exact keepsRunOk_outside rfl
  | ok d => exact keepsRunOk_next (h d rfl)

theorem keepsRunOk_finishMatch (h : s.dec.ip ≤ s.stream.input.length) : KeepsRunOk (finishMatch s) := by
  refine keepsRunOk_afterStep fun d hd => runOk_of_inRun (s := s) ?_ rfl rfl
  obtain ⟨hlim, rfl⟩ := copyMatch_eq_ok.mp hd
  exact ⟨h, (length_appendMatch _ _ _ _).trans_le hlim⟩

/-- The literals stay in bounds by the two tests of R193. -/
theorem inRun_of_takeLiterals {r d : DecRegs} {lit : List Byte} (hlit : lit.length ≤ r.ll)
    (h : r.takeLiterals s.stream.input.length s.stream.limit lit = .ok d) : InRun s d := by
  obtain ⟨hin, hout, rfl⟩ := takeLiterals_eq_ok.mp h
  refine ⟨hin, ?_⟩
  rw [List.length_append]
  omega

theorem keepsRunOk_afterRead {r : ReadStep} {k : State → Host.Outcome State Fault Refusal}
    (h : ∀ t, KeepsRunOk (k (putStreamWork t s))) : KeepsRunOk (afterRead r s k) := by
  cases r with
  | error e => exact keepsRunOk_outside rfl
  | ok t => exact h t

theorem keepsRunOk_frameElement {p : Pos} {n : Nat} {k : State → Host.Outcome State Fault Refusal}
    (h : KeepsRunOk (k (advanceRun n s))) : KeepsRunOk (frameElement p n s k) :=
  keepsRunOk_atPos fun _ => keepsRunOk_ite (fun _ => keepsRunOk_outside rfl) fun _ => h

theorem keepsRunOk_finishRunBlock : KeepsRunOk (finishRunBlock s) :=
  keepsRunOk_afterRead fun _ => keepsRunOk_ite (fun _ => keepsRunOk_refused _) fun _ => keepsRunOk_outside rfl

theorem keepsRunOk_finishRunFrame : KeepsRunOk (finishRunFrame s) := keepsRunOk_outside rfl

theorem afterCsize_not_inBlock (b : Byte) : (afterCsize b).inBlock = false := by
  unfold afterCsize
  split_ifs <;> rfl

theorem afterBd_not_inBlock (b : Byte) : (afterBd b).inBlock = false := by
  unfold afterBd
  split_ifs
  · rfl
  · exact afterCsize_not_inBlock b

/-- In a block run the cursor and the output are in bounds. -/
theorem State.runOk.at {p : Pos} (h : s.runOk) (hp : s.stream.pos = p) (hb : p.inBlock = true) : InRun s s.dec :=
  h (hp ▸ hb)

/-- A whole SEQ keeps the bounds by its own tests, and by its bytes being there. -/
theorem inRun_of_takeSeq {lit : List Byte} {off : BitVec 16} {ml : Nat} {d : DecRegs}
    (hin : s.dec.ip + (encode (.seq lit off ml)).length ≤ s.stream.input.length)
    (h : s.dec.takeSeq s.stream.input.length s.stream.dict s.stream.limit lit off ml = .ok d) : InRun s d := by
  unfold DecRegs.takeSeq at h
  split at h
  next => exact nomatch h
  next r1 hlit =>
    split at h
    next => exact nomatch h
    next r2 hoff =>
      obtain ⟨-, -, rfl⟩ := takeLiterals_eq_ok.mp hlit
      obtain ⟨-, -, -, rfl⟩ := takeOffset_eq_ok.mp hoff
      obtain ⟨hlim, rfl⟩ := copyMatch_eq_ok.mp h
      simp only [encode, length_emitSeq] at hin
      refine ⟨?_, (length_appendMatch _ _ _ _).trans_le hlim⟩
      simp only [DecRegs.takeHead]
      omega

theorem keepsRunOk_element {i : Instr} (hi : ¬ isCommand i) (hrun : s.runOk) : KeepsRunOk (exec i s) := by
  cases i
  case token t =>
    refine keepsRunOk_atPos fun hp => keepsRunOk_ite (fun _ => keepsRunOk_outside rfl) fun hin => ?_
    obtain ⟨-, hout⟩ := hrun.at hp rfl
    exact keepsRunOk_next (runOk_of_inRun (s := s) ⟨Nat.lt_of_not_le hin, hout⟩ rfl rfl)
  case llext v =>
    refine keepsRunOk_atPos fun hp => keepsRunOk_ite (fun _ => keepsRunOk_outside rfl) fun hin => ?_
    obtain ⟨-, hout⟩ := hrun.at hp rfl
    exact keepsRunOk_next (runOk_of_inRun (s := s) ⟨Nat.lt_of_not_le hin, hout⟩ rfl rfl)
  case literals lit =>
    refine keepsRunOk_atPos fun hp => keepsRunOk_ite (fun hlen => ?_) fun _ => keepsRunOk_refused _
    refine keepsRunOk_afterStep fun d hd => ?_
    split_ifs
    · exact runOk_of_not_inBlock rfl
    · exact runOk_of_inRun (s := s) (inRun_of_takeLiterals hlen.le hd) rfl rfl
  case offset off =>
    refine keepsRunOk_atPos fun hp => ?_
    obtain ⟨-, hout⟩ := hrun.at hp rfl
    split
    next => exact keepsRunOk_outside rfl
    next d hd =>
      obtain ⟨hin, -, -, rfl⟩ := takeOffset_eq_ok.mp hd
      exact keepsRunOk_ite (fun _ => keepsRunOk_next (runOk_of_inRun (s := s) ⟨hin, hout⟩ rfl rfl)) fun _ =>
        keepsRunOk_finishMatch hin
  case mlext v =>
    refine keepsRunOk_atPos fun hp => keepsRunOk_ite (fun _ => keepsRunOk_outside rfl) fun hin => ?_
    obtain ⟨-, hout⟩ := hrun.at hp rfl
    exact keepsRunOk_ite
      (fun _ => keepsRunOk_next (runOk_of_inRun (s := s) ⟨Nat.lt_of_not_le hin, hout⟩ rfl rfl)) fun _ =>
        keepsRunOk_finishMatch (Nat.lt_of_not_le hin)
  case seq lit off ml =>
    refine keepsRunOk_atPos fun _ => keepsRunOk_ite (fun _ => keepsRunOk_outside rfl) fun hin => ?_
    exact keepsRunOk_afterStep fun d hd => runOk_of_inRun (s := s) (inRun_of_takeSeq (Nat.le_of_not_lt hin) hd) rfl rfl
  case last lit mln =>
    refine keepsRunOk_atPos fun _ => keepsRunOk_ite (fun _ => keepsRunOk_outside rfl) fun _ => ?_
    exact keepsRunOk_ite (fun _ => keepsRunOk_refused _) fun _ =>
      keepsRunOk_afterStep fun d _ => runOk_of_not_inBlock rfl
  case magic =>
    rw [exec, execMagic]
    refine keepsRunOk_frameElement ?_
    exact keepsRunOk_outside rfl
  case flg b =>
    exact keepsRunOk_atPos fun _ => keepsRunOk_ite (fun _ => keepsRunOk_outside rfl) fun _ => keepsRunOk_outside rfl
  case bd b =>
    rw [exec, execBd]
    refine keepsRunOk_frameElement ?_
    exact keepsRunOk_ite (fun _ => keepsRunOk_outside rfl) fun _ => keepsRunOk_outside (afterBd_not_inBlock _)
  case csize v =>
    rw [exec, execCsize]
    refine keepsRunOk_frameElement ?_
    exact keepsRunOk_outside (afterCsize_not_inBlock _)
  case dictid v =>
    rw [exec, execDictid]
    refine keepsRunOk_frameElement ?_
    exact keepsRunOk_outside rfl
  case hc c =>
    rw [exec, execHc]
    refine keepsRunOk_frameElement ?_
    exact keepsRunOk_ite (fun _ => keepsRunOk_outside rfl) fun _ =>
      keepsRunOk_ite (fun _ => keepsRunOk_outside rfl) fun _ => keepsRunOk_outside rfl
  case blkhdr raw size =>
    rw [exec, execBlkhdr]
    refine keepsRunOk_frameElement ?_
    exact keepsRunOk_afterRead fun _ => keepsRunOk_outside rfl
  case payload bytes =>
    exact keepsRunOk_atPos fun _ => keepsRunOk_ite
      (fun _ => keepsRunOk_ite (fun _ => keepsRunOk_outside rfl) fun _ =>
        keepsRunOk_ite (fun _ => keepsRunOk_outside rfl) fun _ => keepsRunOk_finishRunBlock)
      fun _ => keepsRunOk_refused _
  case blksum sum =>
    exact keepsRunOk_atPos fun _ => keepsRunOk_ite (fun _ => keepsRunOk_outside rfl) fun _ =>
      keepsRunOk_afterRead fun _ => keepsRunOk_finishRunBlock
  case endmark =>
    rw [exec, execEndmark]
    refine keepsRunOk_frameElement ?_
    exact keepsRunOk_afterRead fun _ => keepsRunOk_ite (fun _ => keepsRunOk_outside rfl) fun _ =>
      keepsRunOk_finishRunFrame
  case csum sum =>
    exact keepsRunOk_atPos fun _ => keepsRunOk_ite (fun _ => keepsRunOk_outside rfl) fun _ =>
      keepsRunOk_afterRead fun _ => keepsRunOk_finishRunFrame
  all_goals exact absurd rfl hi

end Elements

/-- What stands at a wire element's position is no command word (R117, R121). -/
theorem not_isCommand_of_decode {p : DecodeAt} {bs rest : List Byte} {i : Instr} (hp : p ≠ .command)
    (h : decode p bs = .ok (i, rest)) : ¬ isCommand i := by
  unfold isCommand
  cases p with
  | token | llext | mlext | flg | bd | hc => obtain ⟨b, rfl, -⟩ := decodeByte_eq_ok h; exact nofun
  | literals | payload => obtain ⟨l, rfl, -⟩ := decodeRun_eq_ok h; exact nofun
  | offset | csize | dictid | blksum | csum => obtain ⟨v, rfl, -⟩ := decodeLE_eq_ok h; exact nofun
  | sequence => rcases decodeSequence_eq_ok h with ⟨lit, off, ml, rfl, -⟩ | ⟨lit, mln, rfl, -⟩ <;> exact nofun
  | block =>
    obtain ⟨v, rfl, -⟩ := decodeLE_eq_ok h
    unfold decodeSizeWord
    split_ifs <;> exact nofun
  | magic =>
    simp only [decode, decodeMagic] at h
    split at h
    · exact nomatch h
    · split_ifs at h
      obtain ⟨rfl, -⟩ := Prod.mk.inj (Except.ok.inj h)
      exact nofun
  | command => exact absurd rfl hp

/-- A run reads at no command register (R121). -/
theorem fetchAt_ne_command {s : State} (hp : s.stream.pos ≠ .idle) : fetchAt s ≠ .command := by
  unfold fetchAt
  cases hpos : s.stream.pos with
  | idle => exact absurd hpos hp
  | boundary => cases s.stream.grain <;> exact nofun
  | _ => exact nofun

theorem streamStep_inv {s t : State} (hp : s.stream.pos ≠ .idle) (hs : s.Inv) (h : streamStep s = .next t) : t.Inv := by
  obtain ⟨hparams, hm, hbusy, hbt, hw, hr, hrun⟩ := hs
  unfold streamStep at h
  split at h
  next i rest hd =>
    have hi := not_isCommand_of_decode (fetchAt_ne_command hp) hd
    have hrun' := keepsRunOk_element hi hrun t h
    rw [exec_element_frame hi h] at hrun' ⊢
    exact ⟨hparams, hm, hbusy, hbt, hw, hr, hrun'⟩
  next =>
    obtain rfl := Host.Outcome.next.inj h
    unfold rejectElement
    split_ifs <;> exact ⟨hparams, hm, hbusy, hbt, hw, hr, runOk_of_not_inBlock rfl⟩

/-- Settles O3: the host's action with no run, the run's element with one. -/
theorem stepKeepsTheInvariant : Obligations.StepKeepsTheInvariant := by
  intro s t hs h
  by_cases hp : s.stream.pos = .idle
  · simp only [step, hp] at h
    exact hostStep_inv hp hs h
  · rw [step_of_pos hp] at h
    exact streamStep_inv hp hs h

end Sys2Proof.Machine

namespace Sys2Proof.Machine

/-! ## Proofs: READ_FRAME's loop, with turns enough (R250, R261 a) -/

/-- READ_FRAME's loop run to its end: more turns change nothing (R261 c). -/
def readAll (f : List Byte) (max : Nat) (t : ReadWork) : ReadStep := readLoop f max (readFuel f.length) t

/-- A READ_FRAME that goes on: something is still asked for, and the frame is not at its end (R250). -/
abbrev ReadWork.GoesOn (max : Nat) (t : ReadWork) : Prop := t.out.length < max ∧ t.reader.state = .blocks

section ReadAll
variable {f : List Byte} {max : Nat} {t u : ReadWork}

theorem readAll_of_stopped (h : ¬ t.GoesOn max) : readAll f max t = .ok t := readLoop_of_stopped h _

/-- One turn more than enough is a turn and then enough. -/
theorem readAll_eq_succ : readAll f max t = readLoop f max (readFuel f.length + 1) t :=
  (readLoop_add f max 1 (readTurns_le_readFuel f.length t)).symm

theorem readAll_of_nextBlock (hgo : t.GoesOn max) (hstage : t.reader.stage = []) (h : nextBlock f t = .ok u) :
    readAll f max t = readAll f max u := by
  rw [readAll_eq_succ, readLoop, if_pos hgo, if_pos hstage, h]
  rfl

/-- With nothing staged, or nothing asked for any more, a delivery changes nothing. -/
theorem deliverStage_of_nothing (h : t.reader.stage = [] ∨ max ≤ t.out.length) : t.deliverStage max = t := by
  have htake : t.reader.stage.take (max - t.out.length) = [] := by
    rcases h with h | h
    · rw [h, List.take_nil]
    · rw [Nat.sub_eq_zero_of_le h, List.take_zero]
  have hdrop : t.reader.stage.drop (max - t.out.length) = t.reader.stage := by
    rcases h with h | h
    · rw [h, List.drop_nil]
    · rw [Nat.sub_eq_zero_of_le h, List.drop_zero]
  rw [ReadWork.deliverStage, htake, hdrop, List.append_nil]

/-- A delivery is a turn of the loop, or changes nothing. -/
theorem readAll_deliverStage (hs : t.reader.state = .blocks) : readAll f max (t.deliverStage max) = readAll f max t := by
  by_cases h : t.reader.stage = [] ∨ max ≤ t.out.length
  · rw [deliverStage_of_nothing h]
  · obtain ⟨hstage, hout⟩ := not_or.mp h
    rw [readAll_eq_succ (t := t), readLoop, if_pos ⟨Nat.lt_of_not_le hout, hs⟩, if_neg hstage]
    rfl

/-- A delivery in two parts is one (R257). -/
theorem deliverStage_deliverStage {m n : Nat} (hmn : m ≤ n) (ho : t.out.length ≤ m) :
    (t.deliverStage m).deliverStage n = t.deliverStage n := by
  rcases Nat.le_total t.reader.stage.length (m - t.out.length) with hall | hpart
  · have hn : t.reader.stage.length ≤ n - t.out.length := by omega
    simp [ReadWork.deliverStage, List.take_of_length_le, List.drop_of_length_le, hall, hn]
  · have hout : (t.out ++ t.reader.stage.take (m - t.out.length)).length = m := by
      rw [List.length_append, List.length_take]
      omega
    have hsplit : n - t.out.length = (m - t.out.length) + (n - m) := by omega
    unfold ReadWork.deliverStage
    simp only [hout, List.append_assoc, List.drop_drop]
    rw [hsplit, List.take_add]

/-- Asked for more, a READ_FRAME goes on from where it would have ended (R261 a). -/
theorem readAll_of_readLoop {m : Nat} (hm : m ≤ max) {fuel : Nat} (ho : t.out.length ≤ m)
    (h : readLoop f m fuel t = .ok u) : readAll f max t = readAll f max u := by
  induction fuel generalizing t with
  | zero => rw [Except.ok.inj h]
  | succ fuel ih =>
    rw [readLoop] at h
    split_ifs at h with hgo hstage
    · cases hnext : nextBlock f t with
      | error e => rw [hnext] at h; exact nomatch h
      | ok v =>
        rw [hnext] at h
        have hplain := nextBlock_plain f t
        rw [hnext] at hplain
        rw [readAll_of_nextBlock ⟨hgo.1.trans_le hm, hgo.2⟩ hstage hnext]
        exact ih (by rw [show v.out = t.out from hplain]; exact ho) h
    · rw [← readAll_deliverStage hgo.2, ← deliverStage_deliverStage hm ho, readAll_deliverStage (by exact hgo.2)]
      refine ih ?_ h
      simp only [ReadWork.deliverStage, List.length_append, List.length_take]
      omega
    · rw [Except.ok.inj h]

/-- The loop has stopped when its turns are enough. -/
theorem readLoop_stopped {n : Nat} (hn : readTurns f.length t ≤ n) (h : readLoop f max n t = .ok u) : ¬ u.GoesOn max := by
  induction n generalizing t with
  | zero => exact absurd hn (by unfold readTurns; omega)
  | succ n ih =>
    rw [readLoop] at h
    split_ifs at h with hgo hstage
    · cases hnext : nextBlock f t with
      | error e => rw [hnext] at h; exact nomatch h
      | ok v =>
        rw [hnext] at h
        have hturns := readTurns_nextBlock hstage hnext
        exact ih (by omega) h
    · obtain hempty | hfull := deliverStage_empties_or_fills max t
      · have hturns := readTurns_deliverStage (inLen := f.length) hstage hempty
        exact ih (by omega) h
      · have hstop : ¬ (t.deliverStage max).GoesOn max := fun hgo' => Nat.not_le.mpr hgo'.1 hfull
        rw [readLoop_of_stopped hstop] at h
        exact Except.ok.inj h ▸ hstop
    · exact Except.ok.inj h ▸ hgo

end ReadAll

/-! ### Content gathered before (R257) -/

/-- The working state with the content `p` gathered before. -/
def ReadWork.prepend (p : List Byte) (t : ReadWork) : ReadWork := { t with out := p ++ t.out }

def ReadStep.prepend (p : List Byte) : ReadStep → ReadStep
  | .ok t => .ok (t.prepend p)
  | .error (e, t) => .error (e, t.prepend p)

section Prepend
variable (p f : List Byte) (t : ReadWork)

theorem openBlock_prepend (inLen : Nat) (raw : Bool) (size : Nat) :
    (t.prepend p).openBlock inLen raw size = (t.openBlock inLen raw size).prepend p := by
  unfold ReadWork.openBlock
  rw [apply_ite (ReadStep.prepend p), apply_ite (ReadStep.prepend p)]
  rfl

theorem checkBlksum_prepend : (t.prepend p).checkBlksum f = (t.checkBlksum f).prepend p := by
  unfold ReadWork.checkBlksum ReadWork.takeBlksum
  rw [apply_ite (ReadStep.prepend p), apply_ite (ReadStep.prepend p)]
  rfl

theorem finishBlock_prepend : (t.prepend p).finishBlock = t.finishBlock.prepend p := by
  have hcontent : (t.prepend p).decodeContent = t.decodeContent := rfl
  unfold ReadWork.finishBlock
  rw [hcontent]
  cases t.decodeContent <;> rfl

theorem block_prepend (w : Nat) : (t.prepend p).block f w = (t.block f w).prepend p := by
  unfold ReadWork.block
  rw [openBlock_prepend]
  cases t.openBlock f.length (decide (2147483648 ≤ w)) (w % 2147483648) with
  | error e => rfl
  | ok t1 =>
    have hsum := checkBlksum_prepend p f (t1.takePayload ((f.drop t1.reader.rip).take t1.blk.size))
    show (match ((t1.takePayload ((f.drop t1.reader.rip).take t1.blk.size)).prepend p).checkBlksum f with
      | .error e => (Except.error e : ReadStep)
      | .ok t2 => t2.finishBlock) = _
    rw [hsum]
    dsimp only
    cases (t1.takePayload ((f.drop t1.reader.rip).take t1.blk.size)).checkBlksum f with
    | error e => rfl
    | ok t2 => exact finishBlock_prepend p t2

theorem checkSize_prepend : (t.prepend p).checkSize = t.checkSize.prepend p := by
  unfold ReadWork.checkSize
  rw [apply_ite (ReadStep.prepend p)]
  rfl

theorem checkCsum_prepend : (t.prepend p).checkCsum f = (t.checkCsum f).prepend p := by
  unfold ReadWork.checkCsum ReadWork.takeCsum
  rw [apply_ite (ReadStep.prepend p), apply_ite (ReadStep.prepend p), apply_ite (ReadStep.prepend p)]
  rfl

theorem trailer_prepend : (t.prepend p).trailer f = (t.trailer f).prepend p := by
  unfold ReadWork.trailer
  rw [checkSize_prepend]
  cases t.checkSize with
  | error e => rfl
  | ok t1 =>
    show (match (t1.prepend p).checkCsum f with
      | .error e => (Except.error e : ReadStep)
      | .ok t2 => .ok (t2.setState .ended)) = _
    rw [checkCsum_prepend]
    dsimp only
    cases t1.checkCsum f <;> rfl

/-- A parse does not look at what has been gathered. -/
theorem nextBlock_prepend : nextBlock f (t.prepend p) = (nextBlock f t).prepend p := by
  unfold nextBlock
  rw [apply_ite (ReadStep.prepend p), apply_ite (ReadStep.prepend p), ← trailer_prepend, ← block_prepend]
  rfl

theorem deliverStage_prepend (n : Nat) : (t.prepend p).deliverStage (p.length + n) = (t.deliverStage n).prepend p := by
  have hroom : p.length + n - (p ++ t.out).length = n - t.out.length := by
    rw [List.length_append]
    omega
  simp [ReadWork.deliverStage, ReadWork.prepend, hroom, -List.length_append]

/-- With content gathered before, and as much more asked for, the loop does the same. -/
theorem readLoop_prepend (n fuel : Nat) {t : ReadWork} :
    readLoop f (p.length + n) fuel (t.prepend p) = (readLoop f n fuel t).prepend p := by
  induction fuel generalizing t with
  | zero => rfl
  | succ fuel ih =>
    have hgo : ((t.prepend p).out.length < p.length + n ∧ (t.prepend p).reader.state = .blocks) ↔
        (t.out.length < n ∧ t.reader.state = .blocks) := by
      simp [ReadWork.prepend]
    rw [readLoop, readLoop, apply_ite (ReadStep.prepend p), apply_ite (ReadStep.prepend p), nextBlock_prepend,
      deliverStage_prepend, ih]
    refine if_congr hgo (if_congr Iff.rfl ?_ rfl) rfl
    cases nextBlock f t with
    | error e => rfl
    | ok u => exact ih

end Prepend

/-- Settles O54: the loop for `m + n` goes on where the one for `m` stops, at the end of the frame or with `m` bytes gathered. -/
theorem deliveryDoesNotDependOnTheCuts : Obligations.DeliveryDoesNotDependOnTheCuts := by
  intro f m n t u v ht hu hv
  have hto : t.out.length ≤ m := by
    rw [ht]
    exact Nat.zero_le m
  refine (readAll_of_readLoop (Nat.le_add_right m n) hto hu).trans ?_
  have hlen := readLoop_spec f m (readFuel f.length) t hto
  rw [hu] at hlen
  by_cases hs : u.reader.state = .blocks
  · have hfull : u.out.length = m := by
      have hstop := readLoop_stopped (readTurns_le_readFuel f.length t) hu
      exact Nat.le_antisymm hlen (Nat.le_of_not_lt fun hlt => hstop ⟨hlt, hs⟩)
    have hshift := readLoop_prepend u.out f n (readFuel f.length) (t := { u with out := [] })
    rw [hv, hfull] at hshift
    simpa [ReadWork.prepend, ReadStep.prepend, readAll] using hshift
  · have hstop : ∀ (o : List Byte) (k : Nat), ¬ ReadWork.GoesOn k { u with out := o } := fun _ _ hgo => hs hgo.2
    rw [readLoop_of_stopped (hstop [] n)] at hv
    obtain rfl := Except.ok.inj hv
    rw [readAll_of_stopped (hstop u.out (m + n))]
    simp

end Sys2Proof.Machine

namespace Sys2Proof.Machine

/-! ## Proofs: EmitBlock (R240, R241) -/

/-- A block is stored compressed when the encoding is shorter than the content (R169, R240). -/
theorem storedBlock_of_lt {e c : List Byte} (h : e.length < c.length) : storedBlock e c = (e.length, e) := by
  unfold storedBlock
  rw [if_pos (show fits e (c.length - 1) by unfold fits; omega), sizeWord, if_neg Bool.false_ne_true, Nat.zero_add]

theorem storedBlock_of_le {e c : List Byte} (hc : c ≠ []) (h : c.length ≤ e.length) :
    storedBlock e c = (2 ^ 31 + c.length, c) := by
  have hpos := List.length_pos_iff.mpr hc
  unfold storedBlock
  rw [if_neg (show ¬ fits e (c.length - 1) by unfold fits; omega), sizeWord, if_pos rfl]
  rfl

/-- Settles O51: the payload is what `storedBlock` chooses; the rest is `EmitBlock` as it stands. -/
theorem emitBlockStoresCompressedOrRaw : Obligations.EmitBlockStoresCompressedOrRaw := by
  intro q t c hc
  refine ⟨t.writer.encoding q t.enc c, (storedBlock (t.writer.encoding q t.enc c).1.out c).2,
    (storedBlock (t.writer.encoding q t.enc c).1.out c).1, rfl, fun h => ?_, fun h => ?_, ?_, rfl, rfl⟩
  · rw [storedBlock_of_lt h]
    exact ⟨rfl, rfl⟩
  · rw [storedBlock_of_le hc h]
    exact ⟨rfl, rfl⟩
  · simp only [emitBlock, blockBytes, List.append_assoc]

/-! ## Proofs: the block maxima and the pieces of the data (R223, R237) -/

/-- All pieces but the last are full. -/
theorem length_of_mem_dropLast_chunks {b : Nat} {fuel : Nat} {data c : List Byte} (hf : data.length ≤ fuel)
    (hb : 1 ≤ b) (hc : c ∈ (chunks b fuel data).dropLast) : c.length = b := by
  induction fuel generalizing data with
  | zero => simp [chunks] at hc
  | succ fuel ih =>
    cases data with
    | nil => simp [chunks] at hc
    | cons x t =>
      rw [chunks] at hc
      have hrest : ((x :: t).drop b).length ≤ fuel := by
        rw [List.length_drop]
        omega
      cases hcs : chunks b fuel ((x :: t).drop b) with
      | nil => simp [hcs] at hc
      | cons y cs =>
        have hne : (x :: t).drop b ≠ [] := by
          intro hnil
          rw [hnil] at hcs
          cases fuel <;> simp [chunks] at hcs
        rw [hcs, List.dropLast_cons_of_ne_nil (List.cons_ne_nil _ _), List.mem_cons] at hc
        rcases hc with rfl | hc
        · have hlong := List.length_pos_iff.mpr hne
          rw [List.length_drop] at hlong
          rw [List.length_take]
          omega
        · exact ih hrest (hcs ▸ hc)

/-- Settles O50: the pieces are the data, and only the last can be short. -/
theorem chunksCutTheData : Obligations.ChunksCutTheData := by
  refine ⟨⟨rfl, rfl, rfl, rfl⟩, fun b data hb => ?_⟩
  obtain ⟨hflat, hlen, hcount⟩ := chunks_spec hb (Nat.le_refl data.length)
  exact ⟨hflat, hlen, fun c => length_of_mem_dropLast_chunks le_rfl hb, hcount⟩

/-! ## Proofs: a block, and a trailer, at the reader's cursor (R251 to R256) -/

section NextBlock
variable {f : List Byte} {t : ReadWork} {w : Nat} {pay rest : List Byte}

theorem checkBlksum_of_false (h : t.reader.finfo.bcsum = false) : t.checkBlksum f = .ok t :=
  if_neg (ne_true_of_eq_false h)

theorem checkBlksum_of_true (h : t.reader.finfo.bcsum = true) :
    t.checkBlksum f = t.takeBlksum (BitVec.ofNat 32 (t.word f)) := if_pos h

theorem checkCsum_of_false (h : t.reader.finfo.ccsum = false) : t.checkCsum f = .ok t :=
  if_neg (ne_true_of_eq_false h)

theorem checkCsum_of_true (h : t.reader.finfo.ccsum = true) (hin : t.reader.rip + 4 ≤ f.length) :
    t.checkCsum f = t.takeCsum (BitVec.ofNat 32 (t.word f)) := (if_pos h).trans (if_neg (Nat.not_lt.mpr hin))

/-- The word at the cursor is the one whose bytes stand there. -/
theorem word_of_drop (hf : f.drop t.reader.rip = leBytes 4 w ++ rest) (hw : w < 2 ^ 32) : t.word f = w := by
  rw [ReadWork.word, hf, List.take_left' (length_leBytes 4 w), leNat_leBytes]
  exact Nat.mod_eq_of_lt hw

/-- A checksum at the cursor is read as it was written. -/
theorem ofNat_word_of_drop {v : Word} (hf : f.drop t.reader.rip = leBytes 4 v.toNat ++ rest) :
    BitVec.ofNat 32 (t.word f) = v := by
  rw [word_of_drop hf v.isLt, BitVec.ofNat_toNat, BitVec.setWidth_eq]

/-- The block of size word `w` and payload `pay` has been read up to its checksum (R251). -/
def payloadRead (w : Nat) (pay : List Byte) (t : ReadWork) : ReadWork :=
  { t with
    reader := { t.reader with rip := t.reader.rip + 4 + w % 2147483648 }
    blk := { raw := decide (2147483648 ≤ w), size := w % 2147483648, payload := pay } }

/-- A size word within its bounds: the payload is what stands behind it, and the checksum is judged next (R251). -/
theorem nextBlock_of_room (hw : t.word f = w) (h0 : w ≠ 0)
    (hmax : w % 2147483648 ≤ blockMax t.reader.finfo.bsclass.toNat)
    (hin : t.reader.rip + 4 + w % 2147483648 + 4 * t.reader.finfo.bcsum.toNat ≤ f.length) :
    nextBlock f t =
      match (payloadRead w ((f.drop (t.reader.rip + 4)).take (w % 2147483648)) t).checkBlksum f with
      | .error e => .error e
      | .ok u => u.finishBlock := by
  rw [nextBlock, if_neg (by omega), hw, if_neg h0, ReadWork.block, openBlock_of_fits (t := t.advance 4) _ hmax hin]
  rfl

/-- A block with its right checksum is decoded (R251, R253). -/
theorem nextBlock_of_block (hf : f.drop t.reader.rip = blockBytes t.reader.finfo.bcsum w pay ++ rest) (hw : w < 2 ^ 32)
    (h0 : w ≠ 0) (hlen : w % 2147483648 = pay.length) (hmax : pay.length ≤ blockMax t.reader.finfo.bsclass.toNat) :
    nextBlock f t = ((payloadRead w pay t).advance (4 * t.reader.finfo.bcsum.toNat)).finishBlock := by
  have hroom := congrArg List.length hf
  rw [List.length_drop, List.length_append, length_blockBytes] at hroom
  rw [blockBytes, List.append_assoc, List.append_assoc] at hf
  have hpay := drop_of_drop_eq hf
  rw [length_leBytes] at hpay
  have hsum := drop_of_drop_eq hpay
  rw [nextBlock_of_room (word_of_drop hf hw) h0 (hlen ▸ hmax) (by omega), hlen, hpay, List.take_left]
  cases hb : t.reader.finfo.bcsum with
  | false =>
    rw [checkBlksum_of_false (t := payloadRead w pay t) hb]
    rfl
  | true =>
    rw [hb, if_pos rfl, ← hlen] at hsum
    rw [checkBlksum_of_true (t := payloadRead w pay t) hb, ofNat_word_of_drop (t := payloadRead w pay t) hsum]
    rw [show Config.hash32 pay = Config.hash32 (payloadRead w pay t).blk.payload from rfl, takeBlksum_of_eq]
    rfl

/-- The trailer at the cursor ends the frame, with the declared size and the content's checksum (R256). -/
theorem nextBlock_of_trailer
    (hf : f.drop t.reader.rip =
      leBytes 4 0 ++ (if t.reader.finfo.ccsum then leBytes 4 (Config.hash32 t.reader.acc).toNat else []))
    (hsize : t.reader.finfo.csize = true → t.reader.total = t.reader.finfo.contentSize.toNat) :
    nextBlock f t = .ok ((t.advance (4 + 4 * t.reader.finfo.ccsum.toNat)).setState .ended) := by
  have hroom := congrArg List.length hf
  rw [List.length_drop, List.length_append, length_leBytes] at hroom
  have hsum := drop_of_drop_eq hf
  rw [length_leBytes] at hsum
  rw [nextBlock, if_neg (by omega), if_pos (word_of_drop hf (by decide)), ReadWork.trailer,
    checkSize_of_eq (t := t.advance 4) hsize]
  dsimp only
  cases hc : t.reader.finfo.ccsum with
  | false =>
    rw [checkCsum_of_false (t := t.advance 4) hc]
    rfl
  | true =>
    rw [hc, if_pos rfl] at hsum hroom
    rw [length_leBytes] at hroom
    rw [← List.append_nil (leBytes 4 _)] at hsum
    rw [checkCsum_of_true (t := t.advance 4) hc (by simp only [ReadWork.advance]; omega),
      ofNat_word_of_drop (t := t.advance 4) hsum,
      show Config.hash32 t.reader.acc = Config.hash32 (t.advance 4).reader.acc from rfl, takeCsum_of_eq]
    rfl

end NextBlock

/-- Settles O52: the checksum is judged on the payload as read, and the registers are those before the block. -/
theorem blockChecksumComesBeforeDecoding : Obligations.BlockChecksumComesBeforeDecoding := by
  intro f t w hword hw h0 hb hmax hin hsum
  have hroom : t.reader.rip + 4 + w % 2147483648 + 4 * t.reader.finfo.bcsum.toNat ≤ f.length := by
    rw [hb]
    exact hin
  have hbad := (checkBlksum_of_true (f := f)
    (t := payloadRead w ((f.drop (t.reader.rip + 4)).take (w % 2147483648)) t) hb).trans (takeBlksum_of_ne hsum)
  have hnext := nextBlock_of_room hw.symm h0 hmax hroom
  rw [hbad] at hnext
  exact ⟨_, hnext, rfl⟩

end Sys2Proof.Machine

namespace Sys2Proof.Machine

/-! ## Proofs: the frame round trip (R235, R246) -/

/-! ### FINFO of a written header (R28, R222) -/

/-- FINFO of the header written for the preferences. -/
def PrefRegs.finfo (p : PrefRegs) : FinfoRegs := finfoOf p.flg p.bd p.contentSize p.dictid

/-- FINFO's flag bits are FLG's (R28). -/
theorem finfoOf_flags_getLsbD (flg bd : Byte) (csize : DWord) (dictid : Word) {i : Nat} (hi : i < 32) :
    (finfoOf flg bd csize dictid).flags.getLsbD i = flg.getLsbD i := by
  show (BitVec.ofNat 32 flg.toNat).getLsbD i = flg.getLsbD i
  rw [BitVec.getLsbD_ofNat, decide_eq_true hi, Bool.true_and]
  rfl

section Finfo
variable (p : PrefRegs)

theorem PrefRegs.finfo_bindep : p.finfo.bindep = p.bindep := by
  obtain ⟨h5, -⟩ := p.flg_bits
  exact (finfoOf_flags_getLsbD _ _ _ _ (by decide)).trans h5

theorem PrefRegs.finfo_bcsum : p.finfo.bcsum = p.bcsum := by
  obtain ⟨-, h4, -⟩ := p.flg_bits
  exact (finfoOf_flags_getLsbD _ _ _ _ (by decide)).trans h4

theorem PrefRegs.finfo_csize : p.finfo.csize = p.csize := by
  obtain ⟨-, -, h3, -⟩ := p.flg_bits
  exact (finfoOf_flags_getLsbD _ _ _ _ (by decide)).trans h3

theorem PrefRegs.finfo_ccsum : p.finfo.ccsum = p.ccsum := by
  obtain ⟨-, -, -, h2, -⟩ := p.flg_bits
  exact (finfoOf_flags_getLsbD _ _ _ _ (by decide)).trans h2

variable {p}

theorem PrefRegs.finfo_bsclass (hp : p.legal) : p.finfo.bsclass.toNat = p.bsclass.toNat := by
  obtain ⟨-, -, -, hclass⟩ := hp
  show (BitVec.ofNat 32 (p.bd.toNat / 16 % 8)).toNat = _
  rw [BitVec.toNat_ofNat, PrefRegs.bd_toNat hclass]
  omega

theorem PrefRegs.finfo_contentSize (hc : p.csize = true) : p.finfo.contentSize = p.contentSize := by
  obtain ⟨-, -, h3, -⟩ := p.flg_bits
  obtain ⟨hlo, hhi⟩ := pair64_halves p.csizeHi p.csizeLo
  have hset : p.flg.getLsbD 3 = true := h3.trans hc
  simp only [FinfoRegs.contentSize, PrefRegs.finfo, finfoOf, if_pos hset]
  exact congrArg₂ pair64 hhi hlo

theorem PrefRegs.finfo_hdrlen : p.finfo.hdrlen.toNat = p.hdrLen := by
  obtain ⟨-, -, h3, -, -, h0, -⟩ := p.flg_bits
  have hle := hdrLen_le p.csize p.hasDictid
  show (BitVec.ofNat 32 (Sys2Proof.Machine.hdrLen (p.flg.getLsbD 3) (p.flg.getLsbD 0))).toNat = _
  rw [h3, h0, BitVec.toNat_ofNat, PrefRegs.hdrLen]
  omega

end Finfo

/-! ### What a writer emits (R240) -/

theorem encodeBlock_out_ne_nil {q : Policy} {c : CfgRegs} {level : Int} {ind : Bool} {dict block : List Byte} {t : TableSet}
    {p0 : Nat} {r : EncRegs} (hb : block ≠ []) : (encodeBlock q c level ind dict block t p0 r).1.out ≠ [] := by
  obtain ⟨l, b, -, hout, -⟩ := encodeBlock_chain (p := q) (c := c) (level := level) (ind := ind) (dict := dict)
    (t := t) (p0 := p0) (r := r) hb
  rw [hout]
  simp [sequenceBytes, emitLast, emitLastWith]

/-- What a stored block of content `c` with encoding `e` has for size word and payload (R110, R240). -/
structure StoredAs (e c : List Byte) (w : Nat) (pay : List Byte) : Prop where
  lt : w < 2 ^ 32
  ne : w ≠ 0
  size : w % 2147483648 = pay.length
  le : pay.length ≤ c.length
  kind : 2147483648 ≤ w ∧ pay = c ∨ w < 2147483648 ∧ pay = e

theorem storedBlock_storedAs {e c : List Byte} (he : e ≠ []) (hc : c ≠ []) (hlen : c.length < 2147483648) :
    StoredAs e c (storedBlock e c).1 (storedBlock e c).2 := by
  have hepos := List.length_pos_iff.mpr he
  rcases Nat.lt_or_ge e.length c.length with hlt | hge
  · rw [storedBlock_of_lt hlt]
    exact ⟨by dsimp only; omega, by dsimp only; omega, Nat.mod_eq_of_lt (hlt.trans hlen), hlt.le,
      .inr ⟨hlt.trans hlen, rfl⟩⟩
  · rw [storedBlock_of_le hc hge]
    exact ⟨by dsimp only; omega, by dsimp only; omega, by dsimp only; omega, le_rfl, .inl ⟨by dsimp only; omega, rfl⟩⟩

theorem foldl_emitBlock_prefix (q : Policy) (cs : List (List Byte)) (t : WriteWork) :
    ∃ tail, (cs.foldl (emitBlock q) t).out = t.out ++ tail := by
  induction cs generalizing t with
  | nil => exact ⟨[], (List.append_nil _).symm⟩
  | cons c cs ih =>
    obtain ⟨tail, htail⟩ := ih (emitBlock q t c)
    exact ⟨_, htail.trans (List.append_assoc _ _ _)⟩

/-! ### Reader and writer in step (R225, R255) -/

/-- The reader stands at a block boundary where it has taken all that the writer has emitted. -/
structure InStep (w : WriterCtx) (r : ReaderCtx) : Prop where
  state : r.state = .blocks
  stage : r.stage = []
  finfo : r.finfo = w.prefs.finfo
  hist : r.hist = w.win
  total : r.total = w.total
  acc : r.acc = w.acc

/-- The loop goes on from `s` to `s'`, with the content `c` gathered, RIP at `n`, in step with the writer `w`. -/
structure ReadsTo (f : List Byte) (max : Nat) (w : WriterCtx) (n : Nat) (c : List Byte) (s s' : ReadWork) : Prop where
  same : readAll f max s = readAll f max s'
  inStep : InStep w s'.reader
  rip : s'.reader.rip = n
  out : s'.out = s.out ++ c

theorem ReadsTo.trans {f : List Byte} {max m n : Nat} {v w : WriterCtx} {c d : List Byte} {s s' s'' : ReadWork}
    (h : ReadsTo f max v m c s s') (h' : ReadsTo f max w n d s' s'') : ReadsTo f max w n (c ++ d) s s'' :=
  ⟨h.same.trans h'.same, h'.inStep, h'.rip, by rw [h'.out, h.out, List.append_assoc]⟩

section Blocks
variable {q : Policy} {f pre rest : List Byte} {max : Nat} {s : ReadWork}

/-- The payload the writer stored decodes to the block's content: the reader has the dictionary the writer coded with
(R202, R225). -/
theorem decodeContent_of_storedAs {t : WriteWork} {c pay : List Byte} {w : Nat} (hp : t.writer.prefs.legal)
    (hs : InStep t.writer s.reader) (hmax : c.length ≤ blockMax t.writer.prefs.bsclass.toNat)
    (h : StoredAs (t.writer.encoding q t.enc c).1.out c w pay) (k : Nat) :
    ∃ d, ((payloadRead w pay s).advance k).decodeContent = .ok (c, d) := by
  have hdict : ((payloadRead w pay s).advance k).reader.dict = t.writer.dict := by
    show (if s.reader.finfo.bindep then [] else s.reader.hist) = if t.writer.prefs.bindep then [] else t.writer.win
    rw [hs.finfo, hs.hist, PrefRegs.finfo_bindep]
  have hclass : ((payloadRead w pay s).advance k).reader.finfo.bsclass.toNat = t.writer.prefs.bsclass.toNat :=
    (congrArg (fun g => (FinfoRegs.bsclass g).toNat) hs.finfo).trans (PrefRegs.finfo_bsclass hp)
  rcases h.kind with ⟨hraw, rfl⟩ | ⟨hcoded, rfl⟩
  · exact ⟨s.dec, decodeContent_eq_ok.mpr (.inl ⟨decide_eq_true hraw, rfl, rfl⟩)⟩
  · obtain ⟨d, hd, hout⟩ := decodeBlock_encodeBlock q t.writer.cfg (levelOf t.writer.prefs.level) t.writer.prefs.bindep
      t.writer.dict c t.writer.blockTable t.writer.p0 t.enc s.dec hmax
    refine ⟨d, decodeContent_eq_ok.mpr (.inr ⟨decide_eq_false (Nat.not_le.mpr hcoded), hout.symm, ?_⟩)⟩
    rw [hdict, hclass]
    exact hd

/-- Once a block's content is staged and delivered the reader is in step again (R240, R255). -/
theorem inStep_emitBlock {t : WriteWork} {c : List Byte} {r : ReaderCtx} (q : Policy) (hs : InStep t.writer r) (n : Nat) :
    InStep (emitBlock q t c).writer { r.stageContent c with rip := n, stage := [] } := by
  refine ⟨hs.state, rfl, hs.finfo, ?_, ?_, ?_⟩ <;> simp only [ReaderCtx.stageContent, emitBlock]
  · rw [hs.finfo, hs.hist, PrefRegs.finfo_bindep]
  · rw [hs.total]
  · rw [hs.finfo, hs.acc, PrefRegs.finfo_ccsum]

/-- One block that EmitBlock emitted is read, delivered, and leaves the reader in step (R240, R251). -/
theorem readsTo_emitBlock {t : WriteWork} {c : List Byte} (hp : t.writer.prefs.legal) (hs : InStep t.writer s.reader)
    (hc : c ≠ []) (hmax : c.length ≤ blockMax t.writer.prefs.bsclass.toNat) (hroom : s.out.length + c.length ≤ max)
    (hrip : s.reader.rip = pre.length + t.out.length) (hf : f = pre ++ ((emitBlock q t c).out ++ rest)) :
    ∃ s', ReadsTo f max (emitBlock q t c).writer (pre.length + (emitBlock q t c).out.length) c s s' := by
  have hcpos := List.length_pos_iff.mpr hc
  have hsmall : blockMax t.writer.prefs.bsclass.toNat < 2147483648 := by
    obtain ⟨-, -, -, hclass⟩ := hp
    exact (Nat.pow_le_pow_right (by decide) (by omega : 8 + 2 * t.writer.prefs.bsclass.toNat ≤ 22)).trans_lt (by decide)
  have hstored := storedBlock_storedAs (e := (t.writer.encoding q t.enc c).1.out) (encodeBlock_out_ne_nil hc) hc
    (hmax.trans_lt hsmall)
  have hout : (emitBlock q t c).out = t.out ++ blockBytes t.writer.prefs.bcsum
      (storedBlock (t.writer.encoding q t.enc c).1.out c).1 (storedBlock (t.writer.encoding q t.enc c).1.out c).2 := rfl
  generalize (storedBlock (t.writer.encoding q t.enc c).1.out c).1 = w at hstored hout
  generalize (storedBlock (t.writer.encoding q t.enc c).1.out c).2 = pay at hstored hout
  have hbcsum : s.reader.finfo.bcsum = t.writer.prefs.bcsum := by rw [hs.finfo, PrefRegs.finfo_bcsum]
  have hclass : s.reader.finfo.bsclass.toNat = t.writer.prefs.bsclass.toNat := by rw [hs.finfo, PrefRegs.finfo_bsclass hp]
  have hdrop : f.drop s.reader.rip = blockBytes s.reader.finfo.bcsum w pay ++ rest := by
    rw [hf, hout, hrip, hbcsum, List.append_assoc, ← List.append_assoc pre, List.drop_left' List.length_append]
  obtain ⟨d, hd⟩ := decodeContent_of_storedAs hp hs hmax hstored (4 * s.reader.finfo.bcsum.toNat)
  have hnext := nextBlock_of_block hdrop hstored.lt hstored.ne hstored.size (hclass ▸ hstored.le.trans hmax)
  rw [ReadWork.finishBlock, hd] at hnext
  have htake : c.take (max - s.out.length) = c := List.take_of_length_le (by omega)
  have hempty : c.drop (max - s.out.length) = [] := List.drop_of_length_le (by omega)
  have hreads := (readAll_of_nextBlock (max := max) ⟨by omega, hs.state⟩ hs.stage hnext).trans
    (readAll_deliverStage (by exact hs.state)).symm
  refine ⟨_, hreads, ?_, ?_, ?_⟩
  · simp only [ReadWork.deliverStage, ReaderCtx.stageContent, ReadWork.advance, payloadRead, hempty]
    exact inStep_emitBlock q hs _
  · simp only [ReadWork.deliverStage, ReaderCtx.stageContent, ReadWork.advance, payloadRead]
    rw [hout, List.length_append, length_blockBytes, hrip, hstored.size, hbcsum]
    omega
  · exact congrArg (s.out ++ ·) htake

/-- All the blocks of some pieces are read. -/
theorem readsTo_foldl_emitBlock (cs : List (List Byte)) {t : WriteWork} (hp : t.writer.prefs.legal)
    (hs : InStep t.writer s.reader)
    (hcs : ∀ c ∈ cs, c ≠ [] ∧ c.length ≤ blockMax t.writer.prefs.bsclass.toNat)
    (hroom : s.out.length + cs.flatten.length ≤ max) (hrip : s.reader.rip = pre.length + t.out.length)
    (hf : f = pre ++ ((cs.foldl (emitBlock q) t).out ++ rest)) :
    ∃ s', ReadsTo f max (cs.foldl (emitBlock q) t).writer (pre.length + (cs.foldl (emitBlock q) t).out.length) cs.flatten
      s s' := by
  induction cs generalizing t s with
  | nil => exact ⟨s, rfl, hs, hrip, (List.append_nil _).symm⟩
  | cons c cs ih =>
    obtain ⟨tail, htail⟩ := foldl_emitBlock_prefix q cs (emitBlock q t c)
    have hf1 : f = pre ++ ((emitBlock q t c).out ++ (tail ++ rest)) := by
      rw [hf, List.foldl_cons, htail, List.append_assoc]
    obtain ⟨hne, hlen⟩ := hcs c List.mem_cons_self
    rw [List.flatten_cons, List.length_append] at hroom
    obtain ⟨s1, h1⟩ := readsTo_emitBlock (max := max) hp hs hne hlen (by omega) hrip hf1
    obtain ⟨s2, h2⟩ := ih (t := emitBlock q t c) (s := s1) hp h1.inStep
      (fun c' hc' => hcs c' (List.mem_cons_of_mem c hc')) (by rw [h1.out, List.length_append]; omega) h1.rip hf
    exact ⟨s2, h1.trans h2⟩

/-! ### Whole frames (R235, R243) -/

/-- The bytes of a WRITE_FRAME begin with the header when it is due (R243). -/
theorem writeBlocks_prefix (q : Policy) (w : WriterCtx) (enc : EncRegs) (data : List Byte) :
    ∃ tail, (writeBlocks q w enc data).out = w.dueHeader ++ tail := foldl_emitBlock_prefix q _ _

theorem WriterCtx.dueHeaderLen_of_blocks {w : WriterCtx} (h : w.state = .blocks) : w.dueHeaderLen = 0 :=
  if_neg (by simp [h])

theorem writeFrames_spec (q : Policy) (ds : List (List Byte)) (w : WriterCtx) (enc : EncRegs) :
    (writeFrames q w enc ds).writer.prefs = w.prefs ∧
    (writeFrames q w enc ds).writer.total = w.total + ds.flatten.length := by
  induction ds generalizing w enc with
  | nil => exact ⟨rfl, rfl⟩
  | cons d ds ih =>
    obtain ⟨hprefs, -, -, htotal, -⟩ := writeBlocks_spec q w enc d
    obtain ⟨hprefs', htotal'⟩ := ih (writeBlocks q w enc d).writer (writeBlocks q w enc d).enc
    refine ⟨hprefs'.trans hprefs, htotal'.trans ?_⟩
    rw [htotal, List.flatten_cons, List.length_append, Nat.add_assoc]

/-- The data of one WRITE_FRAME is read, behind the header when that was due (R239, R243). -/
theorem readsTo_writeBlocks {w : WriterCtx} {enc : EncRegs} {data : List Byte} (hp : w.prefs.legal)
    (hs : InStep w s.reader) (hroom : s.out.length + data.length ≤ max) (hrip : s.reader.rip = pre.length + w.dueHeaderLen)
    (hf : f = pre ++ ((writeBlocks q w enc data).out ++ rest)) :
    ∃ s', ReadsTo f max (writeBlocks q w enc data).writer (pre.length + (writeBlocks q w enc data).out.length) data s s' := by
  obtain ⟨hflat, hpieces, -⟩ := chunks_spec (blockMax_pos w.prefs.bsclass.toNat) (Nat.le_refl data.length)
  have h := readsTo_foldl_emitBlock (max := max) (chunks (blockMax w.prefs.bsclass.toNat) data.length data)
    (t := { writer := { w with state := .blocks }, enc := enc, out := w.dueHeader }) hp
    ⟨hs.state, hs.stage, hs.finfo, hs.hist, hs.total, hs.acc⟩ hpieces (by rw [hflat]; exact hroom)
    (by rw [hrip, length_dueHeader]) hf
  rw [hflat] at h
  exact h

/-- The WRITE_FRAMEs' data is read, block by block, up to where CLOSE_WRITER's own fields stand (R246). -/
theorem readsTo_writeFrames (ds : List (List Byte)) {w : WriterCtx} {enc : EncRegs} (hp : w.prefs.legal)
    (hs : InStep w s.reader) (hroom : s.out.length + ds.flatten.length ≤ max)
    (hrip : s.reader.rip = pre.length + w.dueHeaderLen)
    (hf : f = pre ++ ((writeFrames q w enc ds).out ++ rest)) :
    ∃ s', ReadsTo f max (writeFrames q w enc ds).writer
      (pre.length + (writeFrames q w enc ds).out.length + (writeFrames q w enc ds).writer.dueHeaderLen) ds.flatten s s' := by
  induction ds generalizing w enc s pre with
  | nil => exact ⟨s, rfl, hs, hrip, (List.append_nil _).symm⟩
  | cons d ds ih =>
    have hf1 : f = pre ++ ((writeBlocks q w enc d).out ++
        ((writeFrames q (writeBlocks q w enc d).writer (writeBlocks q w enc d).enc ds).out ++ rest)) := by
      rw [hf, writeFrames, List.append_assoc]
    rw [List.flatten_cons, List.length_append] at hroom
    obtain ⟨hprefs, -, hstate, -, -⟩ := writeBlocks_spec q w enc d
    obtain ⟨s1, h1⟩ := readsTo_writeBlocks (max := max) hp hs (by omega) hrip hf1
    obtain ⟨s2, h2⟩ := ih (pre := pre ++ (writeBlocks q w enc d).out) (s := s1) (hprefs.symm ▸ hp) h1.inStep
      (by rw [h1.out, List.length_append]; omega)
      (by rw [WriterCtx.dueHeaderLen_of_blocks hstate, List.length_append]; exact h1.rip)
      (by rw [List.append_assoc]; exact hf1)
    rw [List.length_append] at h2
    refine ⟨s2, h1.trans ?_⟩
    rw [writeFrames, List.length_append, ← Nat.add_assoc]
    exact h2

end Blocks

/-- A frame begins with its header, whether a WRITE_FRAME or CLOSE_WRITER has emitted it (R243). -/
theorem frameOf_eq_header_append (q : Policy) (r : Regs) (enc : EncRegs) (ds : List (List Byte)) :
    ∃ rest, frameOf q r enc ds = headerBytes r.pref ++ rest := by
  cases ds with
  | nil => exact ⟨_, List.append_assoc _ _ _⟩
  | cons d ds =>
    obtain ⟨tail, htail⟩ := writeBlocks_prefix q (openedWriter r) enc d
    rw [frameOf, writeFrames]
    dsimp only
    rw [htail, List.append_assoc, List.append_assoc]
    exact ⟨_, rfl⟩

/-- Settles O53: the header gives the reader the writer's preferences; then it stays in step with the writer to the trailer. -/
theorem frameRoundTrip : Obligations.FrameRoundTrip := by
  intro q r enc ds max d b hp hsize hmax
  obtain ⟨rest, hrest⟩ := frameOf_eq_header_append q r enc ds
  have hheader : parseHeader (frameOf q r enc ds) = .ok r.pref.finfo := by
    rw [hrest]
    exact parseHeader_headerBytes hp rest
  obtain ⟨hprefs, htotal⟩ := writeFrames_spec q ds (openedWriter r) enc
  obtain ⟨s, hreads⟩ := readsTo_writeFrames (q := q) (f := frameOf q r enc ds) (pre := []) (max := max) ds
    (w := openedWriter r) (enc := enc)
    (s := { reader := openedReader Params.default Regs.reset r.pref.finfo, dec := d, blk := b, out := [] }) hp
    ⟨rfl, rfl, rfl, rfl, rfl, rfl⟩ (by rw [List.length_nil, Nat.zero_add]; exact hmax.le)
    (by rw [List.length_nil, Nat.zero_add]; exact PrefRegs.finfo_hdrlen) rfl
  generalize hu : writeFrames q (openedWriter r) enc ds = u at hprefs htotal hreads
  have hframe : frameOf q r enc ds = u.out ++ closeBytes u.writer := by rw [frameOf, hu]
  have hrip : s.reader.rip = (u.out ++ u.writer.dueHeader).length := by
    rw [hreads.rip, List.length_append, length_dueHeader, List.length_nil, Nat.zero_add]
  have hdrop : (frameOf q r enc ds).drop s.reader.rip = leBytes 4 0 ++
      (if s.reader.finfo.ccsum then leBytes 4 (Config.hash32 s.reader.acc).toNat else []) := by
    rw [hframe, closeBytes, List.append_assoc, ← List.append_assoc u.out, List.drop_left' hrip.symm, hreads.inStep.finfo,
      hreads.inStep.acc, PrefRegs.finfo_ccsum]
  have hend := nextBlock_of_trailer hdrop (by
    rw [hreads.inStep.finfo, hreads.inStep.total, htotal, hprefs, PrefRegs.finfo_csize]
    intro hc
    rw [PrefRegs.finfo_contentSize hc]
    exact (Nat.zero_add _).trans (hsize hc).symm)
  have hout : s.out = ds.flatten := hreads.out
  have hgo : s.GoesOn max := ⟨by rw [hout]; exact hmax, hreads.inStep.state⟩
  refine ⟨_, _, hheader, hreads.same.trans ((readAll_of_nextBlock hgo hreads.inStep.stage hend).trans
    (readAll_of_stopped fun h => nomatch h.2)), hout, rfl, ?_⟩
  have hlen := congrArg List.length hdrop
  rw [List.length_drop, List.length_append, length_leBytes] at hlen
  show s.reader.rip + (4 + 4 * s.reader.finfo.ccsum.toNat) = _
  cases hc : s.reader.finfo.ccsum <;> simp [hc] at hlen ⊢ <;> omega

end Sys2Proof.Machine

namespace Sys2Proof.Machine

/-! ## Proofs: OPEN_WRITER and CLOSE_READER (R232, R236, R260) -/

/-- Settles O17: the lowest Closed context is the free one. -/
theorem openWriterTakesTheLowestClosedContext : Obligations.OpenWriterTakesTheLowestClosedContext :=
  fun _ _ _ hp hc hk hw hmin => execOpenWriter_done ⟨hp, hc⟩ (freeWriter_of_lowest hk hw hmin)

/-- Settles O22: the two ends of the rule. -/
theorem closeReaderFreesTheContext : Obligations.CloseReaderFreesTheContext := by
  refine fun s => ⟨fun r hr hopen => execCloseReader_done hr hopen, fun h => execCloseReader_invalid fun r hr hopen => ?_⟩
  obtain ⟨hblocks, hended, hfailed⟩ := h r hr
  rcases hopen with hs | hs | hs
  · exact hblocks hs
  · exact hended hs
  · exact hfailed hs

/-! ## Proofs: WRITE_FRAME and CLOSE_WRITER deliver their bytes (R238, R244) -/

theorem length_srcBytes (s : State) : (srcBytes s).length = s.regs.srcLen.toNat := Mem.length_readBytes _ _ _

/-- Settles O18: the rule's last branch; its bytes fit what it asked for, so RESULT holds their number. -/
theorem writeFrameDeliversTheBlocksOfItsData : Obligations.WriteFrameDeliversTheBlocksOfItsData := by
  intro s w hm hw hv ht
  obtain ⟨-, -, -, htotal, hneed⟩ := writeBlocks_spec (policyOf s.params) w s.enc (srcBytes s)
  rw [length_srcBytes] at htotal hneed
  have hexec : exec .writeFrame s = _ := execWriteFrame_done hw hv (htotal.trans_lt ht)
  have hend : CommandEnd s .writeFrame _ := commandEnd_of_next rfl hexec
  exact ⟨_, written s w, rfl, hexec, rfl, toNat_ofNat_of_le (written_out_le_dstCap hv), hneed,
    deliver_readBytes (s := setWriter _ _ { startCommand s with enc := (written s w).enc }) hm, rfl, rfl,
    hend.keeps_arguments, ⟨rfl, rfl⟩, rfl, ⟨rfl, rfl, rfl⟩, deviceWritesOnlyTheDestinationRegion _ s _ hexec⟩

/-- Settles O19: the rule's last branch; the room it asks for is exactly its bytes'. -/
theorem closeWriterDeliversTheTrailer : Obligations.CloseWriterDeliversTheTrailer := by
  intro s w hm hw hv
  have hexec : exec .closeWriter s = _ := execCloseWriter_done hw hv
  have hend : CommandEnd s .closeWriter _ := commandEnd_of_next rfl hexec
  exact ⟨_, closeBytes w, rfl, hexec, rfl, toNat_ofNat_of_le (closeBytes_le_dstCap hv),
    deliver_readBytes (s := startCommand s) hm, rfl, hend.keeps_arguments, ⟨rfl, rfl⟩, rfl, rfl, ⟨rfl, rfl, rfl⟩,
    deviceWritesOnlyTheDestinationRegion _ s _ hexec⟩

/-! ## Proofs: OPEN_READER and READ_FRAME (R248, R250, R258, R259) -/

/-- Settles O20: the header decides between the rule's two ends. -/
theorem openReaderTakesTheHeaderOrReportsItsError : Obligations.OpenReaderTakesTheHeaderOrReportsItsError := by
  intro s j r hs hj hr hmin
  have hfree := freeReader_of_lowest hj hr hmin
  refine ⟨fun f hf => (execOpenReader_done hs hfree hf).trans ?_, fun e he => execOpenReader_error hs hfree he⟩
  have hlen : BitVec.ofNat 32 f.hdrlen.toNat = f.hdrlen := by rw [BitVec.ofNat_toNat, BitVec.setWidth_eq]
  rw [setResult, hlen]
  rfl

/-- Settles O21: what the loop answers decides between the rule's ends. -/
theorem readFrameDeliversContentOrFails : Obligations.ReadFrameDeliversContentOrFails := by
  intro s r hm hr hv
  refine ⟨fun u hu ht => ?_, fun e u hu => ?_⟩
  · have hexec : exec .readFrame s = _ := execReadFrame_done hr hv hu ht
    have hend : CommandEnd s .readFrame _ := commandEnd_of_next rfl hexec
    have hlen := readContent_spec s r
    rw [show readContent s r = .ok u from hu] at hlen
    exact ⟨_, hexec, rfl, toNat_ofNat_of_le hlen, hlen, deliver_readBytes (s := putReadWork u (startCommand s)) hm, rfl, rfl,
      rfl, hend.keeps_arguments, ⟨rfl, rfl⟩, ⟨rfl, rfl, rfl⟩, deviceWritesOnlyTheDestinationRegion _ s _ hexec⟩
  · have hexec : exec .readFrame s = _ := execReadFrame_error hr hv hu
    have hend : CommandEnd s .readFrame _ := commandEnd_of_next rfl hexec
    exact ⟨_, hexec, rfl, rfl, rfl, hend.keeps_arguments, ⟨rfl, rfl⟩, ⟨rfl, rfl, rfl⟩,
      deviceWritesOnlyTheDestinationRegion _ s _ hexec⟩

/-! ## Proofs: a command and its context (R232, R234) -/

/-- The writer context the command `i` issued in `s` can touch. -/
def OwnWriter (i : Instr) (s : State) (k : Nat) : Prop :=
  (i = .writeFrame ∨ i = .closeWriter) ∧ k = s.regs.handle.toNat ∨ i = .openWriter ∧ freeWriter s = some k

/-- The reader context the command `i` issued in `s` can touch. -/
def OwnReader (i : Instr) (s : State) (j : Nat) : Prop :=
  (i = .readFrame ∨ i = .closeReader) ∧ j = s.regs.handle.toNat ∨ i = .openReader ∧ freeReader s = some j

theorem CommandEnd.writers_eq_or_set {s t : State} {i : Instr} (h : CommandEnd s i t) :
    t.writers = s.writers ∨ ∃ k w, OwnWriter i s k ∧ t.writers = s.writers.set k w := by
  cases h with
  | openWriter k hp hk => exact .inr ⟨k, _, .inr ⟨rfl, hk⟩, rfl⟩
  | writeFrame => exact .inr ⟨_, _, .inl ⟨.inl rfl, rfl⟩, rfl⟩
  | closeWriter => exact .inr ⟨_, _, .inl ⟨.inr rfl, rfl⟩, rfl⟩
  | _ => exact .inl rfl

theorem CommandEnd.readers_eq_or_set {s t : State} {i : Instr} (h : CommandEnd s i t) :
    t.readers = s.readers ∨ ∃ j r, OwnReader i s j ∧ t.readers = s.readers.set j r := by
  cases h with
  | openReader j f hs hj => exact .inr ⟨j, _, .inr ⟨rfl, hj⟩, rfl⟩
  | readFrame => exact .inr ⟨_, _, .inl ⟨.inl rfl, rfl⟩, rfl⟩
  | badFrame => exact .inr ⟨_, _, .inl ⟨.inl rfl, rfl⟩, rfl⟩
  | closeReader => exact .inr ⟨_, _, .inl ⟨.inr rfl, rfl⟩, rfl⟩
  | _ => exact .inl rfl

/-- A list in which at most the place `P` allows is written keeps its length and every other place. -/
theorem getElem?_eq_of_eq_or_set {α : Type} {l l' : List α} {P : Nat → Prop}
    (h : l' = l ∨ ∃ k x, P k ∧ l' = l.set k x) : (∀ j, ¬ P j → l'[j]? = l[j]?) ∧ l'.length = l.length := by
  rcases h with rfl | ⟨k, x, hk, rfl⟩
  · exact ⟨fun _ _ => rfl, rfl⟩
  · exact ⟨fun j hj => List.getElem?_set_ne fun he : k = j => hj (he ▸ hk), List.length_set⟩

/-- Settles O28: a command writes its own place in the lists of contexts, or none. -/
theorem commandsTouchOnlyTheirOwnContext : Obligations.CommandsTouchOnlyTheirOwnContext := by
  intro i s t hi h
  have hend := commandEnd_of_next hi h
  obtain ⟨hw, hwlen⟩ := getElem?_eq_of_eq_or_set hend.writers_eq_or_set
  obtain ⟨hr, hrlen⟩ := getElem?_eq_of_eq_or_set hend.readers_eq_or_set
  exact ⟨fun k h1 h2 => hw k (not_or.mpr ⟨h1, h2⟩), fun j h1 h2 => hr j (not_or.mpr ⟨h1, h2⟩), hwlen, hrlen⟩

/-! ## Proofs: failed readers (R259) -/

/-- The place of the context HANDLE names is one of the list. -/
theorem getElem?_set_handleReader {s : State} {r : ReaderCtx} (hr : handleReader s = some r) (x : ReaderCtx) :
    (s.readers.set s.regs.handle.toNat x)[s.regs.handle.toNat]? = some x := by
  obtain ⟨hlt, -⟩ := List.getElem?_eq_some_iff.mp hr
  exact List.getElem?_set_self hlt

/-- A READ_FRAME on a Failed reader is rejected (R259). -/
theorem exec_readFrame_of_failed {s : State} {r : ReaderCtx} (hr : s.readers[s.regs.handle.toNat]? = some r)
    (hf : r.state = .failed) : exec .readFrame s = .next (rejected s) := by
  refine execReadFrame_invalid fun r' hr' hv => ?_
  obtain rfl := Option.some.inj (hr.symm.trans hr')
  obtain ⟨hs, -⟩ := hv
  rcases hs with hs | hs <;> simp [hf] at hs

/-- What a READ_FRAME that raised has made of its context (R259). -/
theorem readFrame_error_readers {s t : State} (h : CommandEnd s .readFrame t) :
    (t.regs.status.err = .corruptedInput ∨ t.regs.status.err = .checksumMismatch →
      ∃ r, t.readers[s.regs.handle.toNat]? = some r ∧ r.state = .failed) ∧
    (t.regs.status.err = .invalidArgument → t.readers = s.readers) := by
  cases h with
  | invalid => exact ⟨fun herr => herr.elim nofun nofun, fun _ => rfl⟩
  | readFrame => exact ⟨fun herr => herr.elim nofun nofun, nofun⟩
  | badFrame r u e he hr =>
    refine ⟨fun _ => ⟨_, getElem?_set_handleReader hr _, rfl⟩, fun herr => ?_⟩
    obtain rfl : e = .invalidArgument := herr
    rcases he with he | he <;> exact nomatch he

/-- A Failed reader stays as it is (R259). -/
theorem failed_reader_kept {i : Instr} {s t : State} {j : Nat} {r : ReaderCtx} (hr : s.readers[j]? = some r)
    (hf : r.state = .failed) (h : exec i s = .next t) (hi : ¬ (i = .closeReader ∧ j = s.regs.handle.toNat)) :
    t.readers[j]? = some r := by
  by_cases hc : isCommand i
  · by_cases hread : i = .readFrame ∧ j = s.regs.handle.toNat
    · obtain ⟨rfl, rfl⟩ := hread
      obtain rfl := Host.Outcome.next.inj ((exec_readFrame_of_failed hr hf).symm.trans h)
      exact hr
    · obtain ⟨-, hreaders, -⟩ := commandsTouchOnlyTheirOwnContext i s t hc h
      refine (hreaders j ?_ fun ⟨_, hfree⟩ => ?_).trans hr
      · rintro ⟨rfl | rfl, hj⟩
        · exact hread ⟨rfl, hj⟩
        · exact hi ⟨rfl, hj⟩
      · obtain ⟨r', hr', hclosed, -⟩ := freeReader_eq_some hfree
        obtain rfl := Option.some.inj (hr.symm.trans hr')
        simp [hf] at hclosed
  · rw [exec_element_frame hc h]
    exact hr

theorem CommandEnd.writers_not_failed {i : Instr} {s t : State} (h : CommandEnd s i t)
    (hw : ∀ w ∈ s.writers, w.state ≠ .failed) : ∀ w ∈ t.writers, w.state ≠ .failed := by
  cases h with
  | openWriter => exact forall_mem_set hw _ nofun
  | writeFrame w =>
    obtain ⟨-, -, hstate, -⟩ := writeBlocks_spec (policyOf s.params) w s.enc (srcBytes s)
    exact forall_mem_set hw _ fun hf => nomatch hstate.symm.trans hf
  | closeWriter => exact forall_mem_set hw _ nofun
  | _ => exact hw

/-- Settles O29: READ_FRAME's ends, the contexts other commands touch, and the states a writer is given. -/
theorem failedReaderStaysFailed : Obligations.FailedReaderStaysFailed := by
  refine ⟨fun s t h => readFrame_error_readers (commandEnd_of_next rfl h),
    fun s j r hr hf => ⟨fun i t h hi => failed_reader_kept hr hf h hi, fun hj => ?_⟩, fun i s t h hw => ?_⟩
  · subst hj
    exact exec_readFrame_of_failed hr hf
  · by_cases hc : isCommand i
    · exact (commandEnd_of_next hc h).writers_not_failed hw
    · rw [exec_element_frame hc h]
      exact hw

/-! ## Proofs: EOS (R22, R250, R258) -/

/-- EOS is 0 however a command other than READ_FRAME reports. -/
theorem Reports.eos {i : Instr} {st : Status} {v : Word} (h : Reports i st v) (hi : i ≠ .readFrame) : st.eos = false := by
  cases h with
  | ended _ hread => exact absurd hread hi
  | _ => rfl

/-- EOS of a READ_FRAME that ended without error says whether its context is in End. -/
theorem readFrame_eos {s t : State} (h : CommandEnd s .readFrame t) :
    t.regs.status.eos = true ↔
      t.regs.status.err = .none ∧ ∃ r, t.readers[s.regs.handle.toNat]? = some r ∧ r.state = .ended := by
  cases h with
  | invalid => exact ⟨nofun, fun ⟨herr, _⟩ => nomatch herr⟩
  | badFrame r u e he =>
    refine ⟨nofun, fun ⟨herr, _⟩ => ?_⟩
    obtain rfl : e = .none := herr
    rcases he with he | he <;> exact nomatch he
  | readFrame r u hr =>
    have hget := getElem?_set_handleReader hr u.reader
    have heos : (u.reader.state == .ended) = true ↔ u.reader.state = .ended := beq_iff_eq
    refine heos.trans ⟨fun hs => ⟨rfl, u.reader, hget, hs⟩, fun ⟨_, r', hr', hs⟩ => ?_⟩
    obtain rfl := Option.some.inj (hget.symm.trans hr')
    exact hs

/-- Settles O30: READ_FRAME alone sets EOS. -/
theorem eosExactlyAtTheEnd : Obligations.EosExactlyAtTheEnd :=
  ⟨fun _ _ h => readFrame_eos (commandEnd_of_next rfl h),
    fun _ _ _ hc hi h => (commandEnd_of_next hc h).reports.eos hi⟩

/-! ## Proofs: the header's errors (R222, R310) -/

/-- Settles O49: the header's tests are taken one by one, in their order. -/
theorem headerErrorsInTheirOrder : Obligations.HeaderErrorsInTheirOrder := by
  intro f
  refine ⟨fun h => ?magic, fun flg bd hl hflg hbd hhl hmagic => ?_⟩
  case magic =>
    rw [parseHeader]
    by_cases h1 : f.length < 4 ∨ leNat (f.take 4) ≠ Config.magic
    · exact if_pos h1
    · exact (if_neg h1).trans (if_pos (h.resolve_left (fun hlt => h1 (.inl hlt)) |>.resolve_left fun hne => h1 (.inr hne)))
  have hflg' : f.getD 4 0#8 = flg := by rw [List.getD_eq_getElem?_getD, hflg, Option.getD_some]
  have hbd' : f.getD 5 0#8 = bd := by rw [List.getD_eq_getElem?_getD, hbd, Option.getD_some]
  have hlen : 5 < f.length := (List.getElem?_eq_some_iff.mp hbd).1
  have hmagic' : ¬ (f.length < 4 ∨ leNat (f.take 4) ≠ Config.magic) := by
    rw [not_or]
    exact ⟨by omega, not_not.mpr hmagic⟩
  have hparse : parseHeader f = _ := (if_neg hmagic').trans (if_neg (by omega))
  rw [hflg', hbd', show hdrLen (flg.getLsbD 3) (flg.getLsbD 0) = hl from hhl.symm] at hparse
  refine ⟨fun hshort => hparse.trans (if_pos hshort), fun c hle hc => ?_⟩
  have hc' : f.getD (hl - 1) 0#8 = c := by rw [List.getD_eq_getElem?_getD, hc, Option.getD_some]
  have hslice : slice f 4 (hl - 1) = (f.take (hl - 1)).drop 4 := List.drop_take.symm
  rw [hc', hslice, if_neg (Nat.not_lt.mpr hle)] at hparse
  refine ⟨fun hne => hparse.trans (if_pos hne), fun heq => ?_⟩
  rw [if_neg (not_not.mpr heq)] at hparse
  rw [hparse]
  by_cases hlegal : headerLegal flg bd
  · rw [if_neg (not_not.mpr hlegal)]
    exact iff_of_false nofun (not_not.mpr hlegal)
  · rw [if_pos hlegal]
    exact iff_of_true rfl hlegal

end Sys2Proof.Machine

namespace Sys2Proof.Machine

/-! ## Proofs: a frame run one element at a step (R350) -/

/-! ### The element readers on the bytes from a place on -/

section ReadAt
variable {f : List Byte} {k n : Nat}

theorem decodeLE_drop_of_room (g : Nat → Instr) (h : n + k ≤ f.length) :
    decodeLE g k (f.drop n) = .ok (g (leNat ((f.drop n).take k)), f.drop (n + k)) := by
  rw [decodeLE, takeLE, if_neg (by rw [List.length_drop]; omega), List.drop_drop]

theorem decodeLE_drop_of_truncated (g : Nat → Instr) (h : f.length < n + k) (hk : 0 < k) :
    decodeLE g k (f.drop n) = .error .truncated := by
  rw [decodeLE, takeLE, if_pos (by rw [List.length_drop]; omega)]

theorem decodeRun_drop_of_room (g : List Byte → Instr) (h : n + k ≤ f.length) :
    decodeRun g k (f.drop n) = .ok (g ((f.drop n).take k), f.drop (n + k)) := by
  rw [decodeRun, if_neg (by rw [List.length_drop]; omega), List.drop_drop]

theorem decodeByte_drop (g : Byte → Instr) (h : n < f.length) : decodeByte g (f.drop n) = .ok (g f[n], f.drop (n + 1)) := by
  rw [List.drop_eq_getElem_cons h]
  rfl

end ReadAt

/-! ### A frame run and the reader's steps (R251, R256) -/

/-- The frame run of `s` at position `p` with the reader's working state `t`. -/
def frameAt (s : State) (p : Pos) (t : ReadWork) : State := goOn p (putStreamWork t s)

/-- The frame run of `s` has raised `e` after the header with the working state `t`: its context is Failed (R259). -/
def frameRaised (s : State) (e : ErrCode) (t : ReadWork) : State :=
  { putStreamWork t s with stream := { s.stream with
      pos := .idle, verdict := .raised e, reader := { t.reader with state := .failed }, content := t.out } }

/-- The frame run of `s` has returned with the working state `t`. -/
def frameReturned (s : State) (t : ReadWork) : State := streamReturn (putStreamWork t s)

/-- The staged content is handed over at once, as a frame run does (log entry 22). -/
def ReadWork.handOver (t : ReadWork) : ReadWork :=
  { t with reader := { t.reader with stage := [] }, out := t.out ++ t.reader.stage }

section FrameRun
variable {s : State} {t : ReadWork}

@[simp] theorem frameAt_pos (s : State) (p : Pos) (t : ReadWork) : (frameAt s p t).stream.pos = p := rfl
@[simp] theorem frameAt_reader (s : State) (p : Pos) (t : ReadWork) : (frameAt s p t).stream.reader = t.reader := rfl
@[simp] theorem frameAt_input (s : State) (p : Pos) (t : ReadWork) : (frameAt s p t).stream.input = s.stream.input := rfl
@[simp] theorem streamWork_frameAt (s : State) (p : Pos) (t : ReadWork) : streamWork (frameAt s p t) = t := rfl
@[simp] theorem putStreamWork_frameAt (s : State) (p : Pos) (t u : ReadWork) :
    putStreamWork u (frameAt s p t) = frameAt s p u := rfl
@[simp] theorem advanceRun_frameAt (s : State) (p : Pos) (t : ReadWork) (n : Nat) :
    advanceRun n (frameAt s p t) = frameAt s p (t.advance n) := rfl
@[simp] theorem goOn_frameAt (s : State) (p q : Pos) (t : ReadWork) : goOn q (frameAt s p t) = frameAt s q t := rfl
@[simp] theorem streamReturn_frameAt (s : State) (p : Pos) (t : ReadWork) :
    streamReturn (frameAt s p t) = frameReturned s t := rfl
@[simp] theorem finishRunFrame_frameAt (s : State) (p : Pos) (t : ReadWork) :
    finishRunFrame (frameAt s p t) = .next (frameReturned s (t.setState .ended)) := rfl

theorem frameAt_streamWork (h : s.stream.pos = .block) : frameAt s .block (streamWork s) = s := by
  rw [← h]
  rfl

theorem raiseFrame_frameAt (p : Pos) (e : ErrCode) (h : t.reader.state ≠ .header) :
    raiseFrame e (frameAt s p t) = frameRaised s e t := by
  simp [raiseFrame, frameAt, frameRaised, goOn, putStreamWork, h]

theorem fetchBytes_frameAt {p : Pos} (hb : p.inBlock = false) :
    fetchBytes (frameAt s p t) = s.stream.input.drop t.reader.rip := by
  have hb' : ¬ (frameAt s p t).stream.pos.inBlock = true := ne_true_of_eq_false hb
  rw [fetchBytes, if_neg hb']
  rfl

/-- The step of a run whose next element is there. -/
theorem step_frameAt_of_decode (p : Pos) {i : Instr} {rest : List Byte} (hp : p ≠ .idle) (hb : p.inBlock = false)
    (h : decode (fetchAt (frameAt s p t)) (s.stream.input.drop t.reader.rip) = .ok (i, rest)) :
    step (frameAt s p t) = exec i (frameAt s p t) := step_of_decode hp ((congrArg _ (fetchBytes_frameAt hb)).trans h)

/-- The step of a run whose bytes end before its next element. -/
theorem step_frameAt_of_reject (p : Pos) {e : Reject} (hp : p ≠ .idle) (hb : p.inBlock = false)
    (hs : t.reader.state ≠ .header)
    (h : decode (fetchAt (frameAt s p t)) (s.stream.input.drop t.reader.rip) = .error e) :
    step (frameAt s p t) = .next (frameRaised s .corruptedInput t) := by
  have hb' : ¬ (frameAt s p t).stream.pos.inBlock = true := ne_true_of_eq_false hb
  rw [step_of_reject hp ((congrArg _ (fetchBytes_frameAt hb)).trans h), rejectElement, if_neg hb', raiseFrame_frameAt p _ hs]

/-- The run after a reader's step: at position `p`, or raised. -/
def afterReadStep (s : State) (p : Pos) : ReadStep → State
  | .ok u => frameAt s p u
  | .error (e, u) => frameRaised s e u

/-- The run after a reader's step that completes a block, its content handed over, or raised. -/
def afterBlockStep (s : State) : ReadStep → State
  | .ok u => frameAt s .block u.handOver
  | .error (e, u) => frameRaised s e u

/-- The run after a reader's step that completes the frame, or raised. -/
def afterFrameStep (s : State) : ReadStep → State
  | .ok u => frameReturned s u
  | .error (e, u) => frameRaised s e u

/-- A complete block of a run is what the reader makes of it (R251, R257). -/
theorem finishRunBlock_frameAt (p : Pos) (hs : t.reader.state ≠ .header)
    (hpay : t.blk.payload.length ≤ blockMax t.reader.finfo.bsclass.toNat)
    (htotal : t.reader.total + blockMax t.reader.finfo.bsclass.toNat < 2 ^ 64) :
    finishRunBlock (frameAt s p t) = .next (afterBlockStep s t.finishBlock) := by
  unfold ReadWork.finishBlock
  cases hc : t.decodeContent with
  | error d =>
    refine (finishRunBlock_of_error (s := frameAt s p t) hc hs).trans ?_
    rfl
  | ok x =>
    have hlen := length_decodeContent_le hpay hc
    refine (finishRunBlock_of_ok (s := frameAt s p t) (c := x.1) (d := x.2) hc ?_).trans ?_
    · exact (Nat.add_le_add_left hlen _).trans_lt htotal
    · rfl

/-- BLKHDR in a run (R251). -/
theorem step_blkhdr (hs : t.reader.state ≠ .header) (hin : t.reader.rip + 4 ≤ s.stream.input.length)
    (h0 : t.word s.stream.input ≠ 0) :
    step (frameAt s .block t) = .next (afterReadStep s .payload ((t.advance 4).openBlock s.stream.input.length
      (decide (2147483648 ≤ t.word s.stream.input)) (t.word s.stream.input % 2147483648))) := by
  rw [step_frameAt_of_decode .block nofun rfl (decodeLE_drop_of_room decodeSizeWord hin), decodeSizeWord,
    if_neg (show leNat ((s.stream.input.drop t.reader.rip).take 4) ≠ 0 from h0), exec, execBlkhdr,
    frameElement_of_room (frameAt_pos s .block t) hin, BitVec.toNat_ofNat]
  rcases openBlock_cases (t.advance 4) s.stream.input.length (decide (2147483648 ≤ t.word s.stream.input))
    (t.word s.stream.input % 2147483648) with ⟨-, -, ho⟩ | ho
  · rw [ho]
    exact afterRead_of_ok ho
  · rw [ho]
    exact (afterRead_of_error ho).trans (congrArg Host.Outcome.next (raiseFrame_frameAt .block _ hs))

/-- PAYLOAD in a run: its checksum comes next, or the block is complete (R251). -/
theorem step_payload {pay : List Byte} (hin : t.reader.rip + t.blk.size ≤ s.stream.input.length)
    (hpay : (s.stream.input.drop t.reader.rip).take t.blk.size = pay) :
    step (frameAt s .payload t) = if t.reader.finfo.bcsum then .next (frameAt s .blksum (t.takePayload pay))
      else finishRunBlock (frameAt s .payload (t.takePayload pay)) := by
  have hlen : pay.length = t.blk.size := by
    rw [← hpay, List.length_take, List.length_drop]
    omega
  refine (step_frameAt_of_decode .payload nofun rfl (decodeRun_drop_of_room Instr.payload hin)).trans ?_
  refine (congrArg (fun l => exec (.payload l) (frameAt s .payload t)) hpay).trans ?_
  exact exec_payload_of_room (s := frameAt s .payload t) rfl hlen hin

/-- BLKSUM in a run: the reader's verdict on it completes the block, or raises (R253). -/
theorem step_blksum (hs : t.reader.state ≠ .header) (hb : t.reader.finfo.bcsum = true)
    (hin : t.reader.rip + 4 ≤ s.stream.input.length)
    (hpay : t.blk.payload.length ≤ blockMax t.reader.finfo.bsclass.toNat)
    (htotal : t.reader.total + blockMax t.reader.finfo.bsclass.toNat < 2 ^ 64) :
    step (frameAt s .blksum t) = .next (afterBlockStep s
      (match t.checkBlksum s.stream.input with
        | .error e => .error e
        | .ok u => u.finishBlock)) := by
  have hroom : ¬ runTruncated 4 (frameAt s .blksum t) := Nat.not_lt.mpr hin
  rw [step_frameAt_of_decode .blksum nofun rfl
    (decodeLE_drop_of_room (fun v => Instr.blksum (BitVec.ofNat 32 v)) hin), exec, execBlksum,
    atPos_of_pos (frameAt_pos s .blksum t), if_neg hroom]
  have hsum := checkBlksum_cases s.stream.input t
  rw [checkBlksum_of_true hb] at hsum ⊢
  rcases hsum with hsum | hsum <;> rw [hsum]
  · exact (afterRead_of_ok hsum).trans (finishRunBlock_frameAt (t := t.advance _) .blksum hs hpay htotal)
  · exact (afterRead_of_error hsum).trans
      (congrArg Host.Outcome.next (raiseFrame_frameAt (t := t.advance _) .blksum _ hs))

/-- PAYLOAD and, where the frame has it, BLKSUM in a run (R251 to R255). -/
theorem steps_payload (hs : t.reader.state ≠ .header) (hmax : t.blk.size ≤ blockMax t.reader.finfo.bsclass.toNat)
    (hin : t.reader.rip + t.blk.size + 4 * t.reader.finfo.bcsum.toNat ≤ s.stream.input.length)
    (htotal : t.reader.total + blockMax t.reader.finfo.bsclass.toNat < 2 ^ 64) :
    Steps (frameAt s .payload t) (afterBlockStep s
      (match (t.takePayload ((s.stream.input.drop t.reader.rip).take t.blk.size)).checkBlksum s.stream.input with
        | .error e => .error e
        | .ok u => u.finishBlock)) := by
  have hstep := step_payload (s := s) (t := t) (by omega) rfl
  have hpay : ((s.stream.input.drop t.reader.rip).take t.blk.size).length ≤ blockMax t.reader.finfo.bsclass.toNat :=
    (List.length_take_le _ _).trans hmax
  generalize (s.stream.input.drop t.reader.rip).take t.blk.size = pay at hstep hpay ⊢
  cases hb : t.reader.finfo.bcsum with
  | false =>
    rw [if_neg (ne_true_of_eq_false hb)] at hstep
    rw [checkBlksum_of_false (t := t.takePayload pay) hb]
    exact Steps.single (hstep.trans (finishRunBlock_frameAt (t := t.takePayload pay) .payload hs hpay htotal))
  | true =>
    rw [if_pos hb] at hstep
    rw [hb] at hin
    exact Steps.head hstep (Steps.single (step_blksum (t := t.takePayload pay) hs hb hin hpay htotal))

/-- A block of a run, one element at a step (R251). -/
theorem steps_block (hs : t.reader.state ≠ .header) (hin : t.reader.rip + 4 ≤ s.stream.input.length)
    (h0 : t.word s.stream.input ≠ 0) (htotal : t.reader.total + blockMax t.reader.finfo.bsclass.toNat < 2 ^ 64) :
    Steps (frameAt s .block t) (afterBlockStep s ((t.advance 4).block s.stream.input (t.word s.stream.input))) := by
  have hstep := step_blkhdr hs hin h0
  unfold ReadWork.block
  rcases openBlock_cases (t.advance 4) s.stream.input.length (decide (2147483648 ≤ t.word s.stream.input))
    (t.word s.stream.input % 2147483648) with ⟨hmax, hroom, ho⟩ | ho <;> rw [ho] at hstep ⊢
  · exact Steps.head hstep (steps_payload hs hmax hroom htotal)
  · exact Steps.single hstep

/-- CSUM in a run, or its missing bytes (R256). -/
theorem step_csum (hc : t.reader.finfo.ccsum = true) :
    step (frameAt s .csum (t.setState .contentChecksum)) = .next (afterFrameStep s
      (match t.checkCsum s.stream.input with
        | .error e => .error e
        | .ok u => .ok (u.setState .ended))) := by
  rcases Nat.lt_or_ge s.stream.input.length (t.reader.rip + 4) with htrunc | hin
  · have hmissing : t.checkCsum s.stream.input = .error (.corruptedInput, t) := (if_pos hc).trans (if_pos htrunc)
    rw [hmissing]
    exact step_frameAt_of_reject (t := t.setState .contentChecksum) .csum nofun rfl nofun
      (decodeLE_drop_of_truncated _ htrunc (by decide))
  · have hroom : ¬ runTruncated 4 (frameAt s .csum (t.setState .contentChecksum)) := Nat.not_lt.mpr hin
    rw [step_frameAt_of_decode (t := t.setState .contentChecksum) .csum nofun rfl
      (decodeLE_drop_of_room (fun v => Instr.csum (BitVec.ofNat 32 v)) hin), exec, execCsum,
      atPos_of_pos (frameAt_pos s .csum _), if_neg hroom, checkCsum_of_true hc hin, streamWork_frameAt]
    change afterRead ((t.setState .contentChecksum).takeCsum (BitVec.ofNat 32 (t.word s.stream.input))) _ _ = _
    by_cases hsum : BitVec.ofNat 32 (t.word s.stream.input) = Config.hash32 t.reader.acc
    · have hgood : (t.setState .contentChecksum).takeCsum (Config.hash32 t.reader.acc) = .ok _ :=
        takeCsum_of_eq (t := t.setState .contentChecksum)
      rw [hsum, takeCsum_of_eq, afterRead_of_ok hgood, putStreamWork_frameAt, finishRunFrame_frameAt]
      rfl
    · have hbad := takeCsum_of_ne (t := t.setState .contentChecksum) hsum
      rw [takeCsum_of_ne hsum, afterRead_of_error hbad, putStreamWork_frameAt,
        raiseFrame_frameAt (t := (t.setState .contentChecksum).advance 4) _ _ nofun]
      rfl

/-- ENDMARK in a run: the reader's verdict on the size; then CSUM comes next, or the frame has ended (R256). -/
theorem step_endmark (hs : t.reader.state ≠ .header) (hin : t.reader.rip + 4 ≤ s.stream.input.length)
    (h0 : t.word s.stream.input = 0) :
    step (frameAt s .block t) =
      match (t.advance 4).checkSize with
      | .error (e, u) => .next (frameRaised s e u)
      | .ok u => if u.reader.finfo.ccsum then .next (frameAt s .csum (u.setState .contentChecksum))
        else .next (frameReturned s (u.setState .ended)) := by
  have h0' : leNat ((s.stream.input.drop t.reader.rip).take 4) = 0 := h0
  rw [step_frameAt_of_decode .block nofun rfl (decodeLE_drop_of_room decodeSizeWord hin), decodeSizeWord, if_pos h0', exec,
    execEndmark, frameElement_of_room (frameAt_pos s .block t) hin, advanceRun_frameAt, streamWork_frameAt]
  rcases checkSize_cases (t.advance 4) with hsize | hsize
  · rw [afterRead_of_ok hsize, hsize, putStreamWork_frameAt, putStreamWork_frameAt, goOn_frameAt,
      finishRunFrame_frameAt]
    rfl
  · rw [afterRead_of_error hsize, hsize, putStreamWork_frameAt, raiseFrame_frameAt (t := t.advance 4) _ _ hs]

/-- The trailer of a run, one element at a step (R256). -/
theorem steps_trailer (hs : t.reader.state ≠ .header) (hin : t.reader.rip + 4 ≤ s.stream.input.length)
    (h0 : t.word s.stream.input = 0) :
    Steps (frameAt s .block t) (afterFrameStep s ((t.advance 4).trailer s.stream.input)) := by
  have hstep := step_endmark hs hin h0
  unfold ReadWork.trailer
  rcases checkSize_cases (t.advance 4) with hsize | hsize <;> rw [hsize] at hstep ⊢
  case inr => exact Steps.single hstep
  dsimp only at hstep ⊢
  generalize t.advance 4 = u at hstep ⊢
  cases hc : u.reader.finfo.ccsum with
  | false =>
    rw [if_neg (ne_true_of_eq_false hc)] at hstep
    rw [checkCsum_of_false hc]
    exact Steps.single hstep
  | true =>
    rw [if_pos hc] at hstep
    exact Steps.head hstep (Steps.single (step_csum hc))

/-- A step of the reader that goes on leaves its STATE as it was. -/
def ReadStep.KeepsState (f : FrameState) (r : ReadStep) : Prop := ∀ u, r = .ok u → u.reader.state = f

theorem block_keepsState (f : List Byte) (w : Nat) (t : ReadWork) :
    ReadStep.KeepsState t.reader.state (t.block f w) := by
  unfold ReadWork.block
  rcases openBlock_cases t f.length (decide (2147483648 ≤ w)) (w % 2147483648) with ⟨-, -, ho⟩ | ho <;> rw [ho]
  case inr => exact nofun
  dsimp only
  generalize hv : ReadWork.takePayload _ _ = v
  have hstate : v.reader.state = t.reader.state := by rw [← hv]; rfl
  rcases checkBlksum_cases f v with hsum | hsum <;> rw [hsum]
  case inr => exact nofun
  intro u hu
  dsimp only [ReadWork.finishBlock] at hu
  split at hu
  · exact nomatch hu
  · exact Except.ok.inj hu ▸ hstate

theorem trailer_ends {f : List Byte} {t u : ReadWork} (h : t.trailer f = .ok u) : u.reader.state = .ended := by
  unfold ReadWork.trailer at h
  split at h
  · exact nomatch h
  · split at h
    · exact nomatch h
    · exact Except.ok.inj h ▸ rfl

/-- The next block of a run, one element at a step, is the reader's NextBlock: an error, the frame's end, or a block. -/
theorem steps_nextBlock (hs : t.reader.state = .blocks)
    (htotal : t.reader.total + blockMax t.reader.finfo.bsclass.toNat < 2 ^ 64) :
    match nextBlock s.stream.input t with
    | .ok u => (u.reader.state = .blocks ∧ Steps (frameAt s .block t) (frameAt s .block u.handOver)) ∨
        (u.reader.state = .ended ∧ Steps (frameAt s .block t) (frameReturned s u))
    | .error (e, u) => Steps (frameAt s .block t) (frameRaised s e u) := by
  have hs' : t.reader.state ≠ .header := by simp [hs]
  unfold nextBlock
  split_ifs with htrunc h0
  · exact Steps.single (step_frameAt_of_reject .block nofun rfl hs' (decodeLE_drop_of_truncated _ htrunc (by decide)))
  · have hrun := steps_trailer hs' (Nat.le_of_not_lt htrunc) h0
    cases ht : (t.advance 4).trailer s.stream.input with
    | error e => rw [ht] at hrun; exact hrun
    | ok u => rw [ht] at hrun; exact .inr ⟨trailer_ends ht, hrun⟩
  · have hrun := steps_block hs' (Nat.le_of_not_lt htrunc) h0 htotal
    cases hb : (t.advance 4).block s.stream.input (t.word s.stream.input) with
    | error e => rw [hb] at hrun; exact hrun
    | ok u => rw [hb] at hrun; exact .inl ⟨(block_keepsState _ _ _ u hb).trans hs, hrun⟩

end FrameRun

/-- Settles O56: the run's elements are NextBlock's steps; what has been gathered is not touched until the hand-over. -/
theorem blockRunIsNextBlock : Obligations.BlockRunIsNextBlock := by
  intro s hp hs _ htotal
  have hrun := steps_nextBlock (s := s) (t := streamWork s) hs htotal
  have hplain := nextBlock_plain s.stream.input (streamWork s)
  rw [frameAt_streamWork hp] at hrun
  refine ⟨fun u hu => ?_, fun e u hu => ?_⟩
  · rw [show nextBlock s.stream.input (streamWork s) = .ok u from hu] at hrun hplain
    have hout : u.out = s.stream.content := hplain
    rcases hrun with ⟨hblocks, k, hk⟩ | ⟨hended, k, hk⟩
    · refine ⟨k, _, hk, rfl, rfl, .inl ⟨hblocks, ?_⟩⟩
      rw [← hout, ← hp]
      rfl
    · refine ⟨k, _, hk, rfl, rfl, .inr ⟨hended, ?_⟩⟩
      simp only [frameReturned, streamReturn, putStreamWork, hout]
  · rw [show nextBlock s.stream.input (streamWork s) = .error (e, u) from hu] at hrun hplain
    obtain ⟨k, hk⟩ := hrun
    obtain ⟨-, hout⟩ := hplain
    refine ⟨k, _, hk, ?_⟩
    simp only [frameRaised, hout, streamWork]

end Sys2Proof.Machine

namespace Sys2Proof.Machine

/-! ## Proofs: the header of a frame run (R222, R248) -/

/-- The frame run of `s` in its header, at position `p` and byte `n`, with the header's names `h`. -/
def headerAt (s : State) (p : Pos) (n : Nat) (h : HdrRegs) : State :=
  { s with hdr := h, stream := { s.stream with pos := p, reader := { s.stream.reader with rip := n } } }

/-- How a header's run on the bytes `f` has ended: the blocks begin with its fields, or its error has been raised and no context
taken (R222, R248). -/
def HeaderEnd (f : List Byte) (r : Except ErrCode FinfoRegs) (t : State) : Prop :=
  match r with
  | .ok h => t.stream.pos = .block ∧ t.stream.input = f ∧ t.stream.content = [] ∧
      t.stream.reader = { runReader with state := .blocks, finfo := h, rip := h.hdrlen.toNat }
  | .error e => t.stream.pos = .idle ∧ t.stream.verdict = .raised e ∧ t.stream.reader.state = .closed

section HeaderRun
variable {s : State} {p : Pos} {n : Nat} {h : HdrRegs}

@[simp] theorem headerAt_pos (s : State) (p : Pos) (n : Nat) (h : HdrRegs) : (headerAt s p n h).stream.pos = p := rfl

theorem fetchBytes_headerAt (hb : p.inBlock = false) : fetchBytes (headerAt s p n h) = s.stream.input.drop n := by
  have hb' : ¬ (headerAt s p n h).stream.pos.inBlock = true := ne_true_of_eq_false hb
  rw [fetchBytes, if_neg hb']
  rfl

/-- The step of a header's run whose next element is there. -/
theorem step_headerAt_of_decode (p : Pos) {i : Instr} {rest : List Byte} (hp : p ≠ .idle) (hb : p.inBlock = false)
    (hd : decode (fetchAt (headerAt s p n h)) (s.stream.input.drop n) = .ok (i, rest)) :
    step (headerAt s p n h) = exec i (headerAt s p n h) := step_of_decode hp ((congrArg _ (fetchBytes_headerAt hb)).trans hd)

/-- A header's run that raises takes no context (R248). -/
theorem headerEnd_raiseFrame {f : List Byte} {t : State} (e : ErrCode) (ht : t.stream.reader.state = .header) :
    HeaderEnd f (.error e) (raiseFrame e t) := ⟨rfl, rfl, if_pos ht⟩

/-- The step of a header's run whose bytes end before its next element, or hold no MAGIC. -/
theorem headerEnd_of_reject (p : Pos) {f : List Byte} {e : Reject} (hs : s.stream.reader.state = .header) (hp : p ≠ .idle)
    (hb : p.inBlock = false) (hd : decode (fetchAt (headerAt s p n h)) (s.stream.input.drop n) = .error e) :
    ∃ t, Steps (headerAt s p n h) t ∧ HeaderEnd f (.error .corruptedInput) t := by
  have hb' : ¬ (headerAt s p n h).stream.pos.inBlock = true := ne_true_of_eq_false hb
  have hstep := step_of_reject hp ((congrArg _ (fetchBytes_headerAt hb)).trans hd)
  rw [rejectElement, if_neg hb'] at hstep
  exact ⟨_, Steps.single hstep, headerEnd_raiseFrame _ hs⟩

/-- MAGIC (R102). -/
theorem step_magic (hin : 4 ≤ s.stream.input.length) (hm : leNat (s.stream.input.take 4) = Config.magic) :
    step (headerAt s .magic 0 h) = .next (headerAt s .flg 4 h) := by
  have hd : decodeMagic (s.stream.input.drop 0) = .ok (.magic, s.stream.input.drop 4) := by
    rw [List.drop_zero, decodeMagic, takeLE, if_neg (Nat.not_lt.mpr hin)]
    exact if_pos hm
  obtain ⟨hexec, -⟩ := headerElementsAreRecorded (headerAt s .magic 0 h) 0#8 0#64 0#32
  rw [step_headerAt_of_decode .magic nofun rfl hd, hexec rfl (by simpa [headerAt] using hin)]
  rfl

/-- FLG, when BD follows it (R104). -/
theorem step_flg (hin : n + 2 ≤ s.stream.input.length) :
    step (headerAt s .flg n h) =
      .next (headerAt s .bd (n + 1) { h with flg := s.stream.input[n] }) := by
  obtain ⟨-, hexec, -⟩ := headerElementsAreRecorded (headerAt s .flg n h) s.stream.input[n] 0#64 0#32
  rw [step_headerAt_of_decode .flg nofun rfl (decodeByte_drop Instr.flg (by omega)), hexec rfl hin]
  rfl

/-- BD, when the rest of the header follows it (R105, R109). -/
theorem step_bd (hin : n + 2 + 8 * (h.flg.getLsbD 3).toNat + 4 * (h.flg.getLsbD 0).toNat ≤ s.stream.input.length) :
    step (headerAt s .bd n h) =
      .next (headerAt s (afterBd h.flg) (n + 1) { h with bd := s.stream.input[n], csize := 0#64, dictid := 0#32 }) := by
  obtain ⟨-, -, hexec, -⟩ := headerElementsAreRecorded (headerAt s .bd n h) s.stream.input[n] 0#64 0#32
  rw [step_headerAt_of_decode .bd nofun rfl (decodeByte_drop Instr.bd (by omega)), hexec rfl hin]
  rfl

/-- A little-endian field stands as the bytes of its value (R68). -/
theorem drop_eq_field {f : List Byte} {m k n : Nat} (hm : 2 ^ m = 256 ^ k) (hin : n + k ≤ f.length) :
    f.drop n = leBytes k (BitVec.ofNat m (leNat ((f.drop n).take k))).toNat ++ f.drop (n + k) := by
  have hlen : ((f.drop n).take k).length = k := by
    rw [List.length_take, List.length_drop]
    omega
  have hlt := leNat_lt ((f.drop n).take k)
  have hbytes := leBytes_leNat ((f.drop n).take k)
  rw [hlen] at hlt hbytes
  rw [leBytes_ofNat hm hlt, hbytes, ← List.drop_drop, List.take_append_drop]

/-- CSIZE, where FLG announces it (R106). -/
theorem steps_csize (hin : n + 8 * (h.flg.getLsbD 3).toNat ≤ s.stream.input.length) :
    ∃ v, Steps (headerAt s (afterBd h.flg) n h)
        (headerAt s (afterCsize h.flg) (n + 8 * (h.flg.getLsbD 3).toNat) { h with csize := v }) ∧
      s.stream.input.drop n = (if h.flg.getLsbD 3 then leBytes 8 v.toNat else []) ++
        s.stream.input.drop (n + 8 * (h.flg.getLsbD 3).toNat) := by
  unfold afterBd
  cases hc : h.flg.getLsbD 3 with
  | false => exact ⟨h.csize, Steps.refl _, rfl⟩
  | true =>
    rw [hc] at hin
    refine ⟨_, Steps.single ?_, drop_eq_field (m := 64) (by norm_num) hin⟩
    obtain ⟨-, -, -, hexec, -⟩ := headerElementsAreRecorded (headerAt s .csize n h) 0#8
      (BitVec.ofNat 64 (leNat ((s.stream.input.drop n).take 8))) 0#32
    rw [if_pos rfl, step_headerAt_of_decode .csize nofun rfl
      (decodeLE_drop_of_room (fun v => Instr.csize (BitVec.ofNat 64 v)) hin), hexec rfl hin]
    rfl

/-- DICTID, where FLG announces it (R107). -/
theorem steps_dictid (hin : n + 4 * (h.flg.getLsbD 0).toNat ≤ s.stream.input.length) :
    ∃ v, Steps (headerAt s (afterCsize h.flg) n h)
        (headerAt s .hc (n + 4 * (h.flg.getLsbD 0).toNat) { h with dictid := v }) ∧
      s.stream.input.drop n = (if h.flg.getLsbD 0 then leBytes 4 v.toNat else []) ++
        s.stream.input.drop (n + 4 * (h.flg.getLsbD 0).toNat) := by
  unfold afterCsize
  cases hc : h.flg.getLsbD 0 with
  | false => exact ⟨h.dictid, Steps.refl _, rfl⟩
  | true =>
    rw [hc] at hin
    refine ⟨_, Steps.single ?_, drop_eq_field (m := 32) (by norm_num) hin⟩
    obtain ⟨-, -, -, -, hexec⟩ := headerElementsAreRecorded (headerAt s .dictid n h) 0#8 0#64
      (BitVec.ofNat 32 (leNat ((s.stream.input.drop n).take 4)))
    rw [if_pos rfl, step_headerAt_of_decode .dictid nofun rfl
      (decodeLE_drop_of_room (fun v => Instr.dictid (BitVec.ofNat 32 v)) hin), hexec rfl hin]
    rfl

/-- FLG without BD behind it, or no FLG at all (R222). -/
theorem headerEnd_of_flg_truncated {f : List Byte} (hs : s.stream.reader.state = .header)
    (hin : s.stream.input.length < n + 2) :
    ∃ t, Steps (headerAt s .flg n h) t ∧ HeaderEnd f (.error .corruptedInput) t := by
  rcases Nat.lt_or_ge n s.stream.input.length with hlt | hge
  · have htrunc : runTruncated 2 (headerAt s .flg n h) := hin
    have hstep := step_headerAt_of_decode (s := s) (h := h) .flg nofun rfl (decodeByte_drop Instr.flg hlt)
    rw [exec, execFlg, atPos_of_pos (headerAt_pos s .flg n h), if_pos htrunc] at hstep
    exact ⟨_, Steps.single hstep, headerEnd_raiseFrame _ hs⟩
  · refine headerEnd_of_reject (e := .truncated) .flg hs nofun rfl ?_
    rw [List.drop_of_length_le hge]
    rfl

/-- BD without the rest of the header behind it (R222). -/
theorem headerEnd_of_bd_truncated {f : List Byte} (hs : s.stream.reader.state = .header) (hbd : n < s.stream.input.length)
    (hin : s.stream.input.length < n + 2 + 8 * (h.flg.getLsbD 3).toNat + 4 * (h.flg.getLsbD 0).toNat) :
    ∃ t, Steps (headerAt s .bd n h) t ∧ HeaderEnd f (.error .corruptedInput) t := by
  have htrunc : runTruncated (hdrLen (h.flg.getLsbD 3) (h.flg.getLsbD 0) - 6) (advanceRun 1 (headerAt s .bd n h)) := by
    show s.stream.input.length < n + 1 + _
    rw [hdrLen]
    omega
  have hstep := step_headerAt_of_decode (s := s) (h := h) .bd nofun rfl (decodeByte_drop Instr.bd hbd)
  rw [exec, execBd, frameElement_of_room (headerAt_pos s .bd n h) hbd] at hstep
  exact ⟨_, Steps.single (hstep.trans (if_pos htrunc)), headerEnd_raiseFrame _ hs⟩

/-- The rest of a header's run once FLG and BD are read: the names hold what the descriptor was made of (R103). -/
theorem steps_descriptor {flg bd : Byte} (hflg : h.flg = flg) (hbd : h.bd = bd)
    (hdrop : s.stream.input.drop 4 = flg :: bd :: s.stream.input.drop 6)
    (hin : hdrLen (flg.getLsbD 3) (flg.getLsbD 0) ≤ s.stream.input.length) :
    ∃ csize dictid, Steps (headerAt s (afterBd flg) 6 h) (headerAt s .hc (hdrLen (flg.getLsbD 3) (flg.getLsbD 0) - 1)
        { flg := flg, bd := bd, csize := csize, dictid := dictid }) ∧
      s.stream.input.drop 4 = descriptor flg bd csize dictid ++
        s.stream.input.drop (hdrLen (flg.getLsbD 3) (flg.getLsbD 0) - 1) := by
  subst hflg hbd
  have hend : hdrLen (h.flg.getLsbD 3) (h.flg.getLsbD 0) - 1 =
      6 + 8 * (h.flg.getLsbD 3).toNat + 4 * (h.flg.getLsbD 0).toNat := by
    rw [hdrLen]
    omega
  obtain ⟨csize, hrun, hcsize⟩ := steps_csize (s := s) (n := 6) (h := h) (by omega)
  obtain ⟨dictid, hrun', hdictid⟩ := steps_dictid (s := s) (n := 6 + 8 * (h.flg.getLsbD 3).toNat)
    (h := { h with csize := csize }) (by dsimp only; omega)
  rw [hend]
  refine ⟨csize, dictid, hrun.trans hrun', ?_⟩
  rw [hdrop, hcsize, hdictid, descriptor]
  simp only [List.append_assoc, List.cons_append, List.nil_append]

end HeaderRun

/-- The whole header's length is in its fields (R109). -/
theorem finfoOf_hdrlen (flg bd : Byte) (csize : DWord) (dictid : Word) :
    (finfoOf flg bd csize dictid).hdrlen.toNat = hdrLen (flg.getLsbD 3) (flg.getLsbD 0) := by
  have hle := hdrLen_le (flg.getLsbD 3) (flg.getLsbD 0)
  show (BitVec.ofNat 32 (hdrLen (flg.getLsbD 3) (flg.getLsbD 0))).toNat = _
  rw [BitVec.toNat_ofNat]
  omega

section Checksum
variable {f : List Byte} {flg bd : Byte} {csize : DWord} {dictid : Word}

/-- What `ParseHeader` answers when the whole header is there, with HC `c`: the checksum first, then FLG and BD (R222, R230). -/
theorem parseHeader_of_descriptor {c : Byte} {rest : List Byte} (hmagic : leNat (f.take 4) = Config.magic)
    (hdrop : f.drop 4 = descriptor flg bd csize dictid ++ c :: rest) :
    (c = hdrsum (Config.hash32 (descriptor flg bd csize dictid)) → headerLegal flg bd →
      parseHeader f = .ok (finfoOf flg bd csize dictid)) ∧
    (c ≠ hdrsum (Config.hash32 (descriptor flg bd csize dictid)) → parseHeader f = .error .checksumMismatch) ∧
    (c = hdrsum (Config.hash32 (descriptor flg bd csize dictid)) → ¬ headerLegal flg bd →
      parseHeader f = .error .corruptedInput) := by
  have hget : ∀ n, f[4 + n]? = (descriptor flg bd csize dictid ++ c :: rest)[n]? := fun n => by
    rw [← List.getElem?_drop, hdrop]
  have hlen := length_descriptor flg bd csize dictid
  have hlast : 7 + 8 * (flg.getLsbD 3).toNat + 4 * (flg.getLsbD 0).toNat - 1 =
      4 + (descriptor flg bd csize dictid).length := by omega
  have hc : f[4 + (descriptor flg bd csize dictid).length]? = some c := by
    rw [hget, List.getElem?_append_right (Nat.le_refl _), Nat.sub_self]
    rfl
  obtain ⟨hlt, -⟩ := List.getElem?_eq_some_iff.mp hc
  obtain ⟨-, htests⟩ := headerErrorsInTheirOrder f
  obtain ⟨-, hjudge⟩ := htests flg bd _ (hget 0) (hget 1) rfl hmagic
  rw [hlast] at hjudge
  obtain ⟨hbad, hgood⟩ := hjudge c (by omega) hc
  rw [List.drop_take, hdrop, Nat.add_sub_cancel_left, List.take_left] at hbad hgood
  exact ⟨fun hc hlegal => parseHeader_of_drop hmagic (hc ▸ hdrop) hlegal, hbad,
    fun hc hillegal => (hgood hc).mpr hillegal⟩

/-- HC ends the header as `ParseHeader` does. -/
theorem headerEnd_of_hc (s : State) (hmagic : leNat (f.take 4) = Config.magic)
    (hin : hdrLen (flg.getLsbD 3) (flg.getLsbD 0) ≤ f.length)
    (hdrop : f.drop 4 = descriptor flg bd csize dictid ++ f.drop (hdrLen (flg.getLsbD 3) (flg.getLsbD 0) - 1)) :
    ∃ t, Steps (headerAt (startFrameRun f s) .hc (hdrLen (flg.getLsbD 3) (flg.getLsbD 0) - 1)
        { flg := flg, bd := bd, csize := csize, dictid := dictid }) t ∧ HeaderEnd f (parseHeader f) t := by
  have hle := hdrLen_le (flg.getLsbD 3) (flg.getLsbD 0)
  have hlt : hdrLen (flg.getLsbD 3) (flg.getLsbD 0) - 1 < f.length := by omega
  obtain ⟨hparse, hparseSum, hparseLegal⟩ := parseHeader_of_descriptor hmagic
    (hdrop.trans (congrArg _ (List.drop_eq_getElem_cons hlt)))
  have hlast := finfoOf_hdrlen flg bd csize dictid
  generalize hdrLen (flg.getLsbD 3) (flg.getLsbD 0) = hl at *
  have hstep := step_headerAt_of_decode (s := startFrameRun f s) (n := hl - 1)
    (h := { flg := flg, bd := bd, csize := csize, dictid := dictid }) .hc nofun rfl (decodeByte_drop Instr.hc hlt)
  obtain ⟨hok, hsum, hillegal⟩ := headerChecksumIsVerifiedFirst (headerAt (startFrameRun f s) .hc (hl - 1)
    { flg := flg, bd := bd, csize := csize, dictid := dictid }) f[hl - 1] _ rfl rfl (Nat.succ_le_of_lt hlt) rfl
  by_cases hc : f[hl - 1] = hdrsum (Config.hash32 (descriptor flg bd csize dictid))
  · by_cases hlegal : headerLegal flg bd
    · rw [hparse hc hlegal]
      have hrip : hl - 1 + 1 = (finfoOf flg bd csize dictid).hdrlen.toNat := by omega
      exact ⟨_, Steps.single (hstep.trans (hok hc hlegal)), rfl, rfl, rfl,
        congrArg (fun n => { runReader with state := .blocks, finfo := finfoOf flg bd csize dictid, rip := n }) hrip⟩
    · rw [hparseLegal hc hlegal]
      exact ⟨_, Steps.single (hstep.trans (hillegal hc hlegal)), rfl, rfl, rfl⟩
  · rw [hparseSum hc]
    exact ⟨_, Steps.single (hstep.trans (hsum hc)), rfl, rfl, rfl⟩

end Checksum

/-- Without MAGIC the header's first step ends the run (R222). -/
theorem headerEnd_of_magic {f : List Byte} {s : State} (hs : s.stream.reader.state = .header)
    (hm : s.stream.input.length < 4 ∨ leNat (s.stream.input.take 4) ≠ Config.magic) :
    ∃ t, Steps (headerAt s .magic 0 s.hdr) t ∧ HeaderEnd f (.error .corruptedInput) t := by
  rcases Nat.lt_or_ge s.stream.input.length 4 with hlt | hge
  · refine headerEnd_of_reject (e := .truncated) .magic hs nofun rfl ?_
    show decodeMagic _ = _
    rw [List.drop_zero, decodeMagic, takeLE, if_pos hlt]
  · refine headerEnd_of_reject (e := .badMagic) .magic hs nofun rfl ?_
    show decodeMagic _ = _
    rw [List.drop_zero, decodeMagic, takeLE, if_neg (Nat.not_lt.mpr hge)]
    exact if_neg (hm.resolve_left (Nat.not_lt.mpr hge))

/-- A frame run's header comes to the end `ParseHeader` answers (R222). -/
theorem headerRun_ends (f : List Byte) (s : State) :
    ∃ t, Steps (startFrameRun f s) t ∧ HeaderEnd f (parseHeader f) t := by
  obtain ⟨hshort, hlong⟩ := headerErrorsInTheirOrder f
  have hheader : (startFrameRun f s).stream.reader.state = .header := rfl
  show ∃ t, Steps (headerAt (startFrameRun f s) .magic 0 s.hdr) t ∧ _
  by_cases hmagic : f.length < 4 ∨ leNat (f.take 4) ≠ Config.magic
  · rw [hshort (hmagic.elim .inl fun h => .inr (.inl h))]
    exact headerEnd_of_magic hheader hmagic
  obtain ⟨hlen, hmagic⟩ := not_or.mp hmagic
  rw [not_not] at hmagic
  have hrun := Steps.single (step_magic (s := startFrameRun f s) (h := s.hdr) (Nat.le_of_not_lt hlen) hmagic)
  rcases Nat.lt_or_ge f.length 6 with hlt | hge
  · rw [hshort (.inr (.inr hlt))]
    obtain ⟨t, ht, hend⟩ := headerEnd_of_flg_truncated (f := f) (h := s.hdr) (n := 4) hheader hlt
    exact ⟨t, hrun.trans ht, hend⟩
  have hrun := hrun.trans (Steps.single (step_flg (s := startFrameRun f s) (h := s.hdr) (n := 4) hge))
  obtain ⟨htrunc, -⟩ := hlong f[4] f[5] _ (List.getElem?_eq_getElem _) (List.getElem?_eq_getElem _) rfl hmagic
  have hdrop : f.drop 4 = f[4] :: f[5] :: f.drop 6 := by
    rw [List.drop_eq_getElem_cons (by omega), List.drop_eq_getElem_cons (by omega)]
  rcases Nat.lt_or_ge f.length (hdrLen (f[4].getLsbD 3) (f[4].getLsbD 0)) with hlt | hin
  · rw [htrunc hlt]
    obtain ⟨t, ht, hend⟩ := headerEnd_of_bd_truncated (s := startFrameRun f s) (f := f) (n := 5)
      (h := { s.hdr with flg := f[4] }) hheader hge hlt
    exact ⟨t, hrun.trans ht, hend⟩
  have hrun := hrun.trans (Steps.single (step_bd (s := startFrameRun f s) (n := 5) (h := { s.hdr with flg := f[4] }) hin))
  obtain ⟨csize, dictid, hdesc, hdrop⟩ := steps_descriptor (s := startFrameRun f s)
    (h := { s.hdr with flg := f[4], bd := f[5], csize := 0#64, dictid := 0#32 }) rfl rfl hdrop hin
  obtain ⟨t, ht, hend⟩ := headerEnd_of_hc s hmagic hin hdrop
  exact ⟨t, (hrun.trans hdesc).trans ht, hend⟩

/-- Settles O55: the run's elements come one by one to `ParseHeader`'s end (`headerRun_ends`). -/
theorem headerRunIsParseHeader : Obligations.HeaderRunIsParseHeader := by
  intro s f _ _
  obtain ⟨t, ⟨k, hk⟩, hend⟩ := headerRun_ends f s
  refine ⟨fun h hh => ?_, fun e he => ?_⟩
  · rw [hh] at hend
    exact ⟨k, t, hk, hend⟩
  · rw [he] at hend
    exact ⟨k, t, hk, hend⟩

end Sys2Proof.Machine

namespace Sys2Proof.Machine

/-! ## Proofs: illegal commands (R118, R273) -/

/-- Settles O14: the word is compared with the nine, and then nothing but STATUS and RESULT is written. -/
theorem illegalCommandChangesNothing : Obligations.IllegalCommandChangesNothing := by
  refine fun w s => ⟨fun hw => ?_, execIllegalCmd_invalid w s⟩
  simp only [List.mem_cons, List.not_mem_nil, or_false, not_or] at hw
  obtain ⟨h1, h2, h3, h4, h5, h6, h7, h8, h9⟩ := hw
  simp only [decodeCommand, h1, h2, h3, h4, h5, h6, h7, h8, h9, if_false]

/-! ## Proofs: InvalidArgument (R278) -/

/-- The errors of the bytes a command reads are not InvalidArgument (R272). -/
theorem ne_invalidArgument_of_frameError {e : ErrCode} (h : e = .corruptedInput ∨ e = .checksumMismatch) :
    e ≠ .invalidArgument := by
  rcases h with rfl | rfl <;> exact nofun

/-- Settles O24: of a command's ends one alone reports InvalidArgument, and that one is `rejected`. -/
theorem invalidArgumentChangesNothingElse : Obligations.InvalidArgumentChangesNothingElse := by
  intro i s t hi h herr
  cases commandEnd_of_next hi h with
  | invalid => rfl
  | badHeader e he => exact absurd herr (ne_invalidArgument_of_frameError he)
  | badFrame r u e he => exact absurd herr (ne_invalidArgument_of_frameError he)
  | _ => exact nomatch herr

/-! ## Proofs: what no command writes (R271) -/

/-- HANDLE is written by the OPEN commands only. -/
theorem CommandEnd.handle_eq {i : Instr} {s t : State} (h : CommandEnd s i t) (hw : i ≠ .openWriter)
    (hr : i ≠ .openReader) : t.regs.handle = s.regs.handle := by
  cases h with
  | openWriter => exact absurd rfl hw
  | openReader => exact absurd rfl hr
  | _ => rfl

/-- The FINFO registers are written by OPEN_READER only. -/
theorem CommandEnd.finfo_eq {i : Instr} {s t : State} (h : CommandEnd s i t) (hr : i ≠ .openReader) :
    t.regs.finfo = s.regs.finfo := by
  cases h with
  | openReader => exact absurd rfl hr
  | _ => rfl

/-- Settles O26: no end of a command writes an argument; the two frames of HANDLE and FINFO, read backwards. -/
theorem commandsNeverWriteTheirArguments : Obligations.CommandsNeverWriteTheirArguments := by
  intro i s t hi h
  have hend := commandEnd_of_next hi h
  refine ⟨hend.keeps_arguments, fun hne => ?_, fun hne => ?_⟩
  · by_contra hopen
    obtain ⟨hw, hr⟩ := not_or.mp hopen
    exact hne (hend.handle_eq hw hr)
  · by_contra hopen
    exact hne (hend.finfo_eq hopen)

end Sys2Proof.Machine

namespace Sys2Proof.Machine

/-! ## Proofs: where a wire-data run stops (R34, R350) -/

/-! ### What is read stands where it is read (R121) -/

/-- What is decoded at a position is an element of that position. -/
theorem position_of_decode {p : DecodeAt} {bs rest : List Byte} {i : Instr} (h : decode p bs = .ok (i, rest)) :
    i.position = p := by
  cases p with
  | token | llext | mlext | flg | bd | hc => obtain ⟨b, rfl, -⟩ := decodeByte_eq_ok h; rfl
  | literals n => obtain ⟨l, rfl, hlen, -⟩ := decodeRun_eq_ok h; exact congrArg DecodeAt.literals hlen
  | payload n => obtain ⟨l, rfl, hlen, -⟩ := decodeRun_eq_ok h; exact congrArg DecodeAt.payload hlen
  | offset | csize | dictid | blksum | csum => obtain ⟨v, rfl, -⟩ := decodeLE_eq_ok h; rfl
  | command => obtain ⟨v, rfl, -⟩ := decodeLE_eq_ok h; exact decodeCommand_isCommand _
  | sequence => rcases decodeSequence_eq_ok h with ⟨lit, off, ml, rfl, -⟩ | ⟨lit, mln, rfl, -⟩ <;> rfl
  | block =>
    obtain ⟨v, rfl, -⟩ := decodeLE_eq_ok h
    unfold decodeSizeWord
    split_ifs <;> rfl
  | magic =>
    simp only [decode, decodeMagic] at h
    split at h
    · exact nomatch h
    · split_ifs at h
      obtain ⟨rfl, -⟩ := Prod.mk.inj (Except.ok.inj h)
      rfl

/-- A run reads at its own position. -/
theorem posOf_fetchAt (s : State) : posOf (fetchAt s) = s.stream.pos := by
  unfold fetchAt
  cases s.stream.pos with
  | boundary => cases s.stream.grain <;> rfl
  | _ => rfl

theorem fetchBytes_of_inBlock {s : State} (h : s.stream.pos.inBlock = true) :
    fetchBytes s = s.stream.input.drop s.dec.ip := by rw [fetchBytes, if_pos h]

theorem fetchBytes_of_not_inBlock {s : State} (h : s.stream.pos.inBlock = false) :
    fetchBytes s = s.stream.input.drop s.stream.reader.rip := by rw [fetchBytes, h]; rfl

/-! ### The ends of an element (R34) -/

/-- The machine goes on. -/
def Continues (o : Host.Outcome State Fault Refusal) : Prop := ∃ t, o = .next t

theorem continues_next (t : State) : Continues (.next t) := ⟨t, rfl⟩

theorem continues_ite {c : Prop} [Decidable c] {x y : Host.Outcome State Fault Refusal} (hx : Continues x)
    (hy : Continues y) : Continues (if c then x else y) := by
  split_ifs
  · exact hx
  · exact hy

section Stops
variable {s : State} {i : Instr} {rest : List Byte}

theorem continues_atPos {p : Pos} {k : Host.Outcome State Fault Refusal} (hp : s.stream.pos = p) (h : Continues k) :
    Continues (atPos p s k) := (atPos_of_pos hp).symm ▸ h

theorem continues_afterStep (r : Except DecRegs DecRegs) (k : State → State) : Continues (afterStep r s k) := by
  cases r <;> exact continues_next _

theorem continues_finishMatch : Continues (finishMatch s) := continues_afterStep _ _

theorem continues_frameElement {p : Pos} {n : Nat} {k : State → Host.Outcome State Fault Refusal} (hp : s.stream.pos = p)
    (h : Continues (k (advanceRun n s))) : Continues (frameElement p n s k) :=
  continues_atPos hp (continues_ite (continues_next _) h)

theorem continues_afterRead (r : ReadStep) {k : State → Host.Outcome State Fault Refusal} (h : ∀ t, Continues (k t)) :
    Continues (afterRead r s k) := by
  cases r with
  | error e => exact continues_next _
  | ok t => exact h _

theorem continues_finishRunFrame : Continues (finishRunFrame s) := continues_next _

/-- The run goes on after a block, or its content brings TOTAL to 2^64 (R34). -/
theorem finishRunBlock_cases (s : State) : Continues (finishRunBlock s) ∨
    finishRunBlock s = .refused .streamTooLong ∧
      ∃ c d, runContent s s.blk.payload c d ∧ 2 ^ 64 ≤ s.stream.reader.total + c.length := by
  cases hd : (streamWork s).decodeContent with
  | error d =>
    left
    unfold finishRunBlock ReadWork.finishBlock
    rw [hd]
    exact continues_next _
  | ok x =>
    rcases Nat.lt_or_ge (s.stream.reader.total + x.1.length) Config.streamMax with ht | ht
    · exact .inl ⟨_, finishRunBlock_of_ok hd ht⟩
    · exact .inr ⟨finishRunBlock_of_tooLong hd ht, x.1, x.2, runContent_iff.mpr hd, ht⟩

/-- PAYLOAD where it stands (R111, R251). -/
theorem exec_payload_cases {bytes : List Byte} (hp : s.stream.pos = .payload) (hlen : bytes.length = s.blk.size)
    (hbytes : bytes = (s.stream.input.drop s.stream.reader.rip).take s.blk.size) :
    Continues (exec (.payload bytes) s) ∨ exec (.payload bytes) s = .refused .streamTooLong ∧ runTooLong s := by
  rcases Nat.lt_or_ge s.stream.input.length (s.stream.reader.rip + s.blk.size) with hlt | hge
  · exact .inl ⟨_, (atPos_of_pos hp).trans ((if_pos hlen).trans (if_pos hlt))⟩
  · rw [exec_payload_of_room hp hlen hge]
    cases hsum : s.stream.reader.finfo.bcsum with
    | true => exact .inl (continues_next _)
    | false =>
      exact (finishRunBlock_cases (payloadTaken bytes s)).imp_right fun ⟨hr, c, d, hc, ht⟩ =>
        ⟨hr, bytes, c, d, .inl ⟨hp, hsum, hlen, hbytes⟩, hc, ht⟩

/-- BLKSUM where it stands (R112, R253). -/
theorem exec_blksum_cases (sum : Word) (hp : s.stream.pos = .blksum) :
    Continues (exec (.blksum sum) s) ∨ exec (.blksum sum) s = .refused .streamTooLong ∧ runTooLong s := by
  rcases Nat.lt_or_ge s.stream.input.length (s.stream.reader.rip + 4) with hlt | hge
  · exact .inl ⟨_, (atPos_of_pos hp).trans (if_pos hlt)⟩
  by_cases hsum : sum = Config.hash32 s.blk.payload
  · subst hsum
    rw [exec_blksum_of_eq hp hge]
    exact (finishRunBlock_cases (advanceRun 4 s)).imp_right fun ⟨hr, c, d, hc, ht⟩ =>
      ⟨hr, _, c, d, .inr ⟨hp, rfl⟩, hc, ht⟩
  · exact .inl ⟨_, (atPos_of_pos hp).trans ((if_neg (Nat.not_lt.mpr hge)).trans
      (afterRead_of_error (takeBlksum_of_ne (t := streamWork s) hsum)))⟩

/-- An element where it stands: the run goes on, or it completes a block that brings TOTAL to 2^64 (R34, R121). -/
theorem exec_decoded_cases (hp : s.stream.pos ≠ .idle) (hd : decode (fetchAt s) (fetchBytes s) = .ok (i, rest)) :
    Continues (exec i s) ∨ exec i s = .refused .streamTooLong ∧ runTooLong s := by
  have hat : i.position = fetchAt s := position_of_decode hd
  have hpos : s.stream.pos = posOf i.position := by rw [hat, posOf_fetchAt]
  cases i
  case token t => exact .inl (continues_atPos hpos (continues_ite (continues_next _) (continues_next _)))
  case llext v => exact .inl (continues_atPos hpos (continues_ite (continues_next _) (continues_next _)))
  case literals lit =>
    have hlen : fetchAt s = .literals s.dec.ll := by
      rw [fetchAt, hpos]
      rfl
    rw [exec_literals_of_length hpos (DecodeAt.literals.inj (hat.trans hlen))]
    exact .inl (continues_afterStep _ _)
  case offset off =>
    refine .inl (continues_atPos hpos ?_)
    split
    · exact continues_next _
    · exact continues_ite (continues_next _) continues_finishMatch
  case mlext v =>
    exact .inl (continues_atPos hpos
      (continues_ite (continues_next _) (continues_ite (continues_next _) continues_finishMatch)))
  case seq | last =>
    rw [← hat, fetchBytes_of_inBlock (by rw [hpos]; rfl)] at hd
    exact .inl ⟨_, exec_sequence_eq_decodeSeq hpos hd⟩
  case magic =>
    rw [exec, execMagic]
    exact .inl (continues_frameElement hpos (continues_next _))
  case flg b => exact .inl (continues_atPos hpos (continues_ite (continues_next _) (continues_next _)))
  case bd b =>
    rw [exec, execBd]
    exact .inl (continues_frameElement hpos (continues_ite (continues_next _) (continues_next _)))
  case csize v =>
    rw [exec, execCsize]
    exact .inl (continues_frameElement hpos (continues_next _))
  case dictid v =>
    rw [exec, execDictid]
    exact .inl (continues_frameElement hpos (continues_next _))
  case hc c =>
    rw [exec, execHc]
    exact .inl (continues_frameElement hpos
      (continues_ite (continues_next _) (continues_ite (continues_next _) (continues_next _))))
  case blkhdr raw size =>
    rw [exec, execBlkhdr]
    exact .inl (continues_frameElement hpos (continues_afterRead _ fun _ => continues_next _))
  case payload bytes =>
    have hlen : fetchAt s = .payload s.blk.size := by
      rw [fetchAt, hpos]
      rfl
    rw [← hat, fetchBytes_of_not_inBlock (by rw [hpos]; rfl)] at hd
    obtain ⟨bytes', hbytes, hlen', hrest⟩ := decodeRun_eq_ok hd
    obtain rfl := Instr.payload.inj hbytes
    have hsize := DecodeAt.payload.inj (hat.trans hlen)
    exact exec_payload_cases hpos hsize (by rw [← hrest, ← hsize, List.take_left])
  case blksum sum => exact exec_blksum_cases sum hpos
  case endmark =>
    rw [exec, execEndmark]
    exact .inl (continues_frameElement hpos
      (continues_afterRead _ fun _ => continues_ite (continues_next _) continues_finishRunFrame))
  case csum sum =>
    exact .inl (continues_atPos hpos
      (continues_ite (continues_next _) (continues_afterRead _ fun _ => continues_finishRunFrame)))
  all_goals exact absurd hpos hp

/-- A run goes on, or stands before the last element of a block that brings TOTAL to 2^64 (R34). -/
theorem streamStep_cases (hp : s.stream.pos ≠ .idle) :
    Continues (streamStep s) ∨ streamStep s = .refused .streamTooLong ∧ runTooLong s := by
  unfold streamStep
  split
  next hd => exact exec_decoded_cases hp hd
  next => exact .inl (continues_next _)

end Stops

end Sys2Proof.Machine

namespace Sys2Proof.Machine

/-! ## Proofs: where a command, or an action of the host, stops (R34, R60, R70) -/

/-- WRITE_FRAME's context counts its data (R238). -/
theorem written_total (s : State) (w : WriterCtx) : (written s w).writer.total = w.total + s.regs.srcLen.toNat := by
  obtain ⟨-, -, -, htotal, -⟩ := writeBlocks_spec (policyOf s.params) w s.enc (srcBytes s)
  rwa [length_srcBytes] at htotal

theorem exec_writeFrame_of_tooLong {s : State} (h : writeTooLong s) : exec .writeFrame s = .refused .streamTooLong := by
  obtain ⟨w, hw, hv, ht⟩ := h
  exact execWriteFrame_tooLong hw hv (ht.trans_eq (written_total s w).symm)

theorem exec_readFrame_of_tooLong {s : State} (h : readTooLong s) : exec .readFrame s = .refused .streamTooLong := by
  obtain ⟨r, u, hr, hv, hu, ht⟩ := h
  exact execReadFrame_tooLong hr hv hu ht

/-- A WRITE_FRAME ends, unless it would bring TOTAL to 2^64 (R34). -/
theorem continues_exec_writeFrame {s : State} (h : ¬ writeTooLong s) : Continues (exec .writeFrame s) := by
  by_cases hvalid : ∃ w, handleWriter s = some w ∧ writeValid s w
  · obtain ⟨w, hw, hv⟩ := hvalid
    exact ⟨_, execWriteFrame_done hw hv (Nat.lt_of_not_le fun ht => h ⟨w, hw, hv, ht.trans_eq (written_total s w)⟩)⟩
  · exact ⟨_, execWriteFrame_invalid fun w hw hv => hvalid ⟨w, hw, hv⟩⟩

/-- A READ_FRAME ends, unless it would bring TOTAL to 2^64 (R34). -/
theorem continues_exec_readFrame {s : State} (h : ¬ readTooLong s) : Continues (exec .readFrame s) := by
  by_cases hvalid : ∃ r, handleReader s = some r ∧ readValid s r
  · obtain ⟨r, hr, hv⟩ := hvalid
    cases hu : readContent s r with
    | error e => exact ⟨_, execReadFrame_error hr hv hu⟩
    | ok u => exact ⟨_, execReadFrame_done hr hv hu (Nat.lt_of_not_le fun ht => h ⟨r, u, hr, hv, hu, ht⟩)⟩
  · exact ⟨_, execReadFrame_invalid fun r hr hv => hvalid ⟨r, hr, hv⟩⟩

/-- The command `i` issued in `s` would bring its context's TOTAL to 2^64. -/
def CommandTooLong (i : Instr) (s : State) : Prop := i = .writeFrame ∧ writeTooLong s ∨ i = .readFrame ∧ readTooLong s

/-- A command ends, or would bring its context's TOTAL to 2^64 (R34, R281). -/
theorem exec_command_stops {i : Instr} (s : State) (hi : isCommand i) :
    Continues (exec i s) ∨ exec i s = .refused .streamTooLong ∧ CommandTooLong i s := by
  rcases exec_command_cases s hi with ⟨t, ht, -⟩ | ⟨hr, rfl | rfl⟩
  · exact .inl ⟨t, ht⟩
  · by_cases h : writeTooLong s
    · exact .inr ⟨hr, .inl ⟨rfl, h⟩⟩
    · exact .inl (continues_exec_writeFrame h)
  · by_cases h : readTooLong s
    · exact .inr ⟨hr, .inr ⟨rfl, h⟩⟩
    · exact .inl (continues_exec_readFrame h)

/-- How an action of the host can stop the machine: a command on a stream of 2^64 bytes, a register access that is no word, a
byte beyond BM. -/
inductive HostStop (s : State) : HostOp → Host.Outcome State Fault Refusal → Prop where
  | command (v : Word) (h : CommandTooLong (decodeCommand v) s) :
      HostStop s (.storeReg 0 .word v) (.refused .streamTooLong)
  | store (off : Nat) (wd : AccessWidth) (v : Word) (h : ¬ wordAccess off wd) :
      HostStop s (.storeReg off wd v) (.refused .registerAccessNotAWord)
  | load (off : Nat) (wd : AccessWidth) (h : ¬ wordAccess off wd) :
      HostStop s (.loadReg off wd) (.refused .registerAccessNotAWord)
  | storeByte (a : Nat) (b : Byte) (h : s.params.bmSize ≤ a) : HostStop s (.storeByte a b) (.fault .addressOutsideBM)
  | loadByte (a : Nat) (h : s.params.bmSize ≤ a) : HostStop s (.loadByte a) (.fault .addressOutsideBM)

/-- An action of the host goes on or stops in one of these ways. -/
theorem hostAction_cases (op : HostOp) (s : State) : Continues (hostAction op s) ∨ HostStop s op (hostAction op s) := by
  cases op with
  | storeReg off wd v =>
    simp only [hostAction, hostStore]
    split_ifs with hword hbusy h0
    · exact .inl (continues_next _)
    · obtain ⟨rfl, -⟩ := hword
      subst h0
      refine (exec_command_stops s (decodeCommand_isCommand v)).imp_right fun ⟨hr, hlong⟩ => ?_
      rw [hr]
      exact .command v hlong
    · exact .inl (continues_next _)
    · exact .inr (.store off wd v hword)
  | loadReg off wd =>
    simp only [hostAction, hostLoad]
    split_ifs with hword
    · exact .inl (continues_next _)
    · exact .inl (continues_next _)
    · exact .inr (.load off wd hword)
  | storeByte a b =>
    simp only [hostAction, hostStoreByte]
    split_ifs with ha
    · exact .inl (continues_next _)
    · exact .inr (.storeByte a b (Nat.le_of_not_lt ha))
  | loadByte a =>
    simp only [hostAction, hostLoadByte]
    split_ifs with ha
    · exact .inl (continues_next _)
    · exact .inr (.loadByte a (Nat.le_of_not_lt ha))
  | reset => exact .inl (continues_next _)
  | runBlock grain input dict limit => exact .inl (continues_next _)
  | runFrame input => exact .inl (continues_next _)

/-- A step goes on, or stops in a run or in the host's next action. -/
theorem step_cases (s : State) :
    Continues (step s) ∨ step s = .refused .streamTooLong ∧ runTooLong s ∨
    ∃ op rest, s.stream.pos = .idle ∧ s.host = op :: rest ∧ HostStop { s with host := rest } op (step s) := by
  by_cases hp : s.stream.pos = .idle
  · cases hh : s.host with
    | nil => exact .inl ⟨s, by simp only [step, hp, hostStep, hh]⟩
    | cons op rest =>
      rw [step_of_host hp hh]
      exact (hostAction_cases op { s with host := rest }).imp_right fun hstop => .inr ⟨op, rest, hp, rfl, hstop⟩
  · rw [step_of_pos hp]
    exact (streamStep_cases hp).imp_right .inl

/-- Settles O11: a command, a run and an action of the host each go on, or stop in a way of their own. -/
theorem stopsAreOnlyTheNamedOnes : Obligations.StopsAreOnlyTheNamedOnes := by
  refine ⟨fun i s hi hw hr => ?_, fun _ => exec_writeFrame_of_tooLong, fun _ => exec_readFrame_of_tooLong, fun s => ?_⟩
  · rcases exec_command_stops s hi with ht | ⟨-, hlong⟩
    · exact ht
    · exact absurd hlong (not_or.mpr ⟨hw, hr⟩)
  rcases step_cases s with ⟨t, ht⟩ | ⟨hrun, hlong⟩ | ⟨op, rest, hp, hh, hstop⟩
  · rw [ht]
    exact ⟨nofun, nofun⟩
  · rw [hrun]
    exact ⟨nofun, fun r hr => .inl ⟨(Host.Outcome.refused.inj hr).symm, .inl hlong⟩⟩
  generalize step s = o at hstop ⊢
  cases hstop with
  | command v hlong =>
    exact ⟨nofun, fun r hr => .inl ⟨(Host.Outcome.refused.inj hr).symm, .inr ⟨v, rest, hp, hh, hlong⟩⟩⟩
  | store off wd v hword =>
    exact ⟨nofun, fun r hr => .inr ⟨(Host.Outcome.refused.inj hr).symm, off, wd, hword, .inl ⟨v, rest, hh⟩⟩⟩
  | load off wd hword =>
    exact ⟨nofun, fun r hr => .inr ⟨(Host.Outcome.refused.inj hr).symm, off, wd, hword, .inr ⟨rest, hh⟩⟩⟩
  | storeByte a b ha => exact ⟨fun f _ => ⟨a, ha, .inl ⟨b, rest, hh⟩⟩, nofun⟩
  | loadByte a ha => exact ⟨fun f _ => ⟨a, ha, .inr ⟨rest, hh⟩⟩, nofun⟩

end Sys2Proof.Machine

namespace Sys2Proof.Machine

/-! ## Proofs: an encoding does not depend on the working registers (R166, R271) -/

section EncoderRegisters
variable (q : Policy) (c : CfgRegs) (v : Variant) (e : FinderEnv)

/-- No policy sees the acceleration register: the variant holds the factor (R139). -/
theorem visit_accel (a : Nat) (r : EncRegs) (t : TableSet) : visit q c v e { r with accel := a } t = visit q c v e r t := by
  cases q <;> rfl

theorem encodeTurn_accel (h : List Byte) (m : Option (Nat × Nat)) (next a : Nat) (r : EncRegs) :
    encodeTurn h m next { r with accel := a } = { encodeTurn h m next r with accel := a } := by
  cases m <;> rfl

/-- The loop carries the acceleration register along unread. -/
theorem encodeLoop_accel (a n : Nat) (r : EncRegs) (t : TableSet) :
    encodeLoop q c v e n { r with accel := a } t =
      ({ (encodeLoop q c v e n r t).1 with accel := a }, (encodeLoop q c v e n r t).2) := by
  induction n generalizing r t with
  | zero => rfl
  | succ n ih =>
    simp only [encodeLoop, visit_accel, encodeTurn_accel, ih]
    split_ifs <;> rfl

/-- Of the registers before the block, the match attempts leave their mark in `mflimit`, `matchlimit` and the acceleration
register at most. -/
theorem encodeMatches_encodeStart (ind : Bool) (hist : List Byte) (base n p0 : Nat) (t : TableSet) (r r' : EncRegs) :
    (encodeMatches q c v ind hist n t (encodeStart v base n p0 r')).1.out =
      (encodeMatches q c v ind hist n t (encodeStart v base n p0 r)).1.out ∧
    (encodeMatches q c v ind hist n t (encodeStart v base n p0 r')).1.anchor =
      (encodeMatches q c v ind hist n t (encodeStart v base n p0 r)).1.anchor ∧
    (encodeMatches q c v ind hist n t (encodeStart v base n p0 r')).1.endPos =
      (encodeMatches q c v ind hist n t (encodeStart v base n p0 r)).1.endPos ∧
    (encodeMatches q c v ind hist n t (encodeStart v base n p0 r')).2 =
      (encodeMatches q c v ind hist n t (encodeStart v base n p0 r)).2 := by
  unfold encodeMatches
  split_ifs
  · have hloop := encodeLoop_accel q c v
      (finderEnv c hist p0 (tableBits c (usesNarrow c v ind n)) (base + n - Config.lastLiterals))
      (encodeStart v base n p0 r').accel n
      { encodeStart v base n p0 r with
        mflimit := base + n - q.attemptLimit, matchlimit := base + n - Config.lastLiterals } t
    change encodeLoop q c v _ n { encodeStart v base n p0 r' with
      mflimit := base + n - q.attemptLimit, matchlimit := base + n - Config.lastLiterals } t = _ at hloop
    exact ⟨congrArg (·.1.out) hloop, congrArg (·.1.anchor) hloop, congrArg (·.1.endPos) hloop, congrArg (·.2) hloop⟩
  · exact ⟨rfl, rfl, rfl, rfl⟩

/-- The encoding and the table set a block leaves do not depend on the working registers before it (R166, R271). -/
theorem encodeBlock_of_regs (level : Int) (ind : Bool) (dict block : List Byte) (t : TableSet) (p0 : Nat)
    (r r' : EncRegs) :
    (encodeBlock q c level ind dict block t p0 r').1.out = (encodeBlock q c level ind dict block t p0 r).1.out ∧
    (encodeBlock q c level ind dict block t p0 r').2 = (encodeBlock q c level ind dict block t p0 r).2 := by
  unfold encodeBlock
  split_ifs
  · exact ⟨rfl, rfl⟩
  · obtain ⟨hout, hanchor, hend, htables⟩ := encodeMatches_encodeStart q c (variantOf c level) ind (dict ++ block)
      dict.length block.length p0 t r r'
    refine ⟨?_, htables⟩
    dsimp only
    rw [hout, hanchor, hend]

end EncoderRegisters

/-- Blocks emitted from the same context and bytes leave the same ones, whatever the encoder's working registers (R240). -/
theorem foldl_emitBlock_of_enc (q : Policy) (cs : List (List Byte)) {t t' : WriteWork} (hw : t'.writer = t.writer)
    (ho : t'.out = t.out) :
    (cs.foldl (emitBlock q) t').writer = (cs.foldl (emitBlock q) t).writer ∧
    (cs.foldl (emitBlock q) t').out = (cs.foldl (emitBlock q) t).out := by
  induction cs generalizing t t' with
  | nil => exact ⟨hw, ho⟩
  | cons c cs ih =>
    obtain ⟨hout, htables⟩ := encodeBlock_of_regs q t.writer.cfg (levelOf t.writer.prefs.level) t.writer.prefs.bindep
      t.writer.dict c t.writer.blockTable t.writer.p0 t.enc t'.enc
    refine ih ?_ ?_
    · simp only [emitBlock, WriterCtx.encoding, hw, htables]
    · simp only [emitBlock, WriterCtx.encoding, hw, ho, hout]

/-- The context and the bytes WRITE_FRAME makes do not depend on the encoder's working registers (R234, R271). -/
theorem writeBlocks_of_enc (q : Policy) (w : WriterCtx) (enc enc' : EncRegs) (data : List Byte) :
    (writeBlocks q w enc' data).writer = (writeBlocks q w enc data).writer ∧
    (writeBlocks q w enc' data).out = (writeBlocks q w enc data).out :=
  foldl_emitBlock_of_enc q _ rfl rfl

/-! ## Proofs: a decoding does not depend on the working registers (R190, R271) -/

section DecoderRegisters
variable {inp dict : List Byte} {limit : Nat} {r r' d : DecRegs}

/-- `r` with the match length and the offset of `m`, which a sequence's head and literals do not read. -/
def DecRegs.withMatch (r m : DecRegs) : DecRegs := { r with ml := m.ml, off := m.off }

theorem readLLExt_withMatch (m : DecRegs) {l : List Byte} (h : readLLExt l r = .ok d) :
    readLLExt l (r.withMatch m) = .ok (d.withMatch m) := by
  induction l generalizing r with
  | nil => exact nomatch h
  | cons b l ih =>
    simp only [readLLExt] at h ⊢
    split_ifs at h ⊢
    · exact ih h
    · exact congrArg (fun x => Except.ok (x.withMatch m)) (Except.ok.inj h)

/-- Token and literal length are read from the bytes at the cursor (R191, R192). -/
theorem readHead_of_ip {t : Byte} {rest : List Byte} (h : r.readHead t rest = .ok d) (hip : r'.ip = r.ip)
    (hout : r'.out = r.out) : r'.readHead t rest = .ok (d.withMatch r') := by
  have htoken : r'.takeToken t = (r.takeToken t).withMatch r' := by
    simp only [DecRegs.takeToken, DecRegs.withMatch, hip, hout]
  unfold DecRegs.readHead at h ⊢
  rw [htoken]
  split_ifs at h ⊢
  · exact readLLExt_withMatch r' h
  · exact congrArg (fun x => Except.ok (x.withMatch r')) (Except.ok.inj h)

theorem takeLiterals_withMatch (m : DecRegs) {lit : List Byte} (h : r.takeLiterals inp.length limit lit = .ok d) :
    (r.withMatch m).takeLiterals inp.length limit lit = .ok (d.withMatch m) := by
  obtain ⟨hin, hlim, rfl⟩ := takeLiterals_eq_ok.mp h
  exact takeLiterals_eq_ok.mpr ⟨hin, hlim, rfl⟩

/-- A match writes its own length and offset before it reads them (R195, R196). -/
theorem decodeMatch_withMatch (m : DecRegs) (h : decodeMatch inp dict limit r = .ok d) :
    decodeMatch inp dict limit (r.withMatch m) = .ok d := by
  obtain ⟨r1, r2, hoff, htail, hcopy⟩ := decodeMatch_eq_ok_iff.mp h
  refine decodeMatch_eq_ok_iff.mpr ⟨r1, r2, ?_, htail, hcopy⟩
  obtain ⟨hin, hne, hback, rfl⟩ := takeOffset_eq_ok.mp hoff
  exact takeOffset_eq_ok.mpr ⟨hin, hne, hback, rfl⟩

/-- A sequence decodes to the same from the same cursor and output. -/
theorem decodeSeq_of_ip {b : Bool} (h : decodeSeq inp dict limit r = .ok (d, b)) (hip : r'.ip = r.ip)
    (hout : r'.out = r.out) :
    ∃ d', decodeSeq inp dict limit r' = .ok (d', b) ∧ d'.ip = d.ip ∧ d'.out = d.out := by
  obtain ⟨t, rest, r1, r2, hdrop, hhead, hlit, hrest⟩ := decodeSeq_eq_ok_iff.mp h
  have hhead' := readHead_of_ip hhead hip hout
  have hlit' := takeLiterals_withMatch r' hlit
  rw [← hip] at hdrop
  rcases hrest with ⟨hend, rfl, rfl⟩ | ⟨hend, hmatch, rfl⟩
  · exact ⟨_, decodeSeq_eq_ok_iff.mpr ⟨t, rest, _, _, hdrop, hhead', hlit', .inl ⟨hend, rfl, rfl⟩⟩, rfl, rfl⟩
  · exact ⟨d, decodeSeq_eq_ok_iff.mpr ⟨t, rest, _, _, hdrop, hhead', hlit',
      .inr ⟨hend, decodeMatch_withMatch r' hmatch, rfl⟩⟩, rfl, rfl⟩

theorem decodeLoop_of_ip {fuel : Nat} (h : decodeLoop inp dict limit fuel r = .ok d) (hip : r'.ip = r.ip)
    (hout : r'.out = r.out) : ∃ d', decodeLoop inp dict limit fuel r' = .ok d' ∧ d'.out = d.out := by
  induction fuel generalizing r r' with
  | zero => exact nomatch h
  | succ fuel ih =>
    rcases decodeLoop_succ_eq_ok_iff.mp h with hseq | ⟨r1, hseq, hloop⟩
    · obtain ⟨d', hseq', -, hout'⟩ := decodeSeq_of_ip hseq hip hout
      exact ⟨d', decodeLoop_succ_eq_ok_iff.mpr (.inl hseq'), hout'⟩
    · obtain ⟨r1', hseq', hip', hout'⟩ := decodeSeq_of_ip hseq hip hout
      obtain ⟨d', hloop', hd⟩ := ih hloop hip' hout'
      exact ⟨d', decodeLoop_succ_eq_ok_iff.mpr (.inr ⟨r1', hseq', hloop'⟩), hd⟩

/-- A block that decodes does so to the same content whatever the working registers before it. -/
theorem decodeBlock_eq_ok_of_regs (r' : DecRegs) (h : decodeBlock inp dict limit r = .ok d) :
    ∃ d', decodeBlock inp dict limit r' = .ok d' ∧ d'.out = d.out := by
  by_cases hinp : inp = []
  · subst hinp
    obtain rfl := Except.ok.inj (decodeBlock_nil.symm.trans h)
    exact ⟨_, decodeBlock_nil, rfl⟩
  · rw [decodeBlock_of_ne_nil hinp] at h ⊢
    exact decodeLoop_of_ip h rfl rfl

end DecoderRegisters

/-- What a block decodes to does not depend on the working registers before it: the same content, or an error (R190, R271). -/
theorem decodeBlock_of_regs (inp dict : List Byte) (limit : Nat) (r r' : DecRegs) :
    (∃ d d', decodeBlock inp dict limit r = .ok d ∧ decodeBlock inp dict limit r' = .ok d' ∧ d'.out = d.out) ∨
    ∃ d d', decodeBlock inp dict limit r = .error d ∧ decodeBlock inp dict limit r' = .error d' := by
  cases h : decodeBlock inp dict limit r with
  | ok d =>
    obtain ⟨d', h', hout⟩ := decodeBlock_eq_ok_of_regs r' h
    exact .inl ⟨d, d', rfl, h', hout⟩
  | error d =>
    cases h' : decodeBlock inp dict limit r' with
    | error d' => exact .inr ⟨d, d', rfl, rfl⟩
    | ok d' =>
      obtain ⟨d'', hok, -⟩ := decodeBlock_eq_ok_of_regs r h'
      exact nomatch h.symm.trans hok

end Sys2Proof.Machine

namespace Sys2Proof.Machine

/-! ## Proofs: reading does not depend on the working registers (R250, R271) -/

/-- Two working states of the reader that agree on the context and on the content gathered. -/
structure ReadWork.Alike (t t' : ReadWork) : Prop where
  reader : t'.reader = t.reader
  out : t'.out = t.out

/-- Two steps of the reader that go on alike, or raise the same error alike. -/
inductive ReadStep.Alike : ReadStep → ReadStep → Prop where
  | ok {t t' : ReadWork} (h : t.Alike t') : Alike (.ok t) (.ok t')
  | error (e : ErrCode) {t t' : ReadWork} (h : t.Alike t') : Alike (.error (e, t)) (.error (e, t'))

theorem ReadStep.Alike.bind {x x' : ReadStep} {k : ReadWork → ReadStep} (h : x.Alike x')
    (hk : ∀ t t' : ReadWork, t.Alike t' → ReadStep.Alike (k t) (k t')) : ReadStep.Alike (x.bind k) (x'.bind k) := by
  cases h with
  | ok h => exact hk _ _ h
  | error e h => exact .error e h

section Alike
variable {t t' : ReadWork} (f : List Byte)

theorem ReadWork.Alike.word_eq (h : t.Alike t') : t'.word f = t.word f := by rw [ReadWork.word, ReadWork.word, h.reader]

theorem ReadWork.Alike.advance (h : t.Alike t') (n : Nat) : (t.advance n).Alike (t'.advance n) :=
  ⟨by rw [ReadWork.advance, ReadWork.advance, h.reader], h.out⟩

theorem ReadWork.Alike.setState (h : t.Alike t') (s : FrameState) : (t.setState s).Alike (t'.setState s) :=
  ⟨by rw [ReadWork.setState, ReadWork.setState, h.reader], h.out⟩

theorem ReadWork.Alike.deliverStage (h : t.Alike t') (max : Nat) : (t.deliverStage max).Alike (t'.deliverStage max) := by
  constructor <;> simp only [ReadWork.deliverStage, h.reader, h.out]

theorem checkSize_alike (h : t.Alike t') : ReadStep.Alike t.checkSize t'.checkSize := by
  unfold ReadWork.checkSize
  rw [h.reader]
  split_ifs
  · exact .error _ h
  · exact .ok h

theorem checkCsum_alike (h : t.Alike t') : ReadStep.Alike (t.checkCsum f) (t'.checkCsum f) := by
  unfold ReadWork.checkCsum ReadWork.takeCsum
  rw [h.word_eq f, h.reader]
  split_ifs
  · exact .error _ h
  · exact .error _ (h.advance 4)
  · exact .ok (h.advance 4)
  · exact .ok h

theorem trailer_eq_bind (t : ReadWork) :
    t.trailer f = t.checkSize.bind fun t1 => (t1.checkCsum f).bind fun t2 => .ok (t2.setState .ended) := by
  unfold ReadWork.trailer
  cases t.checkSize with
  | error e => rfl
  | ok t1 =>
    dsimp only [Except.bind]
    cases t1.checkCsum f <;> rfl

theorem trailer_alike (h : t.Alike t') : ReadStep.Alike (t.trailer f) (t'.trailer f) := by
  rw [trailer_eq_bind, trailer_eq_bind]
  exact (checkSize_alike h).bind fun _ _ hsize => (checkCsum_alike f hsize).bind fun _ _ hsum => .ok (hsum.setState _)

/-- The same block decodes to the same content for both, or for neither (R252, R254). -/
theorem decodeContent_alike (h : t.Alike t') (hb : t'.blk = t.blk) :
    (∃ c d d', t.decodeContent = .ok (c, d) ∧ t'.decodeContent = .ok (c, d')) ∨
    ∃ d d', t.decodeContent = .error d ∧ t'.decodeContent = .error d' := by
  unfold ReadWork.decodeContent
  rw [hb, h.reader]
  split_ifs
  · exact .inl ⟨_, _, _, rfl, rfl⟩
  · rcases decodeBlock_of_regs t.blk.payload t.reader.dict (blockMax t.reader.finfo.bsclass.toNat) t.dec t'.dec with
      ⟨d, d', hd, hd', hout⟩ | ⟨d, d', hd, hd'⟩ <;> rw [hd, hd']
    · exact .inl ⟨_, _, _, rfl, congrArg (fun o => Except.ok (o, d')) hout⟩
    · exact .inr ⟨d, d', rfl, rfl⟩

theorem finishBlock_alike (h : t.Alike t') (hb : t'.blk = t.blk) : ReadStep.Alike t.finishBlock t'.finishBlock := by
  unfold ReadWork.finishBlock
  rcases decodeContent_alike h hb with ⟨c, d, d', hc, hc'⟩ | ⟨d, d', hc, hc'⟩ <;> rw [hc, hc']
  · exact .ok ⟨by rw [h.reader], h.out⟩
  · exact .error _ ⟨h.reader, h.out⟩

/-- The same block, its checksum judged and then its content (R251, R253). -/
theorem checkBlksum_finishBlock_alike (h : t.Alike t') (hb : t'.blk = t.blk) :
    ReadStep.Alike ((t.checkBlksum f).bind ReadWork.finishBlock) ((t'.checkBlksum f).bind ReadWork.finishBlock) := by
  unfold ReadWork.checkBlksum ReadWork.takeBlksum
  rw [h.word_eq f, h.reader, hb]
  split_ifs
  · exact .error _ (h.advance 4)
  · exact finishBlock_alike (h.advance 4) hb
  · exact finishBlock_alike h hb

theorem block_eq_bind (w : Nat) (t : ReadWork) :
    t.block f w = (t.openBlock f.length (decide (2147483648 ≤ w)) (w % 2147483648)).bind fun t1 =>
      ((t1.takePayload ((f.drop t1.reader.rip).take t1.blk.size)).checkBlksum f).bind ReadWork.finishBlock := by
  unfold ReadWork.block
  cases t.openBlock f.length (decide (2147483648 ≤ w)) (w % 2147483648) with
  | error e => rfl
  | ok t1 =>
    dsimp only [Except.bind]
    cases (t1.takePayload ((f.drop t1.reader.rip).take t1.blk.size)).checkBlksum f <;> rfl

/-- A block overwrites all that was read of the block before it (R251). -/
theorem block_alike (w : Nat) (h : t.Alike t') : ReadStep.Alike (t.block f w) (t'.block f w) := by
  rw [block_eq_bind, block_eq_bind]
  unfold ReadWork.openBlock
  rw [h.reader]
  split_ifs
  · exact .error _ h
  · exact .error _ h
  · exact checkBlksum_finishBlock_alike f ⟨rfl, h.out⟩ rfl

theorem nextBlock_alike (h : t.Alike t') : ReadStep.Alike (nextBlock f t) (nextBlock f t') := by
  unfold nextBlock
  rw [h.word_eq f, h.reader]
  split_ifs
  · exact .error _ h
  · exact trailer_alike f (h.advance 4)
  · exact block_alike f _ (h.advance 4)

/-- READ_FRAME's loop does not read the working registers before it (R250, R271). -/
theorem readLoop_alike (max fuel : Nat) (h : t.Alike t') :
    ReadStep.Alike (readLoop f max fuel t) (readLoop f max fuel t') := by
  induction fuel generalizing t t' with
  | zero => exact .ok h
  | succ fuel ih =>
    unfold readLoop
    rw [h.reader, h.out]
    split_ifs
    · have hnext := nextBlock_alike f h
      generalize nextBlock f t = x at hnext ⊢
      generalize nextBlock f t' = x' at hnext ⊢
      cases hnext with
      | ok hu => exact ih hu
      | error e hu => exact .error e hu
    · exact ih (h.deliverStage max)
    · exact .ok h

end Alike

/-! ## Proofs: what a command reports depends on its own arguments (R234, R271) -/

/-- `s'` has the parameters and the destination registers of `s`. -/
structure SameDst (s s' : State) : Prop where
  params : s'.params = s.params
  addrLo : s'.regs.dstAddrLo = s.regs.dstAddrLo
  addrHi : s'.regs.dstAddrHi = s.regs.dstAddrHi
  cap : s'.regs.dstCap = s.regs.dstCap

/-- `s'` has the source registers and the source bytes of `s` too. -/
structure SameSrc (s s' : State) : Prop extends SameDst s s' where
  srcLo : s'.regs.srcAddrLo = s.regs.srcAddrLo
  srcHi : s'.regs.srcAddrHi = s.regs.srcAddrHi
  srcLen : s'.regs.srcLen = s.regs.srcLen
  bytes : srcBytes s' = srcBytes s

section Reports
variable {s s' t t' : State}

theorem SameDst.dstRegion_eq (h : SameDst s s') : dstRegion s'.params s'.regs = dstRegion s.params s.regs := by
  simp only [dstRegion, h.params, h.addrLo, h.addrHi, h.cap]

theorem SameSrc.srcRegion_eq (h : SameSrc s s') : srcRegion s'.params s'.regs = srcRegion s.params s.regs := by
  simp only [srcRegion, h.params, h.srcLo, h.srcHi, h.srcLen]

theorem SameDst.dstAdmitted_iff (h : SameDst s s') : dstAdmitted s'.params s'.regs ↔ dstAdmitted s.params s.regs := by
  rw [dstAdmitted, h.dstRegion_eq, h.params, h.addrHi]

theorem SameSrc.regionsValid_iff (h : SameSrc s s') : regionsValid s'.params s'.regs ↔ regionsValid s.params s.regs := by
  rw [regionsValid, srcAdmitted, h.toSameDst.dstAdmitted_iff, h.srcRegion_eq, h.toSameDst.dstRegion_eq, h.params, h.srcHi]

/-- Two commands that raise the same error report the same (R306). -/
theorem reportsSame_raiseError {e : ErrCode} (he : e ≠ .none) {p : Params} {r : Regs} :
    reportsSame p r (raiseError e t) (raiseError e t') :=
  ⟨rfl, rfl, fun h => absurd h he⟩

/-- Two commands that deliver the same bytes with the same STATUS report the same (R62). -/
theorem reportsSame_of_delivered {p : Params} {r : Regs} {st : Status} {o : List Byte} (ho : o.length ≤ r.dstCap.toNat)
    (hst : t.regs.status = st) (hst' : t'.regs.status = st) (hresult : t.regs.result = BitVec.ofNat 32 o.length)
    (hresult' : t'.regs.result = BitVec.ofNat 32 o.length)
    (hbytes : Mem.readBytes t.mem (dstRegion p r).addr o.length = o)
    (hbytes' : Mem.readBytes t'.mem (dstRegion p r).addr o.length = o) : reportsSame p r t t' := by
  refine ⟨hst'.trans hst.symm, hresult'.trans hresult.symm, fun _ => ?_⟩
  rw [hresult, toNat_ofNat_of_le ho, hbytes, hbytes']

/-- COMPRESS_BLOCK (R177, R271). -/
theorem compressBlock_reportsSame (h : SameSrc s s') (hm : Mem.wf s.mem) (hm' : Mem.wf s'.mem)
    (harg : s'.regs.arg = s.regs.arg) (hcfg : s'.regs.cfg = s.regs.cfg) (ht : exec .compressBlock s = .next t) :
    ∃ t', exec .compressBlock s' = .next t' ∧ reportsSame s.params s.regs t t' ∧
      t'.bt = if t.regs.status.err = .none then t.bt else s'.bt := by
  have hvalid : compressValid s' ↔ compressValid s := and_congr h.regionsValid_iff (by rw [hcfg])
  obtain ⟨hout, hbt⟩ : (compressEncoding s').1.out = (compressEncoding s).1.out ∧
      (compressEncoding s').2 = (compressEncoding s).2 := by
    unfold compressEncoding
    rw [h.params, hcfg, harg, h.bytes]
    exact encodeBlock_of_regs ..
  by_cases hv : compressValid s
  · by_cases hf : fits (compressEncoding s).1.out s.regs.dstCap.toNat
    · obtain rfl := Host.Outcome.next.inj ((execCompressBlock_fits hv hf).symm.trans ht)
      refine ⟨_, execCompressBlock_fits (hvalid.mpr hv) (by rwa [hout, h.cap]),
        reportsSame_of_delivered (st := statusDone) hf rfl rfl rfl ?_ (compressEnd_readBytes _ _ _ hm) ?_, hbt⟩
      · exact congrArg (fun o : List Byte => BitVec.ofNat 32 o.length) hout
      · rw [← h.toSameDst.dstRegion_eq, ← hout]
        exact compressEnd_readBytes false _ _ hm'
    · obtain rfl := Host.Outcome.next.inj ((execCompressBlock_nofit hv hf).symm.trans ht)
      exact ⟨_, execCompressBlock_nofit (hvalid.mpr hv) (by rwa [hout, h.cap]), 
        reportsSame_of_delivered (st := { statusDone with nofit := true }) (o := []) (Nat.zero_le _) rfl rfl rfl rfl
          rfl rfl, hbt⟩
  · obtain rfl := Host.Outcome.next.inj ((execCompressBlock_invalid hv).symm.trans ht)
    exact ⟨_, execCompressBlock_invalid (mt hvalid.mp hv), reportsSame_raiseError (by decide), rfl⟩

/-- DECOMPRESS_BLOCK (R204, R271). -/
theorem decompressBlock_reportsSame (h : SameSrc s s') (hm : Mem.wf s.mem) (hm' : Mem.wf s'.mem)
    (harg : s'.regs.arg = s.regs.arg) (ht : exec .decompressBlock s = .next t) :
    ∃ t', exec .decompressBlock s' = .next t' ∧ reportsSame s.params s.regs t t' := by
  have hvalid : decompressValid s' ↔ decompressValid s := and_congr h.regionsValid_iff (by rw [harg])
  by_cases hv : decompressValid s
  swap
  · obtain rfl := Host.Outcome.next.inj ((execDecompressBlock_invalid hv).symm.trans ht)
    exact ⟨_, execDecompressBlock_invalid (mt hvalid.mp hv), reportsSame_raiseError (by decide)⟩
  rcases Nat.lt_or_ge s.regs.dstCap.toNat s.regs.arg.toNat with hlt | hle
  · obtain rfl := Host.Outcome.next.inj ((execDecompressBlock_tooSmall hv hlt).symm.trans ht)
    exact ⟨_, execDecompressBlock_tooSmall (hvalid.mpr hv) (by rwa [h.cap, harg]), reportsSame_raiseError (by decide)⟩
  have hle' : s'.regs.arg.toNat ≤ s'.regs.dstCap.toNat := by rwa [h.cap, harg]
  have hdec : decompressed s' = decodeBlock (srcBytes s) [] s.regs.arg.toNat s'.dec := by rw [decompressed, h.bytes, harg]
  rcases decodeBlock_of_regs (srcBytes s) [] s.regs.arg.toNat s.dec s'.dec with
    ⟨d, d', hd, hd', hout⟩ | ⟨d, d', hd, hd'⟩ <;> rw [← hdec] at hd'
  swap
  · obtain rfl := Host.Outcome.next.inj ((execDecompressBlock_corrupted hv hle hd).symm.trans ht)
    exact ⟨_, execDecompressBlock_corrupted (hvalid.mpr hv) hle' hd', reportsSame_raiseError (by decide)⟩
  by_cases hlen : d.out.length = s.regs.arg.toNat
  · have hlen' : d'.out.length = s'.regs.arg.toNat := by rw [hout, hlen, harg]
    obtain rfl := Host.Outcome.next.inj ((execDecompressBlock_done hv hle hd hlen).symm.trans ht)
    refine ⟨_, execDecompressBlock_done (hvalid.mpr hv) hle' hd' hlen',
      reportsSame_of_delivered (o := d.out) (st := statusDone) (hlen.trans_le hle) rfl rfl ?_ ?_
          (deliver_readBytes (s := { startCommand s with dec := d }) hm) ?_⟩
    · exact congrArg (BitVec.ofNat 32) hlen.symm
    · exact congrArg (BitVec.ofNat 32) (hlen'.symm.trans (congrArg List.length hout))
    · rw [← h.toSameDst.dstRegion_eq, ← hout]
      exact deliver_readBytes (s := { startCommand s' with dec := d' }) hm'
  · obtain rfl := Host.Outcome.next.inj ((execDecompressBlock_short hv hle hd hlen).symm.trans ht)
    exact ⟨_, execDecompressBlock_short (hvalid.mpr hv) hle' hd' (by rwa [hout, harg]), reportsSame_raiseError (by decide)⟩

/-- The place of the context HANDLE names is one of the list. -/
theorem getElem?_set_handleWriter {w : WriterCtx} (hw : handleWriter s = some w) (x : WriterCtx) :
    (s.writers.set s.regs.handle.toNat x)[s.regs.handle.toNat]? = some x := by
  obtain ⟨hlt, -⟩ := List.getElem?_eq_some_iff.mp hw
  exact List.getElem?_set_self hlt

/-- WRITE_FRAME (R234, R238, R271). -/
theorem writeFrame_reportsSame (h : SameSrc s s') (hm : Mem.wf s.mem) (hm' : Mem.wf s'.mem)
    (hhandle : s'.regs.handle = s.regs.handle)
    (hctx : s'.writers[s.regs.handle.toNat]? = s.writers[s.regs.handle.toNat]?) (ht : exec .writeFrame s = .next t) :
    ∃ t', exec .writeFrame s' = .next t' ∧ reportsSame s.params s.regs t t' ∧
      t'.writers[s.regs.handle.toNat]? = t.writers[s.regs.handle.toNat]? := by
  have hctx' : handleWriter s' = handleWriter s := by rw [handleWriter, handleWriter, hhandle, hctx]
  have hvalid : ∀ w, writeValid s' w ↔ writeValid s w := fun w => by
    simp only [writeValid, h.regionsValid_iff, h.srcLen, h.cap]
  by_cases hex : ∃ w, handleWriter s = some w ∧ writeValid s w
  · obtain ⟨w, hw, hv⟩ := hex
    obtain ⟨hwriter, hout⟩ : (written s' w).writer = (written s w).writer ∧ (written s' w).out = (written s w).out := by
      unfold written
      rw [h.params, h.bytes]
      exact writeBlocks_of_enc ..
    rcases Nat.lt_or_ge (written s w).writer.total Config.streamMax with htotal | htotal
    swap
    · exact nomatch (execWriteFrame_tooLong hw hv htotal).symm.trans ht
    obtain rfl := Host.Outcome.next.inj ((execWriteFrame_done hw hv htotal).symm.trans ht)
    have hw' := hctx'.trans hw
    refine ⟨_, execWriteFrame_done hw' ((hvalid w).mpr hv) (by rwa [hwriter]),
      reportsSame_of_delivered (st := statusDone) (written_out_le_dstCap hv) rfl rfl rfl ?_
        (deliver_readBytes (s := setWriter _ _ { startCommand s with enc := (written s w).enc }) hm) ?_, ?_⟩
    · exact congrArg (fun o : List Byte => BitVec.ofNat 32 o.length) hout
    · rw [← h.toSameDst.dstRegion_eq, ← hout]
      exact deliver_readBytes (s := setWriter _ _ { startCommand s' with enc := (written s' w).enc }) hm'
    · refine Eq.trans ?_ (getElem?_set_handleWriter hw (written s w).writer).symm
      rw [← hwriter, ← hhandle]
      exact getElem?_set_handleWriter hw' _
  · obtain rfl := Host.Outcome.next.inj ((execWriteFrame_invalid fun w hw hv => hex ⟨w, hw, hv⟩).symm.trans ht)
    exact ⟨_, execWriteFrame_invalid fun w hw hv => hex ⟨w, hctx'.symm.trans hw, (hvalid w).mp hv⟩,
      reportsSame_raiseError (by decide), hctx⟩

/-- READ_FRAME (R234, R250, R271). -/
theorem readFrame_reportsSame (h : SameDst s s') (hm : Mem.wf s.mem) (hm' : Mem.wf s'.mem)
    (hhandle : s'.regs.handle = s.regs.handle) (harg : s'.regs.arg = s.regs.arg)
    (hctx : s'.readers[s.regs.handle.toNat]? = s.readers[s.regs.handle.toNat]?)
    (hbytes : ∀ r, s.readers[s.regs.handle.toNat]? = some r → regionBytes s' r.region = regionBytes s r.region)
    (ht : exec .readFrame s = .next t) :
    ∃ t', exec .readFrame s' = .next t' ∧ reportsSame s.params s.regs t t' ∧
      t'.readers[s.regs.handle.toNat]? = t.readers[s.regs.handle.toNat]? := by
  have hctx' : handleReader s' = handleReader s := by rw [handleReader, handleReader, hhandle, hctx]
  have hvalid : ∀ r, readValid s' r ↔ readValid s r := fun r => by
    simp only [readValid, h.dstAdmitted_iff, h.dstRegion_eq, h.cap, harg]
  by_cases hex : ∃ r, handleReader s = some r ∧ readValid s r
  swap
  · obtain rfl := Host.Outcome.next.inj ((execReadFrame_invalid fun r hr hv => hex ⟨r, hr, hv⟩).symm.trans ht)
    exact ⟨_, execReadFrame_invalid fun r hr hv => hex ⟨r, hctx'.symm.trans hr, (hvalid r).mp hv⟩,
      reportsSame_raiseError (by decide), hctx⟩
  obtain ⟨r, hr, hv⟩ := hex
  have hr' := hctx'.trans hr
  have hreader : ∀ x, (s'.readers.set s'.regs.handle.toNat x)[s.regs.handle.toNat]? =
      (s.readers.set s.regs.handle.toNat x)[s.regs.handle.toNat]? := fun x => by
    rw [getElem?_set_handleReader hr, ← hhandle]
    exact getElem?_set_handleReader hr' x
  have hspec := readContent_spec s r
  have halike : ReadStep.Alike (readContent s r) (readContent s' r) := by
    unfold readContent
    rw [hbytes r hr, harg]
    exact readLoop_alike _ _ _ ⟨rfl, rfl⟩
  generalize hu : readContent s r = x at halike hspec
  generalize hu' : readContent s' r = x' at halike
  cases halike with
  | @error e u u' hal =>
    obtain rfl := Host.Outcome.next.inj ((execReadFrame_error hr hv hu).symm.trans ht)
    refine ⟨_, execReadFrame_error hr' ((hvalid r).mpr hv) hu', reportsSame_raiseError ?_, ?_⟩
    · rcases hspec with rfl | rfl <;> exact nofun
    · exact (congrArg (fun x => (s'.readers.set _ x)[_]?) (hal.setState .failed).reader).trans (hreader _)
  | @ok u u' hal =>
    rcases Nat.lt_or_ge u.reader.total Config.streamMax with htotal | htotal
    swap
    · exact nomatch (execReadFrame_tooLong hr hv hu htotal).symm.trans ht
    obtain rfl := Host.Outcome.next.inj ((execReadFrame_done hr hv hu htotal).symm.trans ht)
    refine ⟨_, execReadFrame_done hr' ((hvalid r).mpr hv) hu' (by rwa [hal.reader]),
      reportsSame_of_delivered (st := Status.setEos (u.reader.state == .ended) statusDone)
        (hspec.trans (arg_le_dstCap_of_readValid hv)) rfl ?_ rfl ?_
        (deliver_readBytes (s := putReadWork u (startCommand s)) hm) ?_, ?_⟩
    · exact congrArg (fun x : ReaderCtx => Status.setEos (x.state == .ended) statusDone) hal.reader
    · exact congrArg (fun o : List Byte => BitVec.ofNat 32 o.length) hal.out
    · rw [← h.dstRegion_eq, ← hal.out]
      exact deliver_readBytes (s := putReadWork u' (startCommand s')) hm'
    · exact (congrArg (fun x => (s'.readers.set _ x)[_]?) hal.reader).trans (hreader _)

end Reports

/-- Settles O31: what each command makes of its context and its bytes does not read the working registers, and the rest of the
two states does not enter its rule. -/
theorem commandResultsDependOnTheirOwnArguments : Obligations.CommandResultsDependOnTheirOwnArguments := by
  intro s s' t hm hm' hparams hlo hhi hcap
  have hdst : SameDst s s' := ⟨hparams, hlo, hhi, hcap⟩
  refine ⟨fun hsrcLo hsrcHi hsrcLen hbytes => ?_, readFrame_reportsSame hdst hm hm'⟩
  have hsrc : SameSrc s s' := ⟨hdst, hsrcLo, hsrcHi, hsrcLen, hbytes⟩
  exact ⟨compressBlock_reportsSame hsrc hm hm', decompressBlock_reportsSame hsrc hm hm',
    writeFrame_reportsSame hsrc hm hm'⟩

end Sys2Proof.Machine

namespace Sys2Proof.Machine

/-! ## Proofs: every invalid argument (R232, R233, R273, R274, R276, R301) -/

/-- `freeWriter_eq_none`, read backwards. -/
theorem exists_closed_of_freeWriter_ne_none {s : State} (h : freeWriter s ≠ none) : ∃ w ∈ s.writers, w.state = .closed := by
  by_contra hnone
  exact h (freeWriter_eq_none.mpr fun w hw hc => hnone ⟨w, hw, hc⟩)

/-- `freeReader_eq_none`, read backwards. -/
theorem exists_closed_of_freeReader_ne_none {s : State} (h : freeReader s ≠ none) : ∃ r ∈ s.readers, r.state = .closed := by
  by_contra hnone
  exact h (freeReader_eq_none.mpr fun r hr hc => hnone ⟨r, hr, hc⟩)

/-- OPEN_WRITER with an illegal PREF or CFG, or with no Closed writer, is rejected (R232, R276). -/
theorem exec_openWriter_rejected {s : State}
    (h : ¬ (s.regs.pref.legal ∧ s.regs.cfg.legal ∧ ∃ w ∈ s.writers, w.state = .closed)) :
    exec .openWriter s = .next (rejected s) :=
  execOpenWriter_invalid fun ⟨⟨hpref, hcfg⟩, hfree⟩ => h ⟨hpref, hcfg, exists_closed_of_freeWriter_ne_none hfree⟩

/-- OPEN_READER with a source region not admitted, or with no Closed reader, is rejected (R232, R274). -/
theorem exec_openReader_rejected {s : State}
    (h : ¬ (srcAdmitted s.params s.regs ∧ ∃ r ∈ s.readers, r.state = .closed)) :
    exec .openReader s = .next (rejected s) :=
  execOpenReader_invalid fun ⟨hsrc, hfree⟩ => h ⟨hsrc, exists_closed_of_freeReader_ne_none hfree⟩

/-- Settles O23: each command's rule has one end for invalid arguments, and that end is `rejected`. -/
theorem invalidArgumentsAreRejected : Obligations.InvalidArgumentsAreRejected := by
  intro s
  obtain ⟨-, hmaxlen⟩ := maxlenAnswersTheBound s
  obtain ⟨-, hcloseReader⟩ := closeReaderFreesTheContext s
  exact ⟨hmaxlen, execCompressBlock_invalid, execDecompressBlock_invalid, exec_openWriter_rejected,
    execWriteFrame_invalid, execCloseWriter_invalid, exec_openReader_rejected, execReadFrame_invalid, hcloseReader,
    fun w => execIllegalCmd_invalid w s⟩

end Sys2Proof.Machine

namespace Sys2Proof.Machine

/-! ## Proofs: the reset event (R340, R342) -/

/-- With no run, the host's reset event is the step, and the host goes on with its next action. -/
theorem step_of_reset {s : State} {rest : List HostOp} (hp : s.stream.pos = .idle) (hh : s.host = .reset :: rest) :
    step s = .next (resetDevice { s with host := rest }) :=
  step_of_host hp hh

/-- What the reset event leaves as it was (R342), and the host's own coming actions. -/
@[simp] theorem resetDevice_mem (s : State) : (resetDevice s).mem = s.mem := rfl
@[simp] theorem resetDevice_params (s : State) : (resetDevice s).params = s.params := rfl
@[simp] theorem resetDevice_host (s : State) : (resetDevice s).host = s.host := rfl

/-- The registers after the reset event. -/
@[simp] theorem resetDevice_regs (s : State) : (resetDevice s).regs = Regs.reset := rfl

/-- The tables and the contexts after the reset event are those of R46 (O1), with as many contexts as before. -/
theorem resetDevice_tables_contexts (s : State) :
    (resetDevice s).bt = TableSet.empty ∧
    (resetDevice s).writers.length = s.writers.length ∧ (resetDevice s).readers.length = s.readers.length ∧
    (∀ w ∈ (resetDevice s).writers, w.state = .closed ∧ w.tbl = TableSet.empty) ∧
    (∀ r ∈ (resetDevice s).readers, r.state = .closed) := by
  obtain ⟨-, -, -, -, -, -, -, -, -, -, -, -, hbt, hnw, hnr, hwriters, hreaders, -⟩ :=
    resetLeavesTheStatedValues s.params s.writers.length s.readers.length
  exact ⟨hbt, hnw, hnr, hwriters, hreaders⟩

/-- Settles O4: the step is `resetDevice`, which is R46's state but for BM, the parameters and the host's own actions. -/
theorem resetEventResetsTheDeviceAndKeepsMemory : Obligations.ResetEventResetsTheDeviceAndKeepsMemory := by
  intro s rest hp hh
  obtain ⟨hbt, hnw, hnr, hwriters, hreaders⟩ := resetDevice_tables_contexts { s with host := rest }
  exact ⟨_, step_of_reset hp hh, resetDevice_regs _, hbt, hnw, hnr, hwriters, hreaders,
    resetDevice_mem _, resetDevice_params _, resetDevice_host _⟩

end Sys2Proof.Machine

namespace Sys2Proof

/-! ## Proofs: decoding what was encoded (R91 to R118) -/

/-- A field whose `m` bits are `n` bytes is read back, whatever follows. -/
theorem decodeLE_toNat (n : Nat) {m : Nat} (f : BitVec m → Instr) (hm : 2 ^ m = 256 ^ n) (x : BitVec m) (rest : List Byte) :
    decodeLE (fun v => f (BitVec.ofNat m v)) n (leBytes n x.toNat ++ rest) = .ok (f x, rest) := by
  rw [decodeLE_leBytes _ (hm ▸ x.isLt), BitVec.ofNat_toNat, BitVec.setWidth_eq]

/-- A value stored to CMD is read back as its command (R117). -/
theorem decode_command_toNat (w : Word) (rest : List Byte) :
    decode .command (leBytes 4 w.toNat ++ rest) = .ok (decodeCommand w, rest) :=
  decodeLE_toNat 4 decodeCommand (by norm_num) w rest

/-- The four bytes of MAGIC are read back (R102). -/
theorem decodeMagic_leBytes (rest : List Byte) : decodeMagic (leBytes 4 Config.magic ++ rest) = .ok (.magic, rest) := by
  rw [decodeMagic, takeLE_leBytes (by norm_num)]
  rfl

/-- A size word fits its four bytes (R110). -/
theorem sizeWord_lt (raw : Bool) (size : BitVec 31) : sizeWord raw size.toNat < 256 ^ 4 := by
  have := size.isLt
  unfold sizeWord
  split_ifs <;> omega

/-- A block header's word is read back, unless it is the ENDMARK word (R110). -/
theorem decode_block_sizeWord {raw : Bool} {size : BitVec 31} (h : raw = true ∨ size ≠ 0#31) (rest : List Byte) :
    decode .block (leBytes 4 (sizeWord raw size.toNat) ++ rest) = .ok (.blkhdr raw size, rest) := by
  rw [decode, decodeLE_leBytes _ (sizeWord_lt raw size), decodeSizeWord_sizeWord raw size h]

/-- A well-formed illegal command word is none of the nine, so it is read as itself (R118, R273). -/
theorem decodeCommand_illegal {w : Word} (h : (Instr.illegalCmd w).wellFormed = true) : decodeCommand w = .illegalCmd w :=
  (Machine.illegalCommandChangesNothing w Machine.State.reset).1 (by simpa [Instr.wellFormed, Instr.commandWords] using h)

/-- Settles O8: by the reader of each element. Of the well-formedness only a match's least length, the ENDMARK word and the nine
command words count: the decoder does not judge an offset, FLG or BD. -/
theorem decodeOfEncodeIsTheInstruction : Obligations.DecodeOfEncodeIsTheInstruction := by
  intro i rest hwf hlast
  cases i with
  | token | llext | mlext | flg | bd | hc => rfl
  | literals lit => exact decodeRun_append .literals lit rest
  | payload bytes => exact decodeRun_append .payload bytes rest
  | offset off => exact decodeLE_toNat 2 .offset (by norm_num) off rest
  | csize v => exact decodeLE_toNat 8 .csize (by norm_num) v rest
  | dictid v => exact decodeLE_toNat 4 .dictid (by norm_num) v rest
  | blksum sum => exact decodeLE_toNat 4 .blksum (by norm_num) sum rest
  | csum sum => exact decodeLE_toNat 4 .csum (by norm_num) sum rest
  | seq lit off ml =>
    obtain ⟨-, hml⟩ : off ≠ 0#16 ∧ 4 ≤ ml := by simpa [Instr.wellFormed] using hwf
    exact decodeSequence_emitSeq lit off hml rest
  | last lit mln =>
    obtain rfl := hlast ⟨lit, mln, rfl⟩
    rw [List.append_nil]
    exact decodeSequence_emitLast lit mln
  | magic => exact decodeMagic_leBytes rest
  | blkhdr raw size => exact decode_block_sizeWord (by simpa [Instr.wellFormed] using hwf) rest
  | endmark => exact decodeLE_leBytes decodeSizeWord (show 0 < 256 ^ 4 by norm_num) rest
  | maxlen => exact decode_command_toNat 0x01#32 rest
  | compressBlock => exact decode_command_toNat 0x02#32 rest
  | decompressBlock => exact decode_command_toNat 0x03#32 rest
  | openWriter => exact decode_command_toNat 0x10#32 rest
  | writeFrame => exact decode_command_toNat 0x11#32 rest
  | closeWriter => exact decode_command_toNat 0x12#32 rest
  | openReader => exact decode_command_toNat 0x20#32 rest
  | readFrame => exact decode_command_toNat 0x21#32 rest
  | closeReader => exact decode_command_toNat 0x22#32 rest
  | illegalCmd w =>
    have h := decode_command_toNat w rest
    rwa [decodeCommand_illegal hwf] at h

/-- Settles O7: each word is closed, and the decoder is run on it. -/
theorem specWordsDecode : Obligations.SpecWordsDecode :=
  ⟨rfl, rfl, rfl, rfl, rfl, rfl, rfl, rfl, rfl, rfl, rfl, rfl, rfl, rfl, rfl, rfl⟩

end Sys2Proof

namespace Sys2Proof.Machine

/-! ## Proofs: the invariant at reset (R46) -/

/-- The state right after reset keeps the invariant for any legal parameters and any number of contexts: BM and the tables are
empty, every context is Closed, and there is no run. -/
theorem resetWith_inv {p : Params} (hp : p.legal) (nw nr : Nat) : (State.resetWith p nw nr).Inv := by
  obtain ⟨-, -, -, -, -, -, -, -, -, -, -, -, -, -, -, hwriters, hreaders, -⟩ := resetLeavesTheStatedValues p nw nr
  refine ⟨hp, ⟨⟨List.Pairwise.nil, nofun⟩, nofun⟩, rfl, TableSet.empty_ok _, fun w hw => ?_, fun r hr => ?_,
    runOk_of_not_inBlock rfl⟩
  · obtain ⟨hclosed, -⟩ := hwriters w hw
    exact WriterCtx.ok_of_closed hclosed
  · exact ReaderCtx.ok_of_closed (hreaders r hr)

/-- Settles O2: the default parameters are legal, for BM is the whole address space (R6). -/
theorem invariantHoldsAtReset : Obligations.InvariantHoldsAtReset := resetWith_inv (p := Params.default) le_rfl 1 1

end Sys2Proof.Machine
